-- ==== Sys2Proof/Word.lean ====
section
/-! DEFINITION. The plain types every file shares: the client port's 32-bit word, a 64-byte burst, bank and station
numbers, sets of stations and banks as flags (chapter 11), the fifteen frame kinds and four classes (R70), and what a
slot of the command lane carries (R69, R179). -/

namespace Sys2Proof

/-- The word of the request, completion and control windows and the body of a frame (sections 11.1 to 11.3). -/
abbrev Word := BitVec 32

/-- One byte of the array. -/
abbrev Byte := BitVec 8

/-- 64 bytes moved for one READ or WRITE (section 0.6); byte `k` stands at bits `8k+7` to `8k` (section 11.2). -/
abbrev Burst := BitVec 512

/-- Half a burst, 32 bytes: what one data slot carries (R88). -/
abbrev Half := BitVec 256

/-- A row number, 0 to 16383 (section 0.3). -/
abbrev Row := BitVec 14

/-- A column position, 0 to 127 (section 0.3). -/
abbrev Column := BitVec 7

/-- A client's number for a request, 0 to 63 (R150). -/
abbrev Tag := BitVec 6

/-- A bank number, 0 to 11 (section 0.3). -/
abbrev Bank := Fin 12

/-- A station number, 0 to 5 (section 0.6). -/
abbrev Station := Fin 6

/-- A set of stations, held as six flags, one per station (chapter 11, opening). -/
abbrev StationSet := BitVec 6

/-- A set of banks, held as twelve flags, one per bank. -/
abbrev BankSet := BitVec 12

/-- Is station `x` in the set? -/
def StationSet.has (s : StationSet) (x : Station) : Bool := s.getLsbD x.val

/-- The set with station `x` in it. -/
def StationSet.add (s : StationSet) (x : Station) : StationSet := s ||| (1#6 <<< x.val)

/-- The set without station `x`. -/
def StationSet.drop (s : StationSet) (x : Station) : StationSet := s &&& ~~~(1#6 <<< x.val)

/-- Is bank `b` in the set? -/
def BankSet.has (s : BankSet) (b : Bank) : Bool := s.getLsbD b.val

/-- The set with bank `b` in it. -/
def BankSet.add (s : BankSet) (b : Bank) : BankSet := s ||| (1#12 <<< b.val)

/-- The first part of the arbitration field (R70): URGENT 0, BANK 1, ROUTINE 2, IDLE 3. -/
inductive FrameClass where
  | urgent | bank | routine | idle
  deriving DecidableEq, Repr

/-- The fifteen frame kinds (R70), in the order of their codes. -/
inductive FrameKind where
  | mark | wake | fullRefresh | bankRefresh | close | openRow | read | write
  | retain | syncRequest | rollCall | notice | withdraw | vote | presence
  deriving DecidableEq, Repr

/-- What one slot of the command lane carried, but for the kind code (R69, section 11.1): class, tie value, the
sender's station number, the 32 bits of the body and the 8 of the check, all as heard, and whether a peer drove the
veto window. -/
structure Heard where
  cls : BitVec 2
  tie : BitVec 3
  sender : BitVec 3
  body : Word
  check : BitVec 8
  peerVeto : Bool
  deriving DecidableEq, Repr

/-- The two active-low reset inputs (R184). -/
inductive ResetPin where
  | laneReset | stationReset
  deriving DecidableEq, Repr

end Sys2Proof
end

