-- ==== Sys2Proof/Syntax.lean ====
section
/-! DEFINITION. The commands: one constructor for each row of spec/opcode_table.json. -/

namespace Sys2Proof

/-- The operations and events of the data book (opcode_table.json, 95_what_each_step_holds.md).

The fifteen frames and the frame with kind code 15 carry what the lane carried in the slot (`Heard`); a WRITE carries
also the burst that the data lane will bring when another station drives it (R88). SLOT_ARBITRATION carries the
arbitration fields the other contenders drive (R71). The expiries name their bank, MEMBER_DROP its member. The
requests carry the two words of their record, a WRITE its data too (section 11.2); START carries what the two straps
read (R92); CONTROL_WORD_WRITE a word address and a value (section 11.3). -/
inductive Instr where
  | openFrame (h : Heard)
  | readFrame (h : Heard)
  | writeFrame (h : Heard) (laneData : Burst)
  | closeFrame (h : Heard)
  | bankRefreshFrame (h : Heard)
  | fullRefreshFrame (h : Heard)
  | markFrame (h : Heard)
  | retainFrame (h : Heard)
  | wakeFrame (h : Heard)
  | syncRequestFrame (h : Heard)
  | rollCallFrame (h : Heard)
  | noticeFrame (h : Heard)
  | withdrawFrame (h : Heard)
  | voteFrame (h : Heard)
  | presenceFrame (h : Heard)
  | slotArbitration (others : List (BitVec 12))
  | settleGuardExpiry (b : Bank)
  | closeGuardExpiry (b : Bank)
  | rechargeExpiry (b : Bank)
  | refreshBusyExpiry (b : Bank)
  | yieldBeforeExpiry (b : Bank)
  | yieldGraceExpiry (b : Bank)
  | grantWindowExpiry (b : Bank)
  | intervalCountdownExpiry
  | wakingGuardExpiry
  | rollCallWindowExpiry
  | memberDrop (m : Station)
  | presenceAgeReached
  | idleCloseTimerExpiry (b : Bank)
  | dataLaneReservationFree
  | lastDataSlotClose
  | completionReservation
  | readRequest (w0 w1 : Word)
  | writeRequest (w0 w1 : Word) (data : List Burst)
  | retainRequest (w0 w1 : Word)
  | resumeRequest (w0 w1 : Word)
  | cancel (w0 w1 : Word)
  | completionRead
  | detachedCompletionPosted
  | start (stationStrap peerStrap : BitVec 3)
  | profileLoad
  | statusRead
  | faultListRead
  | controlWordWrite (address : BitVec 3) (value : Word)
  | laneReset
  | stationReset
  | kindCode15Frame (h : Heard)
  | ownAgeLimitUnsynced
  | resetInputRelease (pin : ResetPin)
  deriving DecidableEq, Repr

end Sys2Proof
end

