-- ==== Sys2Proof/Config.lean ====
section
/-! DEFINITION. The constants the data book fixes (guards, limits, profile defaults and ranges), and the free values:
opaque constants with no body for what it leaves undefined. -/

namespace Sys2Proof.Config

/-- Settle guard (section 1.2). -/
def settleGuard : Nat := 2
/-- Minimum open, loaded into the close guard by an OPEN (section 1.2). -/
def minimumOpen : Nat := 6
/-- Read release (section 1.2). -/
def readRelease : Nat := 2
/-- Write release (section 1.2). -/
def writeRelease : Nat := 4
/-- Recharge (section 1.2). -/
def recharge : Nat := 3
/-- Bank refresh busy (section 1.2). -/
def bankRefreshBusy : Nat := 7
/-- Full refresh busy (section 1.2). -/
def fullRefreshBusy : Nat := 14
/-- The value at which a spacing mark stays (R4). -/
def spacing : Nat := 2
/-- The value at which the hold age stays (R1). -/
def holdAgeTop : Nat := 1024
/-- The grace after a yield point (R33). -/
def grace : Nat := 32
/-- The most entries a waiter list holds (R27). -/
def waiterMax : Nat := 5
/-- The floor of the balance (R48). -/
def balanceFloor : Int := -48
/-- The ceiling of the balance (R48). -/
def balanceCeiling : Int := 60
/-- The balance from which the level is urgent (R53). -/
def urgentLevel : Int := 48
/-- The balance from which the level is due (R53). -/
def dueLevel : Int := 12
/-- One interval's work (R48). -/
def intervalWork : Int := 12
/-- The value at which the last-MARK mark stays (R59). -/
def lastMarkTop : Nat := 511
/-- What WAKE sets wake-refresh remaining to (R65). -/
def wakeRefreshRound : Nat := 12
/-- The own consecutive-veto count's limit (R84). -/
def vetoLimit : Nat := 5
/-- The dissent count's limit (R85). -/
def dissentLimit : Nat := 4
/-- The roll-call window (R95). -/
def rollCallWindow : Nat := 2048
/-- The last-heard age at which a member is dropped (R104). -/
def dropAge : Nat := 12288
/-- The own age from which PRESENCE is offered at IDLE class (R103). -/
def presenceIdle : Nat := 2048
/-- The own age from which PRESENCE is offered at ROUTINE class (R103). -/
def presenceRoutine : Nat := 4096
/-- The own age from which PRESENCE is offered at URGENT class (R103). -/
def presenceUrgent : Nat := 8192
/-- The retention age mark a WAKE needs, and at which the mark stays (R113, R120). -/
def retentionAge : Nat := 6
/-- The WAKING guard (R120). -/
def wakingGuard : Nat := 10
/-- The slots of a READ from its acceptance to its second data slot (R18). -/
def readDataSlots : Nat := 4
/-- The slots of a WRITE from its acceptance to its second data slot (R18). -/
def writeDataSlots : Nat := 3
/-- The most entries of the request queue (R154). -/
def queueMax : Nat := 16
/-- The most completion entries and reservations together (R156). -/
def completionMax : Nat := 16
/-- The most entries of the fault list (R169). -/
def faultMax : Nat := 8

/-- The profile defaults (R93). -/
def defaultInterval : Nat := 160
def defaultHoldLimit : Nat := 64
def defaultGrantWindow : Nat := 12
def defaultIdleDelay : Nat := 8

/-- FREE VALUE: what the byte at an array address holds where nothing assures it: after power-up (epoch 0; R24: "The
array's contents are undefined after power-up"), and after each overrun of the balance (the later epochs; R49: "the
contents of the array are then no longer assured"). No body: nothing can be proved of it (log entries 8 and 20). -/
opaque unassuredByte : Nat → Nat → Byte

/-- FREE VALUE (R20: the contents of a WRITE burst cut short by a reset "are undefined", and what a station captures
where the array drives nothing): the k-th undefined burst of a run. No body (log entry 9). -/
opaque undefinedBurst : Nat → Burst

end Sys2Proof.Config
end

