-- ==== Sys2Proof/Machine/State.lean ====
section
/-! DEFINITION. The state: one FJ412 block by block (section 0.5), the array die, the pins, the slot in progress and
the queue of commands; and the state after a lane reset. -/

namespace Sys2Proof.Machine

/-- The array's condition as a whole (R21). -/
inductive ArrayState where
  | uninit | active | retaining | waking
  deriving DecidableEq, Repr

/-- By which refresh a bank is REFRESHING (R1). -/
inductive RefreshKind where
  | bank | full
  deriving DecidableEq, Repr

/-- The state of a bank with the fields present in it (R1): row, holder, hold age, settle guard, close guard and busy
countdown. -/
inductive BankState where
  | closed
  | opened (row : Row) (holder : Station) (holdAge settle closeGuard : Nat)
  | closePending (row : Row) (holder : Station) (holdAge closeGuard : Nat)
  | recharging (busy : Nat)
  | refreshing (busy : Nat) (kind : RefreshKind)
  deriving DecidableEq, Repr

/-- A yield point by its stage, with the countdown of BEFORE and GRACE (R26, R33). -/
inductive Yield where
  | before (left : Nat)
  | grace (left : Nat)
  | barred
  deriving DecidableEq, Repr

/-- A grant by its stage, with the window of RUNNING (R26, R35). -/
inductive Grant where
  | running (window : Nat)
  | paused
  | frozen
  deriving DecidableEq, Repr

/-- A bank record: the state of R1 and the three parts of R26. -/
structure BankRec where
  st : BankState
  waiters : List Station
  yield : Option Yield
  grant : Option Grant
  deriving DecidableEq, Repr

/-- The record of a bank in the reset picture (R2, R26). -/
def BankRec.reset : BankRec := ⟨.closed, [], none, none⟩

/-- The data-lane reservation while its count is above 0 (R18): the slots still to run, the direction, the owner. -/
structure Reservation where
  count : Nat
  isWrite : Bool
  owner : Station
  deriving DecidableEq, Repr

/-- The bank mirror (chapter 1). -/
structure Mirror where
  banks : Vector BankRec 12
  lastOpen : Option Nat
  lastBankRefresh : Option Nat
  reservation : Option Reservation
  array : ArrayState
  deriving DecidableEq, Repr

/-- The mirror's reset picture (R2, R4, R18, R21). -/
def Mirror.reset : Mirror := ⟨Vector.replicate 12 BankRec.reset, none, none, none, .uninit⟩

/-- The refresh account (chapter 3). -/
structure Account where
  balance : Int
  rotation : BankSet
  index : BitVec 8
  aligned : Bool
  countdown : Option Nat
  lastMark : Option Nat
  pendingMark : Bool
  wakeRefresh : Nat
  deriving DecidableEq, Repr

/-- The account's reset picture (R67). -/
def Account.reset : Account := ⟨0, 0#12, 0#8, false, none, none, false, 0⟩

/-- The lane interface's counts and turn pointer (chapter 4). -/
structure LaneUnit where
  vetoCount : Nat
  dissent : Nat
  turn : Nat
  deriving DecidableEq, Repr

/-- The counts and pointer after a reset (R73, R84, R85). -/
def LaneUnit.reset : LaneUnit := ⟨0, 0, 0⟩

/-- The station state (R90). -/
inductive StationState where
  | standby | rollCall | unsynced | synced | mismatch
  deriving DecidableEq, Repr

/-- What START sampled: the station number and N (R92). -/
structure Straps where
  number : Station
  peers : Nat
  deriving DecidableEq, Repr

/-- The profile (R93). -/
structure Profile where
  interval : Nat
  holdLimit : Nat
  grantWindow : Nat
  idleDelay : Nat
  pullAhead : Bool
  deriving DecidableEq, Repr

/-- The profile's defaults (R93). -/
def Profile.default : Profile :=
  ⟨Config.defaultInterval, Config.defaultHoldLimit, Config.defaultGrantWindow, Config.defaultIdleDelay, false⟩

/-- The membership unit (chapter 5). -/
structure Membership where
  state : StationState
  straps : Option Straps
  profile : Profile
  digest : Option (BitVec 16)
  members : StationSet
  syncPending : StationSet
  rollCall : StationSet
  ages : Vector Nat 6
  window : Option Nat
  rollCallEnded : Bool
  rollCallAccepted : Bool
  requestMade : Bool
  presence : Option FrameClass
  deriving DecidableEq, Repr

/-- The membership unit after a reset (R112). -/
def Membership.reset : Membership :=
  ⟨.standby, none, Profile.default, none, 0#6, 0#6, 0#6, Vector.replicate 6 0, none, false, false, false, none⟩

/-- The paths of a pending RESUME (R113). -/
inductive ResumePath where
  | vote | wake | resync
  deriving DecidableEq, Repr

/-- A pending RESUME (R113, R127); `stamp` is its place in the order of arrival (log entry 17). -/
structure PendingResume where
  tag : Tag
  path : ResumePath
  stamp : Nat
  deriving DecidableEq, Repr

/-- The retention unit (R113). -/
structure Retention where
  votes : StationSet
  ownVote : Bool
  ageMark : Option Nat
  wakingGuard : Option Nat
  resume : Option PendingResume
  deriving DecidableEq, Repr

/-- The retention unit after a reset (R113). -/
def Retention.reset : Retention := ⟨0#6, false, none, none, none⟩

/-- The progress of a READ or WRITE request (R130). -/
inductive Progress where
  | waiting | noticed | held | issued
  deriving DecidableEq, Repr

/-- A READ or WRITE entry of the request queue: its record (R150, R154), its progress record (R130), the bursts
captured for it (R136), and whether it is cancelled with data still moving (R159). -/
structure Access where
  tag : Tag
  isWrite : Bool
  bank : Bank
  row : Row
  column : Column
  bursts : Nat
  hint : Bool
  data : List Burst
  stamp : Nat
  progress : Progress
  accepted : Nat
  reserved : Bool
  cancelled : Bool
  captured : List Burst
  deriving DecidableEq, Repr

/-- An entry of the request queue (R154). -/
inductive Entry where
  | access (a : Access)
  | retain (tag : Tag) (stamp : Nat)
  deriving DecidableEq, Repr

/-- A record of one of this station's own accepted bursts, until its second data slot has closed (R20): the request it
belongs to, where it lies in the array, the slots still to run (1 in the picture after the close of its first data slot, 0 after
that of its second), and a READ's lower half once its first data slot has closed (R88). -/
structure OwnBurst where
  tag : Tag
  isWrite : Bool
  bank : Bank
  row : Row
  column : Column
  left : Nat
  lower : Option Half
  deriving DecidableEq, Repr

/-- The access scheduler's own state (R130, R20); the progress records stand with the entries they belong to. -/
structure Scheduler where
  idle : Vector (Option Nat) 12
  ownBursts : List OwnBurst
  deriving DecidableEq, Repr

/-- The scheduler after a reset (R130). -/
def Scheduler.reset : Scheduler := ⟨Vector.replicate 12 none, []⟩

/-- The completion statuses (R155). -/
inductive Status where
  | done | cancelled | withdrawn | refusedRange | refusedTag | refusedState | detached
  deriving DecidableEq, Repr

/-- A completion record (R155). -/
structure Completion where
  tag : Tag
  status : Status
  burstsDone : Nat
  readData : List Burst
  deriving DecidableEq, Repr

/-- The request kinds (R150). -/
inductive RequestKind where
  | read | write | retain | resume | cancel
  deriving DecidableEq, Repr

/-- A request as placed: its kind, none where the kind code names none (R152), its two words and its write data. -/
structure Request where
  kind : Option RequestKind
  w0 : Word
  w1 : Word
  data : List Burst
  deriving DecidableEq, Repr

/-- The words of the control window that hold something (section 11.3): profile words 1 and 2, the outcome (word 3),
the status words (4 to 6) and the fault entry (word 7). -/
structure Control where
  profile0 : Word
  profile1 : Word
  outcome : Word
  statusA : Word
  statusB : Word
  statusC : Word
  fault : Word
  deriving DecidableEq, Repr

/-- The control window after a reset (R182): 160, 64 and 12 in word 1, 8 and off in word 2, words 3 to 7 zero. The bits that the
layout of words 1 and 2 does not list (3-0 and 22-0) hold 0: the model's choice (log entry 34). -/
def Control.reset : Control :=
  ⟨BitVec.ofNat 10 Config.defaultInterval ++ BitVec.ofNat 11 Config.defaultHoldLimit
      ++ BitVec.ofNat 7 Config.defaultGrantWindow ++ 0#4,
    BitVec.ofNat 8 Config.defaultIdleDelay ++ 0#1 ++ 0#23, 0#32, 0#32, 0#32, 0#32, 0#32⟩

/-- The client port (chapter 8). `arrivals` numbers the requests taken, for the order of arrival (log entry 17). -/
structure Port where
  queue : List Entry
  completions : List Completion
  overflow : Bool
  heldRequest : Option Request
  arrivals : Nat
  control : Control
  deriving DecidableEq, Repr

/-- The client port after a reset (R168, R182). -/
def Port.reset : Port := ⟨[], [], false, none, 0, Control.reset⟩

/-- The eleven fault kinds (section 9.2), in the order of their codes. -/
inductive FaultKind where
  | checkVeto | ruleVeto | stampVeto | ownVetoed | leftSync | resynced
  | memberDropped | forcedClose | grantLapsed | balanceOverrun | profileMismatch
  deriving DecidableEq, Repr

/-- The reasons of LEFT_SYNC, in the order of R91. -/
inductive LeftReason where
  | vetoLimit | dissentLimit | selfDropped | laneRunning | leftOut
  deriving DecidableEq, Repr

/-- A fault entry (R170). -/
structure FaultEntry where
  kind : FaultKind
  index : BitVec 8
  station : Option (BitVec 3)
  bank : Option Bank
  frame : Option FrameKind
  reason : Option LeftReason
  deriving DecidableEq, Repr

/-- A bank of the array die: the states of R22 with what the array itself needs of them. -/
inductive ArrayBank where
  | closed
  | opened (row : Row) (closeGuard : Nat)
  | closePending (closeGuard : Nat)
  | recharging (busy : Nat)
  | refreshing (busy : Nat)
  deriving DecidableEq, Repr

/-- A burst accepted whose data slots are not yet past, as the array works it (R20, R22): where it lies, the data of a WRITE,
whether this station is the one named, the slots still to run (1 in the picture after the close of its first data slot, 0 after
that of its second), and whether a reset of the station that drives it has left all its contents undefined (R20). -/
structure ArrayBurst where
  isWrite : Bool
  bank : Bank
  row : Row
  column : Column
  own : Bool
  data : Burst
  left : Nat
  cut : Bool
  deriving DecidableEq, Repr

/-- The array's contents (section 0.3): the listed bytes, by byte address, and how often the contents have ceased to be
assured since power-up (R24, R49, log entry 20). -/
structure Memory where
  epoch : Nat
  cells : List Host.Cell
  deriving DecidableEq, Repr

/-- The contents after power-up: nothing listed (R24). -/
def Memory.powerUp : Memory := ⟨0, []⟩

/-- The array die (R22 to R24, R87, R123, R124). -/
structure ArrayDie where
  banks : Vector ArrayBank 12
  state : ArrayState
  waking : Option Nat
  inFlight : List ArrayBurst
  mem : Memory
  deriving DecidableEq, Repr

/-- The array after a lane reset, with the contents it has kept (R24, R124). -/
def ArrayDie.reset (mem : Memory) : ArrayDie := ⟨Vector.replicate 12 .closed, .uninit, none, [], mem⟩

/-- The reset inputs and the straps as last driven (R184); `true` is high. -/
structure Pins where
  lrstN : Bool
  srstN : Bool
  stationStrap : BitVec 3
  peerStrap : BitVec 3
  deriving DecidableEq, Repr

/-- The whole of one picture: the nine blocks, the array die and the pins. -/
structure Device where
  lane : LaneUnit
  mirror : Mirror
  account : Account
  member : Membership
  retention : Retention
  sched : Scheduler
  port : Port
  faults : List FaultEntry
  array : ArrayDie
  pins : Pins
  deriving DecidableEq, Repr

/-- The reset picture of a station beside a given array and given pins (R2, R67, R73, R112, R113, R130, R168, R169). -/
def Device.stationReset (array : ArrayDie) (pins : Pins) : Device :=
  ⟨LaneUnit.reset, Mirror.reset, Account.reset, Membership.reset, Retention.reset, Scheduler.reset, Port.reset, [],
    array, pins⟩

/-- The body of a well-formed frame, by kind (R70). -/
inductive Body where
  | mark (index : BitVec 8)
  | wake
  | fullRefresh (balanceAfter : Int) (members : StationSet) (first : Bool) (digest : BitVec 16)
  | bankRefresh (b : Bank) (balanceAfter : Int)
  | close (b : Bank) (forced : Bool)
  | openRow (b : Bank) (row : Row)
  | read (b : Bank) (column : Column) (closeAfter : Bool)
  | write (b : Bank) (column : Column) (closeAfter : Bool)
  | retain
  | syncRequest (digest : BitVec 16)
  | rollCall (digest : BitVec 16) (peers : BitVec 3)
  | notice (b : Bank)
  | withdraw (b : Bank)
  | vote (on : Bool)
  | presence
  deriving DecidableEq, Repr

/-- A well-formed frame (R70, R76). -/
structure Frame where
  cls : FrameClass
  tie : BitVec 3
  sender : Station
  body : Body
  deriving DecidableEq, Repr

/-- What has happened so far in the slot in progress: the arbitration (R71), whether a frame has been heard, whether
the close has begun (log entry 3), the index of a MARK applied at this close (R170), the fault entries of this close
(R174), whether a fault-list read, request, control operation, completion read or discard fell in it (R150, R153, R157,
R162, R166), and the held request placed in it (R150). -/
structure Slot where
  arbitrated : Bool
  candidate : Option Frame
  won : Bool
  laneField : Option (BitVec 12)
  frameHeard : Bool
  closing : Bool
  markIndex : Option (BitVec 8)
  entries : List FaultEntry
  faultRead : Bool
  requestPlaced : Bool
  deferred : Option Request
  controlPlaced : Bool
  completionRead : Bool
  discarded : Bool
  deriving DecidableEq, Repr

/-- A slot in which nothing has happened yet. -/
def Slot.fresh : Slot :=
  ⟨false, none, false, none, false, false, none, [], false, false, none, false, false, false⟩

/-- The state. `now` is the picture at the start of the present slot; `after` the picture after its close, so far as
its events have been taken (log entry 2). `windowOut` holds the words the last read of the completion window returned
(R157); `free` counts the free values taken (log entry 9); `pending` is the queue of commands. -/
structure State where
  now : Device
  after : Device
  slot : Slot
  windowOut : List Word
  free : Nat
  pending : List Instr
  deriving DecidableEq, Repr

/-- The pins with both reset inputs high (log entry 10). -/
def Pins.released : Pins := ⟨true, true, 0#3, 0#3⟩

/-- The machine right after the lane reset that power-up applies (R89, R184), its inputs high again: every field at the
value its chapter states, the array UNINIT with nothing listed of its undefined contents (R24). -/
def State.reset : State :=
  let d := Device.stationReset (ArrayDie.reset Memory.powerUp) Pins.released
  ⟨d, d, Slot.fresh, [], 0, []⟩

/-- The part has no stop: abnormal events are fault-list entries (chapter 9). There is no constructor; no command
raises one. -/
inductive Fault where
  deriving DecidableEq, Repr

/-- Why a command is refused. -/
inductive Refusal where
  /-- Raised by an arm of `exec` whose command has no meaning yet: none has. Safe: it stops the run. -/
  | notModelled (mnemonic : String)
  deriving DecidableEq, Repr

end Sys2Proof.Machine
end

