-- ==== Sys2Proof/Machine/Memory.lean ====
section
/-! DEFINITION. The array's contents (section 0.3, R22, R24): byte cells in canonical form, read and written in bursts
of 64 bytes. -/

namespace Sys2Proof.Machine

/-- The byte listed at an address, `other` where none is. -/
def readCells (other : Byte) : List Host.Cell → Nat → Byte
  | [], _ => other
  | (k, v) :: t, a => if k = a then v else readCells other t a

/-- The byte at an address; an unlisted one holds a value that nothing assures (R24, R49, log entries 8 and 20). -/
def Memory.readByte (m : Memory) (a : Nat) : Byte := readCells (Config.unassuredByte m.epoch a) m.cells a

/-- One cell in front of the cells above it, left out where it equals what an unlisted address reads as. -/
def consCell (epoch a : Nat) (v : Byte) (t : List Host.Cell) : List Host.Cell :=
  if v = Config.unassuredByte epoch a then t else (a, v) :: t

/-- The cells with one byte written, in canonical form. -/
def writeCells (epoch : Nat) : List Host.Cell → Nat → Byte → List Host.Cell
  | [], a, v => consCell epoch a v []
  | (k, w) :: t, a, v =>
    if a < k then consCell epoch a v ((k, w) :: t)
    else if a = k then consCell epoch a v t
    else (k, w) :: writeCells epoch t a v

/-- The contents with one byte written. -/
def Memory.writeByte (m : Memory) (a : Nat) (v : Byte) : Memory := { m with cells := writeCells m.epoch m.cells a v }

/-- Are all addresses above `a`, strictly rising, and is no cell equal to what its address reads as unlisted? -/
def cellsAbove (epoch : Nat) : Nat → List Host.Cell → Bool
  | _, [] => true
  | a, (k, v) :: t => decide (a < k) && decide (v ≠ Config.unassuredByte epoch k) && cellsAbove epoch k t

/-- The canonical form: addresses strictly rising, no cell equal to what an unlisted address reads as. -/
def Memory.wf (m : Memory) : Bool :=
  match m.cells with
  | [] => true
  | (k, v) :: t => decide (v ≠ Config.unassuredByte m.epoch k) && cellsAbove m.epoch k t

/-- The contents once nothing assures them any more: every byte a free value (R49, log entry 20). -/
def Memory.unassured (m : Memory) : Memory := ⟨m.epoch + 1, []⟩

/-- The first byte of the burst at a bank, row and column: rows of 128 bursts of 64 bytes, 16384 rows a bank
(section 0.3). -/
def burstAddress (b : Bank) (row : Row) (column : Column) : Nat :=
  ((b.val * 16384 + row.toNat) * 128 + column.toNat) * 64

/-- Byte `k` of a burst (section 11.2). -/
def burstByte (d : Burst) (k : Nat) : Byte := d.extractLsb' (8 * k) 8

/-- The `n` bytes of a burst from byte `first` on written, the burst lying at `base`. -/
def Memory.writeBytes (m : Memory) (base : Nat) (d : Burst) (first : Nat) : Nat → Memory
  | 0 => m
  | k + 1 => (Memory.writeBytes m base d first k).writeByte (base + (first + k)) (burstByte d (first + k))

/-- The contents with a burst written (R22). -/
def Memory.writeBurst (m : Memory) (base : Nat) (d : Burst) : Memory := m.writeBytes base d 0 64

/-- The first `n` bytes at `base`, byte `k` at bits `8k+7` to `8k`. -/
def Memory.readBytes (m : Memory) (base : Nat) : Nat → Burst
  | 0 => 0#512
  | k + 1 => m.readBytes base k ||| ((m.readByte (base + k)).setWidth 512 <<< (8 * k))

/-- The lower or the higher half of a burst (R88). -/
def burstHalf (higher : Bool) (d : Burst) : Half := d.extractLsb' (if higher then 256 else 0) 256

/-- The lower or the higher half of the burst at `base` (R22, R88). -/
def Memory.readHalf (m : Memory) (base : Nat) (higher : Bool) : Half :=
  (m.readBytes (base + if higher then 32 else 0) 32).setWidth 256

end Sys2Proof.Machine
end

