-- ==== Sys2Proof/Machine/Operands.lean ====
section
/-! DEFINITION. Every operand form (chapter 11): the arbitration field, the bodies and the check of a frame, with the
form tests of R76 and R180; the request and completion words (section 11.2, R181); the profile words and the digest
(section 11.3, R183). -/

namespace Sys2Proof.Machine

/-! ### Bit strings and the two checks -/

/-- The low `n` bits of a value, most significant first. -/
def bitsMsb {w : Nat} (v : BitVec w) : Nat → List Bool
  | 0 => []
  | k + 1 => v.getLsbD k :: bitsMsb v k

/-- One bit through a check register (R179, R183): a shift toward the most significant end, then the polynomial's low
terms where the bit shifted out differs from the incoming bit. -/
def crcStep {w : Nat} (poly reg : BitVec w) (bit : Bool) : BitVec w :=
  if reg.msb != bit then (reg <<< 1) ^^^ poly else reg <<< 1

/-- The register after a string of bits, started at all ones. -/
def crc {w : Nat} (poly : BitVec w) (bits : List Bool) : BitVec w :=
  bits.foldl (crcStep poly) (BitVec.allOnes w)

/-- The check of a frame: 8 bits, polynomial x^8 + x^2 + x + 1, over the 44 bits of arbitration field and body in the
order sent (R74, R179). -/
def frameCheck (field : BitVec 12) (body : Word) : BitVec 8 :=
  crc 0x07#8 (bitsMsb field 12 ++ bitsMsb body 32)

/-- The digest: 16 bits, polynomial x^16 + x^12 + x^5 + 1, over the five profile fields and N (R94, R183). -/
def profileDigest (p : Profile) (peers : Nat) : BitVec 16 :=
  crc 0x1021#16
    (bitsMsb (BitVec.ofNat 10 p.interval) 10 ++ bitsMsb (BitVec.ofNat 11 p.holdLimit) 11
      ++ bitsMsb (BitVec.ofNat 7 p.grantWindow) 7 ++ bitsMsb (BitVec.ofNat 8 p.idleDelay) 8
      ++ [p.pullAhead] ++ bitsMsb (BitVec.ofNat 3 peers) 3)

/-! ### Classes and kinds -/

/-- The class codes (R70). -/
def classCode : FrameClass → BitVec 2
  | .urgent => 0#2 | .bank => 1#2 | .routine => 2#2 | .idle => 3#2

/-- The class a code names (R70). -/
def classOf (c : BitVec 2) : FrameClass :=
  if c = 0#2 then .urgent else if c = 1#2 then .bank else if c = 2#2 then .routine else .idle

/-- The kind codes (R70). -/
def kindCode : FrameKind → BitVec 4
  | .mark => 0#4 | .wake => 1#4 | .fullRefresh => 2#4 | .bankRefresh => 3#4 | .close => 4#4 | .openRow => 5#4
  | .read => 6#4 | .write => 7#4 | .retain => 8#4 | .syncRequest => 9#4 | .rollCall => 10#4 | .notice => 11#4
  | .withdraw => 12#4 | .vote => 13#4 | .presence => 14#4

/-- The classes each kind may carry (R70). -/
def classPermitted : FrameKind → FrameClass → Bool
  | .mark, c => c == .urgent
  | .wake, c => c == .bank
  | .fullRefresh, c => c == .urgent || c == .routine
  | .bankRefresh, c => c == .urgent || c == .routine || c == .idle
  | .close, c => c == .urgent || c == .bank
  | .openRow, c => c == .bank
  | .read, c => c == .bank
  | .write, c => c == .bank
  | .retain, c => c == .routine
  | .syncRequest, c => c == .routine
  | .rollCall, c => c == .routine
  | .notice, c => c == .routine
  | .withdraw, c => c == .routine
  | .vote, c => c == .routine
  | .presence, c => c == .urgent || c == .routine || c == .idle

/-- The kind of a body. -/
def Body.kind : Body → FrameKind
  | .mark _ => .mark | .wake => .wake | .fullRefresh _ _ _ _ => .fullRefresh | .bankRefresh _ _ => .bankRefresh
  | .close _ _ => .close | .openRow _ _ => .openRow | .read _ _ _ => .read | .write _ _ _ => .write
  | .retain => .retain | .syncRequest _ => .syncRequest | .rollCall _ _ => .rollCall | .notice _ => .notice
  | .withdraw _ => .withdraw | .vote _ => .vote | .presence => .presence

/-- The bank a body names, for the kinds that name one (R70). -/
def Body.bank? : Body → Option Bank
  | .bankRefresh b _ | .close b _ | .openRow b _ | .read b _ _ | .write b _ _ | .notice b | .withdraw b => some b
  | .mark _ | .wake | .fullRefresh _ _ _ _ | .retain | .syncRequest _ | .rollCall _ _ | .vote _ | .presence => none

/-! ### Frames to bits and back -/

/-- The arbitration field: class in bits 11-10, kind code 9-6, tie value 5-3, station number 2-0 (section 11.1). -/
def arbitrationField (c : BitVec 2) (k : BitVec 4) (tie sender : BitVec 3) : BitVec 12 := c ++ k ++ tie ++ sender

/-- The body of a frame, bits that the kind does not list sent as 0 (section 11.1, R70). -/
def bodyBits : Body → Word
  | .mark index => index ++ 0#24
  | .wake | .retain | .presence => 0#32
  | .fullRefresh ba members first digest => BitVec.ofInt 7 ba ++ members ++ BitVec.ofBool first ++ 0#2 ++ digest
  | .bankRefresh b ba => BitVec.ofNat 4 b.val ++ BitVec.ofInt 7 ba ++ 0#21
  | .close b forced => BitVec.ofNat 4 b.val ++ BitVec.ofBool forced ++ 0#27
  | .openRow b row => BitVec.ofNat 4 b.val ++ row ++ 0#14
  | .read b column ca => BitVec.ofNat 4 b.val ++ column ++ BitVec.ofBool ca ++ 0#20
  | .write b column ca => BitVec.ofNat 4 b.val ++ column ++ BitVec.ofBool ca ++ 0#20
  | .syncRequest digest => 0#16 ++ digest
  | .rollCall digest peers => 0#13 ++ peers ++ digest
  | .notice b => BitVec.ofNat 4 b.val ++ 0#28
  | .withdraw b => BitVec.ofNat 4 b.val ++ 0#28
  | .vote on => BitVec.ofBool on ++ 0#31

/-- A bank field: 12 to 15 name no bank (R76, R180). -/
def bankOf (v : BitVec 4) : Option Bank := if h : v.toNat < 12 then some ⟨v.toNat, h⟩ else none

/-- A sender's station number: 6 and 7 are malformed (R76, R180). -/
def stationOf (v : BitVec 3) : Option Station := if h : v.toNat < 6 then some ⟨v.toNat, h⟩ else none

/-- A balance-after field: outside -48 to 60 it is malformed (R76, R180). -/
def balanceOf (v : BitVec 7) : Option Int :=
  if Config.balanceFloor ≤ v.toInt ∧ v.toInt ≤ Config.balanceCeiling then some v.toInt else none

/-- The bank field of the kinds that carry one: bits 31-28 (section 11.1). -/
def bankField (w : Word) : BitVec 4 := w.extractLsb' 28 4

/-- Does a kind carry a bank? -/
def kindHasBank : FrameKind → Bool
  | .bankRefresh | .close | .openRow | .read | .write | .notice | .withdraw => true
  | .mark | .wake | .fullRefresh | .retain | .syncRequest | .rollCall | .vote | .presence => false

/-- Decoding a body under the kind code's layout, with the form tests of its fields (R76, R180); none is malformed. -/
def decodeBody (k : FrameKind) (w : Word) : Option Body :=
  match k with
  | .mark => some (.mark (w.extractLsb' 24 8))
  | .wake => some .wake
  | .fullRefresh =>
    (balanceOf (w.extractLsb' 25 7)).map
      (fun ba => .fullRefresh ba (w.extractLsb' 19 6) (w.getLsbD 18) (w.extractLsb' 0 16))
  | .bankRefresh =>
    match bankOf (bankField w), balanceOf (w.extractLsb' 21 7) with
    | some b, some ba => some (.bankRefresh b ba)
    | _, _ => none
  | .close => (bankOf (bankField w)).map (fun b => .close b (w.getLsbD 27))
  | .openRow => (bankOf (bankField w)).map (fun b => .openRow b (w.extractLsb' 14 14))
  | .read => (bankOf (bankField w)).map (fun b => .read b (w.extractLsb' 21 7) (w.getLsbD 20))
  | .write => (bankOf (bankField w)).map (fun b => .write b (w.extractLsb' 21 7) (w.getLsbD 20))
  | .retain => some .retain
  | .syncRequest => some (.syncRequest (w.extractLsb' 0 16))
  | .rollCall => some (.rollCall (w.extractLsb' 0 16) (w.extractLsb' 16 3))
  | .notice => (bankOf (bankField w)).map .notice
  | .withdraw => (bankOf (bankField w)).map .withdraw
  | .vote => some (.vote (w.getLsbD 31))
  | .presence => some .presence

/-- The frame heard, or none where it is malformed: a class not permitted for the kind, a sender numbered 6 or 7, or a
field out of range (R76). -/
def decodeFrame (k : FrameKind) (h : Heard) : Option Frame :=
  if classPermitted k (classOf h.cls) then
    match stationOf h.sender, decodeBody k h.body with
    | some x, some body => some ⟨classOf h.cls, h.tie, x, body⟩
    | _, _ => none
  else none

/-- The arbitration field of a frame this station sends (R70). -/
def Frame.field (f : Frame) : BitVec 12 :=
  arbitrationField (classCode f.cls) (kindCode f.body.kind) f.tie (BitVec.ofNat 3 f.sender.val)

/-- The code of the kind heard: 15 where the frame names no kind. -/
def codeHeard : Option FrameKind → BitVec 4
  | some k => kindCode k
  | none => 15#4

/-- The arbitration field heard. -/
def fieldHeard (k : Option FrameKind) (h : Heard) : BitVec 12 := arbitrationField h.cls (codeHeard k) h.tie h.sender

/-- Does the check heard equal the check computed over the bits heard (R74)? -/
def checkOk (k : Option FrameKind) (h : Heard) : Bool := frameCheck (fieldHeard k h) h.body == h.check

/-- Did every bit of the frame read back as this station drove it (R75)? -/
def readsBack (f : Frame) (k : Option FrameKind) (h : Heard) : Bool :=
  f.field == fieldHeard k h && bodyBits f.body == h.body && frameCheck f.field (bodyBits f.body) == h.check

/-- What the lane carries when a frame is sent undisturbed and no peer vetoes it (R179). -/
def Frame.heard (f : Frame) : Heard :=
  ⟨classCode f.cls, f.tie, BitVec.ofNat 3 f.sender.val, bodyBits f.body, frameCheck f.field (bodyBits f.body), false⟩

/-! ### Request and completion words (section 11.2) -/

/-- Request word 0, bits 31-26. -/
def Request.tag (r : Request) : Tag := r.w0.extractLsb' 26 6
/-- Request word 0, bits 25-23: the kind code. -/
def requestKindField (w0 : Word) : BitVec 3 := w0.extractLsb' 23 3
/-- Request word 0, bit 22. -/
def Request.hint (r : Request) : Bool := r.w0.getLsbD 22
/-- Request word 0, bits 21-19. -/
def Request.bursts (r : Request) : Nat := (r.w0.extractLsb' 19 3).toNat
/-- Request word 0, bits 18-15. -/
def Request.bankField (r : Request) : BitVec 4 := r.w0.extractLsb' 15 4
/-- Request word 0, bits 14-7. -/
def Request.column (r : Request) : BitVec 8 := r.w0.extractLsb' 7 8
/-- Request word 1, bits 31-16. -/
def Request.row (r : Request) : BitVec 16 := r.w1.extractLsb' 16 16
/-- Request word 1, bits 15-10. -/
def Request.target (r : Request) : Tag := r.w1.extractLsb' 10 6

/-- The range tests of a READ or WRITE (R152, R181). -/
def Request.inRange (r : Request) : Bool :=
  (bankOf r.bankField).isSome && decide (r.row.toNat ≤ 16383) && decide (r.column.toNat ≤ 127)
    && decide (1 ≤ r.bursts) && decide (r.bursts ≤ 4) && decide (r.column.toNat + r.bursts ≤ 128)

/-- The status codes (section 11.2). -/
def statusCode : Status → BitVec 3
  | .done => 0#3 | .cancelled => 1#3 | .withdrawn => 2#3 | .refusedRange => 3#3 | .refusedTag => 4#3
  | .refusedState => 5#3 | .detached => 6#3

/-- The 16 data words of a burst, word k holding bytes 4k to 4k + 3 (section 11.2). -/
def burstWords (d : Burst) : List Word := (List.range 16).map (fun k => d.extractLsb' (32 * k) 32)

/-- The words a completion read returns for a record: its word and, for a READ with data, 16 words a burst (R181). Bits 18-0 of the
word, which the layout does not list, read 0: the model's choice (log entry 34). -/
def Completion.words (c : Completion) : List Word :=
  (1#1 ++ c.tag ++ statusCode c.status ++ BitVec.ofNat 3 c.burstsDone ++ 0#19 : BitVec 32)
    :: c.readData.flatMap burstWords

/-! ### Profile words (section 11.3) -/

/-- The profile the two words spell. -/
def profileOf (w0 w1 : Word) : Profile :=
  ⟨(w0.extractLsb' 22 10).toNat, (w0.extractLsb' 11 11).toNat, (w0.extractLsb' 4 7).toNat,
    (w1.extractLsb' 24 8).toNat, w1.getLsbD 23⟩

/-- The ranges of the profile fields (R93). -/
def Profile.inRange (p : Profile) : Bool :=
  decide (96 ≤ p.interval) && decide (p.interval ≤ 1023) && decide (16 ≤ p.holdLimit) && decide (p.holdLimit ≤ 1024)
    && decide (4 ≤ p.grantWindow) && decide (p.grantWindow ≤ 64) && decide (p.idleDelay ≤ 255)

end Sys2Proof.Machine
end

