-- ==== Sys2Proof/Machine/Flags.lean ====
section
/-! DEFINITION. Every flag, level and count computed from a picture: bank conditions, the balance's levels (R53), the freezing
conditions (R41), reservations, room and tags (R151, R156), alert (R167), and the status and fault words (section 11.3). -/

namespace Sys2Proof.Machine

/-- The twelve banks, lowest first. -/
def allBanks : List Bank := [0, 1, 2, 3, 4, 5, 6, 7, 8, 9, 10, 11]

/-- The six stations, lowest first. -/
def allStations : List Station := [0, 1, 2, 3, 4, 5]

/-! ### Identity and station state -/

/-- The sampled station number, if START has been taken (R92). -/
def Device.ownNumber (d : Device) : Option Station := d.member.straps.map Straps.number

/-- Is `x` this station's number? -/
def Device.isOwn (d : Device) (x : Station) : Bool := d.ownNumber == some x

/-- The sampled N, 0 where none is held (R92). -/
def Device.peers (d : Device) : Nat :=
  match d.member.straps with
  | some s => s.peers
  | none => 0

/-- Is the station SYNCED? -/
def Device.synced (d : Device) : Bool := d.member.state == .synced

/-- Are both reset inputs high? While either is low the station takes part in nothing (R184). -/
def Device.outOfReset (d : Device) : Bool := d.pins.lrstN && d.pins.srstN

/-! ### Banks -/

/-- The record of a bank. -/
def Device.bank (d : Device) (b : Bank) : BankRec := d.mirror.banks[b]

/-- The holder of a bank, present in OPEN and CLOSE_PENDING (R1, R25). -/
def BankState.holder? : BankState → Option Station
  | .opened _ h _ _ _ => some h
  | .closePending _ h _ _ => some h
  | .closed | .recharging _ | .refreshing _ _ => none

/-- Is the bank OPEN? -/
def BankState.isOpened : BankState → Bool
  | .opened _ _ _ _ _ => true
  | .closed | .closePending _ _ _ _ | .recharging _ | .refreshing _ _ => false

/-- The settle guard, present in OPEN (R1). -/
def BankState.settle? : BankState → Option Nat
  | .opened _ _ _ s _ => some s
  | .closed | .closePending _ _ _ _ | .recharging _ | .refreshing _ _ => none

/-- The close guard, present in OPEN and CLOSE_PENDING (R1). -/
def BankState.closeGuard? : BankState → Option Nat
  | .opened _ _ _ _ g => some g
  | .closePending _ _ _ g => some g
  | .closed | .recharging _ | .refreshing _ _ => none

/-- The hold age, present in OPEN and CLOSE_PENDING (R1). -/
def BankState.holdAge? : BankState → Option Nat
  | .opened _ _ a _ _ => some a
  | .closePending _ _ a _ => some a
  | .closed | .recharging _ | .refreshing _ _ => none

/-- The busy countdown of a RECHARGING bank (R1). -/
def BankState.recharge? : BankState → Option Nat
  | .recharging n => some n
  | .closed | .opened _ _ _ _ _ | .closePending _ _ _ _ | .refreshing _ _ => none

/-- The busy countdown of a REFRESHING bank (R1). -/
def BankState.refresh? : BankState → Option Nat
  | .refreshing n _ => some n
  | .closed | .opened _ _ _ _ _ | .closePending _ _ _ _ | .recharging _ => none

/-- The window of a RUNNING grant (R26). -/
def BankRec.window? (r : BankRec) : Option Nat :=
  match r.grant with
  | some (.running w) => some w
  | some .paused | some .frozen | none => none

/-- The countdown of a yield point in BEFORE (R26). -/
def BankRec.before? (r : BankRec) : Option Nat :=
  match r.yield with
  | some (.before n) => some n
  | some (.grace _) | some .barred | none => none

/-- The countdown of a yield point in GRACE (R26). -/
def BankRec.grace? (r : BankRec) : Option Nat :=
  match r.yield with
  | some (.grace n) => some n
  | some (.before _) | some .barred | none => none

/-- Are all twelve banks CLOSED? -/
def Device.allClosed (d : Device) : Bool := allBanks.all (fun b => (d.bank b).st == .closed)

/-- Is every waiter list empty? -/
def Device.noWaiters (d : Device) : Bool := allBanks.all (fun b => (d.bank b).waiters.isEmpty)

/-- A spacing mark; an absent one counts as 2 (R4). -/
def markReads (m : Option Nat) : Nat := m.getD Config.spacing

/-- Does this station hold the bank in OPEN? -/
def Device.holdsOpen (d : Device) (b : Bank) : Bool :=
  match (d.bank b).st with
  | .opened _ h _ _ _ => d.isOwn h
  | .closed | .closePending _ _ _ _ | .recharging _ | .refreshing _ _ => false

/-- Is this station in the bank's waiter list? -/
def Device.waitsFor (d : Device) (b : Bank) : Bool :=
  match d.ownNumber with
  | some x => (d.bank b).waiters.contains x
  | none => false

/-! ### The balance and the freezing conditions -/

/-- Is the balance urgent: 48 to 60 (R53)? -/
def Device.urgent (d : Device) : Bool := decide (Config.urgentLevel ≤ d.account.balance)

/-- Is the balance due: 12 to 47 (R53)? -/
def Device.due (d : Device) : Bool := decide (Config.dueLevel ≤ d.account.balance) && !d.urgent

/-- Does a condition that freezes grants hold (R41)? -/
def Device.freezing (d : Device) : Bool :=
  d.urgent || d.member.syncPending != 0#6 || d.mirror.array != .active

/-- The balance a BANK REFRESH leaves (R50, R52). -/
def bankRefreshResult (balance : Int) : Int :=
  if Config.balanceFloor < balance then balance - 1 else Config.balanceFloor

/-- The balance a FULL REFRESH leaves, by its first flag (R51, R52). -/
def fullRefreshResult (balance : Int) (first : Bool) : Int :=
  if first then balance
  else if Config.balanceFloor ≤ balance - Config.intervalWork then balance - Config.intervalWork
  else Config.balanceFloor

/-- The balance a MARK leaves, by the array state (R49). -/
def markResult (balance : Int) (array : ArrayState) : Int :=
  if array = .retaining then balance
  else if balance ≤ Config.urgentLevel then balance + Config.intervalWork
  else Config.balanceCeiling

/-- The rotation set a BANK REFRESH leaves: the bank added, or the set emptied where that bank completes it (R54). -/
def rotationAfter (set : BankSet) (b : Bank) : BankSet := if set.add b = BitVec.allOnes 12 then 0#12 else set.add b

/-- The union a FULL REFRESH names at this station (R108, R109). -/
def Device.union (d : Device) : StationSet := d.member.members ||| d.member.syncPending

/-- The stations numbered below N (R99, R111). -/
def stationsBelow (peers : Nat) : StationSet := BitVec.ofNat 6 (2 ^ peers - 1)

/-! ### The request queue -/

/-- The oldest request of a bank that is not ISSUED: its head request (R131). -/
def headOf : List Entry → Bank → Option Access
  | [], _ => none
  | .access a :: t, b => if a.bank = b ∧ a.progress ≠ .issued then some a else headOf t b
  | .retain _ _ :: t, b => headOf t b

/-- Is a READ or WRITE request of the bank queued behind its head (R137)? -/
def furtherQueued : List Entry → Bank → Bool
  | [], _ => false
  | .access a :: t, b =>
    if a.bank = b ∧ a.progress ≠ .issued then
      t.any (fun e => match e with | .access a' => a'.bank == b | .retain _ _ => false)
    else furtherQueued t b
  | .retain _ _ :: t, b => furtherQueued t b

/-- The READ and WRITE entries, oldest first. -/
def accesses (q : List Entry) : List Access :=
  q.filterMap (fun e => match e with | .access a => some a | .retain _ _ => none)

/-- The queued RETAIN request, if any (R125). -/
def retainEntry : List Entry → Option Tag
  | [] => none
  | .retain t _ :: _ => some t
  | .access _ :: rest => retainEntry rest

/-- Does the request queue hold a READ or WRITE request, in any progress state (R149)? -/
def Device.queueHolds (d : Device) : Bool := !(accesses d.port.queue).isEmpty

/-- The entry's tag. -/
def Entry.tag : Entry → Tag
  | .access a => a.tag
  | .retain t _ => t

/-- Does the entry hold a completion reservation (R156)? -/
def Entry.reserved : Entry → Bool
  | .access a => a.reserved
  | .retain _ _ => true

/-- The reservations held: by entries that hold one and by a pending RESUME (R156). -/
def Device.reservations (d : Device) : Nat :=
  (d.port.queue.filter Entry.reserved).length + (if d.retention.resume.isSome then 1 else 0)

/-- Entries plus reservations (R156). -/
def Device.roomTaken (d : Device) : Nat := d.port.completions.length + d.reservations

/-- Does completion room exist (R156)? -/
def Device.hasRoom (d : Device) : Bool := decide (d.roomTaken < Config.completionMax)

/-- Is a detached request waiting for room (R161)? -/
def Device.detachedWaits (d : Device) : Bool := d.member.state == .mismatch && !d.port.queue.isEmpty

/-- Does room exist for a refusal: beyond the unit that a waiting detached request takes first (R161)? -/
def Device.refusalRoom (d : Device) : Bool :=
  decide (d.roomTaken + (if d.detachedWaits then 1 else 0) < Config.completionMax)

/-- Is the tag outstanding (R151)? -/
def Device.outstanding (d : Device) (t : Tag) : Bool :=
  d.port.queue.any (fun e => e.tag == t)
    || (match d.retention.resume with | some r => r.tag == t | none => false)

/-- The alert output (R167). -/
def Device.alert (d : Device) : Bool := !d.port.completions.isEmpty || !d.faults.isEmpty

/-! ### Status and fault words (section 11.3) -/

/-- The station state codes. -/
def stationStateCode : StationState → BitVec 3
  | .standby => 0#3 | .rollCall => 1#3 | .unsynced => 2#3 | .synced => 3#3 | .mismatch => 4#3

/-- The array state codes. -/
def arrayStateCode : ArrayState → BitVec 2
  | .uninit => 0#2 | .active => 1#2 | .retaining => 2#2 | .waking => 3#2

/-- Status word A (R175): station number 7 and peer count 0 for none. -/
def Device.statusA (d : Device) : Word :=
  stationStateCode d.member.state ++ BitVec.ofBool d.account.aligned
    ++ (match d.member.straps with | some s => BitVec.ofNat 3 s.number.val | none => 7#3)
    ++ BitVec.ofNat 3 d.peers ++ arrayStateCode d.mirror.array ++ BitVec.ofInt 7 d.account.balance
    ++ d.account.index ++ BitVec.ofNat 4 d.account.wakeRefresh ++ BitVec.ofBool d.port.overflow

/-- Status word B (R175): the membership, sync-pending and vote sets. Its unlisted bits (31-30, 23-22, 15-14, 7-0) read 0: the
model's choice (log entry 34). -/
def Device.statusB (d : Device) : Word :=
  0#2 ++ d.member.members ++ 0#2 ++ d.member.syncPending ++ 0#2 ++ d.retention.votes ++ 0#8

/-- Status word C (R175): request-queue entries, completion entries, reservations, fault-list entries. Its unlisted bits (31-29,
23-21, 15-13, 7-4) read 0: the model's choice (log entry 34). -/
def Device.statusC (d : Device) : Word :=
  0#3 ++ BitVec.ofNat 5 d.port.queue.length ++ 0#3 ++ BitVec.ofNat 5 d.port.completions.length
    ++ 0#3 ++ BitVec.ofNat 5 d.reservations ++ 0#4 ++ BitVec.ofNat 4 d.faults.length

/-- The fault kind codes. -/
def faultKindCode : FaultKind → BitVec 4
  | .checkVeto => 1#4 | .ruleVeto => 2#4 | .stampVeto => 3#4 | .ownVetoed => 4#4 | .leftSync => 5#4
  | .resynced => 6#4 | .memberDropped => 7#4 | .forcedClose => 8#4 | .grantLapsed => 9#4
  | .balanceOverrun => 10#4 | .profileMismatch => 11#4

/-- The reason codes. -/
def reasonCode : LeftReason → BitVec 3
  | .vetoLimit => 1#3 | .dissentLimit => 2#3 | .selfDropped => 3#3 | .laneRunning => 4#3 | .leftOut => 5#3

/-- A fault entry as a word (section 11.3); a field whose present bit is 0 reads as 0. Bits 5-3, which the layout does not list,
read 0: the model's choice (log entry 34). -/
def FaultEntry.word (e : FaultEntry) : Word :=
  faultKindCode e.kind ++ e.index ++ BitVec.ofBool e.station.isSome ++ e.station.getD 0#3
    ++ BitVec.ofBool e.bank.isSome ++ (match e.bank with | some b => BitVec.ofNat 4 b.val | none => 0#4)
    ++ BitVec.ofBool e.frame.isSome ++ (match e.frame with | some k => kindCode k | none => 0#4)
    ++ 0#3 ++ (match e.reason with | some r => reasonCode r | none => 0#3)

end Sys2Proof.Machine
end

