-- ==== Sys2Proof/Machine/Verdict.lean ====
section
/-! DEFINITION. The verdict of a synced station on a well-formed frame (R5, R77): what each block judges, from the picture at the
start of the slot, and the array's own vetoes (R23). -/

namespace Sys2Proof.Machine

/-- The reasons of a verdict, in the order in which the first found is entered (R77). -/
inductive VetoReason where
  | check | malformed | rule | stamp
  deriving DecidableEq, Repr

/-- Does the data-lane reservation admit a burst carried now (R19)? With a count of c the last reserved slot is c - 1
slots from now; a READ's first data slot is 3 from now, a WRITE's 2. -/
def reservationAdmits (r : Option Reservation) (isWrite : Bool) : Bool :=
  match r with
  | none => true
  | some r =>
    let first := if isWrite then 2 else 3
    if r.isWrite == isWrite then decide (r.count - 1 < first) else decide (r.count - 1 + 2 ≤ first)

/-- READ and WRITE as the bank mirror judges them (R8). -/
def burstLegal (d : Device) (x : Station) (b : Bank) (isWrite : Bool) : Bool :=
  match (d.bank b).st with
  | .opened _ h _ settle _ => h == x && settle == 0 && reservationAdmits d.mirror.reservation isWrite
  | .closed | .closePending _ _ _ _ | .recharging _ | .refreshing _ _ => false

/-- CLOSE as the bank mirror judges it (R11). -/
def closeLegal (d : Device) (x : Station) (b : Bank) (forced : Bool) : Bool :=
  match (d.bank b).st with
  | .opened _ h _ _ g => g == 0 && (if forced then h != x else h == x)
  | .closed | .closePending _ _ _ _ | .recharging _ | .refreshing _ _ => false

/-- What the bank mirror judges (chapter 1). -/
def bankMirrorLegal (d : Device) (x : Station) : Body → Bool
  | .openRow b _ =>
    (d.bank b).st == .closed && d.mirror.array == .active && markReads d.mirror.lastOpen == Config.spacing
  | .read b _ _ => burstLegal d x b false
  | .write b _ _ => burstLegal d x b true
  | .close b forced => closeLegal d x b forced
  | .bankRefresh b _ =>
    (d.bank b).st == .closed && d.mirror.array == .active && markReads d.mirror.lastBankRefresh == Config.spacing
  | .fullRefresh _ _ _ _ => d.allClosed && (d.mirror.array == .active || d.mirror.array == .uninit)
  | .mark _ | .wake | .retain | .syncRequest _ | .rollCall _ _ | .notice _ | .withdraw _ | .vote _ | .presence => true

/-- Case (a) of a forced close: the holder is not a member (R42). -/
def forcedCaseA (d : Device) (b : Bank) : Bool :=
  match (d.bank b).st.holder? with
  | some h => !d.member.members.has h
  | none => false

/-- Case (b): the holder is in the sync-pending set (R42). -/
def forcedCaseB (d : Device) (b : Bank) : Bool :=
  match (d.bank b).st.holder? with
  | some h => d.member.syncPending.has h
  | none => false

/-- Case (c): the sender is the head of the waiter list and the yield point is BARRED (R42). -/
def forcedCaseC (d : Device) (b : Bank) (x : Station) : Bool :=
  (d.bank b).waiters.head? == some x && (d.bank b).yield == some .barred

/-- Case (d): the balance is 48 or more and the hold age is the hold limit or more (R42). -/
def forcedCaseD (d : Device) (b : Bank) : Bool :=
  match (d.bank b).st.holdAge? with
  | some age => d.urgent && decide (d.member.profile.holdLimit ≤ age)
  | none => false

/-- Does at least one case of R42 hold? -/
def forcedCase (d : Device) (b : Bank) (x : Station) : Bool :=
  forcedCaseA d b || forcedCaseB d b || forcedCaseC d b x || forcedCaseD d b

/-- What the waiter lists judge (section 2.7). -/
def waiterListsLegal (d : Device) (x : Station) : Body → Bool
  | .openRow b _ =>
    ((d.bank b).waiters.isEmpty && (d.bank b).grant.isNone)
      || ((d.bank b).grant.isSome && (d.bank b).waiters.head? == some x)
  | .read b _ _ => (d.bank b).yield != some .barred
  | .write b _ _ => (d.bank b).yield != some .barred
  | .close b forced => !forced || forcedCase d b x
  | .notice b =>
    d.mirror.array != .retaining && (d.bank b).st.holder? != some x && !(d.bank b).waiters.contains x
      && decide ((d.bank b).waiters.length < Config.waiterMax)
  | .withdraw b => (d.bank b).waiters.contains x
  | .retain => d.noWaiters
  | .mark _ | .wake | .fullRefresh _ _ _ _ | .bankRefresh _ _ | .syncRequest _ | .rollCall _ _ | .vote _ | .presence => true

/-- What the refresh account judges for reason rule (section 3.8). -/
def accountLegal (d : Device) : Body → Bool
  | .openRow _ _ => !d.urgent
  | .bankRefresh b _ => !d.account.rotation.has b
  | .retain => !d.urgent && d.account.wakeRefresh == 0
  | .mark _ | .wake | .fullRefresh _ _ _ _ | .close _ _ | .read _ _ _ | .write _ _ _ | .syncRequest _ | .rollCall _ _
  | .notice _ | .withdraw _ | .vote _ | .presence => true

/-- What the refresh account judges for reason stamp (R52, R60). -/
def accountStampOk (d : Device) : Body → Bool
  | .mark index =>
    !d.account.aligned
      || (index == d.account.index + 1#8
        && (match d.account.lastMark with | none => true | some m => decide (d.member.profile.interval / 2 ≤ m)))
  | .bankRefresh _ ba => ba == bankRefreshResult d.account.balance
  | .fullRefresh ba _ first _ => ba == fullRefreshResult d.account.balance first
  | .wake | .close _ _ | .openRow _ _ | .read _ _ _ | .write _ _ _ | .retain | .syncRequest _ | .rollCall _ _
  | .notice _ | .withdraw _ | .vote _ | .presence => true

/-- May a frame of this kind come from any sender (R101)? -/
def anySender : Body → Bool
  | .syncRequest _ | .rollCall _ _ | .presence => true
  | .mark _ | .wake | .fullRefresh _ _ _ _ | .bankRefresh _ _ | .close _ _ | .openRow _ _ | .read _ _ _ | .write _ _ _
  | .retain | .notice _ | .withdraw _ | .vote _ => false

/-- What the membership unit judges for reason rule (section 5.7; case (a) and (b) closes stand in `forcedCase`). -/
def membershipLegal (d : Device) (x : Station) (body : Body) : Bool :=
  (anySender body || d.member.members.has x)
    && (match body with
        | .openRow _ _ | .notice _ | .retain => d.member.syncPending == 0#6
        | .fullRefresh _ _ first digest => !first && d.member.digest == some digest
        | .mark _ | .wake | .bankRefresh _ _ | .close _ _ | .read _ _ _ | .write _ _ _ | .syncRequest _ | .rollCall _ _
        | .withdraw _ | .vote _ | .presence => true)

/-- What the membership unit judges for reason stamp (R109). -/
def membershipStampOk (d : Device) : Body → Bool
  | .fullRefresh _ members _ _ => members == d.union
  | .mark _ | .wake | .bankRefresh _ _ | .close _ _ | .openRow _ _ | .read _ _ _ | .write _ _ _ | .retain
  | .syncRequest _ | .rollCall _ _ | .notice _ | .withdraw _ | .vote _ | .presence => true

/-- What the retention unit judges (section 6.8). -/
def retentionLegal (d : Device) (x : Station) : Body → Bool
  | .vote on => if on then !d.retention.votes.has x else d.retention.votes.has x
  | .retain => d.retention.votes == d.member.members && d.allClosed && d.mirror.array == .active
  | .wake => d.mirror.array == .retaining && d.retention.ageMark == some Config.retentionAge
  | .mark _ | .fullRefresh _ _ _ _ | .bankRefresh _ _ | .close _ _ | .openRow _ _ | .read _ _ _ | .write _ _ _
  | .syncRequest _ | .rollCall _ _ | .notice _ | .withdraw _ | .presence => true

/-- Does every block find the frame legal for reason rule? -/
def ruleLegal (d : Device) (x : Station) (body : Body) : Bool :=
  bankMirrorLegal d x body && waiterListsLegal d x body && accountLegal d body && membershipLegal d x body
    && retentionLegal d x body

/-- The verdict of a synced station on a well-formed frame: the first reason found, rule before stamp (R77). -/
def judge (d : Device) (f : Frame) : Option VetoReason :=
  if !ruleLegal d f.sender f.body then some .rule
  else if !(accountStampOk d f.body && membershipStampOk d f.body) then some .stamp
  else none

/-- Does the mirror find the frame legal? -/
def legal (d : Device) (f : Frame) : Bool := (judge d f).isNone

/-- Does the array drive the veto window of a well-formed frame (R23)? -/
def arrayVetoes (a : ArrayDie) : Body → Bool
  | .openRow b _ => a.state != .active || a.banks[b] != .closed
  | .read b _ _ => a.state != .active || !(match a.banks[b] with | .opened _ _ => true | _ => false)
  | .write b _ _ => a.state != .active || !(match a.banks[b] with | .opened _ _ => true | _ => false)
  | .close _ _ => a.state != .active
  | .bankRefresh _ _ => a.state != .active
  | .fullRefresh _ _ _ _ => a.state == .retaining || a.state == .waking
  | .mark _ | .wake | .retain | .syncRequest _ | .rollCall _ _ | .notice _ | .withdraw _ | .vote _ | .presence => false

/-- What the station's state lets it veto, and the first reason it finds (R74 to R77, R83). `readBackBad`: the station
sent the frame and a bit read back differently (R75). -/
def stationVerdict (d : Device) (k : Option FrameKind) (h : Heard) (readBackBad : Bool) : Option VetoReason :=
  match d.member.state with
  | .standby | .mismatch => none
  | .rollCall | .unsynced =>
    if !checkOk k h || readBackBad then some .check
    else match k.bind (fun k => decodeFrame k h) with
      | none => some .malformed
      | some _ => none
  | .synced =>
    if !checkOk k h || readBackBad then some .check
    else match k.bind (fun k => decodeFrame k h) with
      | none => some .malformed
      | some f => judge d f

end Sys2Proof.Machine
end

