-- ==== Sys2Proof/Machine/Ops.lean ====
section
/-! DEFINITION. The named operations every meaning is made of: updates of the picture after the close, fault entries
(R174), completions (R155, R156), waiter lists and grants (R34 to R41), retention bookkeeping (R125 to R127), leaving
and entering SYNCED (R91, R99, R111), and the counting of a slot (R3, R4). -/

namespace Sys2Proof.Machine

/-- A vector with a function applied to each entry. -/
def mapVec {α β : Type} {n : Nat} (f : α → β) (v : Vector α n) : Vector β n :=
  ⟨(v.toList.map f).toArray, by simp⟩

/-! ### The picture after the close -/

/-- The state with the picture after the close changed. -/
def State.upd (f : Device → Device) (s : State) : State := { s with after := f s.after }

/-- The slot marked as closing: no frame of this slot follows any more (log entry 3). -/
def State.close (s : State) : State := { s with slot := { s.slot with closing := true } }

/-- A bank record set. -/
def Device.setBank (b : Bank) (r : BankRec) (d : Device) : Device :=
  { d with mirror := { d.mirror with banks := d.mirror.banks.set b r } }

/-- Every bank record changed. -/
def Device.mapBanks (f : BankRec → BankRec) (d : Device) : Device :=
  { d with mirror := { d.mirror with banks := mapVec f d.mirror.banks } }

/-! ### The fault list (chapter 9) -/

/-- The place of a kind among the entries of one close (R174). -/
def FaultKind.rank : FaultKind → Nat
  | .checkVeto => 0 | .ruleVeto => 1 | .stampVeto => 2 | .ownVetoed => 3 | .forcedClose => 4 | .grantLapsed => 5
  | .balanceOverrun => 6 | .memberDropped => 7 | .profileMismatch => 8 | .resynced => 9 | .leftSync => 10

/-- Among entries of one kind: the bank, or where they name none the station (R174). -/
def FaultEntry.subRank (e : FaultEntry) : Nat :=
  match e.bank, e.station with
  | some b, _ => b.val
  | none, some x => x.toNat
  | none, none => 0

/-- Does `e` stand before `f` in the order of one close (R174)? -/
def FaultEntry.before (e f : FaultEntry) : Bool :=
  decide (e.kind.rank < f.kind.rank) || (e.kind.rank == f.kind.rank && decide (e.subRank < f.subRank))

/-- An entry put in its place among the entries of one close. -/
def insertEntry (e : FaultEntry) : List FaultEntry → List FaultEntry
  | [] => [e]
  | f :: t => if e.before f then e :: f :: t else f :: insertEntry e t

/-- The list after entries join a list of at most 8, each displacing the oldest of a full list (R174). -/
def joinFaults (list entries : List FaultEntry) : List FaultEntry :=
  (list ++ entries).drop ((list ++ entries).length - Config.faultMax)

/-- The fault list after the close, from the list at the slot's start less the entry read in it, and this close's
entries in their order. -/
def State.settleFaults (s : State) : State :=
  s.upd (fun d => { d with faults := joinFaults (if s.slot.faultRead then s.now.faults.drop 1 else s.now.faults) s.slot.entries })

/-- The interval index of an entry made at this close (R170). -/
def State.entryIndex (s : State) : BitVec 8 := s.slot.markIndex.getD s.now.account.index

/-- An entry made at this close. -/
def State.addFault (e : FaultEntry) (s : State) : State :=
  State.settleFaults { s with slot := { s.slot with entries := insertEntry e s.slot.entries } }

/-- An entry with no station, bank, frame kind or reason yet. -/
def State.entry (s : State) (k : FaultKind) : FaultEntry := ⟨k, s.entryIndex, none, none, none, none⟩

/-- The GRANT_LAPSED and MEMBER_DROPPED entries of this close taken back: the station that leaves SYNCED at this close
makes none (R38, R172, log entry 18). -/
def State.retractDrops (s : State) : State :=
  State.settleFaults { s with slot := { s.slot with
    entries := s.slot.entries.filter (fun e => e.kind != .grantLapsed && e.kind != .memberDropped) } }

/-! ### Completions (section 8.4) -/

/-- A completion record at the tail of the queue. -/
def Device.post (c : Completion) (d : Device) : Device :=
  { d with port := { d.port with completions := d.port.completions ++ [c] } }

/-- A request queue set. -/
def Device.setQueue (q : List Entry) (d : Device) : Device := { d with port := { d.port with queue := q } }

/-- The queue with a function applied to each READ and WRITE entry. -/
def mapAccess (f : Access → Access) (q : List Entry) : List Entry :=
  q.map (fun e => match e with | .access a => .access (f a) | .retain t n => .retain t n)

/-- The queue with a function applied to the head request of a bank (R131). -/
def mapHead (f : Access → Access) : List Entry → Bank → List Entry
  | [], _ => []
  | .access a :: t, b =>
    if a.bank = b ∧ a.progress ≠ .issued then .access (f a) :: t else .access a :: mapHead f t b
  | .retain g n :: t, b => .retain g n :: mapHead f t b

/-- The picture with a function applied to the head request of a bank. -/
def Device.updHead (b : Bank) (f : Access → Access) (d : Device) : Device := d.setQueue (mapHead f d.port.queue b)

/-- The queue without the entry of a tag. -/
def dropTag (t : Tag) (q : List Entry) : List Entry := q.filter (fun e => e.tag != t)

/-- The completion record of a READ or WRITE: its bursts accepted and, for a READ, the bursts captured (R155). -/
def Access.completion (a : Access) (st : Status) : Completion :=
  ⟨a.tag, st, a.accepted, if a.isWrite then [] else a.captured⟩

/-- A completion with no bursts done (R155). -/
def plainCompletion (t : Tag) (st : Status) : Completion := ⟨t, st, 0, []⟩

/-- A READ or WRITE request completed: posted, and out of the queue. -/
def Device.completeAccess (a : Access) (st : Status) (d : Device) : Device :=
  (d.setQueue (dropTag a.tag d.port.queue)).post (a.completion st)

/-- The queued RETAIN request completed, the own vote clear (R125). -/
def Device.completeRetain (st : Status) (d : Device) : Device :=
  match retainEntry d.port.queue with
  | none => { d with retention := { d.retention with ownVote := false } }
  | some t =>
    let d := (d.setQueue (dropTag t d.port.queue)).post (plainCompletion t st)
    { d with retention := { d.retention with ownVote := false } }

/-- The pending RESUME completed (R127). -/
def Device.completeResume (st : Status) (d : Device) : Device :=
  match d.retention.resume with
  | none => d
  | some r => ({ d with retention := { d.retention with resume := none } } : Device).post (plainCompletion r.tag st)

/-- A pending RESUME on the given path completed DONE (R127). -/
def Device.resumeDone (p : ResumePath) (d : Device) : Device :=
  match d.retention.resume with
  | some r => if r.path = p then d.completeResume .done else d
  | none => d

/-- A pending RESUME moved to another path (R127). -/
def Device.resumeTo (p : ResumePath) (d : Device) : Device :=
  { d with retention := { d.retention with resume := d.retention.resume.map (fun r => { r with path := p }) } }

/-- Is this station's number in the vote set? -/
def Device.ownVoted (d : Device) : Bool :=
  match d.ownNumber with
  | some x => d.retention.votes.has x
  | none => false

/-- A RESUME on the vote path completes DONE at the close at which the own number is out of the vote set (R127). -/
def Device.resumeOnVoteLeft (d : Device) : Device := if d.ownVoted then d else d.resumeDone .vote

/-! ### Waiter lists and grants (chapter 2) -/

/-- A RUNNING grant with a full window, or FROZEN while a freezing condition holds after this close (R36, R41). -/
def Device.freshGrant (d : Device) : Grant :=
  if d.freezing then .frozen else .running d.member.profile.grantWindow

/-- A grant that passes to the next head: RUNNING with a full window, PAUSED and FROZEN as they stand (R39). -/
def passGrant (window : Nat) : Option Grant → Option Grant
  | some (.running _) => some (.running window)
  | some .paused => some .paused
  | some .frozen => some .frozen
  | none => none

/-- A station out of a waiter list by WITHDRAW, lapse or drop: the grant passes on or ends (R39), and an emptied list
takes its yield point with it (R34). -/
def BankRec.leave (window : Nat) (x : Station) (r : BankRec) : BankRec :=
  if r.waiters.contains x then
    if (r.waiters.erase x).isEmpty then { r with waiters := [], yield := none, grant := none }
    else { r with waiters := r.waiters.erase x,
                  grant := if r.waiters.head? = some x then passGrant window r.grant else r.grant }
  else r

/-- A bank become CLOSED at an expiry: a grant starts for the head of a non-empty list, and a PAUSED grant is taken up
again (R12, R17, R36, R40). -/
def Device.becomeClosed (b : Bank) (d : Device) : Device :=
  let r := d.bank b
  d.setBank b { r with st := .closed, grant := if r.waiters.isEmpty then none else some d.freshGrant }

/-- Is the window of the bank's RUNNING grant due to expire at this close, untouched so far? -/
def State.grantDue (b : Bank) (s : State) : Bool :=
  (s.now.bank b).window? == some 1 && (s.after.bank b).window? == some 1

/-- A station taken out of a bank's list by a lapse (R38, R39). -/
def State.leaveList (b : Bank) (x : Station) (s : State) : State :=
  s.upd (fun d => d.setBank b ((d.bank b).leave d.member.profile.grantWindow x))

/-- What a lapse does at the lapsed station: a GRANT_LAPSED entry, and its NOTICED request is WAITING again (R38,
R134). -/
def State.lapsedAt (b : Bank) (x : Station) (s : State) : State :=
  if s.after.isOwn x then
    State.addFault { s.entry .grantLapsed with bank := some b }
      (s.upd (fun d => d.updHead b (fun a => { a with progress := .waiting })))
  else s

/-- A lapse (R38): the head leaves the list and the grant passes on. -/
def State.lapse (b : Bank) (s : State) : State :=
  match (s.after.bank b).waiters with
  | [] => s.upd (fun d => d.setBank b { d.bank b with grant := none })
  | x :: _ => State.lapsedAt b x (s.leaveList b x)

/-- A lapse where the window is due at this close, before what else happens to the grant at it (R38). -/
def State.lapseIfDue (b : Bank) (s : State) : State := if s.grantDue b then s.lapse b else s

/-- A bank's grant, if any, FROZEN (R41). -/
def State.freeze (b : Bank) (s : State) : State :=
  s.upd (fun d => d.setBank b { d.bank b with grant := (d.bank b).grant.map (fun _ => .frozen) })

/-- A grant brought into line with the freezing conditions as they stand after this close (R41); a RUNNING grant
whose window is due lapses first (R38). -/
def State.regrantBank (s : State) (b : Bank) : State :=
  match (s.after.bank b).grant with
  | some (.running _) => if s.after.freezing then (s.lapseIfDue b).freeze b else s
  | some .frozen =>
    if s.after.freezing then s
    else s.upd (fun d => d.setBank b { d.bank b with grant := some (.running d.member.profile.grantWindow) })
  | some .paused => s
  | none => s

/-- Every grant brought into line with the freezing conditions (R41). -/
def State.regrant (s : State) : State := allBanks.foldl State.regrantBank s

/-! ### Leaving and entering SYNCED (chapter 5) -/

/-- The request queue of a station that is not synced: every request not ISSUED is WAITING (R147). -/
def unsyncedQueue (q : List Entry) : List Entry :=
  mapAccess (fun a => if a.progress = .issued then a else { a with progress := .waiting }) q

/-- Entry into UNSYNCED (R86, R91): the mirror and the account in the reset picture, the sets empty, the ages 0, the
counts and the pointer 0, the vote set empty, a pending RESUME on the resync path (R127), the idle-close timers stopped
and the requests WAITING (R147). -/
def Device.toUnsynced (requestMade : Bool) (d : Device) : Device :=
  { d with
    lane := LaneUnit.reset
    mirror := Mirror.reset
    account := Account.reset
    member := { d.member with
      state := .unsynced, members := 0#6, syncPending := 0#6, rollCall := 0#6, ages := Vector.replicate 6 0, window := none,
      rollCallEnded := false, rollCallAccepted := false, requestMade := requestMade, presence := none }
    retention := { d.retention with
      votes := 0#6, ageMark := none, wakingGuard := none,
      resume := d.retention.resume.map (fun r => { r with path := .resync }) }
    sched := { d.sched with idle := Vector.replicate 12 none }
    port := { d.port with queue := unsyncedQueue d.port.queue } }

/-- The station enters UNSYNCED with one LEFT_SYNC entry (R91). -/
def State.enterUnsynced (reason : LeftReason) (requestMade : Bool) (s : State) : State :=
  let s := s.retractDrops
  State.addFault { s.entry .leftSync with reason := some reason } (s.upd (Device.toUnsynced requestMade))

/-- A record after a FULL REFRESH (R16, R47). -/
def BankRec.fullRefreshed : BankRec := ⟨.refreshing Config.fullRefreshBusy .full, [], none, none⟩

/-- A station made synced by an accepted FULL REFRESH: the reset picture with the frame applied (R16), the account by
R67, the membership without stations numbered N or more (R99, R111), the ages 0, a RESUME on the resync path DONE. -/
def Device.toSynced (members : StationSet) (first : Bool) (balanceAfter : Int) (d : Device) : Device :=
  let d : Device := { d with
    lane := { d.lane with dissent := 0, turn := 0 }
    mirror := { Mirror.reset with banks := Vector.replicate 12 BankRec.fullRefreshed, array := .active }
    account := { Account.reset with
      balance := if first then 0 else balanceAfter
      aligned := first
      countdown := some d.member.profile.interval
      lastMark := if first then some 0 else none }
    member := { d.member with
      state := .synced, members := members &&& stationsBelow d.peers, syncPending := 0#6, rollCall := 0#6,
      ages := Vector.replicate 6 0, window := none, rollCallEnded := false, rollCallAccepted := false, presence := none }
    retention := { d.retention with votes := 0#6, ageMark := none, wakingGuard := none } }
  d.resumeDone .resync

/-- The completions that entry into MISMATCH posts at once: of the outstanding requests that hold a reservation, in
order of arrival (R161). -/
def detachedNow (q : List Entry) (resume : Option PendingResume) : List Completion :=
  let one (e : Entry) : Nat × Completion :=
    match e with
    | .access a => (a.stamp, a.completion .detached)
    | .retain t n => (n, plainCompletion t .detached)
  let es := (q.filter Entry.reserved).map one
  match resume with
  | none => es.map Prod.snd
  | some r =>
    (es.filter (fun c => decide (c.1 < r.stamp))).map Prod.snd ++ [plainCompletion r.tag .detached]
      ++ (es.filter (fun c => !decide (c.1 < r.stamp))).map Prod.snd

/-- Entry into MISMATCH (R111, R161): the sets empty, the ages 0, the window stopped, every request DETACHED; those
with no reservation wait in the queue for room; the own vote clear. That the request-made flag is cleared and the counts and
the pointer are 0 is the model's reading (log entry 23). -/
def Device.toMismatch (d : Device) : Device :=
  { d with
    lane := LaneUnit.reset
    member := { d.member with
      state := .mismatch, members := 0#6, syncPending := 0#6, rollCall := 0#6, ages := Vector.replicate 6 0, window := none,
      rollCallEnded := false, rollCallAccepted := false, requestMade := false, presence := none }
    retention := { d.retention with ownVote := false, resume := none }
    port := { d.port with
      queue := d.port.queue.filter (fun e => !e.reserved)
      completions := d.port.completions ++ detachedNow d.port.queue d.retention.resume } }

/-- The own last-heard age. -/
def Device.ownAge (d : Device) : Nat :=
  match d.ownNumber with
  | some x => d.member.ages[x]
  | none => 0

/-! ### Counting a slot -/

/-- A down-counter at the start of a slot: one less, but a 1 stays, since it is due at this slot's close (R3). -/
def countDown (n : Nat) : Nat := if n ≤ 1 then n else n - 1

/-- An up-counter from one slot to the next, staying at its top. -/
def countUp (top n : Nat) : Nat := if n < top then n + 1 else top

/-- The hold age from one slot to the next (R1). -/
def BankRec.age (r : BankRec) : BankRec :=
  match r.st with
  | .opened row h a s g => { r with st := .opened row h (countUp Config.holdAgeTop a) s g }
  | .closePending row h a g => { r with st := .closePending row h (countUp Config.holdAgeTop a) g }
  | .closed | .recharging _ | .refreshing _ _ => r

/-- The guards, countdown, yield point and window of a record as they will stand after the slot's close. -/
def BankRec.count (r : BankRec) : BankRec :=
  { r with
    st := match r.st with
      | .opened row h a s g => .opened row h a (countDown s) (countDown g)
      | .closePending row h a g => .closePending row h a (countDown g)
      | .recharging n => .recharging (countDown n)
      | .refreshing n k => .refreshing (countDown n) k
      | .closed => .closed
    yield := match r.yield with
      | some (.before n) => some (.before (countDown n))
      | some (.grace n) => some (.grace (countDown n))
      | some .barred => some .barred
      | none => none
    grant := match r.grant with
      | some (.running w) => some (.running (countDown w))
      | some .paused => some .paused
      | some .frozen => some .frozen
      | none => none }

/-- The six station numbers, each at its own place. -/
def stationVec : Vector Station 6 := #v[0, 1, 2, 3, 4, 5]

/-- The last-heard ages from one slot to the next: of members at a synced station, of the own number at an UNSYNCED
one, held at 0 otherwise (R102). -/
def Device.agesUp (d : Device) : Vector Nat 6 :=
  mapVec (fun x : Station =>
    match d.member.state with
    | .synced => if d.member.members.has x then countUp Config.dropAge d.member.ages[x] else 0
    | .unsynced => if d.isOwn x then countUp Config.dropAge d.member.ages[x] else 0
    | .standby | .rollCall | .mismatch => 0) stationVec

/-- The marks and ages of a picture from one slot to the next (R1, R4, R59, R102, R113). -/
def Device.ageSlot (d : Device) : Device :=
  { d with
    mirror := { d.mirror with
      banks := mapVec BankRec.age d.mirror.banks
      lastOpen := d.mirror.lastOpen.map (countUp Config.spacing)
      lastBankRefresh := d.mirror.lastBankRefresh.map (countUp Config.spacing) }
    account := { d.account with lastMark := d.account.lastMark.map (countUp Config.lastMarkTop) }
    member := { d.member with ages := d.agesUp }
    retention := { d.retention with ageMark := d.retention.ageMark.map (countUp Config.retentionAge) } }

/-- A bank of the array with its guards counted. -/
def ArrayBank.count : ArrayBank → ArrayBank
  | .closed => .closed
  | .opened row g => .opened row (countDown g)
  | .closePending g => .closePending (countDown g)
  | .recharging n => .recharging (countDown n)
  | .refreshing n => .refreshing (countDown n)

/-- The countdowns of a picture as they will stand after the slot's close, those due still at 1 (R3); a burst counts its data
slots down to 0, where the last of them closes (R20). -/
def Device.countSlot (d : Device) : Device :=
  { d with
    mirror := { d.mirror with
      banks := mapVec BankRec.count d.mirror.banks
      reservation := d.mirror.reservation.map (fun r => { r with count := countDown r.count }) }
    account := { d.account with countdown := d.account.countdown.map countDown }
    member := { d.member with window := d.member.window.map countDown }
    retention := { d.retention with wakingGuard := d.retention.wakingGuard.map countDown }
    sched := { d.sched with
      idle := mapVec (Option.map countDown) d.sched.idle
      ownBursts := d.sched.ownBursts.map (fun o => { o with left := o.left - 1 }) }
    array := { d.array with
      banks := mapVec ArrayBank.count d.array.banks
      waking := d.array.waking.map countDown
      inFlight := d.array.inFlight.map (fun i => { i with left := i.left - 1 }) } }

end Sys2Proof.Machine
end

