-- ==== Sys2Proof/Machine/ArrayDie.lean ====
section
/-! DEFINITION. The FJ612 array die as the lane sees it (R22 to R24, R87, R88, R123, R124): what it does at an accepted frame, at its
own expiries, and at a reset. -/

namespace Sys2Proof.Machine

/-- The array changed in the picture after the close. -/
def Device.updArray (f : ArrayDie → ArrayDie) (d : Device) : Device := { d with array := f d.array }

/-- A bank of the array set. -/
def ArrayDie.setBank (b : Bank) (r : ArrayBank) (a : ArrayDie) : ArrayDie := { a with banks := a.banks.set b r }

/-- The row the array has open in a bank, if any. -/
def ArrayDie.openRow? (a : ArrayDie) (b : Bank) : Option Row :=
  match a.banks[b] with
  | .opened row _ => some row
  | .closed | .closePending _ | .recharging _ | .refreshing _ => none

/-- Is the burst's second data slot the slot now closing? -/
def ArrayBurst.due (i : ArrayBurst) : Bool := i.left == 0

/-- Is one of the burst's data slots the slot now closing? -/
def ArrayBurst.moves (i : ArrayBurst) : Bool := decide (i.left ≤ 1)

/-- The part of the burst's contents that the slot now closing settles, as its first byte and the number of its bytes: the lower
half in the first data slot and the higher in the second (R88), with it the whole of a burst that a station reset has cut (R20). -/
def ArrayBurst.part (i : ArrayBurst) : Nat × Nat :=
  if i.left = 1 then (0, 32) else if i.left = 0 then (if i.cut then (0, 64) else (32, 32)) else (0, 0)

/-- The contents with nothing assured any more (R24, R49, log entry 20). -/
def ArrayDie.unassured (a : ArrayDie) : ArrayDie := { a with mem := a.mem.unassured }

/-- A READ or WRITE at the array (R9, R22): the close guard raised, close-after marks the bank to close at its expiry,
and the burst is to move in its slots. `own` says whether this station is the one named; `data` is a WRITE's burst. -/
def ArrayDie.burst (isWrite : Bool) (b : Bank) (column : Column) (closeAfter own : Bool) (data : Burst) (a : ArrayDie) :
    ArrayDie :=
  match a.banks[b] with
  | .opened row g =>
    let guard := max g (if isWrite then Config.writeRelease else Config.readRelease)
    let left := if isWrite then Config.writeDataSlots else Config.readDataSlots
    { a.setBank b (if closeAfter then .closePending guard else .opened row guard) with
      inFlight := a.inFlight ++ [⟨isWrite, b, row, column, own, data, left, false⟩] }
  | .closed | .closePending _ | .recharging _ | .refreshing _ => a

/-- What the array does at an accepted frame (R22, R123). A burst accepted before moves in its data slots (R18), though its
bank be closed by then; where a FULL REFRESH finds the bank OPEN that is the model's reading (log entry 30), and at a RETAIN
only a half whose data slot is this very slot moves (log entry 21). -/
def ArrayDie.accept (own : Bool) (data : Burst) (body : Body) (a : ArrayDie) : ArrayDie :=
  match body with
  | .openRow b row =>
    match a.banks[b] with
    | .closed => a.setBank b (.opened row Config.minimumOpen)
    | .opened _ _ | .closePending _ | .recharging _ | .refreshing _ => a
  | .read b column ca => a.burst false b column ca own data
  | .write b column ca => a.burst true b column ca own data
  | .close b _ =>
    match a.banks[b] with
    | .opened _ _ => a.setBank b (.recharging Config.recharge)
    | .closed | .closePending _ | .recharging _ | .refreshing _ => a
  | .bankRefresh b _ =>
    match a.banks[b] with
    | .closed => a.setBank b (.refreshing Config.bankRefreshBusy)
    | .opened _ _ | .closePending _ | .recharging _ | .refreshing _ => a
  | .fullRefresh _ _ _ _ =>
    { a with banks := Vector.replicate 12 (.refreshing Config.fullRefreshBusy),
             state := if a.state = .uninit then .active else a.state }
  | .retain =>
    match a.state with
    | .active => { a with state := .retaining, banks := Vector.replicate 12 .closed, inFlight := a.inFlight.filter ArrayBurst.moves }
    | .uninit | .retaining | .waking => a
  | .wake =>
    match a.state with
    | .retaining => { a with state := .waking, waking := some Config.wakingGuard }
    | .uninit | .active | .waking => a
  | .mark _ | .syncRequest _ | .rollCall _ _ | .notice _ | .withdraw _ | .vote _ | .presence => a

/-- An array bank at the slot's close, by what it was at the slot's start: the expiries of R22. -/
def ArrayBank.expire (before after : ArrayBank) : ArrayBank :=
  match before, after with
  | .opened _ 1, .opened row 1 => .opened row 0
  | .closePending 1, .closePending 1 => .recharging Config.recharge
  | .recharging 1, .recharging 1 => .closed
  | .refreshing 1, .refreshing 1 => .closed
  | _, r => r

/-- The contents once a data slot has closed: the half of a WRITE that it carried stands in its place (R22, R88). -/
def storePart (m : Memory) (i : ArrayBurst) : Memory :=
  if i.isWrite then m.writeBytes (burstAddress i.bank i.row i.column) i.data i.part.1 i.part.2 else m

/-- The array's own expiries at the slot's close, and the data slots that close with it: the half of a WRITE is stored, and a
burst leaves with its second (R20, R22, R88). RETAINING, the array works the data lane no more (R123). -/
def ArrayDie.closeSlot (before a : ArrayDie) : ArrayDie :=
  { a with
    banks := ⟨(List.zipWith ArrayBank.expire before.banks.toList a.banks.toList).toArray, by simp⟩
    state := if before.waking = some 1 ∧ a.waking = some 1 then .active else a.state
    waking := if before.waking = some 1 ∧ a.waking = some 1 then none else a.waking
    inFlight := if a.state = .retaining then [] else a.inFlight.filter (fun i => !i.due)
    mem := a.inFlight.foldl storePart a.mem }

/-- The WRITE bursts in flight stored with undefined contents, numbered from `n` (R20): what a reset that cuts them
short leaves. -/
def cutWrites (n : Nat) : List ArrayBurst → Memory → Nat × Memory
  | [], m => (n, m)
  | i :: t, m =>
    if i.isWrite then
      cutWrites (n + 1) t (m.writeBurst (burstAddress i.bank i.row i.column) (Config.undefinedBurst n))
    else cutWrites n t m

/-- The WRITE bursts of a station that drives nothing any more: the array takes undefined data for them, and what it has taken
of them before is undefined with it (R20). -/
def undriveOwn (n : Nat) : List ArrayBurst → Nat × List ArrayBurst
  | [] => (n, [])
  | i :: t =>
    if i.isWrite && i.own then
      let rest := undriveOwn (n + 1) t
      (rest.1, { i with data := Config.undefinedBurst n, own := false, cut := true } :: rest.2)
    else
      let rest := undriveOwn n t
      (rest.1, { i with own := false } :: rest.2)

/-- Does the array drive the burst of an own READ in the slot in which it has `left` slots to run? -/
def ArrayDie.drives (a : ArrayDie) (o : OwnBurst) (left : Nat) : Bool :=
  a.inFlight.any (fun i => !i.isWrite && i.own && i.bank == o.bank && i.row == o.row && i.column == o.column && i.left == left)

/-- What a station captures at the close of a data slot of its own READ: the half that the array drives, lower first, and the
half of what an undriven lane gives where it drives none (R20, R88, log entry 9). -/
def ArrayDie.driven (a : ArrayDie) (o : OwnBurst) (higher : Bool) (undriven : Burst) : Half :=
  if a.drives o (if higher then 1 else 2) then a.mem.readHalf (burstAddress o.bank o.row o.column) higher
  else burstHalf higher undriven

end Sys2Proof.Machine
end

