-- ==== Sys2Proof/Machine/Expiry.lean ====
section
/-! DEFINITION. The events at a slot's close that no frame brings: each expiry taken where it is due, and nothing done
where it is not (log entry 4). A timer is due where it read 1 at the slot's start and no acceptance of this close has
touched it. -/

namespace Sys2Proof.Machine

/-- Due: reading 1 at the start of the slot and still 1 in the picture after its close (R3). -/
def dueAt (before after : Option Nat) : Bool := before == some 1 && after == some 1

/-- The state of a bank changed in the picture after the close. -/
def State.setBankState (b : Bank) (st : BankState) (s : State) : State :=
  s.upd (fun d => d.setBank b { d.bank b with st := st })

/-- SETTLE_GUARD_EXPIRY (R7): the settle guard reads 0. -/
def State.takeSettle (b : Bank) (s : State) : State :=
  if dueAt (s.now.bank b).st.settle? (s.after.bank b).st.settle? then
    match (s.after.bank b).st with
    | .opened row h a _ g => (s.close).setBankState b (.opened row h a 0 g)
    | .closed | .closePending _ _ _ _ | .recharging _ | .refreshing _ _ => s
  else s

/-- CLOSE_GUARD_EXPIRY (R10): in OPEN the guard reads 0; in CLOSE_PENDING the bank auto-closes. -/
def State.takeCloseGuard (b : Bank) (s : State) : State :=
  if dueAt (s.now.bank b).st.closeGuard? (s.after.bank b).st.closeGuard? then
    match (s.after.bank b).st with
    | .opened row h a g _ => (s.close).setBankState b (.opened row h a g 0)
    | .closePending _ _ _ _ => (s.close).setBankState b (.recharging Config.recharge)
    | .closed | .recharging _ | .refreshing _ _ => s
  else s

/-- RECHARGE_EXPIRY (R12): the bank is CLOSED, and a grant starts where its list is non-empty. -/
def State.takeRecharge (b : Bank) (s : State) : State :=
  if dueAt (s.now.bank b).st.recharge? (s.after.bank b).st.recharge? then (s.close).upd (Device.becomeClosed b) else s

/-- REFRESH_BUSY_EXPIRY (R17): the bank is CLOSED, a PAUSED grant is taken up again or a new grant starts. -/
def State.takeRefreshBusy (b : Bank) (s : State) : State :=
  if dueAt (s.now.bank b).st.refresh? (s.after.bank b).st.refresh? then (s.close).upd (Device.becomeClosed b) else s

/-- A yield point set in the picture after the close. -/
def State.setYield (b : Bank) (y : Yield) (s : State) : State :=
  s.upd (fun d => d.setBank b { d.bank b with yield := some y })

/-- YIELD_BEFORE_EXPIRY (R33): the yield point enters GRACE with 32. -/
def State.takeYieldBefore (b : Bank) (s : State) : State :=
  if dueAt (s.now.bank b).before? (s.after.bank b).before? then (s.close).setYield b (.grace Config.grace) else s

/-- YIELD_GRACE_EXPIRY (R33): the yield point enters BARRED. -/
def State.takeYieldGrace (b : Bank) (s : State) : State :=
  if dueAt (s.now.bank b).grace? (s.after.bank b).grace? then (s.close).setYield b .barred else s

/-- GRANT_WINDOW_EXPIRY (R38): the head lapses and the grant passes on. -/
def State.takeGrantWindow (b : Bank) (s : State) : State := if s.grantDue b then State.lapse b s.close else s

/-- INTERVAL_COUNTDOWN_EXPIRY (R62): a pending MARK is made and the countdown stops. -/
def State.takeInterval (s : State) : State :=
  if dueAt s.now.account.countdown s.after.account.countdown then
    (s.close).upd (fun d => { d with account := { d.account with countdown := none, pendingMark := true } })
  else s

/-- WAKING_GUARD_EXPIRY (R122): the array state is ACTIVE, the guard stopped, and grants frozen by the array state alone
run again (R41). -/
def State.takeWakingGuard (s : State) : State :=
  if dueAt s.now.retention.wakingGuard s.after.retention.wakingGuard then
    State.regrant ((s.close).upd (fun d =>
      { d with mirror := { d.mirror with array := .active }
               retention := { d.retention with wakingGuard := none } }))
  else s

/-- The own number is in the roll-call set. -/
def Device.ownInRollCall (d : Device) : Bool :=
  match d.ownNumber with
  | some x => d.member.rollCall.has x
  | none => false

/-- Does the roll-call window expire at this close with the own number not in the roll-call set (R97)? -/
def State.rollCallLapses (s : State) : Bool :=
  dueAt s.now.member.window s.after.member.window && !s.after.ownInRollCall

/-- ROLL_CALL_WINDOW_EXPIRY (R97): roll call ends; with the own number not in the set the station enters UNSYNCED with
reason lane running, its request-made flag set where its own ROLL CALL had been accepted (R91). -/
def State.takeRollCallWindow (s : State) : State :=
  if dueAt s.now.member.window s.after.member.window then
    if s.after.ownInRollCall then
      (s.close).upd (fun d => { d with member := { d.member with window := none, rollCallEnded := true } })
    else State.enterUnsynced .laneRunning s.after.member.rollCallAccepted s.close
  else s

/-- Is member `m` due to be dropped at this close (R104)? -/
def State.dropDue (m : Station) (s : State) : Bool :=
  s.now.synced && s.after.synced && s.after.member.members.has m && s.now.member.ages[m] == Config.dropAge - 1
    && s.after.member.ages[m] == Config.dropAge - 1

/-- The drop of a member other than this station from a picture (R46, R104, R114). -/
def Device.dropMember (m : Station) (d : Device) : Device :=
  let d : Device := { d with
    member := { d.member with
      members := d.member.members.drop m, syncPending := d.member.syncPending.drop m, ages := d.member.ages.set m 0 }
    retention := { d.retention with votes := d.retention.votes.drop m } }
  d.mapBanks (BankRec.leave d.member.profile.grantWindow m)

/-- MEMBER_DROP (R104): the member leaves every set and list (R46), as they stand after the frame accepted at this close, a NOTICE
included (log entry 35); the own number dropped takes the station to UNSYNCED. -/
def State.takeDrop (m : Station) (s : State) : State :=
  if s.dropDue m then
    if s.after.isOwn m then State.enterUnsynced .selfDropped false s.close
    else
      State.regrant (State.addFault { s.entry .memberDropped with station := some (BitVec.ofNat 3 m.val) }
        ((s.close).upd (Device.dropMember m)))
  else s

/-- Every drop due at this close. -/
def State.takeDrops (s : State) : State := allStations.foldl (fun s m => s.takeDrop m) s

/-- OWN_AGE_LIMIT_UNSYNCED (R105): at an UNSYNCED station the own age reaches 12288 and the request-made flag is
cleared. -/
def State.takeOwnAgeLimit (s : State) : State :=
  if s.now.member.state = .unsynced ∧ s.after.member.state = .unsynced ∧ s.now.ownAge = Config.dropAge - 1
      ∧ s.after.ownAge = Config.dropAge - 1 then
    (s.close).upd (fun d => { d with member := { d.member with requestMade := false } })
  else s

/-- IDLE_CLOSE_TIMER_EXPIRY (R140): the timer of the bank has expired. -/
def State.takeIdle (b : Bank) (s : State) : State :=
  if dueAt s.now.sched.idle[b] s.after.sched.idle[b] then
    (s.close).upd (fun d => { d with sched := { d.sched with idle := d.sched.idle.set b (some 0) } })
  else s

/-- DATA_LANE_RESERVATION_FREE (R18): the last reserved slot closes and the record is free. -/
def State.takeReservationFree (s : State) : State :=
  if dueAt (s.now.mirror.reservation.map Reservation.count) (s.after.mirror.reservation.map Reservation.count) then
    (s.close).upd (fun d => { d with mirror := { d.mirror with reservation := none } })
  else s

/-- Is the burst's second data slot the slot now closing? -/
def OwnBurst.due (o : OwnBurst) : Bool := o.left == 0

/-- The data of an own burst captured, in the request's column order (R136, R155). -/
def captureFor (o : OwnBurst) (data : Burst) (a : Access) : Access :=
  if a.tag = o.tag ∧ !o.isWrite then { a with captured := a.captured ++ [data] } else a

/-- A request whose last accepted burst has moved its data: ISSUED, with no own burst of its tag left (R136, R159). -/
def Device.finished (d : Device) (t : Tag) : Option Access :=
  (accesses d.port.queue).find?
    (fun a => a.tag == t && a.progress == .issued && !d.sched.ownBursts.any (fun o => o.tag == t))

/-- One own burst at the close of its second data slot (R20, R88, R136): its higher half captured and the burst handed over,
its record gone, and the completion of its request posted where that was its last: DONE, or CANCELLED where a CANCEL waits for the data
(R159). -/
def State.finishBurst (s : State) (o : OwnBurst) : State :=
  let undriven := Config.undefinedBurst s.free
  let data := s.now.array.driven o true undriven ++ o.lower.getD (burstHalf false undriven)
  let s := s.upd (fun d =>
    { d with sched := { d.sched with ownBursts := d.sched.ownBursts.filter (fun o' => o' != o) }
             port := { d.port with queue := mapAccess (captureFor o data) d.port.queue } })
  { s.upd (fun d =>
      match d.finished o.tag with
      | some a => d.completeAccess a (if a.cancelled then .cancelled else .done)
      | none => d) with free := s.free + 1 }

/-- LAST_DATA_SLOT_CLOSE (R136): the own bursts whose second data slot closes. -/
def State.takeDataSlots (s : State) : State :=
  let due := s.after.sched.ownBursts.filter OwnBurst.due
  if due.isEmpty then s else due.foldl State.finishBurst s.close

/-- An own READ's lower half captured at the close of its first data slot (R88). -/
def OwnBurst.takeLower (a : ArrayDie) (undriven : Burst) (o : OwnBurst) : OwnBurst :=
  if o.isWrite = false ∧ o.left = 1 then { o with lower := some (a.driven o false undriven) } else o

/-- The own READs' lower halves whose data slot closes (R88); no command brings this. The lane carries one half a slot, so what
is captured of it undriven is one free value (log entry 9). -/
def State.takeLowers (s : State) : State :=
  { s.upd (fun d => { d with sched := { d.sched with
      ownBursts := d.sched.ownBursts.map (OwnBurst.takeLower s.now.array (Config.undefinedBurst s.free)) } }) with
    free := if s.after.sched.ownBursts.any (fun o => !o.isWrite && o.left == 1) then s.free + 1 else s.free }

/-- DETACHED_COMPLETION_POSTED (R161): the oldest detached request waiting for room posts its completion. -/
def State.takeDetached (s : State) : State :=
  if s.now.detachedWaits && s.now.hasRoom && s.after.port.queue == s.now.port.queue then
    match s.after.port.queue with
    | .access a :: _ => (s.close).upd (Device.completeAccess a .detached)
    | .retain t _ :: q => (s.close).upd (fun d => (d.setQueue q).post (plainCompletion t .detached))
    | [] => s
  else s

/-- Every expiry due at the slot's close that no command has taken. -/
def State.takeAll (s : State) : State :=
  let s := s.takeDrops
  let s := allBanks.foldl (fun s b =>
    ((((((s.takeSettle b).takeCloseGuard b).takeRecharge b).takeRefreshBusy b).takeYieldBefore b).takeYieldGrace b).takeGrantWindow b) s
  let s := (s.takeInterval.takeWakingGuard.takeRollCallWindow.takeReservationFree).takeDataSlots.takeLowers
  let s := s.takeOwnAgeLimit
  let s := allBanks.foldl (fun s b => s.takeIdle b) s
  s.takeDetached

end Sys2Proof.Machine
end

