-- ==== Sys2Proof/Machine/Candidates.lean ====
section
/-! DEFINITION. What the station offers in a slot, from the picture at its start (R80): the frames of the access
scheduler (chapter 7), the refresh account (R55 to R57, R62), the membership unit (R96, R98, R103, R105, R108) and the
retention unit (R116, R118, R121); the completion reservations (R132); and the choice of one candidate (R81). -/

namespace Sys2Proof.Machine

/-- The tie value: own number minus turn pointer, modulo N, at a synced station; 7 otherwise (R72). -/
def Device.tieValue (d : Device) (x : Station) : BitVec 3 :=
  if d.synced then BitVec.ofNat 3 ((x.val + d.peers - d.lane.turn % d.peers) % d.peers) else 7#3

/-- A frame this station offers, complete with tie value and station number (R80). -/
def Device.frame (d : Device) (x : Station) (cls : FrameClass) (body : Body) : Frame := ⟨cls, d.tieValue x, x, body⟩

/-! ### The access scheduler -/

/-- The class of a forced CLOSE (R43). -/
def Device.forcedClass (d : Device) : FrameClass :=
  if d.urgent || d.member.syncPending != 0#6 then .urgent else .bank

/-- Does a yield, urgency or sync condition of R139 hold for a bank this station holds? -/
def Device.closingCondition (d : Device) (b : Bank) : Bool :=
  (match (d.bank b).yield with | some (.grace _) | some .barred => true | some (.before _) | none => false)
    || d.urgent || d.member.syncPending != 0#6

/-- The close-after flag of a burst frame (R137). -/
def Device.closeAfter (d : Device) (a : Access) : Bool :=
  a.accepted + 1 == a.bursts && !furtherQueued d.port.queue a.bank
    && (!(d.bank a.bank).waiters.isEmpty || d.member.profile.idleDelay == 0 || a.hint)

/-- The column of a request's next burst (R136). -/
def Access.nextColumn (a : Access) : Column := a.column + BitVec.ofNat 7 a.accepted

/-- The frame that serves a bank's head request, by the table of R133, legal or not. -/
def Device.wanted (d : Device) (x : Station) (a : Access) : Option Frame :=
  let b := a.bank
  let r := d.bank b
  let notice := if r.waiters.contains x then none else some (d.frame x .routine (.notice b))
  match r.st with
  | .opened row h _ _ _ =>
    if h = x then
      if row = a.row then
        if a.progress = .held then
          some (d.frame x .bank (if a.isWrite then .write b a.nextColumn (d.closeAfter a) else .read b a.nextColumn (d.closeAfter a)))
        else none
      else some (d.frame x .bank (.close b false))
    else notice
  | .closePending _ h _ _ => if h = x then none else notice
  | .closed =>
    if r.waiters.isEmpty && r.grant.isNone then some (d.frame x .bank (.openRow b a.row))
    else if r.waiters.head? = some x then
      match r.grant with
      | some (.running _) => some (d.frame x .bank (.openRow b a.row))
      | some .paused | some .frozen | none => none
    else notice
  | .recharging _ | .refreshing _ _ => if r.waiters.isEmpty && r.grant.isNone then none else notice

/-- The frame offered for a head request: the one of R133, where the mirror finds it legal. -/
def Device.serving (d : Device) (x : Station) (a : Access) : Option Frame :=
  match d.wanted x a with
  | some f => if legal d f then some f else none
  | none => none

/-- Is this entry the head request of its bank (R131)? -/
def Device.isHead (d : Device) (a : Access) : Bool := headOf d.port.queue a.bank == some a

/-- Is a request of the bank HELD? -/
def Device.heldRequest (d : Device) (b : Bank) : Bool :=
  match headOf d.port.queue b with
  | some a => a.progress == .held
  | none => false

/-- Is a READ or WRITE request for the bank on the row it is held on queued (R139)? -/
def Device.rowQueued (d : Device) (b : Bank) : Bool :=
  match (d.bank b).st with
  | .opened row _ _ _ _ => (accesses d.port.queue).any (fun a => a.bank == b && a.row == row)
  | .closed | .closePending _ _ _ _ | .recharging _ | .refreshing _ _ => false

/-- Does a reason of R139 that serves no request hold for a bank this station holds in OPEN: idle, yield, urgency, sync or
barred? -/
def Device.closeReason (d : Device) (b : Bank) : Bool :=
  (d.sched.idle[b] == some 0 && !d.rowQueued b)
    || (d.closingCondition b && !d.heldRequest b)
    || ((d.bank b).yield == some .barred && d.heldRequest b)

/-- The forced CLOSE frames that serve no request, cases (a), (b) and (d), lowest bank first (R43, R143). -/
def Device.forcedCloses (d : Device) (x : Station) : List Frame :=
  allBanks.filterMap (fun b =>
    let f := d.frame x d.forcedClass (.close b true)
    if (forcedCaseA d b || forcedCaseB d b || forcedCaseD d b) && legal d f then some f else none)

/-- The plain CLOSE frames that serve no request, lowest bank first (R139); offered, too, for a bank whose head request finds no
reservation left (log entry 32). -/
def Device.plainCloses (d : Device) (x : Station) : List Frame :=
  allBanks.filterMap (fun b =>
    let f := d.frame x .bank (.close b false)
    if d.holdsOpen b && d.closeReason b && legal d f then some f else none)

/-- The WITHDRAW frames, lowest bank first: for a bank this station waits for with no request queued for it but ISSUED
ones (R145). -/
def Device.withdraws (d : Device) (x : Station) : List Frame :=
  allBanks.filterMap (fun b =>
    let f := d.frame x .routine (.withdraw b)
    if d.waitsFor b && (headOf d.port.queue b).isNone && legal d f then some f else none)

/-- The frames of one request: that of R133, and at the head of the waiter list the forced CLOSE of case (c)
(R43, R143); none before the request holds a reservation (R132), which a forced CLOSE alone does not bring it (log entry 29). -/
def Device.requestFrames (d : Device) (x : Station) (a : Access) : List Frame :=
  if d.isHead a && a.reserved then
    let forced := d.frame x d.forcedClass (.close a.bank true)
    (d.serving x a).toList
      ++ (if a.progress == .noticed && forcedCaseC d a.bank x && legal d forced then [forced] else [])
  else []

/-- The candidates of the access scheduler, in the order of R81's third step. -/
def Device.schedulerOffers (d : Device) (x : Station) : List Frame :=
  d.forcedCloses x ++ d.plainCloses x ++ d.withdraws x ++ (accesses d.port.queue).flatMap (d.requestFrames x)

/-- The completion reservations taken at the start of a slot: for head requests that hold none and whose first frame
would be offered, oldest first, while room exists (R132). -/
def Device.takeReservations (d : Device) : Device :=
  match d.synced, d.ownNumber with
  | true, some x =>
    ((accesses d.port.queue).filter (fun a => d.isHead a && !a.reserved && (d.serving x a).isSome)).foldl
      (fun d' a =>
        if d'.hasRoom then
          d'.setQueue (mapAccess (fun a' => if a'.tag = a.tag then { a' with reserved := true } else a') d'.port.queue)
        else d') d
  | _, _ => d

/-! ### The refresh account -/

/-- Is a bank fit for a BANK REFRESH: CLOSED and not in the rotation set (R55)? -/
def Device.refreshable (d : Device) (b : Bank) : Bool :=
  (d.bank b).st == .closed && !d.account.rotation.has b

/-- The bank of a BANK REFRESH: the lowest with no RUNNING grant, failing that the lowest (R55). -/
def Device.refreshChoice (d : Device) : Option Bank :=
  match allBanks.find? (fun b => d.refreshable b && (d.bank b).window?.isNone) with
  | some b => some b
  | none => allBanks.find? d.refreshable

/-- Does the refresh account call for a FULL REFRESH (R57)? -/
def Device.callsFullRefresh (d : Device) : Bool :=
  d.urgent && d.allClosed && d.account.rotation == 0#12 && d.mirror.array == .active

/-- The class of the BANK REFRESH to offer, by the lowest reason that holds (R56). -/
def Device.refreshClass (d : Device) : Option FrameClass :=
  if d.urgent && !d.callsFullRefresh then some .urgent
  else if d.due || (decide (0 < d.account.wakeRefresh) && d.retention.ownVote) then some .routine
  else if d.member.profile.pullAhead && decide (Config.balanceFloor < d.account.balance)
      && decide (d.account.balance < Config.dueLevel) && !d.queueHolds then some .idle
  else none

/-- The BANK REFRESH offered (R56); where the account calls for a FULL REFRESH, that takes its place (R57). -/
def Device.refreshOffer (d : Device) (x : Station) : List Frame :=
  if d.mirror.array = .active ∧ markReads d.mirror.lastBankRefresh = Config.spacing ∧ d.callsFullRefresh = false then
    match d.refreshChoice, d.refreshClass with
    | some b, some c => [d.frame x c (.bankRefresh b (bankRefreshResult d.account.balance))]
    | _, _ => []
  else []

/-- The FULL REFRESH offered: under urgency (R57), or with all banks CLOSED while the sync-pending set is not empty
(R108). -/
def Device.fullRefreshOffer (d : Device) (x : Station) : List Frame :=
  if d.callsFullRefresh || (d.member.syncPending != 0#6 && d.allClosed && d.mirror.array == .active) then
    [d.frame x .urgent
      (.fullRefresh (fullRefreshResult d.account.balance false) d.union false (d.member.digest.getD 0#16))]
  else []

/-- The pending MARK offered (R62). -/
def Device.markOffer (d : Device) (x : Station) : List Frame :=
  if d.account.pendingMark then [d.frame x .urgent (.mark (d.account.index + 1#8))] else []

/-! ### The membership and retention units -/

/-- The class of PRESENCE by the own age (R103). -/
def presenceClass (age : Nat) : Option FrameClass :=
  if Config.presenceUrgent ≤ age then some .urgent
  else if Config.presenceRoutine ≤ age then some .routine
  else if Config.presenceIdle ≤ age then some .idle
  else none

/-- PRESENCE_AGE_REACHED: the standing offer of PRESENCE, by the own age at the start of the slot (R103). -/
def Device.presenceReached (d : Device) : Device :=
  { d with member := { d.member with
      presence := match d.member.state with
        | .synced | .unsynced => presenceClass d.ownAge
        | .standby | .rollCall | .mismatch => none } }

/-- The PRESENCE offered (R103). -/
def Device.presenceOffer (d : Device) (x : Station) : List Frame :=
  match d.member.presence with
  | some c => [d.frame x c .presence]
  | none => []

/-- The VOTE offered (R116). -/
def Device.voteOffer (d : Device) (x : Station) : List Frame :=
  if d.mirror.array = .active ∨ d.mirror.array = .waking then
    if d.retention.ownVote && !d.retention.votes.has x && !d.queueHolds then [d.frame x .routine (.vote true)]
    else if !d.retention.ownVote && d.retention.votes.has x then [d.frame x .routine (.vote false)]
    else []
  else []

/-- The RETAIN offered, where the mirror finds it legal (R118). -/
def Device.retainOffer (d : Device) (x : Station) : List Frame :=
  if d.retention.ownVote && d.retention.votes.has x then [d.frame x .routine .retain] else []

/-- Is a RESUME pending on the wake path? -/
def Device.resumeWakes (d : Device) : Bool :=
  match d.retention.resume with
  | some r => r.path == .wake
  | none => false

/-- The WAKE offered, where the mirror finds it legal: for access, resume or sync (R121). -/
def Device.wakeOffer (d : Device) (x : Station) : List Frame :=
  if d.queueHolds || d.resumeWakes || d.member.syncPending != 0#6 then [d.frame x .bank .wake] else []

/-! ### The station's candidates and the choice -/

/-- Every candidate of the station, by its state (R83); a synced station's are frames its own mirror finds legal
(R80). -/
def Device.offers (d : Device) : List Frame :=
  match d.ownNumber with
  | none => []
  | some x =>
    match d.member.state with
    | .standby | .mismatch => []
    | .rollCall =>
      (if d.member.rollCallAccepted then []
       else [d.frame x .routine (.rollCall (d.member.digest.getD 0#16) (BitVec.ofNat 3 d.peers))])
        ++ (if d.member.rollCallEnded && d.ownInRollCall then
              [d.frame x .routine (.fullRefresh 0 d.member.rollCall true (d.member.digest.getD 0#16))]
            else [])
    | .unsynced =>
      (if d.member.requestMade then [] else [d.frame x .routine (.syncRequest (d.member.digest.getD 0#16))])
        ++ d.presenceOffer x
    | .synced =>
      (d.markOffer x ++ d.fullRefreshOffer x ++ d.refreshOffer x ++ d.presenceOffer x ++ d.voteOffer x
        ++ d.retainOffer x ++ d.wakeOffer x ++ d.schedulerOffers x).filter (legal d)

/-- Class and kind as one number (R71, R81). -/
def Frame.rank (f : Frame) : Nat := (classCode f.cls).toNat * 16 + (kindCode f.body.kind).toNat

/-- The first of the candidates of the lowest class and kind (R81). -/
def bestOf : List Frame → Option Frame
  | [] => none
  | f :: t =>
    match bestOf t with
    | none => some f
    | some g => if g.rank < f.rank then some g else some f

/-- The transmit candidate of the slot (R81). -/
def Device.candidate (d : Device) : Option Frame := bestOf d.offers

/-! ### Arbitration (R71) -/

/-- One bit of the arbitration: a driven 0 overrides, and the contenders that drive a 1 have lost. -/
def arbitrationBit (k : Nat) (cs : List (BitVec 12)) : List (BitVec 12) :=
  if cs.any (fun c => !c.getLsbD k) then cs.filter (fun c => !c.getLsbD k) else cs

/-- The contenders left after the top `n` bits down to bit 0, most significant first. -/
def contend : Nat → List (BitVec 12) → List (BitVec 12)
  | 0, cs => cs
  | k + 1, cs => contend k (arbitrationBit k cs)

/-- The contenders whose field reads back unchanged to the last bit. -/
def arbitrate (cs : List (BitVec 12)) : List (BitVec 12) := contend 12 cs

end Sys2Proof.Machine
end

