-- ==== Sys2Proof/Machine/Requests.lean ====
section
/-! DEFINITION. The request window (sections 8.1, 8.2, 8.5, 8.6): a request is judged against the picture at the start
of its slot and acts on the picture after the slot's close (R150). -/

namespace Sys2Proof.Machine

/-- The outcome of the tests of R152. -/
inductive Judgement where
  | refused (st : Status)
  | discarded
  | taken
  deriving DecidableEq, Repr

/-- The tests of R152 in their order, for every kind but CANCEL. -/
def judgeRequest (d : Device) (r : Request) : Judgement :=
  if d.member.state = .standby ∨ d.member.state = .mismatch then .refused .refusedState
  else
    match r.kind with
    | none => .refused .refusedRange
    | some k =>
      if (k = .read ∨ k = .write) ∧ r.inRange = false then .refused .refusedRange
      else if d.outstanding r.tag then .refused .refusedTag
      else
        match k with
        | .read | .write => if Config.queueMax ≤ d.port.queue.length then .discarded else .taken
        | .retain =>
          if (retainEntry d.port.queue).isSome then .refused .refusedState
          else if Config.queueMax ≤ d.port.queue.length then .discarded
          else if d.hasRoom then .taken else .discarded
        | .resume =>
          if d.retention.resume.isSome then .refused .refusedState else if d.hasRoom then .taken else .discarded
        | .cancel => .taken

/-- A discard: the overflow flag is set at this close (R153). -/
def State.discard (s : State) : State :=
  { s.upd (fun d => { d with port := { d.port with overflow := true } }) with slot := { s.slot with discarded := true } }

/-- A refusal posted where room for it exists at the start of the slot, discarded otherwise (R152, R161). -/
def State.refuse (r : Request) (st : Status) (s : State) : State :=
  if s.now.refusalRoom then s.upd (Device.post (plainCompletion r.tag st)) else s.discard

/-- The entry of a READ or WRITE request taken (R130, R154). -/
def accessEntry (r : Request) (b : Bank) (stamp : Nat) : Access :=
  { tag := r.tag, isWrite := r.kind == some .write, bank := b, row := r.row.setWidth 14, column := r.column.setWidth 7,
    bursts := r.bursts, hint := r.hint, data := r.data, stamp := stamp, progress := .waiting, accepted := 0, reserved := false,
    cancelled := false, captured := [] }

/-- An entry at the tail of the request queue, the arrival counted. -/
def Device.enqueue (e : Entry) (d : Device) : Device :=
  { d with port := { d.port with queue := d.port.queue ++ [e], arrivals := d.port.arrivals + 1 } }

/-- What an access request does to retention: it withdraws a queued RETAIN request while the array is not RETAINING
(R125, R126, log entry 15). -/
def Device.accessWithdraws (d : Device) : Device :=
  if d.retention.ownVote && d.mirror.array != .retaining then d.completeRetain .withdrawn else d

/-- A READ or WRITE request taken (R126, R152, R161). It acts by the picture after the close, so the drops due at this close are
taken first (log entry 18). -/
def State.takeAccess (r : Request) (s : State) : State :=
  match bankOf r.bankField with
  | none => s
  | some b =>
    s.takeDrops.upd (fun d =>
      let d' := d.enqueue (.access (accessEntry r b d.port.arrivals))
      if d.member.state = .mismatch then d' else d'.accessWithdraws)

/-- A RETAIN request taken (R125, R161). -/
def State.takeRetain (r : Request) (s : State) : State :=
  s.upd (fun d =>
    if d.member.state = .mismatch then d.post (plainCompletion r.tag .detached)
    else
      { d.enqueue (.retain r.tag d.port.arrivals) with retention := { d.retention with ownVote := true } })

/-- The path a RESUME takes by the picture after the close, none where it completes at once (R127). -/
def Device.resumePath (d : Device) : Option ResumePath :=
  if d.synced then
    if d.mirror.array = .retaining then some .wake else if d.ownVoted then some .vote else none
  else some .resync

/-- A RESUME request taken (R127, R160, R161). It acts by the picture after the close, so the drops due at this close
are taken first (log entry 18). -/
def State.takeResume (r : Request) (s : State) : State :=
  s.takeDrops.upd (fun d =>
    if d.member.state = .mismatch then d.post (plainCompletion r.tag .detached)
    else
      let d := if (retainEntry d.port.queue).isSome then d.completeRetain .withdrawn else d
      match d.resumePath with
      | some p =>
        { d with retention := { d.retention with resume := some ⟨r.tag, p, d.port.arrivals⟩ }
                 port := { d.port with arrivals := d.port.arrivals + 1 } }
      | none => d.post (plainCompletion r.tag .done))

/-- The READ or WRITE entry of a tag. -/
def findAccess (t : Tag) (q : List Entry) : Option Access := (accesses q).find? (fun a => a.tag == t)

/-- A READ or WRITE target cancelled (R146, R158, R159): posted at once, or held ISSUED while its last accepted burst's
data still moves. -/
def Device.cancelAccess (t : Tag) (d : Device) : Device :=
  match findAccess t d.port.queue with
  | none => d
  | some a =>
    if d.sched.ownBursts.any (fun o => o.tag == t) then
      d.setQueue (mapAccess (fun a' => if a'.tag = t then { a' with progress := .issued, cancelled := true } else a') d.port.queue)
    else d.completeAccess a .cancelled

/-- A CANCEL (R128, R158): its target found among the requests outstanding at the start of the slot, acted on at the
close. Without the room that its target needs it is discarded, at the close of the entry into MISMATCH too; a CANCEL taken at that
close, and one placed in MISMATCH, has no effect (R161). -/
def State.takeCancel (r : Request) (s : State) : State :=
  if s.now.member.state = .mismatch then s
  else
    match findAccess r.target s.now.port.queue with
    | some a =>
      if a.progress = .issued then s
      else if a.reserved = false ∧ s.now.hasRoom = false then s.discard
      else if s.after.member.state = .mismatch then s
      else s.upd (Device.cancelAccess r.target)
    | none =>
      if s.after.member.state ≠ .mismatch ∧ retainEntry s.now.port.queue = some r.target
          ∧ retainEntry s.after.port.queue = some r.target then
        s.upd (Device.completeRetain .cancelled)
      else s

/-- A request acts in the slot in which it is placed. -/
def State.actRequest (r : Request) (s : State) : State :=
  if r.kind = some .cancel then s.takeCancel r
  else
    match judgeRequest s.now r with
    | .refused st => s.refuse r st
    | .discarded => s.discard
    | .taken =>
      match r.kind with
      | some .read | some .write => s.takeAccess r
      | some .retain => s.takeRetain r
      | some .resume => s.takeResume r
      | some .cancel | none => s

/-- A request whose last word is written in this slot (R150): placed, or held for the next slot where one has been placed
already, or discarded where one is held already. While a reset input is low none is taken (R184, log entry 14). -/
def State.placeRequest (r : Request) (s : State) : State :=
  if s.after.outOfReset = false then s
  else
    let s := s.close
    if s.slot.requestPlaced then
      if s.after.port.heldRequest.isSome then s.discard
      else s.upd (fun d => { d with port := { d.port with heldRequest := some r } })
    else State.actRequest r { s with slot := { s.slot with requestPlaced := true } }

end Sys2Proof.Machine
end

