-- ==== Sys2Proof/Machine/Slot.lean ====
section
/-! DEFINITION. The close of a slot and the start of the next (R3, R78, R80): what is due and untaken is taken, the held
request acts, the requests' progress and the idle-close timers are brought into line with the picture after the close, the array
takes its own expiries; then the picture after the close is the picture at the start of the next slot. -/

namespace Sys2Proof.Machine

/-- The progress of a bank's head request in the picture after a close: NOTICED on a place in the waiter list (R134,
R145), HELD where the station holds the bank on its row and no yield, urgency or sync condition keeps it WAITING (R133,
R139), WAITING otherwise. A head that is HELD on the row it found stays so without a reservation (log entry 32). -/
def Device.headProgress (d : Device) (b : Bank) (a : Access) : Progress :=
  if d.synced then
    if d.waitsFor b then .noticed
    else
      match (d.bank b).st with
      | .opened row h _ _ _ =>
        if d.isOwn h && row == a.row then
          if a.progress = .held then .held else if d.closingCondition b then .waiting else .held
        else .waiting
      | .closed | .closePending _ _ _ _ | .recharging _ | .refreshing _ _ => .waiting
  else .waiting

/-- A bank's head request at the close. -/
def Device.settleHead (d : Device) (b : Bank) : Device :=
  d.updHead b (fun a => { a with progress := d.headProgress b a })

/-- Does the condition under which a bank's idle-close timer runs hold (R140)? -/
def Device.idleRuns (d : Device) (b : Bank) : Bool := d.synced && d.holdsOpen b && (headOf d.port.queue b).isNone

/-- A bank's idle-close timer at the close: loaded with the idle close delay where its condition begins, stopped where
it does not hold (R139, R140). -/
def settleIdle (before d : Device) (b : Bank) : Device :=
  { d with sched := { d.sched with
      idle := d.sched.idle.set b
        (if d.idleRuns b then (if before.idleRuns b then d.sched.idle[b] else some d.member.profile.idleDelay) else none) } }

/-- The scheduler's own state brought into line with the picture after the close. -/
def State.settleScheduler (s : State) : State :=
  s.upd (fun d => allBanks.foldl (settleIdle s.now) (allBanks.foldl Device.settleHead d))

/-- The held request placed in this slot acts (R150). -/
def State.actDeferred (s : State) : State :=
  match s.slot.deferred with
  | some r => if s.after.outOfReset then s.actRequest r else s
  | none => s

/-- The array's own expiries; while LRST_N is low it stands in its reset values (R184). -/
def State.settleArray (s : State) : State :=
  s.upd (fun d => { d with array := ArrayDie.closeSlot s.now.array d.array })

/-- The start of the next slot: marks and ages counted, the standing PRESENCE offer (R103) and the completion
reservations (R132) taken, a held request placed (R150), and the countdowns as they will stand after its close. -/
def State.startSlot (s : State) : State :=
  let held := s.after.port.heldRequest
  let d := { s.after with port := { s.after.port with heldRequest := none } }
  let d := (d.ageSlot.presenceReached).takeReservations
  { s with
    now := d
    after := d.countSlot
    slot := { Slot.fresh with deferred := held, requestPlaced := held.isSome } }

/-- The close of the slot in progress and the start of the next. -/
def State.closeSlot (s : State) : State :=
  (s.takeAll.actDeferred.settleScheduler.settleArray).startSlot

/-- The slot in which a frame is heard: the one in progress, or the next where this one has carried its frame or is closing
(one frame a slot, R69; log entry 3). -/
def State.laneSlot (s : State) : State := if s.slot.frameHeard || s.slot.closing then s.closeSlot else s

/-- The slot whose start is now: the one in progress, or the next where this one's arbitration is past. -/
def State.startingSlot (s : State) : State :=
  if s.slot.arbitrated || s.slot.frameHeard || s.slot.closing then s.closeSlot else s

end Sys2Proof.Machine
end

