-- ==== Sys2Proof/Machine/Client.lean ====
section
/-! DEFINITION. The meanings of the request window and the completion window (chapter 8). -/

namespace Sys2Proof.Machine

/-- The kind of a request placed as a READ: its own code, or none for a code that names no kind (R152, R181, log entry
13). -/
def readKind (w0 : Word) : Option RequestKind := if (requestKindField w0).toNat ≤ 4 then some .read else none

/-- READ_REQUEST (R150, R152). -/
def execReadRequest (w0 w1 : Word) (s : State) : Host.Outcome State Fault Refusal :=
  .next (State.placeRequest ⟨readKind w0, w0, w1, []⟩ s)

/-- WRITE_REQUEST, with its write data (R150, R152). -/
def execWriteRequest (w0 w1 : Word) (data : List Burst) (s : State) : Host.Outcome State Fault Refusal :=
  .next (State.placeRequest ⟨some .write, w0, w1, data⟩ s)

/-- RETAIN_REQUEST (R125, R152). -/
def execRetainRequest (w0 w1 : Word) (s : State) : Host.Outcome State Fault Refusal :=
  .next (State.placeRequest ⟨some .retain, w0, w1, []⟩ s)

/-- RESUME_REQUEST (R127, R152). -/
def execResumeRequest (w0 w1 : Word) (s : State) : Host.Outcome State Fault Refusal :=
  .next (State.placeRequest ⟨some .resume, w0, w1, []⟩ s)

/-- CANCEL (R128, R146, R158, R159). -/
def execCancel (w0 w1 : Word) (s : State) : Host.Outcome State Fault Refusal :=
  .next (State.placeRequest ⟨some .cancel, w0, w1, []⟩ s)

/-- What a read of the completion window returns: the words of the oldest entry, or the empty indication (R157, R181). -/
def Device.completionWords (d : Device) : List Word :=
  match d.port.completions with
  | c :: _ => c.words
  | [] => [0#32]

/-- A read of the completion window (R157): the oldest entry as it stands at the start of the slot, which leaves at the
close; a second read in the slot returns the same and changes nothing. -/
def State.readCompletion (s : State) : State :=
  if s.slot.completionRead then s
  else
    let s := { s.close with windowOut := s.now.completionWords }
    let s := { s with slot := { s.slot with completionRead := true } }
    if s.now.port.completions.isEmpty then s
    else s.upd (fun d => { d with port := { d.port with completions := d.port.completions.drop 1 } })

/-- COMPLETION_READ (R157). -/
def execCompletionRead (s : State) : Host.Outcome State Fault Refusal := .next s.readCompletion

end Sys2Proof.Machine
end

