-- ==== Sys2Proof/Machine/Control.lean ====
section
/-! DEFINITION. The meanings of the control window (sections 8.8, 11.3) and of the reset inputs (R20, R24, R89, R112, R168, R184). -/

namespace Sys2Proof.Machine

/-! ### The control window -/

/-- The control words of the picture after the close changed. -/
def State.updControl (f : Control → Control) (s : State) : State :=
  s.upd (fun d => { d with port := { d.port with control := f d.port.control } })

/-- The outcome codes (section 11.3). -/
inductive ControlOutcome where
  | taken | loaded | refusedStrap | refusedRange | refusedState
  deriving DecidableEq, Repr

/-- The code of an outcome in word 3. -/
def ControlOutcome.code : ControlOutcome → Word
  | .taken => 1#32 | .loaded => 2#32 | .refusedStrap => 3#32 | .refusedRange => 4#32 | .refusedState => 5#32

/-- An outcome written to word 3 at the close (R162, R182). -/
def State.outcome (o : ControlOutcome) (s : State) : State := s.updControl (fun c => { c with outcome := o.code })

/-- An operation of the control window: one a slot, the later ones in it changing nothing, none while a reset input is
low (R162, R182, R184). -/
def State.control (act : State → State) (s : State) : State :=
  if s.after.outOfReset = false then s
  else if s.slot.controlPlaced then s.close
  else act { s.close with slot := { s.close.slot with controlPlaced := true } }

/-- The strap conditions of START (R95): the straps held, or none where one fails. -/
def strapsOf (number peers : BitVec 3) : Option Straps :=
  match stationOf number with
  | some x =>
    if 2 ≤ peers.toNat ∧ peers.toNat ≤ 6 ∧ x.val < peers.toNat then some ⟨x, peers.toNat⟩ else none
  | none => none

/-- The membership unit after a START taken (R94, R95). -/
def Membership.started (straps : Straps) (profile : Profile) (m : Membership) : Membership :=
  { m with
    state := .rollCall, straps := some straps, digest := some (profileDigest profile straps.peers), rollCall := 0#6,
    window := some Config.rollCallWindow, rollCallEnded := false, rollCallAccepted := false }

/-- START judged against the picture at the start of the slot (R95, R163). -/
def State.startWith (number peers : BitVec 3) (s : State) : State :=
  if s.now.member.state = .standby then
    match strapsOf number peers with
    | some straps =>
      (s.upd (fun d => { d with member := d.member.started straps s.now.member.profile })).outcome .taken
    | none => s.outcome .refusedStrap
  else s.outcome .refusedState

/-- PROFILE load (R93, R164): words 1 and 2 as they stand at the start of the slot. -/
def State.loadProfile (s : State) : State :=
  let p := profileOf s.now.port.control.profile0 s.now.port.control.profile1
  if s.now.member.state = .standby then
    if p.inRange then
      (s.upd (fun d => { d with member := { d.member with profile := p } })).outcome .loaded
    else s.outcome .refusedRange
  else s.outcome .refusedState

/-- Status read (R153, R165, R175): the three words as at the start of the slot; the overflow flag cleared but for a discard at
this close. -/
def State.readStatus (s : State) : State :=
  (s.updControl (fun c =>
      { c with statusA := s.now.statusA, statusB := s.now.statusB, statusC := s.now.statusC })).upd
    (fun d => { d with port := { d.port with overflow := s.slot.discarded } })

/-- Fault-list read (R166, R174): the oldest entry as it stands at the start of the slot, which leaves the list, or the empty
indication, kind 0, its other bits 0 by the model's choice (log entry 34). -/
def State.readFault (s : State) : State :=
  let word := match s.now.faults with
    | e :: _ => e.word
    | [] => 0#32
  State.settleFaults
    { s.updControl (fun c => { c with fault := word }) with slot := { s.slot with faultRead := true } }

/-- What the straps read, from now on (log entry 11). -/
def Pins.strapped (number peers : BitVec 3) (p : Pins) : Pins := { p with stationStrap := number, peerStrap := peers }

/-- The pins changed in both pictures. -/
def State.updPins (f : Pins → Pins) (s : State) : State :=
  { s with now := { s.now with pins := f s.now.pins }, after := { s.after with pins := f s.after.pins } }

/-- START (R92, R95, R163). -/
def execStart (stationStrap peerStrap : BitVec 3) (s : State) : Host.Outcome State Fault Refusal :=
  .next (State.control (State.startWith stationStrap peerStrap) (s.updPins (Pins.strapped stationStrap peerStrap)))

/-- PROFILE_LOAD (R93, R164). -/
def execProfileLoad (s : State) : Host.Outcome State Fault Refusal := .next (s.control State.loadProfile)

/-- STATUS_READ (R165, R175). -/
def execStatusRead (s : State) : Host.Outcome State Fault Refusal := .next (s.control State.readStatus)

/-- FAULT_LIST_READ (R166). -/
def execFaultListRead (s : State) : Host.Outcome State Fault Refusal := .next (s.control State.readFault)

/-- A write of word 0 (R182): the operation its code names, START with the straps as last read; a code that names none
changes nothing (log entry 12). -/
def State.writeOperation (code : Word) (s : State) : State :=
  if code = 1#32 then s.control (State.startWith s.now.pins.stationStrap s.now.pins.peerStrap)
  else if code = 2#32 then s.control State.loadProfile
  else if code = 3#32 then s.control State.readStatus
  else if code = 4#32 then s.control State.readFault
  else s

/-- A write of a control word (section 11.3, R182): words 1 and 2 are stored, words 3 to 7 are read-only (log entry 12). While a
reset input is low nothing is written; in the slot of its rise, after it, words 1 and 2 are (log entry 14). -/
def State.writeControl (address : BitVec 3) (value : Word) (s : State) : State :=
  if s.after.outOfReset = false then s
  else if address = 0#3 then s.writeOperation value
  else if address = 1#3 then s.close.updControl (fun c => { c with profile0 := value })
  else if address = 2#3 then s.close.updControl (fun c => { c with profile1 := value })
  else s

/-- CONTROL_WORD_WRITE (R182). -/
def execControlWordWrite (address : BitVec 3) (value : Word) (s : State) : Host.Outcome State Fault Refusal :=
  .next (s.writeControl address value)

/-! ### The reset inputs -/

/-- The slot in progress at a lane reset: its frame does not count, but its request, control operation and read are placed
(log entry 27). -/
def Slot.laneReset (t : Slot) : Slot :=
  { Slot.fresh with
    completionRead := t.completionRead, controlPlaced := t.controlPlaced, requestPlaced := t.requestPlaced }

/-- LRST_N pulled low (R20, R24, R89, R112, R168): the station and the array in their reset values, the WRITE bursts in flight
left undefined, the other contents kept; no frame of this slot counts. What this slot has taken of its one request, one control
operation and one read is not given anew, and the words last read stand (log entries 27 and 10). -/
def State.resetLane (s : State) : State :=
  let cut := cutWrites s.free s.now.array.inFlight s.now.array.mem
  let d := Device.stationReset (ArrayDie.reset cut.2) { s.after.pins with lrstN := false }
  { s with now := d, after := d, slot := s.slot.laneReset, free := cut.1 }

/-- LANE_RESET (R89). -/
def execLaneReset (s : State) : Host.Outcome State Fault Refusal := .next s.resetLane

/-- The slot in progress at a station reset: it neither contends nor makes an entry any more; the frame of the slot
goes on without it (R89, R174). -/
def Slot.stationReset (t : Slot) : Slot :=
  { Slot.fresh with
    arbitrated := t.arbitrated, frameHeard := t.frameHeard, closing := t.closing, laneField := t.laneField,
    completionRead := t.completionRead, controlPlaced := t.controlPlaced, requestPlaced := t.requestPlaced }

/-- SRST_N pulled low (R20, R24, R89, R112, R168): the station in its reset values; the array keeps its banks, and takes
undefined data for this station's WRITE bursts still to move. The words last read stand (log entry 10). -/
def State.resetStation (s : State) : State :=
  let before := undriveOwn s.free s.now.array.inFlight
  let later := undriveOwn s.free s.after.array.inFlight
  { s with
    now := Device.stationReset { s.now.array with inFlight := before.2 } { s.now.pins with srstN := false }
    after := Device.stationReset { s.after.array with inFlight := later.2 } { s.after.pins with srstN := false }
    slot := s.slot.stationReset
    free := max before.1 later.1 }

/-- STATION_RESET (R89). -/
def execStationReset (s : State) : Host.Outcome State Fault Refusal := .next s.resetStation

/-- A reset input high again: from the first slot whose start follows, the station stands in its reset values and
takes part (R184). -/
def State.releaseReset (pin : ResetPin) (s : State) : State :=
  s.upd (fun d => { d with pins :=
    match pin with
    | .laneReset => { d.pins with lrstN := true }
    | .stationReset => { d.pins with srstN := true } })

/-- RESET_INPUT_RELEASE (R184). -/
def execResetInputRelease (pin : ResetPin) (s : State) : Host.Outcome State Fault Refusal := .next (s.releaseReset pin)

end Sys2Proof.Machine
end

