-- ==== Sys2Proof/Machine/Frames.lean ====
section
/-! DEFINITION. The frames heard (chapters 1 to 6): the verdict and what a veto counts (R74 to R79, R84, R85), the acceptance by
station state (R78, R83), the effect of each frame kind at a synced station, and the sixteen meanings. -/

namespace Sys2Proof.Machine

/-! ### A vetoed frame (R77, R79, R84 to R86) -/

/-- The bank of a frame as heard, where its kind carries one with a value of 0 to 11 (R77). -/
def bankHeard (k : Option FrameKind) (h : Heard) : Option Bank :=
  match k with
  | some k => if kindHasBank k then bankOf (bankField h.body) else none
  | none => none

/-- The entry a veto makes, by its reason (R77, R171). -/
def VetoReason.entryKind : VetoReason → FaultKind
  | .check => .checkVeto | .malformed => .checkVeto | .rule => .ruleVeto | .stamp => .stampVeto

/-- The vetoer's entry: sender and frame kind as heard, and the bank (R77). -/
def State.vetoEntry (r : VetoReason) (k : Option FrameKind) (h : Heard) (s : State) : State :=
  s.addFault { s.entry r.entryKind with station := some h.sender, bank := bankHeard k h, frame := k }

/-- The sender's entry, of the frame it drove (R79, R171, log entry 24). -/
def State.ownVetoed (s : State) : State :=
  match s.slot.candidate with
  | some f => s.addFault { s.entry .ownVetoed with bank := f.body.bank?, frame := some f.body.kind }
  | none => s

/-- What a veto does to the two counts, and the limits (R84 to R86): `own` says that this station sent the frame,
`vetoer` that it drove the veto. -/
def State.countVeto (own vetoer : Bool) (s : State) : State :=
  match s.now.member.state with
  | .standby | .unsynced | .mismatch => s
  | .rollCall =>
    if own then
      if Config.vetoLimit ≤ s.now.lane.vetoCount + 1 then s.enterUnsynced .vetoLimit false
      else s.upd (fun d => { d with lane := { d.lane with vetoCount := s.now.lane.vetoCount + 1 } })
    else s
  | .synced =>
    if own = true ∧ Config.vetoLimit ≤ s.now.lane.vetoCount + 1 then s.enterUnsynced .vetoLimit false
    else if vetoer = true ∧ Config.dissentLimit ≤ s.now.lane.dissent + 1 then s.enterUnsynced .dissentLimit false
    else
      s.upd (fun d => { d with lane := { d.lane with
        vetoCount := if own then s.now.lane.vetoCount + 1 else s.now.lane.vetoCount
        dissent := if vetoer then s.now.lane.dissent + 1 else s.now.lane.dissent } })

/-- The entries a vetoed frame makes (R77, R79): the vetoer's, of its first reason, and the sender's. -/
def State.vetoEntries (own : Bool) (reason : Option VetoReason) (k : Option FrameKind) (h : Heard) (s : State) : State :=
  match reason, own with
  | some r, true => (s.vetoEntry r k h).ownVetoed
  | some r, false => s.vetoEntry r k h
  | none, true => s.ownVetoed
  | none, false => s

/-- A vetoed frame: the entries and the counts, and nothing else (R79). -/
def State.vetoed (own : Bool) (reason : Option VetoReason) (k : Option FrameKind) (h : Heard) (s : State) : State :=
  (s.vetoEntries own reason k h).countVeto own reason.isSome

/-! ### The effect of an accepted frame at a synced station -/

/-- An accepted OPEN (R7, R32, R37): the bank OPEN with row, holder, age 0 and its guards loaded, the sender out of the list,
a yield point where stations remain, the grant ended; at the sender the head request is HELD (R135). -/
def Device.openTaken (own : Bool) (x : Station) (b : Bank) (row : Row) (d : Device) : Device :=
  let ws := (d.bank b).waiters.erase x
  let d := ({ d with mirror := { d.mirror with lastOpen := some 0 } } : Device).setBank b
    ⟨.opened row x 0 Config.settleGuard Config.minimumOpen, ws,
      if ws.isEmpty then none else some (.before d.member.profile.holdLimit), none⟩
  if own then d.updHead b (fun a => { a with progress := .held }) else d

/-- A bank record after an accepted READ or WRITE (R9, R34): the close guard raised; with close-after set, CLOSE_PENDING
and no yield point. -/
def BankRec.burstTaken (isWrite closeAfter : Bool) (r : BankRec) : BankRec :=
  match r.st with
  | .opened row h age settle g =>
    let guard := max g (if isWrite then Config.writeRelease else Config.readRelease)
    if closeAfter then { r with st := .closePending row h age guard, yield := none }
    else { r with st := .opened row h age settle guard }
  | .closed | .closePending _ _ _ _ | .recharging _ | .refreshing _ _ => r

/-- The slots from a burst's acceptance to the close of its second data slot (R18). -/
def dataSlots (isWrite : Bool) : Nat := if isWrite then Config.writeDataSlots else Config.readDataSlots

/-- An accepted READ or WRITE at the mirror (R9, R18). -/
def Device.burstTaken (x : Station) (isWrite : Bool) (b : Bank) (closeAfter : Bool) (d : Device) : Device :=
  ({ d with mirror := { d.mirror with reservation := some ⟨dataSlots isWrite, isWrite, x⟩ } } : Device).setBank b
    ((d.bank b).burstTaken isWrite closeAfter)

/-- A request one of whose bursts is accepted (R136): ISSUED when that was the last. -/
def Access.burstAccepted (a : Access) : Access :=
  { a with accepted := a.accepted + 1, progress := if a.bursts ≤ a.accepted + 1 then .issued else a.progress }

/-- An own accepted burst (R20, R136): counted for the head request of its bank and entered in the record of own bursts;
it lies in the row the array holds open. -/
def Device.ownBurstTaken (row : Row) (isWrite : Bool) (b : Bank) (column : Column) (d : Device) : Device :=
  match headOf d.port.queue b with
  | none => d
  | some a =>
    { d.updHead b Access.burstAccepted with
      sched := { d.sched with
        ownBursts := d.sched.ownBursts ++ [⟨a.tag, isWrite, b, row, column, dataSlots isWrite, none⟩] } }

/-- The row in which an own burst lies: the one the array holds open at its acceptance. -/
def State.burstRow (b : Bank) (s : State) : Row := (s.now.array.openRow? b).getD 0#14

/-- The burst of an own frame recorded, whatever else the station does of the frame (R20, R83). -/
def State.recordOwnBurst (own : Bool) (body : Body) (s : State) : State :=
  if own then
    match body with
    | .read b column _ => s.upd (Device.ownBurstTaken (s.burstRow b) false b column)
    | .write b column _ => s.upd (Device.ownBurstTaken (s.burstRow b) true b column)
    | .mark _ | .wake | .fullRefresh _ _ _ _ | .bankRefresh _ _ | .close _ _ | .openRow _ _ | .retain | .syncRequest _
    | .rollCall _ _ | .notice _ | .withdraw _ | .vote _ | .presence => s
  else s

/-- An accepted CLOSE at the mirror (R11, R34). -/
def Device.closeTaken (b : Bank) (d : Device) : Device :=
  d.setBank b { d.bank b with st := .recharging Config.recharge, yield := none }

/-- An accepted CLOSE (R11, R45, R141, R144): at the holder, the HELD request is WAITING again, and a forced CLOSE makes a
FORCED_CLOSE entry. -/
def State.closeTaken (x : Station) (b : Bank) (forced : Bool) (s : State) : State :=
  if s.after.holdsOpen b then
    let s' := s.upd (fun d => (d.closeTaken b).updHead b (fun a => { a with progress := .waiting }))
    if forced then
      s'.addFault { s'.entry .forcedClose with
        station := some (BitVec.ofNat 3 x.val), bank := some b, frame := some .close }
    else s'
  else s.upd (Device.closeTaken b)

/-- The refresh account after an accepted BANK REFRESH (R50, R54, R65). -/
def Account.bankRefreshed (b : Bank) (a : Account) : Account :=
  { a with balance := bankRefreshResult a.balance, rotation := rotationAfter a.rotation b, wakeRefresh := a.wakeRefresh - 1 }

/-- An accepted BANK REFRESH (R14, R40): the bank REFRESHING, its grant PAUSED. -/
def Device.bankRefreshTaken (b : Bank) (d : Device) : Device :=
  let r := d.bank b
  ({ d with
    mirror := { d.mirror with lastBankRefresh := some 0 }
    account := d.account.bankRefreshed b } : Device).setBank b
    { r with st := .refreshing Config.bankRefreshBusy .bank, grant := r.grant.map (fun _ => .paused) }

/-- The refresh account after an accepted FULL REFRESH at a synced station (R51, R54, R65). -/
def Account.fullRefreshed (first : Bool) (a : Account) : Account :=
  { a with balance := fullRefreshResult a.balance first, rotation := 0#12, wakeRefresh := 0 }

/-- A NOTICED request is WAITING again where its list is swept (R47). -/
def Access.unnoticed (a : Access) : Access := if a.progress = .noticed then { a with progress := .waiting } else a

/-- An accepted FULL REFRESH at a synced station (R16, R47, R51, R110, R114). -/
def Device.fullRefreshTaken (members : StationSet) (first : Bool) (d : Device) : Device :=
  let d : Device := { d with
    mirror := { d.mirror with
      banks := mapVec (fun _ => BankRec.fullRefreshed) d.mirror.banks
      array := if d.mirror.array = .uninit then .active else d.mirror.array }
    account := d.account.fullRefreshed first
    member := { d.member with members := members, syncPending := 0#6, ages := Vector.replicate 6 0 }
    retention := { d.retention with votes := 0#6 }
    port := { d.port with queue := mapAccess Access.unnoticed d.port.queue } }
  d.resumeOnVoteLeft

/-- The refresh account after an accepted MARK (R49, R61, R64). -/
def Account.marked (array : ArrayState) (interval : Nat) (index : BitVec 8) (a : Account) : Account :=
  { a with
    balance := markResult a.balance array, index := index, aligned := true, countdown := some interval, lastMark := some 0,
    pendingMark := false }

/-- Does the credit of a MARK meet the ceiling (R49)? -/
def Device.overruns (d : Device) : Bool := d.mirror.array != .retaining && decide (Config.urgentLevel < d.account.balance)

/-- An accepted MARK (R49, R61): an overrun makes its entry, with the MARK's index, and leaves nothing of the array's contents
assured (R24, log entry 20). -/
def State.markTaken (x : Station) (index : BitVec 8) (s : State) : State :=
  let overrun := s.after.overruns
  let s := { s with slot := { s.slot with markIndex := some index } }
  let s := s.upd (fun d => { d with account := d.account.marked d.mirror.array d.member.profile.interval index })
  if overrun then
    (s.upd (Device.updArray ArrayDie.unassured)).addFault { s.entry .balanceOverrun with station := some (BitVec.ofNat 3 x.val), frame := some .mark }
  else s

/-- An accepted RETAIN (R21, R118): the array RETAINING, the age mark 0, the RETAIN request of a station whose own vote is
set DONE; a RESUME on the vote path moves to the wake path (R127). -/
def Device.retainTaken (d : Device) : Device :=
  let d : Device := { d with
    mirror := { d.mirror with array := .retaining }, retention := { d.retention with ageMark := some 0 } }
  let d := if d.retention.ownVote then d.completeRetain .done else d
  match d.retention.resume with
  | some r => if r.path = .vote then d.resumeTo .wake else d
  | none => d

/-- An accepted WAKE (R21, R65, R120, R127). -/
def Device.wakeTaken (d : Device) : Device :=
  let d : Device := { d with
    mirror := { d.mirror with array := .waking }
    account := { d.account with wakeRefresh := Config.wakeRefreshRound }
    retention := { d.retention with votes := 0#6, ageMark := none, wakingGuard := some Config.wakingGuard } }
  (d.resumeDone .wake).resumeOnVoteLeft

/-- The bank record after an accepted NOTICE from `x`: `x` at the tail, and by the bank's state a yield point, by the
hold limit and the hold age, or the grant given (R29, R32). The list is the one before the drops of this close: where the only
waiter is dropped at it (R46), a yield point in GRACE or BARRED stands, and a PAUSED grant passes on: the model's choice (log
entry 35). -/
def BankRec.noticed (holdLimit : Nat) (fresh : Grant) (x : Station) (r : BankRec) : BankRec :=
  let r' := { r with waiters := r.waiters ++ [x] }
  match r.st with
  | .opened _ _ age _ _ =>
    if r.waiters.isEmpty then
      { r' with yield := some (if age < holdLimit then .before (holdLimit - age) else .grace Config.grace) }
    else r'
  | .closed => if r.grant.isNone then { r' with grant := some fresh } else r'
  | .closePending _ _ _ _ | .recharging _ | .refreshing _ _ => r'

/-- An accepted NOTICE (R29); at the sender the head request is NOTICED (R134). -/
def Device.noticeTaken (own : Bool) (x : Station) (b : Bank) (d : Device) : Device :=
  let d := d.setBank b ((d.bank b).noticed d.member.profile.holdLimit d.freshGrant x)
  if own then d.updHead b (fun a => { a with progress := .noticed }) else d

/-- An accepted WITHDRAW (R30, R39); at the sender a NOTICED request is WAITING again (R134). -/
def Device.withdrawTaken (own : Bool) (x : Station) (b : Bank) (d : Device) : Device :=
  let d := d.setBank b ((d.bank b).leave d.member.profile.grantWindow x)
  if own then d.updHead b (fun a => { a with progress := .waiting }) else d

/-- An accepted VOTE (R115, R127). -/
def Device.voteTaken (x : Station) (on : Bool) (d : Device) : Device :=
  ({ d with retention := { d.retention with
      votes := if on then d.retention.votes.add x else d.retention.votes.drop x } } : Device).resumeOnVoteLeft

/-- The sender of an accepted ROLL CALL or SYNC REQUEST joins the sync-pending set (R106). -/
def Device.syncAsked (x : Station) (d : Device) : Device :=
  { d with member := { d.member with syncPending := d.member.syncPending.add x } }

/-- Do the digest, the peer count and the sender's number of a ROLL CALL or SYNC REQUEST agree with this station's (R94,
R96, R106)? -/
def Device.profileAgrees (d : Device) (x : Station) : Body → Bool
  | .syncRequest digest => d.member.digest == some digest && decide (x.val < d.peers)
  | .rollCall digest peers => d.member.digest == some digest && peers.toNat == d.peers && decide (x.val < d.peers)
  | .mark _ | .wake | .fullRefresh _ _ _ _ | .bankRefresh _ _ | .close _ _ | .openRow _ _ | .read _ _ _ | .write _ _ _
  | .retain | .notice _ | .withdraw _ | .vote _ | .presence => true

/-- The effect of an accepted frame of each kind at a synced station. -/
def State.bodyTaken (own : Bool) (x : Station) (body : Body) (s : State) : State :=
  match body with
  | .mark index => s.markTaken x index
  | .wake => s.upd Device.wakeTaken
  | .fullRefresh _ members first _ => s.upd (Device.fullRefreshTaken members first)
  | .bankRefresh b _ => (s.lapseIfDue b).upd (Device.bankRefreshTaken b)
  | .close b forced => s.closeTaken x b forced
  | .openRow b row => s.upd (Device.openTaken own x b row)
  | .read b _ ca => (s.recordOwnBurst own body).upd (Device.burstTaken x false b ca)
  | .write b _ ca => (s.recordOwnBurst own body).upd (Device.burstTaken x true b ca)
  | .retain => s.upd Device.retainTaken
  | .syncRequest _ => if s.now.profileAgrees x body then s.upd (Device.syncAsked x) else s
  | .rollCall _ _ => if s.now.profileAgrees x body then s.upd (Device.syncAsked x) else s
  | .notice b => s.upd (Device.noticeTaken own x b)
  | .withdraw b => s.upd (Device.withdrawTaken own x b)
  | .vote on => s.upd (Device.voteTaken x on)
  | .presence => s

/-! ### Acceptance by station state (R78, R83) -/

/-- The turn pointer after an accepted frame (R73). -/
def turnAfter (peers turn : Nat) (k : FrameKind) : Nat := if k = .fullRefresh then 0 else (turn + 1) % peers

/-- What every acceptance does at a synced station: the turn pointer, the sender's age, the two counts (R73, R78, R84,
R85). -/
def Device.acceptCommon (own : Bool) (x : Station) (k : FrameKind) (d : Device) : Device :=
  { d with
    lane := ⟨if own then 0 else d.lane.vetoCount, 0, turnAfter d.peers d.lane.turn k⟩
    member := { d.member with ages := d.member.ages.set x 0 } }

/-- A PROFILE_MISMATCH entry, naming the sender and the frame kind (R94, R111). -/
def State.mismatchEntry (x : Station) (k : FrameKind) (s : State) : State :=
  s.addFault { s.entry .profileMismatch with station := some (BitVec.ofNat 3 x.val), frame := some k }

/-- The comparison of every accepted ROLL CALL and SYNC REQUEST in ROLL_CALL, UNSYNCED and SYNCED (R94, R172, log entry
28). -/
def State.compareProfile (x : Station) (body : Body) (s : State) : State :=
  if s.now.profileAgrees x body then s else s.mismatchEntry x body.kind

/-- The own number named by a membership field. -/
def Device.namedIn (d : Device) (members : StationSet) : Bool :=
  match d.ownNumber with
  | some x => members.has x
  | none => false

/-- A RESYNCED entry (R172). -/
def State.resyncedEntry (x : Station) (s : State) : State :=
  s.addFault { s.entry .resynced with station := some (BitVec.ofNat 3 x.val), frame := some .fullRefresh }

/-- The own consecutive-veto count set to 0 at the sender of an accepted frame (R84). -/
def State.ownAccepted (own : Bool) (s : State) : State :=
  if own then s.upd (fun d => { d with lane := { d.lane with vetoCount := 0 } }) else s

/-- An accepted FULL REFRESH at a station in ROLL_CALL (R99). At the close at which the roll-call window expires with the own
number not in the set, R97 gives UNSYNCED and R99 the frame's outcome: that SYNCED and MISMATCH stand there, the window stopped, is
the model's reading (log entry 33). Left out there, the station leaves for the first reason in R91's order, lane running. -/
def State.fullRefreshInRollCall (own : Bool) (x : Station) (ba : Int) (members : StationSet) (first : Bool)
    (digest : BitVec 16) (s : State) : State :=
  if s.now.member.digest = some digest then
    if s.now.namedIn members then
      let s := (s.ownAccepted own).upd (Device.toSynced members first ba)
      if first then s else s.resyncedEntry x
    else if s.rollCallLapses then s.enterUnsynced .laneRunning s.after.member.rollCallAccepted
    else s.enterUnsynced .leftOut false
  else (s.mismatchEntry x .fullRefresh).upd Device.toMismatch

/-- An accepted FULL REFRESH at an UNSYNCED station (R111). -/
def State.fullRefreshUnsynced (x : Station) (ba : Int) (members : StationSet) (first : Bool) (digest : BitVec 16)
    (s : State) : State :=
  if s.now.member.digest = some digest then
    if s.now.namedIn members then (s.upd (Device.toSynced members first ba)).resyncedEntry x
    else s.upd (fun d => { d with member := { d.member with requestMade := false } })
  else (s.mismatchEntry x .fullRefresh).upd Device.toMismatch

/-- The sender of an agreeing ROLL CALL joins the roll-call set; with N stations in it roll call ends and the window
stops (R96, R97). `own` notes the own ROLL CALL accepted. -/
def Device.rollCallJoined (own : Bool) (x : Station) (d : Device) : Device :=
  let set := d.member.rollCall.add x
  let full := decide (d.peers ≤ (allStations.filter (fun y => set.has y)).length)
  { d with member := { d.member with
      rollCall := set
      rollCallAccepted := d.member.rollCallAccepted || own
      rollCallEnded := d.member.rollCallEnded || full
      window := if full then none else d.member.window } }

/-- An accepted ROLL CALL at a station in ROLL_CALL (R96, R97); the comparison's entry is made by `compareProfile`. -/
def State.rollCallHeard (own : Bool) (x : Station) (body : Body) (s : State) : State :=
  let s := s.ownAccepted own
  if s.now.profileAgrees x body then s.upd (Device.rollCallJoined own x)
  else s.upd (fun d => { d with member := { d.member with rollCallAccepted := d.member.rollCallAccepted || own } })

/-- An accepted frame at a station in ROLL_CALL (R96 to R100). -/
def State.acceptInRollCall (own : Bool) (f : Frame) (s : State) : State :=
  match f.body with
  | .rollCall _ _ => s.rollCallHeard own f.sender f.body
  | .fullRefresh ba members first digest => s.fullRefreshInRollCall own f.sender ba members first digest
  | .mark _ | .wake | .bankRefresh _ _ | .close _ _ | .openRow _ _ | .read _ _ _ | .write _ _ _ | .retain
  | .syncRequest _ | .notice _ | .withdraw _ | .vote _ | .presence =>
    s.enterUnsynced .laneRunning s.after.member.rollCallAccepted

/-- The own age set to 0 by an accepted frame of the own number (R102). -/
def Device.heardUnsynced (x : Station) (d : Device) : Device :=
  if d.isOwn x then { d with member := { d.member with ages := d.member.ages.set x 0 } } else d

/-- An accepted frame at an UNSYNCED station (R102, R105, R111). -/
def State.acceptUnsynced (own : Bool) (f : Frame) (s : State) : State :=
  let s := s.upd (Device.heardUnsynced f.sender)
  match f.body with
  | .fullRefresh ba members first digest => s.fullRefreshUnsynced f.sender ba members first digest
  | .syncRequest _ =>
    if own then s.upd (fun d => { d with member := { d.member with requestMade := true } }) else s
  | .mark _ | .wake | .bankRefresh _ _ | .close _ _ | .openRow _ _ | .read _ _ _ | .write _ _ _ | .retain | .rollCall _ _
  | .notice _ | .withdraw _ | .vote _ | .presence => s

/-- Does the station drop itself at the close of this slot, whatever frame of another station but a FULL REFRESH is
accepted in it (R104)? -/
def State.dropsSelf (f : Frame) (s : State) : Bool :=
  match s.now.ownNumber with
  | some x => s.dropDue x && f.sender != x && f.body.kind != .fullRefresh
  | none => false

/-- An accepted frame at a synced station. A station that drops itself at this close does not apply the frame (R83, R91, log
entry 18); an own READ or WRITE is recorded all the same (R20). -/
def State.acceptSynced (own : Bool) (f : Frame) (s : State) : State :=
  if s.dropsSelf f then (s.recordOwnBurst own f.body).enterUnsynced .selfDropped false
  else ((s.bodyTaken own f.sender f.body).upd (Device.acceptCommon own f.sender f.body.kind)).regrant

/-- The data a WRITE brings: at the sender its request's burst at that position (R136), otherwise what the data lane will
carry. -/
def State.writeData (own : Bool) (body : Body) (laneData : Burst) (s : State) : Burst :=
  match own, body.bank? with
  | true, some b =>
    match headOf s.now.port.queue b with
    | some a => a.data.getD a.accepted laneData
    | none => laneData
  | true, none => laneData
  | false, _ => laneData

/-- An accepted frame (R78): the array applies it (R22), then the station by its state. -/
def State.accepted (own : Bool) (f : Frame) (laneData : Burst) (s : State) : State :=
  let s := s.upd (Device.updArray (ArrayDie.accept own (s.writeData own f.body laneData) f.body))
  match s.now.member.state with
  | .standby | .mismatch => s
  | .rollCall => (s.compareProfile f.sender f.body).acceptInRollCall own f
  | .unsynced => (s.compareProfile f.sender f.body).acceptUnsynced own f
  | .synced => (s.compareProfile f.sender f.body).acceptSynced own f

/-! ### A frame heard -/

/-- Did a bit of the frame this station sent read back differently (R75)? -/
def State.readBackBad (k : Option FrameKind) (h : Heard) (s : State) : Bool :=
  match s.slot.won, s.slot.candidate with
  | true, some f => !readsBack f k h
  | true, none => false
  | false, _ => false

/-- Does the array veto (R23, R87)? It judges form by all of R76's table, a class not permitted for the kind included; that R87's
'neither reads the class' takes none of that away is the model's reading (log entry 31). -/
def State.arrayVeto (k : Option FrameKind) (h : Heard) (s : State) : Bool :=
  !checkOk k h ||
    (match k.bind (fun k => decodeFrame k h) with
     | some f => arrayVetoes s.now.array f.body
     | none => true)

/-- Does the lane read as empty: all ones in the arbitration field, with this station driving nothing (R69)? A slot whose field
stops part way at a peer's station reset, which every party treats as empty too (R89), comes as no frame command; a command with
such bits is judged as a frame: the model's choice (log entry 36). -/
def State.laneEmpty (k : Option FrameKind) (h : Heard) (s : State) : Bool :=
  fieldHeard k h == BitVec.allOnes 12 && !s.slot.won

/-- The frame of the slot: judged by this station and the array, and with the peers' veto vetoed or accepted (R77 to R79). An
empty slot carries none (R69), and while LRST_N is low nobody acts on it (R89, R184). -/
def State.heard (k : Option FrameKind) (h : Heard) (laneData : Burst) (s : State) : State :=
  let s := { s with slot := { s.slot with frameHeard := true } }
  if s.now.pins.lrstN = false ∨ s.laneEmpty k h = true then s
  else
    let own := s.slot.won
    let reason := stationVerdict s.now k h (s.readBackBad k h)
    if reason.isSome || s.arrayVeto k h || h.peerVeto then s.vetoed own reason k h
    else
      match k.bind (fun k => decodeFrame k h) with
      | some f => s.accepted own f laneData
      | none => s

/-- A frame command: the slot it falls in, then the frame (log entry 3). -/
def hear (k : Option FrameKind) (h : Heard) (laneData : Burst) (s : State) : Host.Outcome State Fault Refusal :=
  .next (State.heard k h laneData s.laneSlot)

/-- OPEN (R5 to R7). -/
def execOpenFrame (h : Heard) (s : State) : Host.Outcome State Fault Refusal := hear (some .openRow) h 0#512 s
/-- READ (R8, R9, R18 to R20). -/
def execReadFrame (h : Heard) (s : State) : Host.Outcome State Fault Refusal := hear (some .read) h 0#512 s
/-- WRITE (R8, R9, R18 to R20). -/
def execWriteFrame (h : Heard) (laneData : Burst) (s : State) : Host.Outcome State Fault Refusal :=
  hear (some .write) h laneData s
/-- CLOSE, plain and forced (R11, R42 to R45). -/
def execCloseFrame (h : Heard) (s : State) : Host.Outcome State Fault Refusal := hear (some .close) h 0#512 s
/-- BANK REFRESH (R13, R14, R40, R50, R52, R54). -/
def execBankRefreshFrame (h : Heard) (s : State) : Host.Outcome State Fault Refusal := hear (some .bankRefresh) h 0#512 s
/-- FULL REFRESH (R15, R16, R47, R51, R99, R109 to R111). -/
def execFullRefreshFrame (h : Heard) (s : State) : Host.Outcome State Fault Refusal := hear (some .fullRefresh) h 0#512 s
/-- MARK (R49, R60, R61, R64). -/
def execMarkFrame (h : Heard) (s : State) : Host.Outcome State Fault Refusal := hear (some .mark) h 0#512 s
/-- RETAIN (R117, R118, R123). -/
def execRetainFrame (h : Heard) (s : State) : Host.Outcome State Fault Refusal := hear (some .retain) h 0#512 s
/-- WAKE (R120, R123). -/
def execWakeFrame (h : Heard) (s : State) : Host.Outcome State Fault Refusal := hear (some .wake) h 0#512 s
/-- SYNC REQUEST (R94, R105, R106). -/
def execSyncRequestFrame (h : Heard) (s : State) : Host.Outcome State Fault Refusal := hear (some .syncRequest) h 0#512 s
/-- ROLL CALL (R94, R96, R97, R106). -/
def execRollCallFrame (h : Heard) (s : State) : Host.Outcome State Fault Refusal := hear (some .rollCall) h 0#512 s
/-- NOTICE (R28, R29, R32). -/
def execNoticeFrame (h : Heard) (s : State) : Host.Outcome State Fault Refusal := hear (some .notice) h 0#512 s
/-- WITHDRAW (R30, R39). -/
def execWithdrawFrame (h : Heard) (s : State) : Host.Outcome State Fault Refusal := hear (some .withdraw) h 0#512 s
/-- VOTE (R115). -/
def execVoteFrame (h : Heard) (s : State) : Host.Outcome State Fault Refusal := hear (some .vote) h 0#512 s
/-- PRESENCE (R103). -/
def execPresenceFrame (h : Heard) (s : State) : Host.Outcome State Fault Refusal := hear (some .presence) h 0#512 s
/-- A frame whose kind code is 15: malformed wherever its check holds (R76, R171). -/
def execKindCode15Frame (h : Heard) (s : State) : Host.Outcome State Fault Refusal := hear none h 0#512 s

end Sys2Proof.Machine
end

