-- ==== Sys2Proof/Machine/Events.lean ====
section
/-! DEFINITION. The meanings of what no frame and no client brings: the events at the start of a slot (R71, R81, R103, R132) and the
expiries at its close. An expiry that is not due changes nothing (log entry 4). -/

namespace Sys2Proof.Machine

/-- The fields that contend in a slot: this station's candidate's, if it has one, and the others'. -/
def contenders (candidate : Option Frame) (others : List (BitVec 12)) : List (BitVec 12) :=
  (candidate.map Frame.field).toList ++ others

/-- Has the candidate won: does its field read back unchanged to the last bit (R71)? -/
def wonBy (candidate : Option Frame) (others : List (BitVec 12)) : Bool :=
  match candidate with
  | some f => (arbitrate (contenders candidate others)).contains f.field
  | none => false

/-- What the station contends with; nothing while a reset input is low (R184). -/
def Device.contending (d : Device) : Option Frame := if d.outOfReset then d.candidate else none

/-- The arbitration of a slot (R71, R81): the candidate chosen, and what the lane reads. -/
def State.arbitrate (others : List (BitVec 12)) (s : State) : State :=
  let c := s.now.contending
  { s with slot := { s.slot with
      arbitrated := true, candidate := c, won := wonBy c others
      laneField := (Sys2Proof.Machine.arbitrate (contenders c others)).head? } }

/-- SLOT_ARBITRATION (R71, R80, R81). -/
def execSlotArbitration (others : List (BitVec 12)) (s : State) : Host.Outcome State Fault Refusal :=
  .next (State.arbitrate others s.startingSlot)

/-- The standing PRESENCE offer brought up to the own age, in both pictures (R103). -/
def State.reachPresence (s : State) : State :=
  let offer := s.now.presenceReached.member.presence
  { s with
    now := { s.now with member := { s.now.member with presence := offer } }
    after := { s.after with member := { s.after.member with presence := offer } } }

/-- PRESENCE_AGE_REACHED (R103). -/
def execPresenceAgeReached (s : State) : Host.Outcome State Fault Refusal := .next (State.reachPresence s.startingSlot)

/-- The completion reservations of the slot taken, in both pictures (R132). -/
def State.reserveCompletions (s : State) : State :=
  let d := s.now.takeReservations
  { s with now := d, after := s.after.setQueue d.port.queue }

/-- COMPLETION_RESERVATION (R132). -/
def execCompletionReservation (s : State) : Host.Outcome State Fault Refusal :=
  .next (State.reserveCompletions s.startingSlot)

/-- SETTLE_GUARD_EXPIRY (R3, R7). -/
def execSettleGuardExpiry (b : Bank) (s : State) : Host.Outcome State Fault Refusal := .next (s.takeSettle b)
/-- CLOSE_GUARD_EXPIRY (R10). -/
def execCloseGuardExpiry (b : Bank) (s : State) : Host.Outcome State Fault Refusal := .next (s.takeCloseGuard b)
/-- RECHARGE_EXPIRY (R12, R36). -/
def execRechargeExpiry (b : Bank) (s : State) : Host.Outcome State Fault Refusal := .next (s.takeRecharge b)
/-- REFRESH_BUSY_EXPIRY (R17, R36, R40). -/
def execRefreshBusyExpiry (b : Bank) (s : State) : Host.Outcome State Fault Refusal := .next (s.takeRefreshBusy b)
/-- YIELD_BEFORE_EXPIRY (R33). -/
def execYieldBeforeExpiry (b : Bank) (s : State) : Host.Outcome State Fault Refusal := .next (s.takeYieldBefore b)
/-- YIELD_GRACE_EXPIRY (R33). -/
def execYieldGraceExpiry (b : Bank) (s : State) : Host.Outcome State Fault Refusal := .next (s.takeYieldGrace b)
/-- GRANT_WINDOW_EXPIRY (R38, R39). -/
def execGrantWindowExpiry (b : Bank) (s : State) : Host.Outcome State Fault Refusal := .next (s.takeGrantWindow b)
/-- INTERVAL_COUNTDOWN_EXPIRY (R62). -/
def execIntervalCountdownExpiry (s : State) : Host.Outcome State Fault Refusal := .next s.takeInterval
/-- WAKING_GUARD_EXPIRY (R41, R122). -/
def execWakingGuardExpiry (s : State) : Host.Outcome State Fault Refusal := .next s.takeWakingGuard
/-- ROLL_CALL_WINDOW_EXPIRY (R91, R97). -/
def execRollCallWindowExpiry (s : State) : Host.Outcome State Fault Refusal := .next s.takeRollCallWindow
/-- MEMBER_DROP (R46, R104). -/
def execMemberDrop (m : Station) (s : State) : Host.Outcome State Fault Refusal := .next (s.takeDrop m)
/-- IDLE_CLOSE_TIMER_EXPIRY (R140). -/
def execIdleCloseTimerExpiry (b : Bank) (s : State) : Host.Outcome State Fault Refusal := .next (s.takeIdle b)
/-- DATA_LANE_RESERVATION_FREE (R18). -/
def execDataLaneReservationFree (s : State) : Host.Outcome State Fault Refusal := .next s.takeReservationFree
/-- LAST_DATA_SLOT_CLOSE (R20, R136, R159). -/
def execLastDataSlotClose (s : State) : Host.Outcome State Fault Refusal := .next s.takeDataSlots
/-- DETACHED_COMPLETION_POSTED (R161). -/
def execDetachedCompletionPosted (s : State) : Host.Outcome State Fault Refusal := .next s.takeDetached
/-- OWN_AGE_LIMIT_UNSYNCED (R105). -/
def execOwnAgeLimitUnsynced (s : State) : Host.Outcome State Fault Refusal := .next s.takeOwnAgeLimit

end Sys2Proof.Machine
end

