-- ==== Sys2Proof/Machine/Dispatch.lean ====
section
/-! DEFINITION. One arm per command, each one direct call of its meaning. -/

namespace Sys2Proof.Machine

/-- The command's effect on everything but the queue. -/
def exec (i : Instr) (s : State) : Host.Outcome State Fault Refusal :=
  match i with
  | .openFrame h => Sys2Proof.Machine.execOpenFrame h s
  | .readFrame h => Sys2Proof.Machine.execReadFrame h s
  | .writeFrame h laneData => Sys2Proof.Machine.execWriteFrame h laneData s
  | .closeFrame h => Sys2Proof.Machine.execCloseFrame h s
  | .bankRefreshFrame h => Sys2Proof.Machine.execBankRefreshFrame h s
  | .fullRefreshFrame h => Sys2Proof.Machine.execFullRefreshFrame h s
  | .markFrame h => Sys2Proof.Machine.execMarkFrame h s
  | .retainFrame h => Sys2Proof.Machine.execRetainFrame h s
  | .wakeFrame h => Sys2Proof.Machine.execWakeFrame h s
  | .syncRequestFrame h => Sys2Proof.Machine.execSyncRequestFrame h s
  | .rollCallFrame h => Sys2Proof.Machine.execRollCallFrame h s
  | .noticeFrame h => Sys2Proof.Machine.execNoticeFrame h s
  | .withdrawFrame h => Sys2Proof.Machine.execWithdrawFrame h s
  | .voteFrame h => Sys2Proof.Machine.execVoteFrame h s
  | .presenceFrame h => Sys2Proof.Machine.execPresenceFrame h s
  | .slotArbitration others => Sys2Proof.Machine.execSlotArbitration others s
  | .settleGuardExpiry b => Sys2Proof.Machine.execSettleGuardExpiry b s
  | .closeGuardExpiry b => Sys2Proof.Machine.execCloseGuardExpiry b s
  | .rechargeExpiry b => Sys2Proof.Machine.execRechargeExpiry b s
  | .refreshBusyExpiry b => Sys2Proof.Machine.execRefreshBusyExpiry b s
  | .yieldBeforeExpiry b => Sys2Proof.Machine.execYieldBeforeExpiry b s
  | .yieldGraceExpiry b => Sys2Proof.Machine.execYieldGraceExpiry b s
  | .grantWindowExpiry b => Sys2Proof.Machine.execGrantWindowExpiry b s
  | .intervalCountdownExpiry => Sys2Proof.Machine.execIntervalCountdownExpiry s
  | .wakingGuardExpiry => Sys2Proof.Machine.execWakingGuardExpiry s
  | .rollCallWindowExpiry => Sys2Proof.Machine.execRollCallWindowExpiry s
  | .memberDrop m => Sys2Proof.Machine.execMemberDrop m s
  | .presenceAgeReached => Sys2Proof.Machine.execPresenceAgeReached s
  | .idleCloseTimerExpiry b => Sys2Proof.Machine.execIdleCloseTimerExpiry b s
  | .dataLaneReservationFree => Sys2Proof.Machine.execDataLaneReservationFree s
  | .lastDataSlotClose => Sys2Proof.Machine.execLastDataSlotClose s
  | .completionReservation => Sys2Proof.Machine.execCompletionReservation s
  | .readRequest w0 w1 => Sys2Proof.Machine.execReadRequest w0 w1 s
  | .writeRequest w0 w1 data => Sys2Proof.Machine.execWriteRequest w0 w1 data s
  | .retainRequest w0 w1 => Sys2Proof.Machine.execRetainRequest w0 w1 s
  | .resumeRequest w0 w1 => Sys2Proof.Machine.execResumeRequest w0 w1 s
  | .cancel w0 w1 => Sys2Proof.Machine.execCancel w0 w1 s
  | .completionRead => Sys2Proof.Machine.execCompletionRead s
  | .detachedCompletionPosted => Sys2Proof.Machine.execDetachedCompletionPosted s
  | .start stationStrap peerStrap => Sys2Proof.Machine.execStart stationStrap peerStrap s
  | .profileLoad => Sys2Proof.Machine.execProfileLoad s
  | .statusRead => Sys2Proof.Machine.execStatusRead s
  | .faultListRead => Sys2Proof.Machine.execFaultListRead s
  | .controlWordWrite address value => Sys2Proof.Machine.execControlWordWrite address value s
  | .laneReset => Sys2Proof.Machine.execLaneReset s
  | .stationReset => Sys2Proof.Machine.execStationReset s
  | .kindCode15Frame h => Sys2Proof.Machine.execKindCode15Frame h s
  | .ownAgeLimitUnsynced => Sys2Proof.Machine.execOwnAgeLimitUnsynced s
  | .resetInputRelease pin => Sys2Proof.Machine.execResetInputRelease pin s

end Sys2Proof.Machine
end

