-- ==== Sys2Proof/Safety.lean ====
section
/-! DEFINITION. The conditions the statements speak of: a slot that has just begun, the invariants, and a frame carried and accepted in
the slot in progress. -/

namespace Sys2Proof.Machine

/-! ### The slot in progress -/

/-- Nothing has been heard in the slot in progress, and its close has not begun. -/
def State.begun (s : State) : Prop := s.slot.frameHeard = false ∧ s.slot.closing = false

/-- The picture after the close is the present one with its countdowns counted, and no entry has been made at it: what
holds while nothing has happened in the slot. -/
def State.counted (s : State) : Prop :=
  s.after = { s.now.countSlot with pins := s.after.pins } ∧ s.slot.entries = [] ∧ s.slot.markIndex = none
    ∧ s.slot.faultRead = false ∧ s.slot.discarded = false

/-- A slot in which nothing has happened is counted. -/
def State.freshSlot (s : State) : Prop := s.begun → s.counted

/-! ### Invariants of one picture -/

/-- The balance lies between -48 and 60 (R48), and the rotation set never holds all twelve banks (R54). -/
def Device.accountOk (d : Device) : Prop :=
  -48 ≤ d.account.balance ∧ d.account.balance ≤ 60 ∧ d.account.rotation ≠ BitVec.allOnes 12

/-- The two veto counts stay below their limits (R84, R85, R90), and the fault list holds at most 8 entries (R169). -/
def Device.countsOk (d : Device) : Prop := d.lane.vetoCount ≤ 4 ∧ d.lane.dissent ≤ 3 ∧ d.faults.length ≤ 8

/-- The array's contents keep their canonical form. -/
def Device.memoryOk (d : Device) : Prop := Memory.wf d.array.mem = true

/-- No grant is RUNNING while a freezing condition holds, and none FROZEN while none does (R41). -/
def Device.grantsSettled (d : Device) : Prop :=
  ∀ b : Bank, (∀ w, (d.bank b).grant = some (.running w) → d.freezing = false)
    ∧ ((d.bank b).grant = some .frozen → d.freezing = true)

/-- Everything but the array and the pins holds its reset value (R2, R26, R67, R73, R84, R85, R112, R113, R130, R168, R169,
R182). -/
def Device.holdsResetValues (d : Device) : Prop :=
  d.lane = ⟨0, 0, 0⟩
    ∧ (∀ b, d.bank b = ⟨.closed, [], none, none⟩) ∧ d.mirror.lastOpen = none ∧ d.mirror.lastBankRefresh = none
    ∧ d.mirror.reservation = none ∧ d.mirror.array = .uninit
    ∧ d.account = ⟨0, 0#12, 0#8, false, none, none, false, 0⟩
    ∧ d.member = ⟨.standby, none, ⟨160, 64, 12, 8, false⟩, none, 0#6, 0#6, 0#6, #v[0, 0, 0, 0, 0, 0], none, false, false, false, none⟩
    ∧ d.retention = ⟨0#6, false, none, none, none⟩
    ∧ (∀ b : Bank, d.sched.idle[b] = none) ∧ d.sched.ownBursts = []
    ∧ d.port.queue = [] ∧ d.port.completions = [] ∧ d.port.overflow = false ∧ d.port.heldRequest = none
    ∧ profileOf d.port.control.profile0 d.port.control.profile1 = ⟨160, 64, 12, 8, false⟩
    ∧ d.port.control.outcome = 0#32 ∧ d.port.control.statusA = 0#32 ∧ d.port.control.statusB = 0#32
    ∧ d.port.control.statusC = 0#32 ∧ d.port.control.fault = 0#32 ∧ d.faults = [] ∧ d.alert = false

/-- Both pictures satisfy `P`. -/
def State.both (P : Device → Prop) (s : State) : Prop := P s.now ∧ P s.after

/-- A station that is not synced has no waiter and no grant on any bank (R26), and a synced one has its grants settled. -/
def Device.grantsOk (d : Device) : Prop :=
  d.grantsSettled ∧ (d.member.state ≠ .synced → ∀ b : Bank, (d.bank b).waiters = [] ∧ (d.bank b).grant = none)

/-- The invariant of the grants (R26, R41): both pictures are in order, a station in STANDBY at the start of a slot is not
synced at its close, and a slot in which nothing has happened is counted. -/
def State.grantsOk (s : State) : Prop :=
  s.both Device.grantsOk ∧ (s.now.member.state = .standby → s.after.member.state ≠ .synced)
    ∧ s.freshSlot

/-! ### Frames -/

/-- The command that brings a frame of the given kind, kind code 15 where there is none. -/
def frameCommand (k : Option FrameKind) (h : Heard) (laneData : Burst) : Instr :=
  match k with
  | none => .kindCode15Frame h
  | some .openRow => .openFrame h
  | some .read => .readFrame h
  | some .write => .writeFrame h laneData
  | some .close => .closeFrame h
  | some .bankRefresh => .bankRefreshFrame h
  | some .fullRefresh => .fullRefreshFrame h
  | some .mark => .markFrame h
  | some .retain => .retainFrame h
  | some .wake => .wakeFrame h
  | some .syncRequest => .syncRequestFrame h
  | some .rollCall => .rollCallFrame h
  | some .notice => .noticeFrame h
  | some .withdraw => .withdrawFrame h
  | some .vote => .voteFrame h
  | some .presence => .presenceFrame h

/-- The frame `f` is carried in the slot in progress, the first of it, with a correct check and form; neither a peer nor
the array vetoes it, and if this station sent it every bit reads back. -/
structure Carried (h : Heard) (f : Frame) (s : State) : Prop where
  begun : s.begun
  lane : s.now.pins.lrstN = true
  check : checkOk (some f.body.kind) h = true
  form : decodeFrame f.body.kind h = some f
  peers : h.peerVeto = false
  back : s.readBackBad (some f.body.kind) h = false
  array : arrayVetoes s.now.array f.body = false

/-- The frame `f` is accepted at a synced station that finds it legal and does not drop itself at this close; the slot
is one in which nothing has happened yet. -/
structure Accepted (h : Heard) (f : Frame) (s : State) : Prop where
  carried : Carried h f s
  counted : s.counted
  settled : s.now.grantsSettled
  synced : s.now.member.state = .synced
  legal : judge s.now f = none
  stays : s.dropsSelf f = false

/-- Is a frame heard vetoed: the lane does not read as empty, and this station's verdict, the array or a peer vetoes it? -/
def State.vetoes (s : State) (k : Option FrameKind) (h : Heard) : Prop :=
  s.laneEmpty k h = false ∧
  ((stationVerdict s.now k h (s.readBackBad k h)).isSome = true ∨ s.arrayVeto k h = true ∨ h.peerVeto = true)

end Sys2Proof.Machine
end

