-- ==== Sys2Proof/Certificates/Slice0/Obligations.lean ====
section
/-! DEFINITION. The statements for the provers: the queue, verdicts, accepted and vetoed frames, the events of a slot, the client's
requests, the control window, the resets, arbitration and candidates, encodings and invariants. -/

section

open Sys2Proof Sys2Proof.Machine

/-- The command at the front of the queue is taken and run on the state with the queue's rest (the queue is the model's own). -/
def Obligations.StepRunsTheCommandAtTheFront : Prop :=
    ∀ (c : Instr) (s : State) (rest : List Instr),
    (s.pending = c :: rest → step s = exec c { s with pending := rest })

/-- The part has no stop: every command of the table answers a next state in every state, and none touches the queue of
commands. -/
def Obligations.EveryCommandCompletesAndKeepsTheQueue : Prop :=
    ∀ (c : Instr) (s : State),
    (∃ t, exec c s = .next t ∧ t.pending = s.pending)

/-- R1, R3, R4, R10, R12, R17, R18, R20, R22, R33, R36, R38, R39, R59, R62, R97, R102, R113, R122, R140: a slot in which nothing
happens, at a station that keeps its state: every guard, countdown, window, mark and age moves by one, in the mirror, the
other blocks and the array, and what expires does what its expiry does (waiters, yields and grants where no member is
dropped and the WAKING guard does not end, O34 and O36; the ages where none is dropped). R88: an own READ's lower half is
captured in its first data slot, a free value's where nothing drives it (log entry 9), and RETAINING the array works no
burst on (log entry 21). R133, R134, R139, R140: at the close the idle-close timers and the progress of each bank's head
request follow the picture after it, the requests of this close taken. The empty queue standing for the slot's end (log
entry 2) and a HELD head's staying HELD without a reservation (log entry 32) are the model's choices. -/
def Obligations.AnIdleSlotCountsEveryTimerOnce : Prop :=
    ∀ (s : State) (t : State),
    let noDrop : Prop := s.now.member.state = .synced → ∀ m : Station, s.now.member.members.has m = true → s.now.member.ages[m] ≠ 12287
    let full := s.now.member.profile.grantWindow
    let ended := (s.now.sched.ownBursts.filter (fun o => o.left ≤ 1)).length
    let lower (o : OwnBurst) : Option Half :=
      if o.isWrite = false ∧ o.left = 2 then some (s.now.array.driven o false (Config.undefinedBurst (s.free + ended))) else o.lower
    let ends (r : BankRec) : Bool := match r.st with | .recharging n => n == 1 | .refreshing n _ => n == 1 | _ => false
    let runs (d : Device) (b : Bank) : Bool := d.member.state == .synced && d.holdsOpen b && (headOf d.port.queue b).isNone
    let acted := s.takeAll.actDeferred.after
    let progress (b : Bank) (a : Access) : Progress :=
      if acted.member.state ≠ .synced then .waiting
      else if acted.waitsFor b then .noticed
      else if acted.holdsOpen b && (match (acted.bank b).st with | .opened row _ _ _ _ => row == a.row | _ => false) then
        (if a.progress = .held then .held
        else if (match (acted.bank b).yield with | some (.grace _) | some .barred => true | _ => false)
            || decide (48 ≤ acted.account.balance) || acted.member.syncPending != 0#6 then .waiting
        else .held)
      else .waiting
    s.pending = [] →
    s.begun →
    s.counted →
    step s = .next t →
    s.now.member.window ≠ some 1 →
    t.now.member.state = s.now.member.state →
    (∀ b, (t.now.bank b).st = (match (s.now.bank b).st with
          | .closed => .closed
          | .opened row x age settle guard => .opened row x (min (age + 1) 1024) (settle - 1) (guard - 1)
          | .closePending row x age guard =>
            if guard = 1 then .recharging 3 else .closePending row x (min (age + 1) 1024) (guard - 1)
          | .recharging busy => if busy = 1 then .closed else .recharging (busy - 1)
          | .refreshing busy kind => if busy = 1 then .closed else .refreshing (busy - 1) kind))
      ∧ (t.now.mirror.lastOpen = s.now.mirror.lastOpen.map (fun n => min (n + 1) 2)
      ∧ t.now.mirror.lastBankRefresh = s.now.mirror.lastBankRefresh.map (fun n => min (n + 1) 2))
      ∧ (t.now.mirror.reservation = s.now.mirror.reservation.bind (fun r =>
          if r.count = 1 then none else some { r with count := r.count - 1 }))
      ∧ (t.now.mirror.array = (if s.now.retention.wakingGuard = some 1 then .active else s.now.mirror.array))
      ∧ (t.now.account = { s.now.account with
          countdown := s.now.account.countdown.bind (fun n => if n = 1 then none else some (n - 1)),
          lastMark := s.now.account.lastMark.map (fun n => min (n + 1) 511),
          pendingMark := s.now.account.pendingMark || s.now.account.countdown == some 1 })
      ∧ (t.now.retention.ageMark = s.now.retention.ageMark.map (fun n => min (n + 1) 6)
      ∧ t.now.retention.wakingGuard = s.now.retention.wakingGuard.bind (fun n => if n = 1 then none else some (n - 1)))
      ∧ (noDrop ∧ s.now.retention.wakingGuard ≠ some 1 → ∀ b, (ends (s.now.bank b) = true → (s.now.bank b).grant ≠ some (.running 1)) →
        (t.now.bank b).waiters = (if (s.now.bank b).grant = some (.running 1) then (s.now.bank b).waiters.drop 1 else (s.now.bank b).waiters)
          ∧ (t.now.bank b).yield = (if (s.now.bank b).grant = some (.running 1) ∧ (s.now.bank b).waiters.length = 1 then none else
            (s.now.bank b).yield.map (fun y => match y with
              | .before n => if n = 1 then .grace 32 else .before (n - 1)
              | .grace n => if n = 1 then .barred else .grace (n - 1)
              | .barred => .barred))
          ∧ (t.now.bank b).grant = (if ends (s.now.bank b) then
              (if (s.now.bank b).waiters = [] then none else some (if s.now.freezing then .frozen else .running full))
            else match (s.now.bank b).grant with
              | some (.running w) => if w ≠ 1 then some (.running (w - 1))
                else if (s.now.bank b).waiters.drop 1 = [] then none else some (.running full)
              | g => g))
      ∧ (noDrop → ∀ x : Station, t.now.member.ages[x] =
        (if (s.now.member.state = .synced ∧ s.now.member.members.has x = true) ∨ (s.now.member.state = .unsynced
            ∧ s.now.ownNumber = some x) then
          min (s.now.member.ages[x] + 1) 12288 else 0))
      ∧ t.now.member.window = s.now.member.window.map (fun n => n - 1)
      ∧ t.now.sched.ownBursts = (s.now.sched.ownBursts.filter (fun o => 1 < o.left)).map (fun o => { o with left := o.left - 1, lower := lower o })
      ∧ (t.now.array.inFlight = (if s.now.array.state = .retaining then [] else
          (s.now.array.inFlight.filter (fun i => 1 < i.left)).map (fun i => { i with left := i.left - 1 }))
        ∧ t.now.array.waking = s.now.array.waking.bind (fun n => if n = 1 then none else some (n - 1))
        ∧ t.now.array.state = (if s.now.array.waking = some 1 then .active else s.now.array.state))
      ∧ (∀ b : Bank, t.now.array.banks[b] = (match s.now.array.banks[b] with
          | .closed => .closed
          | .opened row guard => .opened row (guard - 1)
          | .closePending guard => if guard = 1 then .recharging 3 else .closePending (guard - 1)
          | .recharging busy => if busy = 1 then .closed else .recharging (busy - 1)
          | .refreshing busy => if busy = 1 then .closed else .refreshing (busy - 1)))
      ∧ (∀ b : Bank, t.now.sched.idle[b] = (if runs t.now b then
        (if runs s.now b then s.now.sched.idle[b].map (fun n => n - 1) else some t.now.member.profile.idleDelay) else none))
      ∧ (∀ b : Bank, (headOf t.now.port.queue b).map (fun a => (a.tag, a.progress))
        = (headOf acted.port.queue b).map (fun a => (a.tag, progress b a)))
      ∧ (t.slot.frameHeard = false ∧ t.slot.closing = false ∧ t.slot.arbitrated = false ∧ t.after = t.now.countSlot)

/-- R6: an OPEN is legal at a synced station exactly when its seven conditions hold, and vetoed for reason rule otherwise. -/
def Obligations.OpenIsLegalExactlyUnderSevenConditions : Prop :=
  ∀ (d : Device) (cls : FrameClass) (tie : BitVec 3) (x : Station) (b : Bank) (row : Row),
    let legalNow :=
      (d.bank b).st = .closed ∧ d.mirror.array = .active ∧ markReads d.mirror.lastOpen = 2 ∧ d.account.balance < 48
        ∧ d.member.syncPending = 0#6 ∧ d.member.members.has x = true
        ∧ (((d.bank b).waiters = [] ∧ (d.bank b).grant = none)
            ∨ ((d.bank b).grant ≠ none ∧ (d.bank b).waiters.head? = some x))
    (legalNow → judge d ⟨cls, tie, x, .openRow b row⟩ = none)
      ∧ (¬ legalNow → judge d ⟨cls, tie, x, .openRow b row⟩ = some .rule)

/-- R8, R33, R101: a READ or WRITE is legal exactly for the holder of an OPEN bank whose settle guard reads 0, whose burst the
reservation admits and whose yield point is not BARRED, a member; vetoed for reason rule otherwise. The close-after flag
does not matter. -/
def Obligations.BurstIsLegalExactlyForTheUnbarredHolder : Prop :=
  ∀ (d : Device) (cls : FrameClass) (tie : BitVec 3) (x : Station) (b : Bank) (column : Column) (closeAfter isWrite : Bool),
    let body := if isWrite then Body.write b column closeAfter else Body.read b column closeAfter
    let legalNow :=
      (∃ row age guard, (d.bank b).st = .opened row x age 0 guard)
        ∧ reservationAdmits d.mirror.reservation isWrite = true
        ∧ (d.bank b).yield ≠ some .barred ∧ d.member.members.has x = true
    (legalNow → judge d ⟨cls, tie, x, body⟩ = none) ∧ (¬ legalNow → judge d ⟨cls, tie, x, body⟩ = some .rule)

/-- R11, R42, R101: a CLOSE is legal exactly on an OPEN bank whose close guard reads 0, plain from the holder, forced from
another member in one of the four cases; vetoed for reason rule otherwise. -/
def Obligations.CloseIsLegalForTheHolderOrInAForcedCase : Prop :=
  ∀ (d : Device) (cls : FrameClass) (tie : BitVec 3) (x : Station) (b : Bank) (forced : Bool),
    let legalNow :=
      d.member.members.has x = true ∧ ∃ row holder age settle, (d.bank b).st = .opened row holder age settle 0
        ∧ ((forced = false ∧ holder = x)
          ∨ (forced = true ∧ holder ≠ x
              ∧ (d.member.members.has holder = false ∨ d.member.syncPending.has holder = true
                ∨ ((d.bank b).waiters.head? = some x ∧ (d.bank b).yield = some .barred)
                ∨ (48 ≤ d.account.balance ∧ d.member.profile.holdLimit ≤ age))))
    (legalNow → judge d ⟨cls, tie, x, .close b forced⟩ = none)
      ∧ (¬ legalNow → judge d ⟨cls, tie, x, .close b forced⟩ = some .rule)

/-- R13: a BANK REFRESH is legal at a synced station exactly when its six conditions hold; a wrong balance-after alone is vetoed
for reason stamp, every other failure for reason rule. -/
def Obligations.BankRefreshIsLegalExactlyUnderSixConditions : Prop :=
  ∀ (d : Device) (cls : FrameClass) (tie : BitVec 3) (x : Station) (b : Bank) (balanceAfter : Int),
    let legalNow :=
      (d.bank b).st = .closed ∧ d.mirror.array = .active ∧ markReads d.mirror.lastBankRefresh = 2
        ∧ d.account.rotation.has b = false ∧ d.member.members.has x = true
    let stamp := if d.account.balance ≤ -48 then -48 else d.account.balance - 1
    (legalNow ∧ balanceAfter = stamp → judge d ⟨cls, tie, x, .bankRefresh b balanceAfter⟩ = none)
      ∧ (¬ legalNow → judge d ⟨cls, tie, x, .bankRefresh b balanceAfter⟩ = some .rule)
      ∧ (legalNow ∧ balanceAfter ≠ stamp → judge d ⟨cls, tie, x, .bankRefresh b balanceAfter⟩ = some .stamp)

/-- R28: a NOTICE is legal at a synced station exactly when its six conditions hold, whatever the bank's state and the balance,
and vetoed for reason rule otherwise. -/
def Obligations.NoticeIsLegalExactlyUnderSixConditions : Prop :=
  ∀ (d : Device) (cls : FrameClass) (tie : BitVec 3) (x : Station) (b : Bank),
    let legalNow :=
      d.member.members.has x = true ∧ d.member.syncPending = 0#6 ∧ d.mirror.array ≠ .retaining
        ∧ (d.bank b).st.holder? ≠ some x ∧ x ∉ (d.bank b).waiters ∧ (d.bank b).waiters.length < 5
    (legalNow → judge d ⟨cls, tie, x, .notice b⟩ = none) ∧ (¬ legalNow → judge d ⟨cls, tie, x, .notice b⟩ = some .rule)

/-- R60: a MARK from a member is legal at an unaligned synced station; an aligned one also asks for the next interval index and
for at least half an interval since the last MARK, for reason stamp; a non-member's is vetoed for reason rule. Nothing else
enters into the verdict. -/
def Obligations.MarkIsJudgedByMembershipIndexAndSpacing : Prop :=
  ∀ (d : Device) (cls : FrameClass) (tie : BitVec 3) (x : Station) (index : BitVec 8),
    let spaced := ∀ m, d.account.lastMark = some m → d.member.profile.interval / 2 ≤ m
    let stamped := d.account.aligned = true → index = d.account.index + 1#8 ∧ spaced
    (d.member.members.has x = false → judge d ⟨cls, tie, x, .mark index⟩ = some .rule)
      ∧ (d.member.members.has x = true ∧ stamped → judge d ⟨cls, tie, x, .mark index⟩ = none)
      ∧ (d.member.members.has x = true ∧ ¬ stamped → judge d ⟨cls, tie, x, .mark index⟩ = some .stamp)

/-- R15, R52, R109: a FULL REFRESH is legal at a synced station exactly with every bank CLOSED, the array ACTIVE or UNINIT, the
first flag clear, an equal digest, a member as sender, the balance-after of R52 and the union of the two sets; the last two
fail for reason stamp, the others for rule. -/
def Obligations.FullRefreshIsJudgedByBanksDigestBalanceAndUnion : Prop :=
  ∀ (d : Device) (cls : FrameClass) (tie : BitVec 3) (x : Station) (ba : Int) (members : StationSet) (first : Bool)
    (digest : BitVec 16),
    let legalNow :=
      (∀ b, (d.bank b).st = .closed) ∧ (d.mirror.array = .active ∨ d.mirror.array = .uninit) ∧ first = false
        ∧ d.member.digest = some digest ∧ d.member.members.has x = true
    let stamped := ba = max (d.account.balance - 12) (-48) ∧ members = (d.member.members ||| d.member.syncPending)
    (legalNow ∧ stamped → judge d ⟨cls, tie, x, .fullRefresh ba members first digest⟩ = none)
      ∧ (¬ legalNow → judge d ⟨cls, tie, x, .fullRefresh ba members first digest⟩ = some .rule)
      ∧ (legalNow ∧ ¬ stamped → judge d ⟨cls, tie, x, .fullRefresh ba members first digest⟩ = some .stamp)

/-- R19: with c slots of the reservation still to run, the present one included, its last reserved slot lies c - 1 slots ahead
and the first data slot of a READ 3, of a WRITE 2 slots ahead: the same direction needs a later slot, the other one empty
slot between; a free record admits any burst. -/
def Obligations.ReservationAdmitsABurstOnThreeConditions : Prop :=
  (∀ isWrite, reservationAdmits none isWrite = true)
    ∧ (∀ (c : Nat) (o : Station) (held isWrite : Bool), 1 ≤ c →
        let last := c - 1
        let first := if isWrite then 2 else 3
        (reservationAdmits (some ⟨c, held, o⟩) isWrite = true ↔
          (held = isWrite ∧ last < first) ∨ (held ≠ isWrite ∧ last + 2 ≤ first)))

/-- R115, R117, R120: RETAIN, WAKE and VOTE are legal at a synced station exactly under their conditions, and vetoed for reason
rule otherwise. -/
def Obligations.RetentionFramesAreLegalExactlyUnderTheirConditions : Prop :=
  ∀ (d : Device) (cls : FrameClass) (tie : BitVec 3) (x : Station),
    let retain :=
      d.member.members.has x = true ∧ d.retention.votes = d.member.members ∧ (∀ b, (d.bank b).st = .closed)
        ∧ d.mirror.array = .active ∧ (∀ b, (d.bank b).waiters = []) ∧ d.member.syncPending = 0#6
        ∧ d.account.balance < 48 ∧ d.account.wakeRefresh = 0
    let wake := d.member.members.has x = true ∧ d.mirror.array = .retaining ∧ d.retention.ageMark = some 6
    let vote (on : Bool) := d.member.members.has x = true ∧ (d.retention.votes.has x = !on)
    let verdict (p : Prop) (v : Option VetoReason) := (p → v = none) ∧ (¬ p → v = some .rule)
    verdict retain (judge d ⟨cls, tie, x, .retain⟩) ∧ verdict wake (judge d ⟨cls, tie, x, .wake⟩)
      ∧ ∀ on, verdict (vote on) (judge d ⟨cls, tie, x, .vote on⟩)

/-- R7, R32, R37, R135, R22: an accepted OPEN, from every sender: the bank OPEN on the row with holder, hold age 0 and its
guards loaded, the sender out of the list and the grant ended, a yield point where stations remain; at the sender the head
request HELD; at the array the row open. Frame: every other bank, mark, account, vote, entry and byte as it would stand. -/
def Obligations.AcceptedOpenOpensTheBank : Prop :=
    ∀ (s : State) (h : Heard) (f : Frame) (b : Bank) (row : Row),
    Accepted h f s →
    f.body = .openRow b row →
    let rest := (s.now.bank b).waiters.erase f.sender
    ∃ t, exec (.openFrame h) s = .next t
      ∧ (t.after.bank b
          = ⟨.opened row f.sender 0 2 6, rest, if rest = [] then none else some (.before s.now.member.profile.holdLimit), none⟩)
      ∧ (∀ c, c ≠ b → t.after.bank c = s.after.bank c)
      ∧ t.after.mirror.lastOpen = some 0
      ∧ t.after.mirror.lastBankRefresh = s.after.mirror.lastBankRefresh
      ∧ t.after.mirror.reservation = s.after.mirror.reservation
      ∧ t.after.mirror.array = .active
      ∧ t.after.account = s.after.account
      ∧ t.after.retention = s.after.retention
      ∧ t.after.sched = s.after.sched
      ∧ t.after.faults = s.after.faults
      ∧ (t.after.port = { s.after.port with queue :=
          (if s.slot.won then mapHead (fun a => { a with progress := .held }) s.after.port.queue b else s.after.port.queue) })
      ∧ t.after.array = { s.after.array with banks := s.after.array.banks.set b (.opened row 6) }

/-- R9, R18, R20, R34, R136, R22: an accepted READ or WRITE, close-after clear or set. The close guard is the later of its own
expiry and the release; with close-after the bank is CLOSE_PENDING and its yield point gone; the data lane is reserved; at
the sender the burst is recorded and counted for the head request; the array is to move it, in the row it has open itself
(the model's choice, log entry 22). Frame: all else as it would stand. -/
def Obligations.AcceptedBurstRaisesTheGuardAndReservesTheLane : Prop :=
    ∀ (s : State) (h : Heard) (f : Frame) (b : Bank) (column : Column) (closeAfter isWrite : Bool) (data : Burst)
    (row arrayRow : Row) (age guard arrayGuard : Nat),
    Accepted h f s →
    f.body = (if isWrite then .write b column closeAfter else .read b column closeAfter) →
    (s.now.bank b).st = .opened row f.sender age 0 guard →
    s.now.array.banks[b] = .opened arrayRow arrayGuard →
    let release := if isWrite then 4 else 2
    let raised := max (countDown guard) release
    let slots := if isWrite then 3 else 4
    ∃ t, exec (if isWrite then .writeFrame h data else .readFrame h) s = .next t
      ∧ (t.after.bank b = { s.after.bank b with
          st := if closeAfter then .closePending row f.sender age raised else .opened row f.sender age 0 raised,
          yield := if closeAfter then none else (s.after.bank b).yield })
      ∧ (∀ c, c ≠ b → t.after.bank c = s.after.bank c)
      ∧ t.after.mirror.lastOpen = s.after.mirror.lastOpen
      ∧ t.after.mirror.lastBankRefresh = s.after.mirror.lastBankRefresh
      ∧ t.after.mirror.reservation = some ⟨slots, isWrite, f.sender⟩
      ∧ t.after.mirror.array = s.after.mirror.array
      ∧ t.after.account = s.after.account
      ∧ t.after.retention = s.after.retention
      ∧ t.after.faults = s.after.faults
      ∧ (t.after.port = { s.after.port with queue :=
          (if s.slot.won then mapHead Access.burstAccepted s.after.port.queue b else s.after.port.queue) })
      ∧ (t.after.sched = { s.after.sched with ownBursts := s.after.sched.ownBursts ++
          (if s.slot.won then
            ((headOf s.now.port.queue b).map (fun a => ⟨a.tag, isWrite, b, arrayRow, column, slots, none⟩)).toList else []) })
      ∧ (t.after.array = { s.after.array with
          banks := s.after.array.banks.set b
              (if closeAfter then .closePending (max (countDown arrayGuard) release)
                else .opened arrayRow (max (countDown arrayGuard) release)),
          inFlight := s.after.array.inFlight
              ++ [⟨isWrite, b, arrayRow, column, s.slot.won,
                s.writeData s.slot.won f.body (if isWrite then data else 0#512), slots, false⟩] })

/-- R11, R34, R45, R144, R22: an accepted CLOSE, plain or forced: RECHARGING with 3, no yield point; at the holder the HELD
request WAITING, and on a forced CLOSE a FORCED_CLOSE entry; the array closes a row it holds open. Frame: all else as it
would stand. -/
def Obligations.AcceptedCloseRechargesTheBank : Prop :=
    ∀ (s : State) (h : Heard) (f : Frame) (b : Bank) (forced : Bool),
    Accepted h f s →
    f.body = .close b forced →
    ∃ t, exec (.closeFrame h) s = .next t
      ∧ t.after.bank b = { s.after.bank b with st := .recharging 3, yield := none }
      ∧ (∀ c, c ≠ b → t.after.bank c = s.after.bank c)
      ∧ t.after.mirror.lastOpen = s.after.mirror.lastOpen
      ∧ t.after.mirror.lastBankRefresh = s.after.mirror.lastBankRefresh
      ∧ t.after.mirror.reservation = s.after.mirror.reservation
      ∧ t.after.mirror.array = s.after.mirror.array
      ∧ t.after.account = s.after.account
      ∧ t.after.retention = s.after.retention
      ∧ t.after.sched = s.after.sched
      ∧ (t.after.faults = (if s.now.holdsOpen b = true ∧ forced = true then
          joinFaults s.now.faults
            [⟨.forcedClose, s.now.account.index, some (BitVec.ofNat 3 f.sender.val), some b, some .close, none⟩]
        else s.after.faults))
      ∧ (t.after.port = { s.after.port with queue :=
          (if s.now.holdsOpen b then mapHead (fun a => { a with progress := .waiting }) s.after.port.queue b else s.after.port.queue) })
      ∧ (t.after.array = { s.after.array with banks := (s.after.array.banks.set b
          (match s.after.array.banks[b] with | .opened _ _ => .recharging 3 | r => r)) })

/-- R14, R22, R34, R38, R39, R40, R41, R50, R54, R65, R134: an accepted BANK REFRESH: the bank REFRESHING for 7 slots, its grant
PAUSED (a grant whose window is due lapses first, the head's own request WAITING again), the balance one lower but not below
-48, the bank in the rotation set or the set emptied, wake-refresh remaining lowered, frozen grants running again where this
ends urgency. Frame: all else as it would stand. -/
def Obligations.AcceptedBankRefreshRefreshesAndDebits : Prop :=
    ∀ (s : State) (h : Heard) (f : Frame) (b : Bank) (balanceAfter : Int),
    Accepted h f s →
    f.body = .bankRefresh b balanceAfter →
    let due := (s.now.bank b).window? == some 1
    let ownHead := s.now.ownNumber.isSome && (s.now.bank b).waiters.head? == s.now.ownNumber
    ∃ t, exec (.bankRefreshFrame h) s = .next t
      ∧ ((t.after.bank b).st = .refreshing 7 .bank)
      ∧ ((t.after.bank b).waiters = (if due then (s.now.bank b).waiters.drop 1 else (s.now.bank b).waiters))
      ∧ ((t.after.bank b).yield
          = (if due = true ∧ (s.now.bank b).waiters.length = 1 then none else (s.after.bank b).yield))
      ∧ ((t.after.bank b).grant
          = (if due = true ∧ (s.now.bank b).waiters.drop 1 = [] then none else (s.now.bank b).grant.map (fun _ => .paused)))
      ∧ (∀ c, c ≠ b → t.after.bank c = { s.after.bank c with grant :=
          (if t.after.freezing = false ∧ (s.now.bank c).grant = some .frozen then
            some (.running s.now.member.profile.grantWindow) else (s.after.bank c).grant) })
      ∧ t.after.mirror.lastBankRefresh = some 0
      ∧ t.after.mirror.lastOpen = s.after.mirror.lastOpen
      ∧ t.after.mirror.reservation = s.after.mirror.reservation
      ∧ t.after.mirror.array = .active
      ∧ (t.after.account = { s.after.account with
          balance := if s.now.account.balance ≤ -48 then -48 else s.now.account.balance - 1,
          rotation := if s.now.account.rotation.add b = BitVec.allOnes 12 then 0#12 else s.now.account.rotation.add b,
          wakeRefresh := s.now.account.wakeRefresh - 1 })
      ∧ t.after.retention = s.after.retention
      ∧ t.after.sched = s.after.sched
      ∧ (t.after.port = { s.after.port with queue := (if due = true ∧ ownHead = true then
          mapHead (fun a => { a with progress := .waiting }) s.after.port.queue b else s.after.port.queue) })
      ∧ (t.after.faults = (if due = true ∧ ownHead = true then
          joinFaults s.now.faults [⟨.grantLapsed, s.now.account.index, none, some b, none, none⟩] else s.after.faults))
      ∧ (t.after.array = { s.after.array with banks := (s.after.array.banks.set b
          (match s.after.array.banks[b] with | .closed => .refreshing 7 | r => r)) })

/-- R16, R22, R47, R51, R54, R65, R110, R114, R127: an accepted FULL REFRESH at a synced station. That a burst in flight where
the array finds a bank OPEN still moves is the model's choice (log entry 30). Frame: the marks, the reservation, the
interval state, the other membership items, the fault list and every byte as they would stand. -/
def Obligations.AcceptedFullRefreshSweepsEveryBank : Prop :=
    ∀ (s : State) (h : Heard) (f : Frame) (balanceAfter : Int) (members : StationSet) (first : Bool)
    (digest : BitVec 16),
    Accepted h f s →
    f.body = .fullRefresh balanceAfter members first digest →
    let votePath := s.now.retention.resume.map PendingResume.path == some .vote
    ∃ t, exec (.fullRefreshFrame h) s = .next t
      ∧ (∀ c, t.after.bank c = ⟨.refreshing 14 .full, [], none, none⟩)
      ∧ t.after.mirror.lastOpen = s.after.mirror.lastOpen
      ∧ t.after.mirror.lastBankRefresh = s.after.mirror.lastBankRefresh
      ∧ t.after.mirror.reservation = s.after.mirror.reservation
      ∧ t.after.mirror.array = .active
      ∧ t.after.account = { s.after.account with
          balance := max (s.now.account.balance - 12) (-48), rotation := 0#12, wakeRefresh := 0 }
      ∧ t.after.member = { s.after.member with members := members, syncPending := 0#6, ages := Vector.replicate 6 0 }
      ∧ (t.after.retention = { s.after.retention with votes := 0#6, resume := if votePath then none else s.after.retention.resume })
      ∧ (t.after.port = { s.after.port with
          queue := mapAccess (fun a => if a.progress = .noticed then { a with progress := .waiting } else a) s.after.port.queue,
          completions := s.after.port.completions ++ (if votePath then
            (s.now.retention.resume.map (fun r => ⟨r.tag, .done, 0, []⟩)).toList else []) })
      ∧ t.after.sched = s.after.sched
      ∧ t.after.faults = s.after.faults
      ∧ t.after.array = { s.after.array with banks := Vector.replicate 12 (.refreshing 14), state := .active }

/-- R49, R61, R64, R41: an accepted MARK: the balance by the table of R49, the index, the countdown, no pending MARK, the mark
0. A freeze it begins reaches the grants: a RUNNING grant is FROZEN, one whose window is due lapses first (R38, R39), with
its entry and its request WAITING again (R134). An overrun makes its entry; that this station's own balance then takes every
byte of the array's contents to free values is the model's choice (R24, R49; log entry 20). Frame: all else as it would
stand. -/
def Obligations.AcceptedMarkCreditsAndAligns : Prop :=
    ∀ (s : State) (h : Heard) (f : Frame) (index : BitVec 8),
    let overrun := decide (48 < s.now.account.balance) && s.now.mirror.array != .retaining
    let begins := !s.now.freezing && decide (36 ≤ s.now.account.balance)
    let due (c : Bank) := (s.now.bank c).window? == some 1
    let lapsing := if begins then allBanks.filter (fun c => due c && s.now.ownNumber.isSome
      && (s.now.bank c).waiters.head? == s.now.ownNumber) else []
    let entries := lapsing.map (fun c => (⟨.grantLapsed, index, none, some c, none, none⟩ : FaultEntry))
      ++ (if overrun then [⟨.balanceOverrun, index, some (BitVec.ofNat 3 f.sender.val), none, some .mark, none⟩] else [])
    Accepted h f s →
    f.body = .mark index →
    ∃ t, exec (.markFrame h) s = .next t
      ∧ (t.after.account = { s.after.account with
          balance := if s.now.mirror.array = .retaining then s.now.account.balance
            else if s.now.account.balance ≤ 48 then s.now.account.balance + 12 else 60,
          index := index, aligned := true, countdown := some s.now.member.profile.interval, lastMark := some 0, pendingMark := false })
      ∧ (∀ c, t.after.bank c = (if begins = true then
          (if due c = true then
            { s.after.bank c with
              waiters := (s.now.bank c).waiters.drop 1,
              yield := if (s.now.bank c).waiters.length = 1 then none else (s.after.bank c).yield,
              grant := if (s.now.bank c).waiters.drop 1 = [] then none else some .frozen }
          else { s.after.bank c with grant := (s.after.bank c).grant.map (fun g => match g with
            | .running _ => .frozen | .paused => .paused | .frozen => .frozen) })
        else s.after.bank c))
      ∧ t.after.port = { s.after.port with queue :=
          (lapsing.foldl (fun q c => mapHead (fun a => { a with progress := .waiting }) q c) s.after.port.queue) }
      ∧ t.after.grantsSettled
      ∧ t.after.mirror.lastOpen = s.after.mirror.lastOpen
      ∧ t.after.mirror.lastBankRefresh = s.after.mirror.lastBankRefresh
      ∧ t.after.mirror.reservation = s.after.mirror.reservation
      ∧ t.after.mirror.array = s.after.mirror.array
      ∧ t.after.retention = s.after.retention
      ∧ t.after.sched = s.after.sched
      ∧ t.after.member = { s.after.member with ages := s.now.member.ages.set f.sender 0 }
      ∧ (t.after.array = (if overrun then { s.after.array with mem := ⟨s.after.array.mem.epoch + 1, []⟩ } else s.after.array))
      ∧ (t.after.faults = (if entries = [] then s.after.faults else joinFaults s.now.faults entries))

/-- R118, R123, R127: an accepted RETAIN. That the array then works only the bursts one of whose data slots is this one is the
model's choice (log entry 21). Frame: the votes, the account, the bank records but for a RUNNING grant (frozen by R41,
lapsed where due), the other requests, the entries and every byte as they would stand. -/
def Obligations.AcceptedRetainEntersRetention : Prop :=
    ∀ (s : State) (h : Heard) (f : Frame),
    Accepted h f s →
    f.body = .retain →
    let done := if s.now.retention.ownVote then retainEntry s.now.port.queue else none
    ∃ t, exec (.retainFrame h) s = .next t
      ∧ t.after.mirror.array = .retaining
      ∧ (∀ c, (t.after.bank c).st = .closed)
      ∧ (∀ c, t.after.bank c = { s.after.bank c with grant := (match (s.now.bank c).grant with
          | some (.running w) => if w = 1 then none else some .frozen | g => g) })
      ∧ t.after.mirror.lastOpen = s.after.mirror.lastOpen
      ∧ t.after.mirror.lastBankRefresh = s.after.mirror.lastBankRefresh
      ∧ t.after.mirror.reservation = s.after.mirror.reservation
      ∧ (t.after.retention = { s.after.retention with ownVote := false, ageMark := some 0, resume :=
          (s.now.retention.resume.map (fun r => if r.path = .vote then { r with path := .wake } else r)) })
      ∧ (t.after.port = { s.after.port with
          queue := (match done with | some g => s.after.port.queue.filter (fun e => e.tag != g) | none => s.after.port.queue),
          completions := s.after.port.completions ++ (done.map (fun g => ⟨g, .done, 0, []⟩)).toList })
      ∧ t.after.account = s.after.account
      ∧ t.after.sched = s.after.sched
      ∧ t.after.faults = s.after.faults
      ∧ t.after.array.mem = s.after.array.mem
      ∧ (s.now.array.state = .active → t.after.array.state = .retaining
          ∧ t.after.array.inFlight = s.after.array.inFlight.filter (fun i => decide (i.left ≤ 1))
          ∧ ∀ c : Bank, t.after.array.banks[c] = .closed)
      ∧ (s.now.array.state ≠ .active → t.after.array = s.after.array)

/-- R120, R65, R123, R127: an accepted WAKE. Frame: the bank records, the rest of the account, the own vote, the entries and
every byte as they would stand. -/
def Obligations.AcceptedWakeStartsTheWakingGuard : Prop :=
    ∀ (s : State) (h : Heard) (f : Frame),
    Accepted h f s →
    f.body = .wake →
    let answered := s.now.retention.resume.map PendingResume.path == some .wake || s.now.retention.resume.map PendingResume.path == some .vote
    ∃ t, exec (.wakeFrame h) s = .next t
      ∧ t.after.mirror = { s.after.mirror with array := .waking }
      ∧ t.after.account = { s.after.account with wakeRefresh := 12 }
      ∧ (t.after.retention = { s.after.retention with votes := 0#6, ageMark := none, wakingGuard := some 10, resume :=
          (if answered then none else s.after.retention.resume) })
      ∧ (t.after.port = { s.after.port with completions := s.after.port.completions ++ (if answered then
          (s.now.retention.resume.map (fun r => ⟨r.tag, .done, 0, []⟩)).toList else []) })
      ∧ t.after.sched = s.after.sched
      ∧ t.after.faults = s.after.faults
      ∧ (t.after.array = (if s.now.array.state = .retaining then { s.after.array with state := .waking, waking := some 10 }
          else s.after.array))

/-- R94, R106, R172, R41: an accepted SYNC REQUEST or ROLL CALL at a synced station: the sender pending where digest, peer count
and number agree, a PROFILE_MISMATCH entry where not. A freeze it begins reaches the grants: a RUNNING grant is FROZEN, one
whose window is due lapses first (R38, R39), with its entry and its request WAITING again (R134). Frame: all else as it
would stand. -/
def Obligations.AcceptedSyncRequestOrRollCallAsksForReadmission : Prop :=
    ∀ (s : State) (h : Heard) (f : Frame) (digest : BitVec 16) (peers : BitVec 3) (roll : Bool),
    let agrees := decide (s.now.member.digest = some digest ∧ f.sender.val < s.now.peers
        ∧ (roll = true → peers.toNat = s.now.peers))
    let begins := agrees && !s.now.freezing
    let due (c : Bank) := (s.now.bank c).window? == some 1
    let lapsing := if begins then allBanks.filter (fun c => due c && s.now.ownNumber.isSome
      && (s.now.bank c).waiters.head? == s.now.ownNumber) else []
    let entries := lapsing.map (fun c => (⟨.grantLapsed, s.now.account.index, none, some c, none, none⟩ : FaultEntry))
      ++ (if agrees then [] else [⟨.profileMismatch, s.now.account.index, some (BitVec.ofNat 3 f.sender.val), none,
        some (if roll then .rollCall else .syncRequest), none⟩])
    Accepted h f s →
    f.body = (if roll then .rollCall digest peers else .syncRequest digest) →
    ∃ t, exec (if roll then .rollCallFrame h else .syncRequestFrame h) s = .next t
      ∧ (t.after.member = { s.after.member with
          syncPending := if agrees then s.now.member.syncPending.add f.sender else s.now.member.syncPending,
          ages := s.now.member.ages.set f.sender 0 })
      ∧ (∀ c, t.after.bank c = (if begins = true then
          (if due c = true then
            { s.after.bank c with
              waiters := (s.now.bank c).waiters.drop 1,
              yield := if (s.now.bank c).waiters.length = 1 then none else (s.after.bank c).yield,
              grant := if (s.now.bank c).waiters.drop 1 = [] then none else some .frozen }
          else { s.after.bank c with grant := (s.after.bank c).grant.map (fun g => match g with
            | .running _ => .frozen | .paused => .paused | .frozen => .frozen) })
        else s.after.bank c))
      ∧ t.after.port = { s.after.port with queue :=
          (lapsing.foldl (fun q c => mapHead (fun a => { a with progress := .waiting }) q c) s.after.port.queue) }
      ∧ t.after.grantsSettled
      ∧ t.after.mirror.lastOpen = s.after.mirror.lastOpen
      ∧ t.after.mirror.lastBankRefresh = s.after.mirror.lastBankRefresh
      ∧ t.after.mirror.reservation = s.after.mirror.reservation
      ∧ t.after.mirror.array = s.after.mirror.array
      ∧ t.after.account = s.after.account
      ∧ t.after.retention = s.after.retention
      ∧ t.after.sched = s.after.sched
      ∧ t.after.array = s.after.array
      ∧ (t.after.faults = (if entries = [] then s.after.faults else joinFaults s.now.faults entries))

/-- R29, R32, R36, R134: an accepted NOTICE: the sender at the tail; on an OPEN bank whose list was empty a yield point by the
hold age, on a CLOSED bank with no grant a grant; at the sender the head request NOTICED. Frame: all else as it would stand. -/
def Obligations.AcceptedNoticeJoinsTheList : Prop :=
    ∀ (s : State) (h : Heard) (f : Frame) (b : Bank),
    Accepted h f s →
    f.body = .notice b →
    let age := (s.now.bank b).st.holdAge?.getD 0
    let limit := s.now.member.profile.holdLimit
    ∃ t, exec (.noticeFrame h) s = .next t
      ∧ (t.after.bank b = { s.after.bank b with
          waiters := (s.now.bank b).waiters ++ [f.sender],
          yield := if (s.now.bank b).st.isOpened = true ∧ (s.now.bank b).waiters = [] then
            some (if age < limit then .before (limit - age) else .grace 32) else (s.after.bank b).yield,
          grant := if (s.now.bank b).st = .closed ∧ (s.now.bank b).grant = none then
            some (if s.now.freezing then .frozen else .running s.now.member.profile.grantWindow) else (s.after.bank b).grant })
      ∧ (∀ c, c ≠ b → t.after.bank c = s.after.bank c)
      ∧ t.after.mirror.lastOpen = s.after.mirror.lastOpen
      ∧ t.after.mirror.lastBankRefresh = s.after.mirror.lastBankRefresh
      ∧ t.after.mirror.reservation = s.after.mirror.reservation
      ∧ t.after.mirror.array = s.after.mirror.array
      ∧ t.after.account = s.after.account
      ∧ t.after.retention = s.after.retention
      ∧ t.after.sched = s.after.sched
      ∧ t.after.faults = s.after.faults
      ∧ (t.after.port = { s.after.port with queue :=
          (if s.slot.won then mapHead (fun a => { a with progress := .noticed }) s.after.port.queue b else s.after.port.queue) })
      ∧ t.after.array = s.after.array

/-- R30, R34, R39, R134: an accepted WITHDRAW: the sender out of the list; an emptied list takes its yield point and grant with
it; from the head a grant passes on. Frame: all else as it would stand. -/
def Obligations.AcceptedWithdrawLeavesTheList : Prop :=
    ∀ (s : State) (h : Heard) (f : Frame) (b : Bank),
    Accepted h f s →
    f.body = .withdraw b →
    let rest := (s.now.bank b).waiters.erase f.sender
    ∃ t, exec (.withdrawFrame h) s = .next t
      ∧ (t.after.bank b = { s.after.bank b with
          waiters := rest,
          yield := if rest = [] then none else (s.after.bank b).yield,
          grant := if rest = [] then none
            else if (s.now.bank b).waiters.head? = some f.sender then
              (s.now.bank b).grant.map (fun g => match g with
                | .running _ => .running s.now.member.profile.grantWindow | .paused => .paused | .frozen => .frozen)
            else (s.after.bank b).grant })
      ∧ (∀ c, c ≠ b → t.after.bank c = s.after.bank c)
      ∧ t.after.mirror.lastOpen = s.after.mirror.lastOpen
      ∧ t.after.mirror.lastBankRefresh = s.after.mirror.lastBankRefresh
      ∧ t.after.mirror.reservation = s.after.mirror.reservation
      ∧ t.after.mirror.array = s.after.mirror.array
      ∧ t.after.account = s.after.account
      ∧ t.after.retention = s.after.retention
      ∧ t.after.sched = s.after.sched
      ∧ t.after.faults = s.after.faults
      ∧ (t.after.port = { s.after.port with queue :=
          (if s.slot.won then mapHead (fun a => { a with progress := .waiting }) s.after.port.queue b else s.after.port.queue) })
      ∧ t.after.array = s.after.array

/-- R103, R115, R127: an accepted VOTE on or off moves the vote set and answers a RESUME on the vote path when the own number is
out of the set; a PRESENCE has no effect beyond those of every accepted frame. Frame: all else as it would stand. -/
def Obligations.AcceptedVoteMovesTheVoteSetAndPresenceNothing : Prop :=
    ∀ (s : State) (h : Heard) (f : Frame) (on : Bool),
    let votes := if on then s.now.retention.votes.add f.sender else s.now.retention.votes.drop f.sender
    let answered := s.now.retention.resume.map PendingResume.path == some .vote
        && !(match s.now.ownNumber with | some x => votes.has x | none => false)
    Accepted h f s →
    (f.body = .vote on →
        ∃ t, exec (.voteFrame h) s = .next t
        ∧ t.after.mirror = s.after.mirror
        ∧ t.after.account = s.after.account
        ∧ (t.after.retention = { s.after.retention with votes := votes, resume := if answered then none else s.after.retention.resume })
        ∧ (t.after.port = { s.after.port with completions := s.after.port.completions ++ (if answered then
          (s.now.retention.resume.map (fun r => ⟨r.tag, .done, 0, []⟩)).toList else []) })
        ∧ t.after.sched = s.after.sched
        ∧ t.after.faults = s.after.faults
        ∧ t.after.array = s.after.array)
      ∧ (f.body = .presence →
        ∃ t, exec (.presenceFrame h) s = .next t
        ∧ (t.after = { s.after with
          lane := ⟨if s.slot.won then 0 else s.now.lane.vetoCount, 0, (s.now.lane.turn + 1) % s.now.peers⟩,
          member := { s.after.member with ages := s.now.member.ages.set f.sender 0 } }))

/-- R73, R78, R84, R85, R102: what an accepted frame of any kind does at a synced station, and what none of them changes: the
station state, straps, profile and digest, the picture at the slot's start, the contents of the array but for an overrun (a
model's choice, log entry 20), the returned words and the queue of commands. R69: one frame a slot: a frame that comes in a
slot that has carried its frame or is closing is the next slot's; that the close then comes first, as the empty queue brings
it, is the model's choice (log entries 2 and 3). -/
def Obligations.EveryAcceptanceMovesTurnAgesAndCounts : Prop :=
    ∀ (s : State) (h : Heard) (f : Frame) (k : Option FrameKind) (data : Burst),
    (Accepted h f s →
        ∃ t, exec (frameCommand (some f.body.kind) h data) s = .next t
        ∧ (t.after.lane.turn = (if f.body.kind = .fullRefresh then 0 else (s.now.lane.turn + 1) % s.now.peers))
        ∧ (t.after.lane.vetoCount = (if s.slot.won then 0 else s.now.lane.vetoCount))
        ∧ t.after.lane.dissent = 0
        ∧ (t.after.member.ages = (if f.body.kind = .fullRefresh then Vector.replicate 6 0 else s.now.member.ages.set f.sender 0))
        ∧ t.after.member.state = .synced
        ∧ t.after.member.straps = s.now.member.straps
        ∧ t.after.member.profile = s.now.member.profile
        ∧ t.after.member.digest = s.now.member.digest
        ∧ (f.body.kind ≠ .fullRefresh ∧ f.body.kind ≠ .syncRequest ∧ f.body.kind ≠ .rollCall →
        t.after.member = { s.after.member with ages := s.now.member.ages.set f.sender 0 })
        ∧ t.after.pins = s.after.pins
        ∧ t.free = s.free
        ∧ t.now = s.now
        ∧ (t.after.array.mem
          = (if f.body.kind = .mark ∧ 48 < s.now.account.balance ∧ s.now.mirror.array ≠ .retaining then s.now.array.mem.unassured
            else s.now.array.mem))
        ∧ t.windowOut = s.windowOut
        ∧ t.pending = s.pending
        ∧ t.slot.frameHeard = true
        ∧ t.slot.closing = false
        ∧ t.after.grantsSettled)
      ∧ (s.slot.frameHeard = true ∨ s.slot.closing = true →
        exec (frameCommand k h data) s = exec (frameCommand k h data) s.closeSlot ∧ s.closeSlot.begun)
      ∧ (s.pending = [] → step s = .next s.closeSlot)

/-- R79, R77, R84, R85, R171: a frame vetoed by this station, the array or a peer, kind code 15 among them, in every station
state, short of a limit: the veto entry (first reason), the sender's OWN_VETOED entry and the two counts; everything else as
it would stand. That the entry names the frame the station drove is the model's choice (log entry 24). R69, R184: an
arbitration field of all ones that this station does not drive is an empty slot, and while LRST_N is low nobody acts on a
frame: nothing changes but that the slot has carried it. That a command with the bits of a field stopped by a peer's reset
(R89) is judged as a frame is the model's choice (log entry 36). -/
def Obligations.VetoedFrameChangesOnlyCountsAndEntries : Prop :=
    ∀ (s : State) (h : Heard) (k : Option FrameKind) (data : Burst),
    let own := s.slot.won
    let verdict := stationVerdict s.now k h (s.readBackBad k h)
    let counting := s.now.member.state == .synced || s.now.member.state == .rollCall
    let entries := (verdict.map (fun r => (⟨r.entryKind, s.now.account.index, some h.sender, bankHeard k h, k, none⟩ : FaultEntry))).toList
        ++ (if own then (s.slot.candidate.map (fun f =>
            (⟨.ownVetoed, s.now.account.index, none, f.body.bank?, some f.body.kind, none⟩ : FaultEntry))).toList else [])
    s.begun →
    (s.counted ∧ s.now.pins.lrstN = true ∧ s.vetoes k h ∧ (¬ (own = true ∧ counting = true ∧ 4 ≤ s.now.lane.vetoCount))
        ∧ (¬ (verdict.isSome = true ∧ s.now.member.state = .synced ∧ 3 ≤ s.now.lane.dissent)) →
        ∃ t, exec (frameCommand k h data) s = .next t
        ∧ (t.after = { s.after with
          lane := ⟨if own && counting then s.now.lane.vetoCount + 1 else s.now.lane.vetoCount,
            if verdict.isSome && s.now.synced then s.now.lane.dissent + 1 else s.now.lane.dissent, s.now.lane.turn⟩,
          faults := if entries = [] then s.after.faults else joinFaults s.now.faults entries })
        ∧ t.now = s.now
        ∧ t.pending = s.pending)
      ∧ (s.now.pins.lrstN = false ∨ (k = none ∧ h.cls = 3#2 ∧ h.tie = 7#3 ∧ h.sender = 7#3 ∧ s.slot.won = false) →
        exec (frameCommand k h data) s = .next ({ s with slot := { s.slot with frameHeard := true } }))

/-- R84, R85, R86, R91, R127, R147: the fifth own frame vetoed in a row (ROLL_CALL and SYNCED), and the fourth dissent (SYNCED),
at a vetoed frame: the station is UNSYNCED with its mirror, account, sets and votes in the reset picture and its requests
WAITING, and the last entry is LEFT_SYNC with the reason, veto limit first. The array and the completions are untouched. -/
def Obligations.VetoLimitsLeaveForUnsynced : Prop :=
    ∀ (s : State) (h : Heard) (k : Option FrameKind) (data : Burst),
    let overVeto := s.slot.won = true ∧ (s.now.member.state = .synced ∨ s.now.member.state = .rollCall) ∧ 4 ≤ s.now.lane.vetoCount
    let overDissent := (stationVerdict s.now k h (s.readBackBad k h)).isSome = true ∧ s.now.member.state = .synced
        ∧ 3 ≤ s.now.lane.dissent
    s.begun →
    s.counted →
    s.now.pins.lrstN = true →
    s.vetoes k h →
    (overVeto ∨ overDissent) →
    ∃ t, exec (frameCommand k h data) s = .next t
      ∧ t.after.member.state = .unsynced
      ∧ t.after.lane = ⟨0, 0, 0⟩
      ∧ t.after.mirror = Mirror.reset
      ∧ t.after.account = Account.reset
      ∧ t.after.member.members = 0#6
      ∧ t.after.member.syncPending = 0#6
      ∧ t.after.member.rollCall = 0#6
      ∧ t.after.member.ages = Vector.replicate 6 0
      ∧ t.after.member.window = none
      ∧ t.after.member.requestMade = false
      ∧ t.after.member.straps = s.now.member.straps
      ∧ t.after.retention.votes = 0#6
      ∧ t.after.retention.ageMark = none
      ∧ t.after.retention.wakingGuard = none
      ∧ t.after.retention.ownVote = s.now.retention.ownVote
      ∧ t.after.retention.resume = s.now.retention.resume.map (fun r => { r with path := .resync })
      ∧ t.after.sched.idle = Vector.replicate 12 none
      ∧ t.after.sched.ownBursts = s.after.sched.ownBursts
      ∧ (t.after.port = { s.after.port with queue :=
          (mapAccess (fun a => if a.progress = .issued then a else { a with progress := .waiting }) s.after.port.queue) })
      ∧ t.after.array = s.after.array
      ∧ t.now = s.now
      ∧ (t.after.faults.getLast?
          = some ⟨.leftSync, s.now.account.index, none, none, none, some (if overVeto then .vetoLimit else .dissentLimit)⟩)

/-- R22, R83, R87: in STANDBY and MISMATCH a frame nobody vetoes reaches the array alone. R94, R102, R105: at an UNSYNCED
station any accepted frame but FULL REFRESH: an own SYNC REQUEST sets the request-made flag, a frame of the own number sets
the own age to 0, a differing ROLL CALL or SYNC REQUEST makes its entry, and nothing else changes but the array. R91, R104:
a synced station that drops itself at this close leaves for UNSYNCED with reason self dropped and does not apply the frame
(log entries 18 and 28). -/
def Obligations.StationsNotSyncedOrLeavingApplyNoFrame : Prop :=
    ∀ (s : State) (h : Heard) (f : Frame) (data : Burst),
    Carried h f s →
    s.counted →
    (s.now.member.state = .standby ∨ s.now.member.state = .mismatch →
        ∃ t, exec (frameCommand (some f.body.kind) h data) s = .next t
        ∧ (t.after = { s.after with array :=
          (ArrayDie.accept s.slot.won (s.writeData s.slot.won f.body (if f.body.kind = .write then data else 0#512)) f.body
            s.after.array) })
        ∧ t.now = s.now)
      ∧ (s.now.member.state = .unsynced ∧ f.body.kind ≠ .fullRefresh →
        ∃ t, exec (frameCommand (some f.body.kind) h data) s = .next t
        ∧ (t.after.member = { s.after.member with
          requestMade := s.now.member.requestMade || (s.slot.won && f.body.kind == .syncRequest),
          ages := if s.now.isOwn f.sender then s.now.member.ages.set f.sender 0 else s.now.member.ages })
        ∧ t.after.lane = s.after.lane
        ∧ t.after.mirror = s.after.mirror
        ∧ t.after.account = s.after.account
        ∧ t.after.retention = s.after.retention
        ∧ t.after.sched = s.after.sched
        ∧ t.after.port = s.after.port
        ∧ (t.after.faults = (if s.now.profileAgrees f.sender f.body then s.after.faults else joinFaults s.now.faults
          [⟨.profileMismatch, s.now.account.index, some (BitVec.ofNat 3 f.sender.val), none, some f.body.kind, none⟩])))
      ∧ (s.now.member.state = .synced ∧ judge s.now f = none ∧ s.dropsSelf f = true →
        ∃ t, exec (frameCommand (some f.body.kind) h data) s = .next t
        ∧ t.after.member.state = .unsynced
        ∧ t.after.member.requestMade = false
        ∧ t.after.mirror = Mirror.reset
        ∧ t.after.account = Account.reset
        ∧ t.after.lane = ⟨0, 0, 0⟩
        ∧ t.now = s.now
        ∧ (t.after.array = ArrayDie.accept s.slot.won
          (s.writeData s.slot.won f.body (if f.body.kind = .write then data else 0#512)) f.body s.after.array)
        ∧ t.after.faults.getLast? = some ⟨.leftSync, s.now.account.index, none, none, none, some .selfDropped⟩)

/-- R96, R97: an accepted ROLL CALL in ROLL_CALL: an agreeing sender joins the set, and with N stations in it roll call ends and
the window stops; another makes a PROFILE_MISMATCH entry and does not join. R91, R100: any other frame than ROLL CALL and
FULL REFRESH takes the station to UNSYNCED with reason lane running; the request-made flag tells whether its own ROLL CALL
had been accepted; the frame is not applied. -/
def Obligations.RollCallHearsRollCallsAndARunningLane : Prop :=
    ∀ (s : State) (h : Heard) (f : Frame) (digest : BitVec 16) (peers : BitVec 3) (data : Burst),
    let agrees := s.now.member.digest = some digest ∧ peers.toNat = s.now.peers ∧ f.sender.val < s.now.peers
    let set := if agrees then s.now.member.rollCall.add f.sender else s.now.member.rollCall
    let full := decide agrees && decide (s.now.peers ≤ (allStations.filter (fun y => set.has y)).length)
    Carried h f s →
    s.counted →
    s.now.member.state = .rollCall →
    (f.body = .rollCall digest peers →
        ∃ t, exec (.rollCallFrame h) s = .next t
        ∧ (t.after.member = { s.after.member with
          rollCall := set, rollCallAccepted := s.now.member.rollCallAccepted || s.slot.won,
          rollCallEnded := s.now.member.rollCallEnded || full,
          window := if full then none else s.after.member.window })
        ∧ (t.after.lane = { s.after.lane with vetoCount := if s.slot.won then 0 else s.now.lane.vetoCount })
        ∧ t.after.mirror = s.after.mirror
        ∧ t.after.account = s.after.account
        ∧ t.after.retention = s.after.retention
        ∧ t.after.port = s.after.port
        ∧ t.after.array = s.after.array
        ∧ (t.after.faults = (if agrees then s.after.faults else joinFaults s.now.faults
          [⟨.profileMismatch, s.now.account.index, some (BitVec.ofNat 3 f.sender.val), none, some .rollCall, none⟩])))
      ∧ (f.body.kind ≠ .rollCall ∧ f.body.kind ≠ .fullRefresh →
        ∃ t, exec (frameCommand (some f.body.kind) h data) s = .next t
        ∧ t.after.member.state = .unsynced
        ∧ t.after.member.requestMade = s.now.member.rollCallAccepted
        ∧ t.after.member.rollCall = 0#6
        ∧ t.after.member.window = none
        ∧ t.after.member.digest = s.now.member.digest
        ∧ t.after.lane = ⟨0, 0, 0⟩
        ∧ t.after.mirror = Mirror.reset
        ∧ t.after.account = Account.reset
        ∧ t.after.faults.getLast? = some ⟨.leftSync, s.now.account.index, none, none, none, some .laneRunning⟩)

/-- R99, R111, R16, R67, R91, R172: an accepted FULL REFRESH at a station in ROLL_CALL or UNSYNCED, every row of the two tables
(that R99's SYNCED and MISMATCH stand also at the close at which the roll-call window expires with the own number not in the
set is the model's reading, log entry 33): SYNCED with a RESUME on the resync path answered (R127), UNSYNCED where left out
(at the close of the window, the own number not in the roll-call set, for lane running, the first reason of R91), MISMATCH
with every request detached (R161). -/
def Obligations.FullRefreshSettlesWaitingStations : Prop :=
    ∀ (s : State) (h : Heard) (f : Frame) (balanceAfter : Int) (members : StationSet) (first : Bool)
    (digest : BitVec 16),
    Carried h f s →
    s.counted →
    (s.now.member.state = .rollCall ∨ s.now.member.state = .unsynced) →
    f.body = .fullRefresh balanceAfter members first digest →
    let equal := s.now.member.digest == some digest
    let named := s.now.namedIn members
    let resync := s.now.retention.resume.map PendingResume.path == some .resync
    let lapses := s.now.member.window == some 1
      && !(match s.now.ownNumber with | some x => s.now.member.rollCall.has x | none => false)
    ∃ t, exec (.fullRefreshFrame h) s = .next t
      ∧ (equal = true ∧ named = true →
        t.after.member.state = .synced ∧ t.after.member.members = (members &&& BitVec.ofNat 6 (2 ^ s.now.peers - 1))
          ∧ t.after.member.syncPending = 0#6 ∧ t.after.member.ages = Vector.replicate 6 0 ∧ t.after.lane.turn = 0
          ∧ (∀ c, t.after.bank c = ⟨.refreshing 14 .full, [], none, none⟩) ∧ t.after.mirror.array = .active
          ∧ t.after.mirror.lastOpen = none ∧ t.after.mirror.lastBankRefresh = none ∧ t.after.mirror.reservation = none
          ∧ t.after.account = ⟨if first then 0 else balanceAfter, 0#12, 0#8, first, some s.now.member.profile.interval,
              if first then some 0 else none, false, 0⟩
          ∧ t.after.retention.votes = 0#6 ∧ t.after.retention.ownVote = s.now.retention.ownVote
          ∧ t.after.retention.resume = (if resync then none else s.now.retention.resume)
          ∧ t.after.port = { s.after.port with completions := s.after.port.completions ++ (if resync then
              (s.now.retention.resume.map (fun r => ⟨r.tag, .done, 0, []⟩)).toList else []) }
          ∧ t.after.faults = (if first = true ∧ s.now.member.state = .rollCall then s.after.faults else
              joinFaults s.now.faults
                [⟨.resynced, s.now.account.index, some (BitVec.ofNat 3 f.sender.val), none, some .fullRefresh, none⟩]))
      ∧ (equal = true ∧ named = false ∧ s.now.member.state = .rollCall →
        t.after.member.state = .unsynced ∧ t.after.mirror = Mirror.reset
          ∧ t.after.member.requestMade = (lapses && s.now.member.rollCallAccepted)
          ∧ t.after.faults.getLast? = some ⟨.leftSync, s.now.account.index, none, none, none,
              some (if lapses then .laneRunning else .leftOut)⟩)
      ∧ (equal = true ∧ named = false ∧ s.now.member.state = .unsynced →
        t.after.member.state = .unsynced ∧ t.after.member.requestMade = false ∧ t.after.mirror = s.after.mirror
          ∧ t.after.faults = s.after.faults)
      ∧ (equal = false →
        t.after.member.state = .mismatch ∧ t.after.member.members = 0#6 ∧ t.after.member.syncPending = 0#6
          ∧ t.after.member.rollCall = 0#6 ∧ t.after.member.window = none ∧ t.after.retention.ownVote = false
          ∧ t.after.retention.resume = none ∧ t.after.mirror = s.after.mirror
          ∧ t.after.port.queue = s.after.port.queue.filter (fun e => !e.reserved)
          ∧ t.after.port.completions = s.after.port.completions ++ detachedNow s.after.port.queue s.after.retention.resume
          ∧ t.after.faults = joinFaults s.now.faults
              [⟨.profileMismatch, s.now.account.index, some (BitVec.ofNat 3 f.sender.val), none, some .fullRefresh, none⟩])

/-- R7, R10, R18, R33, R62, R105, R140: the settle guard's expiry lets bursts begin; the close guard's lets a CLOSE begin in
OPEN and auto-closes in CLOSE_PENDING; the yield point goes from BEFORE to GRACE to BARRED; the interval countdown makes a
MARK pending and stops; the data-lane reservation becomes free; an idle-close timer expires; at an UNSYNCED station the own
age's limit clears the request-made flag. Frame: nothing else changes. -/
def Obligations.ExpiriesOfGuardsYieldPointsAndCountersMoveThemAlone : Prop :=
    ∀ (s : State) (b : Bank) (row : Row) (x : Station) (age settle guard : Nat) (r r' : Reservation),
    let put (r : BankRec) : State := { s with slot := { s.slot with closing := true }, after := s.after.setBank b r }
    let closed (d : Device) : State := { s with slot := { s.slot with closing := true }, after := d }
    ((s.now.bank b).st.settle? = some 1 ∧ (s.after.bank b).st = .opened row x age 1 guard →
        exec (.settleGuardExpiry b) s = .next (put { s.after.bank b with st := .opened row x age 0 guard }))
      ∧ ((s.now.bank b).st.closeGuard? = some 1 ∧ (s.after.bank b).st = .opened row x age settle 1 →
        exec (.closeGuardExpiry b) s = .next (put { s.after.bank b with st := .opened row x age settle 0 }))
      ∧ ((s.now.bank b).st.closeGuard? = some 1 ∧ (s.after.bank b).st = .closePending row x age 1 →
        exec (.closeGuardExpiry b) s = .next (put { s.after.bank b with st := .recharging 3 }))
      ∧ ((s.now.bank b).before? = some 1 ∧ (s.after.bank b).before? = some 1 →
        exec (.yieldBeforeExpiry b) s = .next (put { s.after.bank b with yield := some (.grace 32) }))
      ∧ ((s.now.bank b).grace? = some 1 ∧ (s.after.bank b).grace? = some 1 →
        exec (.yieldGraceExpiry b) s = .next (put { s.after.bank b with yield := some .barred }))
      ∧ (s.now.account.countdown = some 1 ∧ s.after.account.countdown = some 1 →
        exec .intervalCountdownExpiry s = .next
          (closed { s.after with account := { s.after.account with countdown := none, pendingMark := true } }))
      ∧ (s.now.mirror.reservation = some r ∧ s.after.mirror.reservation = some r' ∧ r.count = 1 ∧ r'.count = 1 →
        exec .dataLaneReservationFree s = .next
          (closed { s.after with mirror := { s.after.mirror with reservation := none } }))
      ∧ (s.now.sched.idle[b] = some 1 ∧ s.after.sched.idle[b] = some 1 →
        exec (.idleCloseTimerExpiry b) s = .next
          (closed { s.after with sched := { s.after.sched with idle := s.after.sched.idle.set b (some 0) } }))
      ∧ (s.now.member.state = .unsynced ∧ s.after.member.state = .unsynced ∧ s.now.ownAge = 12287 ∧ s.after.ownAge = 12287 →
        exec .ownAgeLimitUnsynced s = .next
          (closed { s.after with member := { s.after.member with requestMade := false } }))

/-- R12, R17, R36, R40, R41: at a recharge or refresh expiry the bank is CLOSED; a non-empty list has a grant for its head,
RUNNING with a full window, FROZEN under a freezing condition, whether it starts or was PAUSED; an empty list has none.
Frame: nothing else changes. -/
def Obligations.BusyExpiriesCloseTheBankAndStartAGrant : Prop :=
    ∀ (s : State) (b : Bank) (kind : RefreshKind),
    let frozen := 48 ≤ s.after.account.balance ∨ s.after.member.syncPending ≠ 0#6 ∨ s.after.mirror.array ≠ .active
    let done : State := { s with
      slot := { s.slot with closing := true },
      after := s.after.setBank b { s.after.bank b with
        st := .closed,
        grant := if (s.after.bank b).waiters = [] then none
          else some (if frozen then .frozen else .running s.after.member.profile.grantWindow) } }
    ((s.now.bank b).st = .recharging 1 ∧ (s.after.bank b).st = .recharging 1 →
        exec (.rechargeExpiry b) s = .next done)
      ∧ ((s.now.bank b).st = .refreshing 1 kind ∧ (s.after.bank b).st = .refreshing 1 kind →
        exec (.refreshBusyExpiry b) s = .next done)

/-- R34, R38, R39, R134, R173: a RUNNING grant whose window expires: its head leaves the list, the next takes the grant with a
full window, an emptied list loses grant and yield point; the lapsed station makes its entry and its request is WAITING.
Frame: nothing else. -/
def Obligations.GrantWindowExpiryLapsesTheHead : Prop :=
    ∀ (s : State) (b : Bank) (x : Station) (rest : List Station),
    (s.now.bank b).grant = some (.running 1) →
    (s.after.bank b).grant = some (.running 1) →
    (s.after.bank b).waiters = x :: rest →
    let own := s.after.ownNumber == some x
    let base := if s.slot.faultRead then s.now.faults.drop 1 else s.now.faults
    let index := s.slot.markIndex.getD s.now.account.index
    (∃ t, exec (.grantWindowExpiry b) s = .next t
        ∧ (t.after = { s.after.setBank b { s.after.bank b with
            waiters := rest,
            yield := if rest = [] then none else (s.after.bank b).yield,
            grant := if rest = [] then none else some (.running s.after.member.profile.grantWindow) } with
          faults := if own then joinFaults base
            (insertEntry ⟨.grantLapsed, index, none, some b, none, none⟩ s.slot.entries) else s.after.faults,
          port := { s.after.port with queue := (if own then mapHead (fun a => { a with progress := .waiting }) s.after.port.queue b
            else s.after.port.queue) } })
        ∧ t.now = s.now
        ∧ t.slot.closing = true
        ∧ t.windowOut = s.windowOut
        ∧ t.free = s.free
        ∧ t.pending = s.pending)

/-- R41, R122: the array state is ACTIVE and the guard stopped; every FROZEN grant whose freeze rested on the array state alone
runs with a full window, the others stay as they are. Frame: nothing else changes. -/
def Obligations.WakingGuardExpiryActivatesTheArrayState : Prop :=
    ∀ (s : State),
    s.now.retention.wakingGuard = some 1 →
    s.after.retention.wakingGuard = some 1 →
    s.after.mirror.array = .waking →
    s.after.grantsSettled →
    let still := 48 ≤ s.after.account.balance ∨ s.after.member.syncPending ≠ 0#6
    (∃ t, exec .wakingGuardExpiry s = .next t
        ∧ t.after.mirror.array = .active
        ∧ t.after.retention = { s.after.retention with wakingGuard := none }
        ∧ (∀ c, t.after.bank c = { s.after.bank c with
          grant := if (s.after.bank c).grant = some .frozen ∧ ¬ still then
            some (.running s.after.member.profile.grantWindow) else (s.after.bank c).grant })
        ∧ t.after.mirror.lastOpen = s.after.mirror.lastOpen
        ∧ t.after.mirror.lastBankRefresh = s.after.mirror.lastBankRefresh
        ∧ t.after.mirror.reservation = s.after.mirror.reservation
        ∧ t.after.account = s.after.account
        ∧ t.after.member = s.after.member
        ∧ t.after.sched = s.after.sched
        ∧ t.after.port = s.after.port
        ∧ t.after.faults = s.after.faults
        ∧ t.after.array = s.after.array
        ∧ t.after.lane = s.after.lane
        ∧ t.now = s.now
        ∧ t.pending = s.pending)

/-- R91, R97: with the own number in the roll-call set, roll call ends and the window stops; without it the station enters
UNSYNCED with reason lane running, the request-made flag telling whether its own ROLL CALL had been accepted, and makes one
LEFT_SYNC entry in its place among the entries of the close (R174): last, where the close has none yet. That GRANT_LAPSED
and MEMBER_DROPPED entries of the close are taken back is the model's reading (log entry 18). -/
def Obligations.RollCallWindowExpiryEndsRollCall : Prop :=
    ∀ (s : State),
    s.now.member.window = some 1 →
    s.after.member.window = some 1 →
    let base := if s.slot.faultRead then s.now.faults.drop 1 else s.now.faults
    let index := s.slot.markIndex.getD s.now.account.index
    let kept := s.slot.entries.filter (fun e => e.kind != .grantLapsed && e.kind != .memberDropped)
    let left : FaultEntry := ⟨.leftSync, index, none, none, none, some .laneRunning⟩
    (s.after.ownInRollCall = true →
        exec .rollCallWindowExpiry s = .next ({ s with
        slot := { s.slot with closing := true },
        after := { s.after with member := { s.after.member with window := none, rollCallEnded := true } } }))
      ∧ (s.after.ownInRollCall = false →
        ∃ t, exec .rollCallWindowExpiry s = .next t
        ∧ t.after.member.state = .unsynced
        ∧ t.after.member.window = none
        ∧ t.after.member.rollCall = 0#6
        ∧ t.after.member.requestMade = s.after.member.rollCallAccepted
        ∧ t.after.mirror = Mirror.reset
        ∧ t.after.account = Account.reset
        ∧ t.after.array = s.after.array
        ∧ t.now = s.now
        ∧ t.after.faults = joinFaults base (insertEntry left kept)
        ∧ ((∀ e ∈ s.slot.entries, e.kind ≠ .leftSync) → t.after.faults.getLast? = some left))

/-- R34, R39, R41, R46, R91, R104: a member silent for 12287 slots is dropped: out of the membership, sync-pending and vote sets
and every list, grants passing on and frozen ones running where the sync-pending set empties; the holder stays. The own
number dropped leaves for UNSYNCED with one LEFT_SYNC entry in its place among the entries of the close (R174): last, where
the close has none yet. The model's choices: the lists are those after a frame accepted at the close (log entry 35), and a
station that drops itself takes back the GRANT_LAPSED and MEMBER_DROPPED entries of the close (log entry 18). -/
def Obligations.MemberDropRemovesTheMember : Prop :=
    ∀ (s : State) (m : Station),
    s.now.member.state = .synced →
    s.after.member.state = .synced →
    s.after.member.members.has m = true →
    s.now.member.ages[m] = 12287 →
    s.after.member.ages[m] = 12287 →
    let base := if s.slot.faultRead then s.now.faults.drop 1 else s.now.faults
    let index := s.slot.markIndex.getD s.now.account.index
    let kept := s.slot.entries.filter (fun e => e.kind != .grantLapsed && e.kind != .memberDropped)
    let left : FaultEntry := ⟨.leftSync, index, none, none, none, some .selfDropped⟩
    let full := s.after.member.profile.grantWindow
    let passed (c : Bank) : Option Grant :=
      if m ∈ (s.after.bank c).waiters ∧ (s.after.bank c).waiters.erase m = [] then none
      else if (s.after.bank c).waiters.head? = some m then
        passGrant full (s.after.bank c).grant
      else (s.after.bank c).grant
    (s.after.ownNumber ≠ some m ∧ s.after.grantsSettled →
        ∃ t, exec (.memberDrop m) s = .next t
        ∧ t.after.member = { s.after.member with
          members := s.after.member.members.drop m, syncPending := s.after.member.syncPending.drop m,
          ages := s.after.member.ages.set m 0 }
        ∧ t.after.retention = { s.after.retention with votes := s.after.retention.votes.drop m }
        ∧ (∀ c, (t.after.bank c).st = (s.after.bank c).st ∧ (t.after.bank c).waiters = (s.after.bank c).waiters.erase m
          ∧ (t.after.bank c).yield = (if m ∈ (s.after.bank c).waiters ∧ (s.after.bank c).waiters.erase m = [] then none
              else (s.after.bank c).yield)
          ∧ (t.after.bank c).grant = (if passed c = some .frozen ∧ t.after.freezing = false then some (.running full)
              else passed c))
        ∧ t.after.grantsSettled
        ∧ t.after.account = s.after.account
        ∧ t.after.sched = s.after.sched
        ∧ t.after.port = s.after.port
        ∧ t.after.array = s.after.array
        ∧ t.after.mirror.array = s.after.mirror.array
        ∧ t.after.mirror.reservation = s.after.mirror.reservation
        ∧ t.now = s.now
        ∧ t.after.faults = joinFaults base
          (insertEntry ⟨.memberDropped, index, some (BitVec.ofNat 3 m.val), none, none, none⟩ s.slot.entries))
      ∧ (s.after.ownNumber = some m →
        ∃ t, exec (.memberDrop m) s = .next t
        ∧ t.after.member.state = .unsynced
        ∧ t.after.member.members = 0#6
        ∧ t.after.member.requestMade = false
        ∧ t.after.mirror = Mirror.reset
        ∧ t.after.account = Account.reset
        ∧ t.after.lane = ⟨0, 0, 0⟩
        ∧ t.after.array = s.after.array
        ∧ t.now = s.now
        ∧ t.after.faults = joinFaults base (insertEntry left kept)
        ∧ ((∀ e ∈ s.slot.entries, e.kind ≠ .leftSync) → t.after.faults.getLast? = some left))

/-- R103: at the start of a slot the standing offer of PRESENCE has the class the own age gives; a station neither SYNCED nor
UNSYNCED makes none. Frame: nothing else changes. -/
def Obligations.PresenceIsOfferedByTheOwnAge : Prop :=
    ∀ (s : State) (age : Nat),
    let offering (c : Option FrameClass) : State := { s with
      now := { s.now with member := { s.now.member with presence := c } },
      after := { s.after with member := { s.after.member with presence := c } } }
    s.begun →
    s.slot.arbitrated = false →
    (s.now.ownAge = age ∧ (s.now.member.state = .synced ∨ s.now.member.state = .unsynced) →
        exec .presenceAgeReached s = .next
          (offering (if 8192 ≤ age then some .urgent else if 4096 ≤ age then some .routine else if 2048 ≤ age then some .idle else none)))
      ∧ (s.now.member.state ≠ .synced ∧ s.now.member.state ≠ .unsynced →
        exec .presenceAgeReached s = .next (offering none))

/-- R132, R156: at the start of a slot every head request with no reservation whose first frame would be offered takes one,
oldest first, while entries and reservations together stay at 16 or below; at a station not synced none does. Frame: nothing
else changes. -/
def Obligations.ReservationsAreTakenOldestFirstWhileRoomExists : Prop :=
    ∀ (s : State) (x : Station),
    let wanting := ((accesses s.now.port.queue).filter (fun a =>
      headOf s.now.port.queue a.bank == some a && !a.reserved && (s.now.serving x a).isSome)).map Access.tag
    let reserving (tags : List Tag) : State :=
      let q := mapAccess (fun a => if a.tag ∈ tags then { a with reserved := true } else a) s.now.port.queue
      { s with now := s.now.setQueue q, after := s.after.setQueue q }
    s.begun →
    s.slot.arbitrated = false →
    s.after.port = s.now.port →
    (s.now.port.queue.map Entry.tag).Nodup →
    s.now.ownNumber = some x →
    (s.now.member.state = .synced →
        exec .completionReservation s = .next (reserving (wanting.take (16 - s.now.roomTaken))))
      ∧ (s.now.member.state ≠ .synced →
        exec .completionReservation s = .next s)

/-- R20, R88, R136, R155, R159: the second data slot of one own burst closes: a READ's higher half, the array's where the array
drives it and, by the model's choice, a free value's where it drives none (log entry 9), joins its request with the lower
half captured in its first; a request with all bursts accepted and no other burst moving completes DONE, or CANCELLED where
cancelled. R20, R22, R88: at the slot's close an own READ's lower half is captured in its first data slot, and of each WRITE
in one of its data slots the half carried stands in the contents, lower first, byte k of its place byte k of its data (the
whole where a station reset has cut it, free values, log entry 9); every other byte reads as before. The bursts whose second
data slot it is leave the array's bursts in flight, and RETAINING the array works none on (log entry 21). That the empty
queue brings the close is the model's choice (log entry 2). -/
def Obligations.LastDataSlotCapturesAndCompletes : Prop :=
    ∀ (s : State) (o : OwnBurst) (a : Access),
    let left := s.after.sched.ownBursts.filter (fun o' => o' != o)
    let captured (higher : Bool) (o : OwnBurst) (undriven : Burst) : Half :=
      if s.now.array.inFlight.any (fun i => !i.isWrite && i.own && i.bank == o.bank && i.row == o.row && i.column == o.column
          && i.left == (if higher then 1 else 2))
      then Memory.readHalf s.now.array.mem (burstAddress o.bank o.row o.column) higher else burstHalf higher undriven
    let data : Burst := captured true o (Config.undefinedBurst s.free) ++ o.lower.getD (burstHalf false (Config.undefinedBurst s.free))
    let finished := a.progress = .issued ∧ ∀ o' ∈ left, o'.tag ≠ o.tag
    let moving := s.after.array.inFlight.filter (fun i => i.isWrite && decide (i.left ≤ 1))
    let first (i : ArrayBurst) : Nat := if i.left = 1 ∨ i.cut = true then 0 else 32
    let last (i : ArrayBurst) : Nat := if i.left = 1 then 32 else 64
    let ended := (s.after.sched.ownBursts.filter OwnBurst.due).length
    (s.after.sched.ownBursts.filter OwnBurst.due = [o] ∧ findAccess o.tag s.after.port.queue = some a ∧ a.isWrite = o.isWrite
        ∧ ((accesses s.after.port.queue).map Access.tag).Nodup →
        ∃ t, exec .lastDataSlotClose s = .next t
        ∧ t.after.sched = { s.after.sched with ownBursts := left }
        ∧ (¬ finished → t.after.port = { s.after.port with queue :=
          (mapAccess (fun e => if e.tag = o.tag ∧ o.isWrite = false then { e with captured := e.captured ++ [data] } else e)
            s.after.port.queue) })
        ∧ (finished → (accesses t.after.port.queue).filter (fun e => e.tag == o.tag) = []
          ∧ t.after.port.completions = s.after.port.completions
            ++ [⟨o.tag, if a.cancelled then .cancelled else .done, a.accepted, if o.isWrite then [] else a.captured ++ [data]⟩]
          ∧ ∀ g, g ≠ o.tag → findAccess g t.after.port.queue = findAccess g s.after.port.queue)
        ∧ t.after.mirror = s.after.mirror
        ∧ t.after.account = s.after.account
        ∧ t.after.member = s.after.member
        ∧ t.after.retention = s.after.retention
        ∧ t.after.faults = s.after.faults
        ∧ t.after.array = s.after.array
        ∧ t.now = s.now
        ∧ t.pending = s.pending)
      ∧ (s.pending = [] ∧ Memory.wf s.after.array.mem = true →
        ∃ t, step s = .next t
            ∧ t.now.array.inFlight = (if s.after.array.state = .retaining then [] else s.after.array.inFlight.filter (fun i => i.left != 0))
          ∧ t.now.sched.ownBursts = (s.after.sched.ownBursts.filter (fun o => o.left != 0)).map (fun o =>
              if o.isWrite = false
                  ∧ o.left = 1 then { o with lower := some (captured false o (Config.undefinedBurst (s.free + ended))) } else o)
          ∧ (∀ i ∈ moving, (∀ j ∈ moving, j.bank = i.bank → j.row = i.row → j.column = i.column → j.data = i.data) →
              ∀ k, first i ≤ k → k < last i → Memory.readByte t.now.array.mem (burstAddress i.bank i.row i.column + k) = burstByte i.data k)
          ∧ (∀ address, (∀ i ∈ moving, address < burstAddress i.bank i.row i.column + first i
              ∨ burstAddress i.bank i.row i.column + last i ≤ address) →
              Memory.readByte t.now.array.mem address = Memory.readByte s.after.array.mem address))

/-- R161: in MISMATCH, with completion room at the start of the slot, the oldest waiting detached request posts its DETACHED
completion and leaves the queue. Frame: nothing else changes, but a RETAIN entry's own vote is long clear. -/
def Obligations.DetachedRequestsPostWhenRoomExists : Prop :=
    ∀ (s : State) (a : Access) (tag : Tag) (stamp : Nat) (rest : List Entry),
    let posting (c : Completion) : State := { s with
      slot := { s.slot with closing := true },
      after := { s.after with port := { s.after.port with queue := rest, completions := s.after.port.completions ++ [c] } } }
    s.now.member.state = .mismatch →
    s.now.roomTaken < 16 →
    s.after.port.queue = s.now.port.queue →
    (s.now.port.queue = .access a :: rest ∧ (∀ e ∈ rest, e.tag ≠ a.tag) →
        exec .detachedCompletionPosted s = .next
          (posting ⟨a.tag, .detached, a.accepted, if a.isWrite then [] else a.captured⟩))
      ∧ (s.now.port.queue = .retain tag stamp :: rest →
        exec .detachedCompletionPosted s = .next (posting ⟨tag, .detached, 0, []⟩))

/-- The model's choice (log entry 4), not a rule: an expiry commanded in a slot at whose start its timer does not read 1, or its
age 12287, changes nothing; the last data slot, where no own burst in the picture after the close has 0 slots still to run. -/
def Obligations.ExpiriesNotDueChangeNothing : Prop :=
    ∀ (s : State) (b : Bank) (m : Station),
    ((s.now.bank b).st.settle? ≠ some 1 →
        exec (.settleGuardExpiry b) s = .next s)
      ∧ ((s.now.bank b).st.closeGuard? ≠ some 1 →
        exec (.closeGuardExpiry b) s = .next s)
      ∧ ((s.now.bank b).st.recharge? ≠ some 1 →
        exec (.rechargeExpiry b) s = .next s)
      ∧ ((s.now.bank b).st.refresh? ≠ some 1 →
        exec (.refreshBusyExpiry b) s = .next s)
      ∧ ((s.now.bank b).before? ≠ some 1 →
        exec (.yieldBeforeExpiry b) s = .next s)
      ∧ ((s.now.bank b).grace? ≠ some 1 →
        exec (.yieldGraceExpiry b) s = .next s)
      ∧ ((s.now.bank b).window? ≠ some 1 →
        exec (.grantWindowExpiry b) s = .next s)
      ∧ (s.now.account.countdown ≠ some 1 →
        exec .intervalCountdownExpiry s = .next s)
      ∧ (s.now.retention.wakingGuard ≠ some 1 →
        exec .wakingGuardExpiry s = .next s)
      ∧ (s.now.member.window ≠ some 1 →
        exec .rollCallWindowExpiry s = .next s)
      ∧ (s.now.member.state ≠ .synced ∨ s.now.member.ages[m] ≠ 12287 →
        exec (.memberDrop m) s = .next s)
      ∧ (s.now.sched.idle[b] ≠ some 1 →
        exec (.idleCloseTimerExpiry b) s = .next s)
      ∧ (s.now.mirror.reservation.map Reservation.count ≠ some 1 →
        exec .dataLaneReservationFree s = .next s)
      ∧ ((∀ o ∈ s.after.sched.ownBursts, o.left ≠ 0) →
        exec .lastDataSlotClose s = .next s)
      ∧ (s.counted ∧ (∀ o ∈ s.now.sched.ownBursts, 1 < o.left) →
        exec .lastDataSlotClose s = .next s)
      ∧ (s.now.member.state ≠ .mismatch ∨ 16 ≤ s.now.roomTaken →
        exec .detachedCompletionPosted s = .next s)
      ∧ (s.now.member.state ≠ .unsynced ∨ s.now.ownAge ≠ 12287 →
        exec .ownAgeLimitUnsynced s = .next s)

/-- R126, R130, R150, R152, R154, R161, R181: a READ or WRITE that passes the tests joins the tail of the queue with its record
and data, WAITING, with no reservation; with the own vote set and the array not RETAINING it withdraws the RETAIN request
(R126; in the array state UNINIT too, log entry 15). Taken at entry into MISMATCH it has no other effect. That the drops due
at this close come first is the model's choice (log entry 18). Frame: nothing else changes. -/
def Obligations.ReadAndWriteRequestsJoinTheQueue : Prop :=
    ∀ (s : State) (w0 w1 : Word) (data : List Burst) (b : Bank) (isWrite : Bool),
    let dropped := State.takeDrops { s with slot := { s.slot with closing := true, requestPlaced := true } }
    let row := (w1.extractLsb' 16 16).toNat
    let column := (w0.extractLsb' 7 8).toNat
    let bursts := (w0.extractLsb' 19 3).toNat
    let queue := dropped.after.port.queue ++ [Entry.access ⟨w0.extractLsb' 26 6, isWrite, b, BitVec.ofNat 14 row, BitVec.ofNat 7 column, bursts,
      w0.getLsbD 22, if isWrite then data else [], dropped.after.port.arrivals, .waiting, 0, false, false, []⟩]
    let withdraws := dropped.after.retention.ownVote && dropped.after.mirror.array != .retaining && dropped.after.member.state != .mismatch
    let gone := if withdraws then retainEntry dropped.after.port.queue else none
    s.after.outOfReset = true →
    s.slot.requestPlaced = false →
    (s.now.member.state ≠ .standby ∧ s.now.member.state ≠ .mismatch) →
    (isWrite = false → (w0.extractLsb' 23 3).toNat ≤ 4) →
    w0.extractLsb' 15 4 = BitVec.ofNat 4 b.val →
    (row ≤ 16383 ∧ column + bursts ≤ 128 ∧ 1 ≤ bursts ∧ bursts ≤ 4) →
    s.now.outstanding (w0.extractLsb' 26 6) = false →
    s.now.port.queue.length < 16 →
    exec (if isWrite then .writeRequest w0 w1 data else .readRequest w0 w1) s = .next ({ dropped with
        after := { dropped.after with
          retention := { dropped.after.retention with ownVote := if withdraws then false else dropped.after.retention.ownVote },
          port := { dropped.after.port with
            queue := match gone with | some g => queue.filter (fun e => e.tag != g) | none => queue,
            completions := dropped.after.port.completions ++ (gone.map (fun g => ⟨g, .withdrawn, 0, []⟩)).toList,
            arrivals := dropped.after.port.arrivals + 1 } } })
      ∧ ((∀ m, s.dropDue m = false) → dropped = { s with slot := { s.slot with closing := true, requestPlaced := true } })

/-- R150, R151, R152, R153, R161: the tests of R152 in their order, the first that applies giving the outcome: a completion with
the refusal's status where room for it exists, a discard where not; a second request of a slot, a CANCEL among them, is held
for the next, a third discarded. R184 (11.4): none is taken while a reset input is low. That READ_REQUEST carries a record
with a kind code of 5 to 7, which names no kind, is the model's choice (log entry 13). -/
def Obligations.RequestsAreRefusedOrDiscardedInOrder : Prop :=
    ∀ (s : State) (w0 w1 : Word) (data : List Burst),
    let commands : List (Instr × Request) := [
      (.readRequest w0 w1, ⟨if (w0.extractLsb' 23 3).toNat ≤ 4 then some .read else none, w0, w1, []⟩),
      (.writeRequest w0 w1 data, ⟨some .write, w0, w1, data⟩),
      (.retainRequest w0 w1, ⟨some .retain, w0, w1, []⟩),
      (.resumeRequest w0 w1, ⟨some .resume, w0, w1, []⟩),
      (.cancel w0 w1, ⟨some .cancel, w0, w1, []⟩)]
    let placed : State := { s with slot := { s.slot with closing := true, requestPlaced := true } }
    let discarded : State :=
      { placed with
        slot := { placed.slot with discarded := true },
        after := { s.after with port := { s.after.port with overflow := true } } }
    let displaced : State := { discarded with slot := { s.slot with closing := true, discarded := true } }
    let holding (r : Request) : State :=
      { s with slot := { s.slot with closing := true }, after := { s.after with port := { s.after.port with heldRequest := some r } } }
    let state := s.now.member.state
    let stopped : Bool := state == .standby || state == .mismatch
    let access (r : Request) : Bool := r.kind == some .read || r.kind == some .write
    let outside (r : Request) : Bool := decide (r.kind = none ∨ (access r ∧ (12 ≤ r.bankField.toNat ∨ 16383 < r.row.toNat
        ∨ 127 < r.column.toNat
      ∨ r.bursts = 0 ∨ 4 < r.bursts ∨ 128 < r.column.toNat + r.bursts)))
    let second (r : Request) : Bool :=
      decide ((r.kind = some .retain ∧ retainEntry s.now.port.queue ≠ none) ∨ (r.kind = some .resume
          ∧ s.now.retention.resume ≠ none))
    let overfull (r : Request) : Bool :=
      decide (((access r ∨ r.kind = some .retain) ∧ 16 ≤ s.now.port.queue.length)
        ∨ ((r.kind = some .retain ∨ r.kind = some .resume) ∧ 16 ≤ s.now.roomTaken))
    let room := s.now.roomTaken + (if state = .mismatch ∧ s.now.port.queue ≠ [] then 1 else 0) < 16
    let answered (tag : Tag) (st : Status) : State :=
      if room then
        { placed with after := { s.after with port := { s.after.port with
          completions := s.after.port.completions ++ [⟨tag, st, 0, []⟩] } } }
      else discarded
    (∀ p ∈ commands,
        (s.after.outOfReset = false → exec p.1 s = .next s)
        ∧ (s.after.outOfReset = true ∧ s.slot.requestPlaced = true ∧ s.after.port.heldRequest = none →
            exec p.1 s = .next (holding p.2))
        ∧ (s.after.outOfReset = true ∧ s.slot.requestPlaced = true ∧ s.after.port.heldRequest ≠ none →
            exec p.1 s = .next (displaced))
        ∧ (s.after.outOfReset = true ∧ s.slot.requestPlaced = false ∧ p.2.kind ≠ some .cancel →
          (stopped → exec p.1 s = .next (answered p.2.tag .refusedState))
          ∧ (¬ stopped ∧ outside p.2 → exec p.1 s = .next (answered p.2.tag .refusedRange))
          ∧ (¬ stopped ∧ ¬ outside p.2 ∧ s.now.outstanding p.2.tag = true → exec p.1 s = .next (answered p.2.tag .refusedTag))
          ∧ (¬ stopped ∧ ¬ outside p.2 ∧ s.now.outstanding p.2.tag = false ∧ second p.2 →
              exec p.1 s = .next (answered p.2.tag .refusedState))
          ∧ (¬ stopped ∧ ¬ outside p.2 ∧ s.now.outstanding p.2.tag = false ∧ ¬ second p.2 ∧ overfull p.2 →
              exec p.1 s = .next (discarded))))

/-- R125, R127, R152, R160, R161: a RETAIN taken joins the queue and sets the own vote; a RESUME taken withdraws a queued RETAIN
and takes the path of the picture after the close, or completes at once. Taken at entry into MISMATCH either is DETACHED.
That a RESUME acts after the drops due at this close is the model's choice (log entry 18). Frame: nothing else changes. -/
def Obligations.RetainAndResumeRequestsAreTaken : Prop :=
    ∀ (s : State) (w0 w1 : Word),
    let tag : Tag := w0.extractLsb' 26 6
    let dropped := State.takeDrops { s with slot := { s.slot with closing := true, requestPlaced := true } }
    let gone := retainEntry dropped.after.port.queue
    let taken (path : Option ResumePath) : State :=
      { dropped with
        after := { dropped.after with
          retention := { dropped.after.retention with
            ownVote := if gone.isSome then false else dropped.after.retention.ownVote,
            resume := match path with | some p => some ⟨tag, p, dropped.after.port.arrivals⟩ | none => dropped.after.retention.resume },
          port := { dropped.after.port with
            queue := match gone with
              | some g => dropped.after.port.queue.filter (fun e => e.tag != g)
              | none => dropped.after.port.queue,
            completions := dropped.after.port.completions ++ (gone.map (fun g => ⟨g, .withdrawn, 0, []⟩)).toList
              ++ (if path = none then [⟨tag, .done, 0, []⟩] else []),
            arrivals := dropped.after.port.arrivals + (if path = none then 0 else 1) } } }
    let detached : State :=
      { s with
        slot := { s.slot with closing := true, requestPlaced := true },
        after := { s.after with port := { s.after.port with completions := s.after.port.completions ++ [⟨tag, .detached, 0, []⟩] } } }
    s.after.outOfReset = true →
    s.slot.requestPlaced = false →
    (s.now.member.state ≠ .standby ∧ s.now.member.state ≠ .mismatch) →
    s.now.outstanding (w0.extractLsb' 26 6) = false →
    s.now.roomTaken < 16 →
    (retainEntry s.now.port.queue = none ∧ s.now.port.queue.length < 16 ∧ s.after.member.state ≠ .mismatch →
        exec (.retainRequest w0 w1) s = .next ({ s with
        slot := { s.slot with closing := true, requestPlaced := true },
        after := { s.after with
          retention := { s.after.retention with ownVote := true },
          port := { s.after.port with
            queue := s.after.port.queue ++ [.retain tag s.after.port.arrivals], arrivals := s.after.port.arrivals + 1 } } }))
      ∧ (retainEntry s.now.port.queue = none ∧ s.now.port.queue.length < 16 ∧ s.after.member.state = .mismatch →
        exec (.retainRequest w0 w1) s = .next detached)
      ∧ (s.now.retention.resume = none ∧ dropped.after.member.state = .mismatch →
        exec (.resumeRequest w0 w1) s = .next ({ dropped with after := { dropped.after with port := { dropped.after.port with
          completions := dropped.after.port.completions ++ [⟨tag, .detached, 0, []⟩] } } }))
      ∧ (s.now.retention.resume = none ∧ dropped.after.member.state = .synced ∧ dropped.after.mirror.array = .retaining →
        exec (.resumeRequest w0 w1) s = .next (taken (some .wake)))
      ∧ (s.now.retention.resume = none ∧ dropped.after.member.state = .synced ∧ dropped.after.mirror.array ≠ .retaining
          ∧ dropped.after.ownVoted = true →
        exec (.resumeRequest w0 w1) s = .next (taken (some .vote)))
      ∧ (s.now.retention.resume = none ∧ dropped.after.member.state = .synced ∧ dropped.after.mirror.array ≠ .retaining
          ∧ dropped.after.ownVoted = false →
        exec (.resumeRequest w0 w1) s = .next (taken none))
      ∧ (s.now.retention.resume = none ∧ dropped.after.member.state ≠ .synced ∧ dropped.after.member.state ≠ .mismatch →
        exec (.resumeRequest w0 w1) s = .next (taken (some .resync)))
      ∧ ((∀ m, s.dropDue m = false) → dropped = { s with slot := { s.slot with closing := true, requestPlaced := true } })

/-- R128, R146, R158, R159, R161: a CANCEL whose target is not outstanding, a RESUME, or ISSUED has no effect; a target with no
reservation and no room discards it; a READ or WRITE completes CANCELLED with its bursts accepted, or waits ISSUED while its
data moves; a RETAIN completes CANCELLED. In MISMATCH nothing happens, and at the close of the entry into it a CANCEL taken
has no effect (R161), one without its room is discarded. A CANCEL that comes later in its slot, or while a reset input is
low: O43. Frame: nothing else changes. -/
def Obligations.CancelCompletesItsTarget : Prop :=
    ∀ (s : State) (w0 w1 : Word) (a a' : Access),
    let target : Tag := w1.extractLsb' 10 6
    let placed : State := { s with slot := { s.slot with closing := true, requestPlaced := true } }
    let discarded : State :=
      { placed with
        slot := { placed.slot with discarded := true },
        after := { s.after with port := { s.after.port with overflow := true } } }
    let completing (retain : Bool) (c : Completion) : State :=
      { placed with after := { s.after with
        retention := { s.after.retention with ownVote := if retain then false else s.after.retention.ownVote },
        port := { s.after.port with
          queue := s.after.port.queue.filter (fun e => e.tag != target),
          completions := s.after.port.completions ++ [c] } } }
    s.after.outOfReset = true →
    s.slot.requestPlaced = false →
    (s.now.member.state = .mismatch ∨ (findAccess target s.now.port.queue = none ∧ retainEntry s.now.port.queue ≠ some target)
        ∨ (s.after.member.state = .mismatch ∧ findAccess target s.now.port.queue = none) →
        exec (.cancel w0 w1) s = .next placed)
      ∧ (s.after.member.state = .mismatch ∧ findAccess target s.now.port.queue = some a ∧ (a.reserved = true
          ∨ s.now.roomTaken < 16) →
        exec (.cancel w0 w1) s = .next placed)
      ∧ (findAccess target s.now.port.queue = some a ∧ a.progress = .issued →
        exec (.cancel w0 w1) s = .next placed)
      ∧ (s.now.member.state ≠ .mismatch ∧ findAccess target s.now.port.queue = some a ∧ a.progress ≠ .issued
          ∧ a.reserved = false ∧ 16 ≤ s.now.roomTaken →
        exec (.cancel w0 w1) s = .next discarded)
      ∧ (s.now.member.state ≠ .mismatch ∧ s.after.member.state ≠ .mismatch ∧ findAccess target s.now.port.queue = some a
          ∧ a.progress ≠ .issued ∧ (a.reserved = true ∨ s.now.roomTaken < 16)
        ∧ findAccess target s.after.port.queue = some a' ∧ (∀ o ∈ s.after.sched.ownBursts, o.tag ≠ target) →
        exec (.cancel w0 w1) s = .next
          (completing false ⟨target, .cancelled, a'.accepted, if a'.isWrite then [] else a'.captured⟩))
      ∧ (s.now.member.state ≠ .mismatch ∧ s.after.member.state ≠ .mismatch ∧ findAccess target s.now.port.queue = some a
          ∧ a.progress ≠ .issued ∧ (a.reserved = true ∨ s.now.roomTaken < 16)
        ∧ findAccess target s.after.port.queue = some a' ∧ (∃ o ∈ s.after.sched.ownBursts, o.tag = target) →
        exec (.cancel w0 w1) s = .next ({ placed with after := { s.after with port := { s.after.port with queue :=
            (mapAccess (fun e => if e.tag = target then { e with progress := .issued, cancelled := true } else e) s.after.port.queue) } } }))
      ∧ (s.now.member.state ≠ .mismatch ∧ s.after.member.state ≠ .mismatch ∧ findAccess target s.now.port.queue = none
          ∧ retainEntry s.now.port.queue = some target
        ∧ retainEntry s.after.port.queue = some target →
        exec (.cancel w0 w1) s = .next (completing true ⟨target, .cancelled, 0, []⟩))

/-- R157, R181: the first read of a slot returns the oldest entry as it stood at the slot's start, or the empty indication, and
that entry leaves at the close; a later read in the slot returns the same again. That bits 18 to 0 of a record's word read 0
is the model's choice (log entry 34). Frame: nothing else changes. -/
def Obligations.CompletionReadReturnsTheOldestEntry : Prop :=
    ∀ (s : State),
    (s.slot.completionRead = false →
        exec .completionRead s = .next ({ s with
        slot := { s.slot with closing := true, completionRead := true },
        windowOut := match s.now.port.completions with
          | c :: _ => (1#1 ++ c.tag ++ statusCode c.status ++ BitVec.ofNat 3 c.burstsDone ++ 0#19) :: c.readData.flatMap burstWords
          | [] => [0#32],
        after := { s.after with port := { s.after.port with completions :=
          (if s.now.port.completions = [] then s.after.port.completions else s.after.port.completions.drop 1) } } }))
      ∧ (s.slot.completionRead = true →
        exec .completionRead s = .next s)

/-- R92, R94, R95, R162, R163, R182: in STANDBY, straps with station number 0 to 5 below a peer count of 2 to 6 take the station
to ROLL_CALL with the digest computed and the window loaded; other straps are refused; in another state START is refused.
Frame: nothing else changes but the straps read. -/
def Obligations.StartEntersRollCallOrIsRefused : Prop :=
    ∀ (s : State) (number peers : BitVec 3) (x : Station),
    let answered (code : Word) (m : Membership) : State :=
      { s with
        slot := { s.slot with closing := true, controlPlaced := true },
        now := { s.now with pins := { s.now.pins with stationStrap := number, peerStrap := peers } },
        after := { s.after with
          pins := { s.after.pins with stationStrap := number, peerStrap := peers },
          member := m,
          port := { s.after.port with control := { s.after.port.control with outcome := code } } } }
    s.after.outOfReset = true →
    s.slot.controlPlaced = false →
    (s.now.member.state = .standby ∧ number = BitVec.ofNat 3 x.val ∧ 2 ≤ peers.toNat ∧ peers.toNat ≤ 6 ∧ x.val < peers.toNat →
        exec (.start number peers) s = .next (answered 1#32 { s.after.member with
          state := .rollCall, straps := some ⟨x, peers.toNat⟩, digest := some (profileDigest s.now.member.profile peers.toNat),
          rollCall := 0#6, window := some 2048, rollCallEnded := false, rollCallAccepted := false }))
      ∧ (s.now.member.state = .standby ∧ (6 ≤ number.toNat ∨ peers.toNat < 2 ∨ 6 < peers.toNat ∨ peers.toNat ≤ number.toNat) →
        exec (.start number peers) s = .next (answered 3#32 s.after.member))
      ∧ (s.now.member.state ≠ .standby →
        exec (.start number peers) s = .next (answered 5#32 s.after.member))

/-- R93, R162, R164, R182: in STANDBY words 1 and 2 in range replace all five fields and return LOADED; out of range
REFUSED_RANGE; in another state REFUSED_STATE, judged first; the profile stays as it was. Frame: nothing else changes. -/
def Obligations.ProfileLoadReplacesTheProfileOrIsRefused : Prop :=
    ∀ (s : State),
    let w0 := s.now.port.control.profile0
    let w1 := s.now.port.control.profile1
    let interval := (w0.extractLsb' 22 10).toNat
    let hold := (w0.extractLsb' 11 11).toNat
    let window := (w0.extractLsb' 4 7).toNat
    let inside := 96 ≤ interval ∧ interval ≤ 1023 ∧ 16 ≤ hold ∧ hold ≤ 1024 ∧ 4 ≤ window ∧ window ≤ 64
    let answered (code : Word) (p : Profile) : State :=
      { s with
        slot := { s.slot with closing := true, controlPlaced := true },
        after := { s.after with
          member := { s.after.member with profile := p },
          port := { s.after.port with control := { s.after.port.control with outcome := code } } } }
    s.after.outOfReset = true →
    s.slot.controlPlaced = false →
    (s.now.member.state = .standby ∧ inside →
        exec .profileLoad s = .next
          (answered 2#32 ⟨interval, hold, window, (w1.extractLsb' 24 8).toNat, w1.getLsbD 23⟩))
      ∧ (s.now.member.state = .standby ∧ ¬ inside →
        exec .profileLoad s = .next (answered 4#32 s.after.member.profile))
      ∧ (s.now.member.state ≠ .standby →
        exec .profileLoad s = .next (answered 5#32 s.after.member.profile))

/-- R153, R162, R165, R166, R174, R175, R182: the status read copies the three words of the slot's start and clears the overflow
flag but for a discard at this close; the fault-list read copies the oldest entry, which leaves; words 1 and 2 are written;
word 0 places its operation; a second operation of a slot, START among them, changes nothing but that the slot closes and
the straps read. R184: while a reset input is low none is taken. The model's choices: words 3 to 7 and a code that names no
operation change nothing, such a code does not use up the slot's operation, and START by word 0 uses the straps as last read
(log entry 12); START's straps are read even where it is not taken (log entry 11); words 1 and 2 written while a reset input
is low are dropped (log entry 14); the unlisted bits of status words B and C, of a fault entry and of the empty indication
read 0 (log entry 34). -/
def Obligations.ControlWindowReadsAndWrites : Prop :=
    ∀ (s : State) (address number peers : BitVec 3) (value : Word),
    let a := s.now.statusA
    let b := s.now.statusB
    let c := s.now.statusC
    let idle : State := { s with slot := { s.slot with closing := true } }
    let strapped (u : State) : State := { u with
      now := { u.now with pins := { u.now.pins with stationStrap := number, peerStrap := peers } },
      after := { u.after with pins := { u.after.pins with stationStrap := number, peerStrap := peers } } }
    (s.after.outOfReset = true ∧ s.slot.controlPlaced = false →
        ∃ t, exec .statusRead s = .next t
        ∧ t.after.port = { s.after.port with
            overflow := s.slot.discarded, control := { s.after.port.control with statusA := a, statusB := b, statusC := c } }
        ∧ t.now = s.now
        ∧ t.after.member = s.after.member
        ∧ t.after.mirror = s.after.mirror
        ∧ t.after.account = s.after.account
        ∧ t.after.retention = s.after.retention
        ∧ t.after.faults = s.after.faults
        ∧ t.after.array = s.after.array
        ∧ t.pending = s.pending)
      ∧ (a.extractLsb' 29 3 = stationStateCode s.now.member.state ∧ a.getLsbD 28 = s.now.account.aligned
        ∧ a.extractLsb' 25 3 = (match s.now.ownNumber with | some x => BitVec.ofNat 3 x.val | none => 7#3)
        ∧ a.extractLsb' 22 3 = BitVec.ofNat 3 s.now.peers ∧ a.extractLsb' 20 2 = arrayStateCode s.now.mirror.array
        ∧ a.extractLsb' 13 7 = BitVec.ofInt 7 s.now.account.balance ∧ a.extractLsb' 5 8 = s.now.account.index
        ∧ a.extractLsb' 1 4 = BitVec.ofNat 4 s.now.account.wakeRefresh ∧ a.getLsbD 0 = s.now.port.overflow
        ∧ b.extractLsb' 24 6 = s.now.member.members ∧ b.extractLsb' 16 6 = s.now.member.syncPending
            ∧ b.extractLsb' 8 6 = s.now.retention.votes
        ∧ c.extractLsb' 24 5 = BitVec.ofNat 5 s.now.port.queue.length
            ∧ c.extractLsb' 16 5 = BitVec.ofNat 5 s.now.port.completions.length
        ∧ c.extractLsb' 8 5 = BitVec.ofNat 5 s.now.reservations ∧ c.extractLsb' 0 4 = BitVec.ofNat 4 s.now.faults.length)
      ∧ (s.after.outOfReset = true ∧ s.slot.controlPlaced = false →
        ∃ t, exec .faultListRead s = .next t
        ∧ (t.after.port = { s.after.port with control := { s.after.port.control with fault :=
            (match s.now.faults with | e :: _ => e.word | [] => 0#32) } })
        ∧ t.after.faults = joinFaults (s.now.faults.drop 1) s.slot.entries
        ∧ t.slot.faultRead = true
        ∧ t.now = s.now
        ∧ t.after.member = s.after.member
        ∧ t.after.mirror = s.after.mirror
        ∧ t.after.account = s.after.account
        ∧ t.after.retention = s.after.retention
        ∧ t.after.array = s.after.array
        ∧ t.pending = s.pending)
      ∧ (s.after.outOfReset = true ∧ s.slot.controlPlaced = true →
        exec .statusRead s = .next idle)
      ∧ (s.after.outOfReset = true ∧ s.slot.controlPlaced = true →
        exec .faultListRead s = .next idle)
      ∧ (s.after.outOfReset = true ∧ s.slot.controlPlaced = true →
        exec .profileLoad s = .next idle)
      ∧ (s.after.outOfReset = true ∧ s.slot.controlPlaced = true →
        exec (.start number peers) s = .next (strapped idle))
      ∧ (s.after.outOfReset = false →
        exec (.start number peers) s = .next (strapped s))
      ∧ (s.after.outOfReset = false →
        ∀ c ∈ [Instr.statusRead, .faultListRead, .profileLoad, .controlWordWrite address value], exec c s = .next s)
      ∧ (s.after.outOfReset = true ∧ address = 1#3 →
        exec (.controlWordWrite address value) s = .next
          ({ idle with after := { s.after with port := { s.after.port with control := { s.after.port.control with profile0 := value } } } }))
      ∧ (s.after.outOfReset = true ∧ address = 2#3 →
        exec (.controlWordWrite address value) s = .next
          ({ idle with after := { s.after with port := { s.after.port with control := { s.after.port.control with profile1 := value } } } }))
      ∧ (3 ≤ address.toNat ∨ (address = 0#3 ∧ (value = 0#32 ∨ 4 < value.toNat)) →
        exec (.controlWordWrite address value) s = .next s)
      ∧ (exec (.controlWordWrite 0#3 2#32) s = exec .profileLoad s ∧ exec (.controlWordWrite 0#3 3#32) s = exec .statusRead s
        ∧ exec (.controlWordWrite 0#3 4#32) s = exec .faultListRead s
        ∧ (s.after.pins.stationStrap = s.now.pins.stationStrap ∧ s.after.pins.peerStrap = s.now.pins.peerStrap →
          exec (.controlWordWrite 0#3 1#32) s = exec (.start s.now.pins.stationStrap s.now.pins.peerStrap) s))

/-- R2, R20, R24, R67, R73, R84, R85, R89, R112, R113, R124, R130, R168, R169, R182, R184: LRST_N low: the station in its reset
values, the array's banks CLOSED and the array UNINIT, nothing in flight, no frame of the slot counted; every byte outside
the WRITE bursts in flight at the slot's start keeps its value. The model's choices: which bursts these are and that the
slot's one request, one operation and one read stay used up (log entry 27), and that the words last read stand (log entry
10). -/
def Obligations.LaneResetSetsEveryResetValue : Prop :=
    ∀ (s : State),
    (∃ t, exec .laneReset s = .next t
        ∧ t.now.holdsResetValues
        ∧ t.after = t.now
        ∧ t.slot = { Slot.fresh with
          completionRead := s.slot.completionRead, controlPlaced := s.slot.controlPlaced, requestPlaced := s.slot.requestPlaced }
        ∧ t.windowOut = s.windowOut
        ∧ (t.now.array.state = .uninit ∧ t.now.array.waking = none ∧ t.now.array.inFlight = []
            ∧ ∀ b : Bank, t.now.array.banks[b] = .closed)
        ∧ t.now.pins = { s.after.pins with lrstN := false }
        ∧ t.pending = s.pending
        ∧ (∀ address, (∀ i ∈ s.now.array.inFlight, i.isWrite = true →
            address < burstAddress i.bank i.row i.column ∨ burstAddress i.bank i.row i.column + 64 ≤ address) →
          Memory.readByte t.now.array.mem address = Memory.readByte s.now.array.mem address))

/-- R2, R20, R24, R67, R89, R112, R113, R130, R168, R169, R182, R184: SRST_N low: the station in its reset values in both
pictures; the array keeps its banks, its state and its contents, and its bursts in flight, each with its data but for a
WRITE of this station's, whose data is undefined and is marked to leave its whole burst so (free values, log entry 9). The
model's choices: the slot's one request, one operation and one read stay used up (log entry 27), and the words last read
stand (log entry 10). A release raises its input and changes nothing else. -/
def Obligations.StationResetSetsTheStationAlone : Prop :=
    ∀ (s : State) (pin : ResetPin),
    (∃ t, exec .stationReset s = .next t
        ∧ (t.now.holdsResetValues ∧ t.after.holdsResetValues)
        ∧ (t.now.pins = { s.now.pins with srstN := false } ∧ t.after.pins = { s.after.pins with srstN := false })
        ∧ (t.now.array = { s.now.array with inFlight := t.now.array.inFlight }
            ∧ t.after.array = { s.after.array with inFlight := t.after.array.inFlight })
        ∧ (∀ p ∈ [(t.now.array.inFlight, s.now.array.inFlight), (t.after.array.inFlight, s.after.array.inFlight)],
          p.1.map (fun i => (i.isWrite, i.bank, i.row, i.column, i.left)) = p.2.map (fun i => (i.isWrite, i.bank, i.row, i.column, i.left))
          ∧ p.1.all (fun i => !i.own) = true
          ∧ (∀ q ∈ p.1.zip p.2, (q.2.isWrite = true ∧ q.2.own = true → q.1.cut = true)
            ∧ (q.2.isWrite = false ∨ q.2.own = false → q.1.data = q.2.data ∧ q.1.cut = q.2.cut)))
        ∧ t.slot = { Slot.fresh with
          arbitrated := s.slot.arbitrated, frameHeard := s.slot.frameHeard, closing := s.slot.closing, laneField := s.slot.laneField,
          completionRead := s.slot.completionRead, controlPlaced := s.slot.controlPlaced, requestPlaced := s.slot.requestPlaced }
        ∧ t.windowOut = s.windowOut
        ∧ t.pending = s.pending)
      ∧ (pin = .laneReset →
        exec (.resetInputRelease pin) s = .next
          ({ s with after := { s.after with pins := { s.after.pins with lrstN := true } } }))
      ∧ (pin = .stationReset →
        exec (.resetInputRelease pin) s = .next
          ({ s with after := { s.after with pins := { s.after.pins with srstN := true } } }))

/-- R71, R81, R184: at the start of a slot the station contends with its candidate, with none while a reset input is low; the
lowest arbitration field wins, compared as one 12-bit number. Frame: nothing but the record of the arbitration changes. An
event of a slot's start that comes in a slot past its arbitration is the next slot's, the close coming first (the model's
choice, log entry 3). -/
def Obligations.ArbitrationIsWonByTheLowestField : Prop :=
    ∀ (s : State) (others : List (BitVec 12)),
    let mine := if s.now.pins.lrstN = true ∧ s.now.pins.srstN = true then s.now.candidate else none
    let fields := (mine.map Frame.field).toList ++ others
    (s.begun ∧ s.slot.arbitrated = false →
        ∃ t, exec (.slotArbitration others) s = .next t
        ∧ t.slot.candidate = mine
        ∧ t.slot.arbitrated = true
        ∧ (t.slot.won = true ↔ ∃ f ∈ mine.toList, ∀ o ∈ others, f.field.toNat ≤ o.toNat)
        ∧ (t.slot.laneField = none ↔ mine = none ∧ others = [])
        ∧ (∀ w ∈ t.slot.laneField.toList, w ∈ fields ∧ ∀ o ∈ fields, w.toNat ≤ o.toNat)
        ∧ t = { s with slot := { s.slot with arbitrated := true, candidate := t.slot.candidate, won := t.slot.won, laneField := t.slot.laneField } })
      ∧ (s.slot.arbitrated = true ∨ s.slot.frameHeard = true ∨ s.slot.closing = true →
        exec (.slotArbitration others) s = exec (.slotArbitration others) s.closeSlot
          ∧ exec .presenceAgeReached s = exec .presenceAgeReached s.closeSlot
          ∧ exec .completionReservation s = exec .completionReservation s.closeSlot)

/-- R72, R80, R81: the transmit candidate of a synced station is one of its offers, of the lowest class and kind among them,
legal to its own mirror, with its own number and the tie value of its turn pointer. -/
def Obligations.CandidatesAreLegalAndOfTheLowestClassAndKind : Prop :=
    ∀ (d : Device) (f : Frame),
    d.member.state = .synced →
    d.candidate = some f →
    (f ∈ d.offers ∧ judge d f = none ∧ d.ownNumber = some f.sender)
      ∧ f.tie = BitVec.ofNat 3 ((f.sender.val + d.peers - d.lane.turn % d.peers) % d.peers)
      ∧ (∀ g ∈ d.offers, (classCode f.cls).toNat < (classCode g.cls).toNat
        ∨ (f.cls = g.cls ∧ (kindCode f.body.kind).toNat ≤ (kindCode g.body.kind).toNat))

/-- R133 to R138: the frame wanted for a bank's head request by the bank's record, offered where the station's own mirror finds
it legal: the next burst with its close-after flag, a plain CLOSE, NOTICE, OPEN on its row, or none. -/
def Obligations.AHeadRequestIsServedByTheTable : Prop :=
    ∀ (d : Device) (x : Station) (a : Access),
    let record := d.bank a.bank
    let frame (c : FrameClass) (body : Body) : Frame := ⟨c, d.tieValue x, x, body⟩
    let own := record.st.isOpened = true ∧ record.st.holder? = some x
    let sameRow := ∃ h age settle guard, record.st = .opened a.row h age settle guard
    let last := a.accepted + 1 == a.bursts && !furtherQueued d.port.queue a.bank
      && (!record.waiters.isEmpty || d.member.profile.idleDelay == 0 || a.hint)
    d.serving x a = (d.wanted x a).filter (fun f => judge d f == none)
      ∧ (own ∧ sameRow
          ∧ a.progress = .held → d.wanted x a = some (frame .bank (if a.isWrite then .write a.bank (a.column + BitVec.ofNat 7 a.accepted) last
          else .read a.bank (a.column + BitVec.ofNat 7 a.accepted) last)))
      ∧ (own ∧ sameRow ∧ a.progress ≠ .held → d.wanted x a = none)
      ∧ (own ∧ ¬ sameRow → d.wanted x a = some (frame .bank (.close a.bank false)))
      ∧ ((∃ row age guard, record.st = .closePending row x age guard) → d.wanted x a = none)
      ∧ ((∃ h, record.st.holder? = some h ∧ h ≠ x) ∧ x ∉ record.waiters → d.wanted x a = some (frame .routine (.notice a.bank)))
      ∧ (record.st = .closed ∧ record.waiters = []
          ∧ record.grant = none → d.wanted x a = some (frame .bank (.openRow a.bank a.row)))
      ∧ (record.st = .closed ∧ record.waiters.head? = some x
          ∧ (∃ w, record.grant = some (.running w)) → d.wanted x a = some (frame .bank (.openRow a.bank a.row)))
      ∧ (record.st.holder? = none ∧ (record.waiters ≠ [] ∨ record.grant ≠ none)
          ∧ x ∉ record.waiters → d.wanted x a = some (frame .routine (.notice a.bank)))
      ∧ (record.st.holder? ≠ some x ∧ x ∈ record.waiters
        ∧ ¬ (record.st = .closed ∧ record.waiters.head? = some x ∧ ∃ w, record.grant = some (.running w)) → d.wanted x a = none)
      ∧ (record.st ≠ .closed ∧ record.st.holder? = none ∧ record.waiters = [] ∧ record.grant = none → d.wanted x a = none)

/-- R70, R74, R76, R179, R180: every frame of a class its kind permits, its balance-after from -48 to 60: sent undisturbed, its
check holds, it decodes to itself with every field, and every bit reads back. -/
def Obligations.EveryWellFormedFrameDecodesToItself : Prop :=
    ∀ (f : Frame),
    classPermitted f.body.kind f.cls = true →
    (∀ b after, f.body = .bankRefresh b after → -48 ≤ after ∧ after ≤ 60) →
    (∀ after members first digest, f.body = .fullRefresh after members first digest → -48 ≤ after ∧ after ≤ 60) →
    (checkOk (some f.body.kind) f.heard = true ∧ decodeFrame f.body.kind f.heard = some f
        ∧ readsBack f (some f.body.kind) f.heard = true)

/-- R76: with a correct check, a frame is malformed exactly when its kind code is 15, its class is not permitted, its sender is
6 or 7, its bank is 12 to 15 or its balance-after is outside -48 to 60; a station in ROLL_CALL, UNSYNCED or SYNCED vetoes it
for reason malformed, before any other part of the verdict, and so does the array. That the array vetoes a frame whose only
fault is its class is the model's reading (log entry 31): R87 has it judge form under R76 and says that it neither reads the
class. -/
def Obligations.AFrameIsMalformedExactlyByTheTable : Prop :=
    ∀ (s : State) (k : Option FrameKind) (h : Heard),
    let malformed : Prop := k = none ∨ ∃ kind, k = some kind ∧ (classPermitted kind (classOf h.cls) = false ∨ 6 ≤ h.sender.toNat
      ∨ (kindHasBank kind = true ∧ 12 ≤ (h.body.extractLsb' 28 4).toNat)
      ∨ (kind = .bankRefresh ∧ ((h.body.extractLsb' 21 7).toInt < -48 ∨ 60 < (h.body.extractLsb' 21 7).toInt))
      ∨ (kind = .fullRefresh ∧ ((h.body.extractLsb' 25 7).toInt < -48 ∨ 60 < (h.body.extractLsb' 25 7).toInt)))
    checkOk k h = true →
    s.readBackBad k h = false →
    (malformed → s.arrayVeto k h = true ∧ (s.now.member.state = .rollCall ∨ s.now.member.state = .unsynced
        ∨ s.now.member.state = .synced →
          stationVerdict s.now k h (s.readBackBad k h) = some .malformed))
      ∧ (¬ malformed → ∃ kind f, k = some kind ∧ decodeFrame kind h = some f ∧ f.sender.val = h.sender.toNat
          ∧ s.arrayVeto k h = arrayVetoes s.now.array f.body
          ∧ (s.now.member.state = .rollCall ∨ s.now.member.state = .unsynced → stationVerdict s.now k h (s.readBackBad k h) = none)
          ∧ (s.now.member.state = .synced → stationVerdict s.now k h (s.readBackBad k h) = judge s.now f))

/-- R48, R54, R84, R85, R90, R169: in both pictures the balance stays from -48 to 60, the rotation set never holds twelve banks,
the own consecutive-veto count stays below 5, the dissent count below 4, and the fault list holds at most 8 entries. -/
def Obligations.EveryStepKeepsBalanceRotationCountsAndFaultList : Prop :=
    ∀ (s : State) (t : State),
    s.both Device.accountOk →
    s.both Device.countsOk →
    step s = .next t →
    (t.both Device.accountOk ∧ t.both Device.countsOk)

/-- R22, R24, section 0.3: the array's contents keep their canonical form in both pictures: addresses strictly rising, no cell
equal to what an unlisted address reads as (the model's layout and free values, log entries 8 and 20). -/
def Obligations.EveryStepKeepsTheArraysContentsCanonical : Prop :=
    ∀ (s : State) (t : State),
    s.both Device.memoryOk →
    step s = .next t →
    t.both Device.memoryOk

/-- R26, R41: no grant is RUNNING while a freezing condition holds and none FROZEN while none does, in both pictures; a station
that is not synced has no waiter and no grant; and a slot in which nothing has happened is counted (the two pictures are the
model's, log entry 2). -/
def Obligations.EveryStepKeepsGrantsInLineWithTheFreeze : Prop :=
    ∀ (s : State) (t : State),
    s.grantsOk →
    step s = .next t →
    t.grantsOk

/-- R24, R89, R112, R184: the state after reset holds the reset values, the array UNINIT with nothing listed of its undefined
contents (log entry 8), an empty queue, and every invariant. Its pins high are the model's choice (log entry 10). -/
def Obligations.ResetHoldsEveryInvariant : Prop :=
    (State.reset.now.holdsResetValues ∧ State.reset.after = State.reset.now ∧ State.reset.pending = [])
      ∧ (State.reset.now.array.state = .uninit ∧ State.reset.now.array.inFlight = [] ∧ State.reset.now.array.mem = ⟨0, []⟩
      ∧ ∀ b : Bank, State.reset.now.array.banks[b] = .closed)
      ∧ (State.reset.both Device.accountOk ∧ State.reset.both Device.countsOk ∧ State.reset.both Device.memoryOk
      ∧ State.reset.grantsOk ∧ State.reset.freshSlot)

end
end

