-- ==== Sys2Proof/Laws/State.lean ====
section
/-! SUPPORT. One lemma per field and update, true by rfl, so that no later proof unfolds a record update. -/

namespace Sys2Proof.Machine

/-! ### Updates of the state -/

@[simp] theorem State.upd_now (f : Device → Device) (s : State) : (s.upd f).now = s.now := rfl
@[simp] theorem State.upd_after (f : Device → Device) (s : State) : (s.upd f).after = f s.after := rfl
@[simp] theorem State.upd_slot (f : Device → Device) (s : State) : (s.upd f).slot = s.slot := rfl
@[simp] theorem State.upd_windowOut (f : Device → Device) (s : State) : (s.upd f).windowOut = s.windowOut := rfl
@[simp] theorem State.upd_free (f : Device → Device) (s : State) : (s.upd f).free = s.free := rfl
@[simp] theorem State.upd_pending (f : Device → Device) (s : State) : (s.upd f).pending = s.pending := rfl
@[simp] theorem State.close_now (s : State) : s.close.now = s.now := rfl
@[simp] theorem State.close_after (s : State) : s.close.after = s.after := rfl
@[simp] theorem State.close_windowOut (s : State) : s.close.windowOut = s.windowOut := rfl
@[simp] theorem State.close_free (s : State) : s.close.free = s.free := rfl
@[simp] theorem State.close_pending (s : State) : s.close.pending = s.pending := rfl
@[simp] theorem State.close_slot (s : State) : s.close.slot = { s.slot with closing := true } := rfl
@[simp] theorem State.settleFaults_now (s : State) : s.settleFaults.now = s.now := rfl
@[simp] theorem State.settleFaults_slot (s : State) : s.settleFaults.slot = s.slot := rfl
@[simp] theorem State.settleFaults_windowOut (s : State) : s.settleFaults.windowOut = s.windowOut := rfl
@[simp] theorem State.settleFaults_free (s : State) : s.settleFaults.free = s.free := rfl
@[simp] theorem State.settleFaults_pending (s : State) : s.settleFaults.pending = s.pending := rfl
@[simp] theorem State.settleFaults_after_lane (s : State) : s.settleFaults.after.lane = s.after.lane := rfl
@[simp] theorem State.settleFaults_after_mirror (s : State) : s.settleFaults.after.mirror = s.after.mirror := rfl
@[simp] theorem State.settleFaults_after_account (s : State) : s.settleFaults.after.account = s.after.account := rfl
@[simp] theorem State.settleFaults_after_member (s : State) : s.settleFaults.after.member = s.after.member := rfl
@[simp] theorem State.settleFaults_after_retention (s : State) : s.settleFaults.after.retention = s.after.retention := rfl
@[simp] theorem State.settleFaults_after_sched (s : State) : s.settleFaults.after.sched = s.after.sched := rfl
@[simp] theorem State.settleFaults_after_port (s : State) : s.settleFaults.after.port = s.after.port := rfl
@[simp] theorem State.settleFaults_after_array (s : State) : s.settleFaults.after.array = s.after.array := rfl
@[simp] theorem State.settleFaults_after_pins (s : State) : s.settleFaults.after.pins = s.after.pins := rfl
@[simp] theorem State.settleFaults_after_faults (s : State) : s.settleFaults.after.faults = joinFaults (if s.slot.faultRead then s.now.faults.drop 1 else s.now.faults) s.slot.entries := rfl
@[simp] theorem State.addFault_now (e : FaultEntry) (s : State) : (s.addFault e).now = s.now := rfl
@[simp] theorem State.addFault_windowOut (e : FaultEntry) (s : State) : (s.addFault e).windowOut = s.windowOut := rfl
@[simp] theorem State.addFault_free (e : FaultEntry) (s : State) : (s.addFault e).free = s.free := rfl
@[simp] theorem State.addFault_pending (e : FaultEntry) (s : State) : (s.addFault e).pending = s.pending := rfl
@[simp] theorem State.addFault_slot (e : FaultEntry) (s : State) : (s.addFault e).slot = { s.slot with entries := insertEntry e s.slot.entries } := rfl
@[simp] theorem State.addFault_after_lane (e : FaultEntry) (s : State) : (s.addFault e).after.lane = s.after.lane := rfl
@[simp] theorem State.addFault_after_mirror (e : FaultEntry) (s : State) : (s.addFault e).after.mirror = s.after.mirror := rfl
@[simp] theorem State.addFault_after_account (e : FaultEntry) (s : State) : (s.addFault e).after.account = s.after.account := rfl
@[simp] theorem State.addFault_after_member (e : FaultEntry) (s : State) : (s.addFault e).after.member = s.after.member := rfl
@[simp] theorem State.addFault_after_retention (e : FaultEntry) (s : State) : (s.addFault e).after.retention = s.after.retention := rfl
@[simp] theorem State.addFault_after_sched (e : FaultEntry) (s : State) : (s.addFault e).after.sched = s.after.sched := rfl
@[simp] theorem State.addFault_after_port (e : FaultEntry) (s : State) : (s.addFault e).after.port = s.after.port := rfl
@[simp] theorem State.addFault_after_array (e : FaultEntry) (s : State) : (s.addFault e).after.array = s.after.array := rfl
@[simp] theorem State.addFault_after_pins (e : FaultEntry) (s : State) : (s.addFault e).after.pins = s.after.pins := rfl
@[simp] theorem State.addFault_after_faults (e : FaultEntry) (s : State) : (s.addFault e).after.faults = joinFaults (if s.slot.faultRead then s.now.faults.drop 1 else s.now.faults) (insertEntry e s.slot.entries) := rfl
@[simp] theorem State.retractDrops_now (s : State) : s.retractDrops.now = s.now := rfl
@[simp] theorem State.retractDrops_windowOut (s : State) : s.retractDrops.windowOut = s.windowOut := rfl
@[simp] theorem State.retractDrops_free (s : State) : s.retractDrops.free = s.free := rfl
@[simp] theorem State.retractDrops_pending (s : State) : s.retractDrops.pending = s.pending := rfl
@[simp] theorem State.retractDrops_after_lane (s : State) : s.retractDrops.after.lane = s.after.lane := rfl
@[simp] theorem State.retractDrops_after_mirror (s : State) : s.retractDrops.after.mirror = s.after.mirror := rfl
@[simp] theorem State.retractDrops_after_account (s : State) : s.retractDrops.after.account = s.after.account := rfl
@[simp] theorem State.retractDrops_after_member (s : State) : s.retractDrops.after.member = s.after.member := rfl
@[simp] theorem State.retractDrops_after_retention (s : State) : s.retractDrops.after.retention = s.after.retention := rfl
@[simp] theorem State.retractDrops_after_sched (s : State) : s.retractDrops.after.sched = s.after.sched := rfl
@[simp] theorem State.retractDrops_after_port (s : State) : s.retractDrops.after.port = s.after.port := rfl
@[simp] theorem State.retractDrops_after_array (s : State) : s.retractDrops.after.array = s.after.array := rfl
@[simp] theorem State.retractDrops_after_pins (s : State) : s.retractDrops.after.pins = s.after.pins := rfl
@[simp] theorem State.enterUnsynced_now (r : LeftReason) (q : Bool) (s : State) : (s.enterUnsynced r q).now = s.now := rfl
@[simp] theorem State.enterUnsynced_windowOut (r : LeftReason) (q : Bool) (s : State) : (s.enterUnsynced r q).windowOut = s.windowOut := rfl
@[simp] theorem State.enterUnsynced_free (r : LeftReason) (q : Bool) (s : State) : (s.enterUnsynced r q).free = s.free := rfl
@[simp] theorem State.enterUnsynced_pending (r : LeftReason) (q : Bool) (s : State) : (s.enterUnsynced r q).pending = s.pending := rfl
@[simp] theorem State.enterUnsynced_after_faults (r : LeftReason) (q : Bool) (s : State) : (s.enterUnsynced r q).after.faults = joinFaults (if s.slot.faultRead then s.now.faults.drop 1 else s.now.faults) (insertEntry ⟨.leftSync, s.entryIndex, none, none, none, some r⟩ (s.slot.entries.filter (fun e => e.kind != .grantLapsed && e.kind != .memberDropped))) := rfl
@[simp] theorem State.enterUnsynced_after_lane (r : LeftReason) (q : Bool) (s : State) : (s.enterUnsynced r q).after.lane = (s.after.toUnsynced q).lane := rfl
@[simp] theorem State.enterUnsynced_after_mirror (r : LeftReason) (q : Bool) (s : State) : (s.enterUnsynced r q).after.mirror = (s.after.toUnsynced q).mirror := rfl
@[simp] theorem State.enterUnsynced_after_account (r : LeftReason) (q : Bool) (s : State) : (s.enterUnsynced r q).after.account = (s.after.toUnsynced q).account := rfl
@[simp] theorem State.enterUnsynced_after_member (r : LeftReason) (q : Bool) (s : State) : (s.enterUnsynced r q).after.member = (s.after.toUnsynced q).member := rfl
@[simp] theorem State.enterUnsynced_after_retention (r : LeftReason) (q : Bool) (s : State) : (s.enterUnsynced r q).after.retention = (s.after.toUnsynced q).retention := rfl
@[simp] theorem State.enterUnsynced_after_sched (r : LeftReason) (q : Bool) (s : State) : (s.enterUnsynced r q).after.sched = (s.after.toUnsynced q).sched := rfl
@[simp] theorem State.enterUnsynced_after_port (r : LeftReason) (q : Bool) (s : State) : (s.enterUnsynced r q).after.port = (s.after.toUnsynced q).port := rfl
@[simp] theorem State.enterUnsynced_after_array (r : LeftReason) (q : Bool) (s : State) : (s.enterUnsynced r q).after.array = (s.after.toUnsynced q).array := rfl
@[simp] theorem State.enterUnsynced_after_pins (r : LeftReason) (q : Bool) (s : State) : (s.enterUnsynced r q).after.pins = (s.after.toUnsynced q).pins := rfl

/-! ### Updates of a picture -/

@[simp] theorem Device.setBank_lane (b : Bank) (r : BankRec) (d : Device) : (d.setBank b r).lane = d.lane := rfl
@[simp] theorem Device.setBank_account (b : Bank) (r : BankRec) (d : Device) : (d.setBank b r).account = d.account := rfl
@[simp] theorem Device.setBank_member (b : Bank) (r : BankRec) (d : Device) : (d.setBank b r).member = d.member := rfl
@[simp] theorem Device.setBank_retention (b : Bank) (r : BankRec) (d : Device) : (d.setBank b r).retention = d.retention := rfl
@[simp] theorem Device.setBank_sched (b : Bank) (r : BankRec) (d : Device) : (d.setBank b r).sched = d.sched := rfl
@[simp] theorem Device.setBank_port (b : Bank) (r : BankRec) (d : Device) : (d.setBank b r).port = d.port := rfl
@[simp] theorem Device.setBank_faults (b : Bank) (r : BankRec) (d : Device) : (d.setBank b r).faults = d.faults := rfl
@[simp] theorem Device.setBank_array (b : Bank) (r : BankRec) (d : Device) : (d.setBank b r).array = d.array := rfl
@[simp] theorem Device.setBank_pins (b : Bank) (r : BankRec) (d : Device) : (d.setBank b r).pins = d.pins := rfl
@[simp] theorem Device.setBank_mirror_lastOpen (b : Bank) (r : BankRec) (d : Device) : (d.setBank b r).mirror.lastOpen = d.mirror.lastOpen := rfl
@[simp] theorem Device.setBank_mirror_lastBankRefresh (b : Bank) (r : BankRec) (d : Device) : (d.setBank b r).mirror.lastBankRefresh = d.mirror.lastBankRefresh := rfl
@[simp] theorem Device.setBank_mirror_reservation (b : Bank) (r : BankRec) (d : Device) : (d.setBank b r).mirror.reservation = d.mirror.reservation := rfl
@[simp] theorem Device.setBank_mirror_array (b : Bank) (r : BankRec) (d : Device) : (d.setBank b r).mirror.array = d.mirror.array := rfl
@[simp] theorem Device.setQueue_lane (q : List Entry) (d : Device) : (d.setQueue q).lane = d.lane := rfl
@[simp] theorem Device.setQueue_mirror (q : List Entry) (d : Device) : (d.setQueue q).mirror = d.mirror := rfl
@[simp] theorem Device.setQueue_account (q : List Entry) (d : Device) : (d.setQueue q).account = d.account := rfl
@[simp] theorem Device.setQueue_member (q : List Entry) (d : Device) : (d.setQueue q).member = d.member := rfl
@[simp] theorem Device.setQueue_retention (q : List Entry) (d : Device) : (d.setQueue q).retention = d.retention := rfl
@[simp] theorem Device.setQueue_sched (q : List Entry) (d : Device) : (d.setQueue q).sched = d.sched := rfl
@[simp] theorem Device.setQueue_faults (q : List Entry) (d : Device) : (d.setQueue q).faults = d.faults := rfl
@[simp] theorem Device.setQueue_array (q : List Entry) (d : Device) : (d.setQueue q).array = d.array := rfl
@[simp] theorem Device.setQueue_pins (q : List Entry) (d : Device) : (d.setQueue q).pins = d.pins := rfl
@[simp] theorem Device.setQueue_port_completions (q : List Entry) (d : Device) : (d.setQueue q).port.completions = d.port.completions := rfl
@[simp] theorem Device.setQueue_port_overflow (q : List Entry) (d : Device) : (d.setQueue q).port.overflow = d.port.overflow := rfl
@[simp] theorem Device.setQueue_port_heldRequest (q : List Entry) (d : Device) : (d.setQueue q).port.heldRequest = d.port.heldRequest := rfl
@[simp] theorem Device.setQueue_port_arrivals (q : List Entry) (d : Device) : (d.setQueue q).port.arrivals = d.port.arrivals := rfl
@[simp] theorem Device.setQueue_port_control (q : List Entry) (d : Device) : (d.setQueue q).port.control = d.port.control := rfl
@[simp] theorem Device.setQueue_port_queue (q : List Entry) (d : Device) : (d.setQueue q).port.queue = q := rfl
@[simp] theorem Device.post_lane (c : Completion) (d : Device) : (d.post c).lane = d.lane := rfl
@[simp] theorem Device.post_mirror (c : Completion) (d : Device) : (d.post c).mirror = d.mirror := rfl
@[simp] theorem Device.post_account (c : Completion) (d : Device) : (d.post c).account = d.account := rfl
@[simp] theorem Device.post_member (c : Completion) (d : Device) : (d.post c).member = d.member := rfl
@[simp] theorem Device.post_retention (c : Completion) (d : Device) : (d.post c).retention = d.retention := rfl
@[simp] theorem Device.post_sched (c : Completion) (d : Device) : (d.post c).sched = d.sched := rfl
@[simp] theorem Device.post_faults (c : Completion) (d : Device) : (d.post c).faults = d.faults := rfl
@[simp] theorem Device.post_array (c : Completion) (d : Device) : (d.post c).array = d.array := rfl
@[simp] theorem Device.post_pins (c : Completion) (d : Device) : (d.post c).pins = d.pins := rfl
@[simp] theorem Device.post_port_queue (c : Completion) (d : Device) : (d.post c).port.queue = d.port.queue := rfl
@[simp] theorem Device.post_port_overflow (c : Completion) (d : Device) : (d.post c).port.overflow = d.port.overflow := rfl
@[simp] theorem Device.post_port_heldRequest (c : Completion) (d : Device) : (d.post c).port.heldRequest = d.port.heldRequest := rfl
@[simp] theorem Device.post_port_arrivals (c : Completion) (d : Device) : (d.post c).port.arrivals = d.port.arrivals := rfl
@[simp] theorem Device.post_port_control (c : Completion) (d : Device) : (d.post c).port.control = d.port.control := rfl
@[simp] theorem Device.post_port_completions (c : Completion) (d : Device) : (d.post c).port.completions = d.port.completions ++ [c] := rfl
@[simp] theorem Device.updHead_lane (b : Bank) (f : Access → Access) (d : Device) : (d.updHead b f).lane = d.lane := rfl
@[simp] theorem Device.updHead_mirror (b : Bank) (f : Access → Access) (d : Device) : (d.updHead b f).mirror = d.mirror := rfl
@[simp] theorem Device.updHead_account (b : Bank) (f : Access → Access) (d : Device) : (d.updHead b f).account = d.account := rfl
@[simp] theorem Device.updHead_member (b : Bank) (f : Access → Access) (d : Device) : (d.updHead b f).member = d.member := rfl
@[simp] theorem Device.updHead_retention (b : Bank) (f : Access → Access) (d : Device) : (d.updHead b f).retention = d.retention := rfl
@[simp] theorem Device.updHead_sched (b : Bank) (f : Access → Access) (d : Device) : (d.updHead b f).sched = d.sched := rfl
@[simp] theorem Device.updHead_faults (b : Bank) (f : Access → Access) (d : Device) : (d.updHead b f).faults = d.faults := rfl
@[simp] theorem Device.updHead_array (b : Bank) (f : Access → Access) (d : Device) : (d.updHead b f).array = d.array := rfl
@[simp] theorem Device.updHead_pins (b : Bank) (f : Access → Access) (d : Device) : (d.updHead b f).pins = d.pins := rfl
@[simp] theorem Device.updHead_port_completions (b : Bank) (f : Access → Access) (d : Device) : (d.updHead b f).port.completions = d.port.completions := rfl
@[simp] theorem Device.updHead_port_overflow (b : Bank) (f : Access → Access) (d : Device) : (d.updHead b f).port.overflow = d.port.overflow := rfl
@[simp] theorem Device.updHead_port_heldRequest (b : Bank) (f : Access → Access) (d : Device) : (d.updHead b f).port.heldRequest = d.port.heldRequest := rfl
@[simp] theorem Device.updHead_port_arrivals (b : Bank) (f : Access → Access) (d : Device) : (d.updHead b f).port.arrivals = d.port.arrivals := rfl
@[simp] theorem Device.updHead_port_control (b : Bank) (f : Access → Access) (d : Device) : (d.updHead b f).port.control = d.port.control := rfl
@[simp] theorem Device.updHead_port_queue (b : Bank) (f : Access → Access) (d : Device) : (d.updHead b f).port.queue = mapHead f d.port.queue b := rfl
@[simp] theorem Device.completeAccess_lane (a : Access) (st : Status) (d : Device) : (d.completeAccess a st).lane = d.lane := rfl
@[simp] theorem Device.completeAccess_mirror (a : Access) (st : Status) (d : Device) : (d.completeAccess a st).mirror = d.mirror := rfl
@[simp] theorem Device.completeAccess_account (a : Access) (st : Status) (d : Device) : (d.completeAccess a st).account = d.account := rfl
@[simp] theorem Device.completeAccess_member (a : Access) (st : Status) (d : Device) : (d.completeAccess a st).member = d.member := rfl
@[simp] theorem Device.completeAccess_retention (a : Access) (st : Status) (d : Device) : (d.completeAccess a st).retention = d.retention := rfl
@[simp] theorem Device.completeAccess_sched (a : Access) (st : Status) (d : Device) : (d.completeAccess a st).sched = d.sched := rfl
@[simp] theorem Device.completeAccess_faults (a : Access) (st : Status) (d : Device) : (d.completeAccess a st).faults = d.faults := rfl
@[simp] theorem Device.completeAccess_array (a : Access) (st : Status) (d : Device) : (d.completeAccess a st).array = d.array := rfl
@[simp] theorem Device.completeAccess_pins (a : Access) (st : Status) (d : Device) : (d.completeAccess a st).pins = d.pins := rfl
@[simp] theorem Device.resumeTo_lane (p : ResumePath) (d : Device) : (d.resumeTo p).lane = d.lane := rfl
@[simp] theorem Device.resumeTo_mirror (p : ResumePath) (d : Device) : (d.resumeTo p).mirror = d.mirror := rfl
@[simp] theorem Device.resumeTo_account (p : ResumePath) (d : Device) : (d.resumeTo p).account = d.account := rfl
@[simp] theorem Device.resumeTo_member (p : ResumePath) (d : Device) : (d.resumeTo p).member = d.member := rfl
@[simp] theorem Device.resumeTo_sched (p : ResumePath) (d : Device) : (d.resumeTo p).sched = d.sched := rfl
@[simp] theorem Device.resumeTo_port (p : ResumePath) (d : Device) : (d.resumeTo p).port = d.port := rfl
@[simp] theorem Device.resumeTo_faults (p : ResumePath) (d : Device) : (d.resumeTo p).faults = d.faults := rfl
@[simp] theorem Device.resumeTo_array (p : ResumePath) (d : Device) : (d.resumeTo p).array = d.array := rfl
@[simp] theorem Device.resumeTo_pins (p : ResumePath) (d : Device) : (d.resumeTo p).pins = d.pins := rfl
@[simp] theorem Device.updArray_lane (f : ArrayDie → ArrayDie) (d : Device) : (d.updArray f).lane = d.lane := rfl
@[simp] theorem Device.updArray_mirror (f : ArrayDie → ArrayDie) (d : Device) : (d.updArray f).mirror = d.mirror := rfl
@[simp] theorem Device.updArray_account (f : ArrayDie → ArrayDie) (d : Device) : (d.updArray f).account = d.account := rfl
@[simp] theorem Device.updArray_member (f : ArrayDie → ArrayDie) (d : Device) : (d.updArray f).member = d.member := rfl
@[simp] theorem Device.updArray_retention (f : ArrayDie → ArrayDie) (d : Device) : (d.updArray f).retention = d.retention := rfl
@[simp] theorem Device.updArray_sched (f : ArrayDie → ArrayDie) (d : Device) : (d.updArray f).sched = d.sched := rfl
@[simp] theorem Device.updArray_port (f : ArrayDie → ArrayDie) (d : Device) : (d.updArray f).port = d.port := rfl
@[simp] theorem Device.updArray_faults (f : ArrayDie → ArrayDie) (d : Device) : (d.updArray f).faults = d.faults := rfl
@[simp] theorem Device.updArray_pins (f : ArrayDie → ArrayDie) (d : Device) : (d.updArray f).pins = d.pins := rfl
@[simp] theorem Device.updArray_array (f : ArrayDie → ArrayDie) (d : Device) : (d.updArray f).array = f d.array := rfl
@[simp] theorem Device.toUnsynced_faults (q : Bool) (d : Device) : (d.toUnsynced q).faults = d.faults := rfl
@[simp] theorem Device.toUnsynced_array (q : Bool) (d : Device) : (d.toUnsynced q).array = d.array := rfl
@[simp] theorem Device.toUnsynced_pins (q : Bool) (d : Device) : (d.toUnsynced q).pins = d.pins := rfl
@[simp] theorem Device.countSlot_lane (d : Device) : (d.countSlot).lane = d.lane := rfl
@[simp] theorem Device.countSlot_port (d : Device) : (d.countSlot).port = d.port := rfl
@[simp] theorem Device.countSlot_faults (d : Device) : (d.countSlot).faults = d.faults := rfl
@[simp] theorem Device.countSlot_pins (d : Device) : (d.countSlot).pins = d.pins := rfl
@[simp] theorem Device.ageSlot_lane (d : Device) : (d.ageSlot).lane = d.lane := rfl
@[simp] theorem Device.ageSlot_sched (d : Device) : (d.ageSlot).sched = d.sched := rfl
@[simp] theorem Device.ageSlot_port (d : Device) : (d.ageSlot).port = d.port := rfl
@[simp] theorem Device.ageSlot_faults (d : Device) : (d.ageSlot).faults = d.faults := rfl
@[simp] theorem Device.ageSlot_array (d : Device) : (d.ageSlot).array = d.array := rfl
@[simp] theorem Device.ageSlot_pins (d : Device) : (d.ageSlot).pins = d.pins := rfl
@[simp] theorem Device.presenceReached_lane (d : Device) : (d.presenceReached).lane = d.lane := rfl
@[simp] theorem Device.presenceReached_mirror (d : Device) : (d.presenceReached).mirror = d.mirror := rfl
@[simp] theorem Device.presenceReached_account (d : Device) : (d.presenceReached).account = d.account := rfl
@[simp] theorem Device.presenceReached_retention (d : Device) : (d.presenceReached).retention = d.retention := rfl
@[simp] theorem Device.presenceReached_sched (d : Device) : (d.presenceReached).sched = d.sched := rfl
@[simp] theorem Device.presenceReached_port (d : Device) : (d.presenceReached).port = d.port := rfl
@[simp] theorem Device.presenceReached_faults (d : Device) : (d.presenceReached).faults = d.faults := rfl
@[simp] theorem Device.presenceReached_array (d : Device) : (d.presenceReached).array = d.array := rfl
@[simp] theorem Device.presenceReached_pins (d : Device) : (d.presenceReached).pins = d.pins := rfl
@[simp] theorem Device.acceptCommon_mirror (own : Bool) (x : Station) (k : FrameKind) (d : Device) : (d.acceptCommon own x k).mirror = d.mirror := rfl
@[simp] theorem Device.acceptCommon_account (own : Bool) (x : Station) (k : FrameKind) (d : Device) : (d.acceptCommon own x k).account = d.account := rfl
@[simp] theorem Device.acceptCommon_retention (own : Bool) (x : Station) (k : FrameKind) (d : Device) : (d.acceptCommon own x k).retention = d.retention := rfl
@[simp] theorem Device.acceptCommon_sched (own : Bool) (x : Station) (k : FrameKind) (d : Device) : (d.acceptCommon own x k).sched = d.sched := rfl
@[simp] theorem Device.acceptCommon_port (own : Bool) (x : Station) (k : FrameKind) (d : Device) : (d.acceptCommon own x k).port = d.port := rfl
@[simp] theorem Device.acceptCommon_faults (own : Bool) (x : Station) (k : FrameKind) (d : Device) : (d.acceptCommon own x k).faults = d.faults := rfl
@[simp] theorem Device.acceptCommon_array (own : Bool) (x : Station) (k : FrameKind) (d : Device) : (d.acceptCommon own x k).array = d.array := rfl
@[simp] theorem Device.acceptCommon_pins (own : Bool) (x : Station) (k : FrameKind) (d : Device) : (d.acceptCommon own x k).pins = d.pins := rfl
@[simp] theorem Device.closeTaken_lane (b : Bank) (d : Device) : (d.closeTaken b).lane = d.lane := rfl
@[simp] theorem Device.closeTaken_account (b : Bank) (d : Device) : (d.closeTaken b).account = d.account := rfl
@[simp] theorem Device.closeTaken_member (b : Bank) (d : Device) : (d.closeTaken b).member = d.member := rfl
@[simp] theorem Device.closeTaken_retention (b : Bank) (d : Device) : (d.closeTaken b).retention = d.retention := rfl
@[simp] theorem Device.closeTaken_sched (b : Bank) (d : Device) : (d.closeTaken b).sched = d.sched := rfl
@[simp] theorem Device.closeTaken_port (b : Bank) (d : Device) : (d.closeTaken b).port = d.port := rfl
@[simp] theorem Device.closeTaken_faults (b : Bank) (d : Device) : (d.closeTaken b).faults = d.faults := rfl
@[simp] theorem Device.closeTaken_array (b : Bank) (d : Device) : (d.closeTaken b).array = d.array := rfl
@[simp] theorem Device.closeTaken_pins (b : Bank) (d : Device) : (d.closeTaken b).pins = d.pins := rfl
@[simp] theorem Device.bankRefreshTaken_lane (b : Bank) (d : Device) : (d.bankRefreshTaken b).lane = d.lane := rfl
@[simp] theorem Device.bankRefreshTaken_member (b : Bank) (d : Device) : (d.bankRefreshTaken b).member = d.member := rfl
@[simp] theorem Device.bankRefreshTaken_retention (b : Bank) (d : Device) : (d.bankRefreshTaken b).retention = d.retention := rfl
@[simp] theorem Device.bankRefreshTaken_sched (b : Bank) (d : Device) : (d.bankRefreshTaken b).sched = d.sched := rfl
@[simp] theorem Device.bankRefreshTaken_port (b : Bank) (d : Device) : (d.bankRefreshTaken b).port = d.port := rfl
@[simp] theorem Device.bankRefreshTaken_faults (b : Bank) (d : Device) : (d.bankRefreshTaken b).faults = d.faults := rfl
@[simp] theorem Device.bankRefreshTaken_array (b : Bank) (d : Device) : (d.bankRefreshTaken b).array = d.array := rfl
@[simp] theorem Device.bankRefreshTaken_pins (b : Bank) (d : Device) : (d.bankRefreshTaken b).pins = d.pins := rfl
@[simp] theorem Device.burstTaken_lane (x : Station) (w : Bool) (b : Bank) (ca : Bool) (d : Device) : (d.burstTaken x w b ca).lane = d.lane := rfl
@[simp] theorem Device.burstTaken_account (x : Station) (w : Bool) (b : Bank) (ca : Bool) (d : Device) : (d.burstTaken x w b ca).account = d.account := rfl
@[simp] theorem Device.burstTaken_member (x : Station) (w : Bool) (b : Bank) (ca : Bool) (d : Device) : (d.burstTaken x w b ca).member = d.member := rfl
@[simp] theorem Device.burstTaken_retention (x : Station) (w : Bool) (b : Bank) (ca : Bool) (d : Device) : (d.burstTaken x w b ca).retention = d.retention := rfl
@[simp] theorem Device.burstTaken_sched (x : Station) (w : Bool) (b : Bank) (ca : Bool) (d : Device) : (d.burstTaken x w b ca).sched = d.sched := rfl
@[simp] theorem Device.burstTaken_port (x : Station) (w : Bool) (b : Bank) (ca : Bool) (d : Device) : (d.burstTaken x w b ca).port = d.port := rfl
@[simp] theorem Device.burstTaken_faults (x : Station) (w : Bool) (b : Bank) (ca : Bool) (d : Device) : (d.burstTaken x w b ca).faults = d.faults := rfl
@[simp] theorem Device.burstTaken_array (x : Station) (w : Bool) (b : Bank) (ca : Bool) (d : Device) : (d.burstTaken x w b ca).array = d.array := rfl
@[simp] theorem Device.burstTaken_pins (x : Station) (w : Bool) (b : Bank) (ca : Bool) (d : Device) : (d.burstTaken x w b ca).pins = d.pins := rfl
@[simp] theorem Device.syncAsked_lane (x : Station) (d : Device) : (d.syncAsked x).lane = d.lane := rfl
@[simp] theorem Device.syncAsked_mirror (x : Station) (d : Device) : (d.syncAsked x).mirror = d.mirror := rfl
@[simp] theorem Device.syncAsked_account (x : Station) (d : Device) : (d.syncAsked x).account = d.account := rfl
@[simp] theorem Device.syncAsked_retention (x : Station) (d : Device) : (d.syncAsked x).retention = d.retention := rfl
@[simp] theorem Device.syncAsked_sched (x : Station) (d : Device) : (d.syncAsked x).sched = d.sched := rfl
@[simp] theorem Device.syncAsked_port (x : Station) (d : Device) : (d.syncAsked x).port = d.port := rfl
@[simp] theorem Device.syncAsked_faults (x : Station) (d : Device) : (d.syncAsked x).faults = d.faults := rfl
@[simp] theorem Device.syncAsked_array (x : Station) (d : Device) : (d.syncAsked x).array = d.array := rfl
@[simp] theorem Device.syncAsked_pins (x : Station) (d : Device) : (d.syncAsked x).pins = d.pins := rfl
@[simp] theorem Device.dropMember_lane (m : Station) (d : Device) : (d.dropMember m).lane = d.lane := rfl
@[simp] theorem Device.dropMember_account (m : Station) (d : Device) : (d.dropMember m).account = d.account := rfl
@[simp] theorem Device.dropMember_sched (m : Station) (d : Device) : (d.dropMember m).sched = d.sched := rfl
@[simp] theorem Device.dropMember_port (m : Station) (d : Device) : (d.dropMember m).port = d.port := rfl
@[simp] theorem Device.dropMember_faults (m : Station) (d : Device) : (d.dropMember m).faults = d.faults := rfl
@[simp] theorem Device.dropMember_array (m : Station) (d : Device) : (d.dropMember m).array = d.array := rfl
@[simp] theorem Device.dropMember_pins (m : Station) (d : Device) : (d.dropMember m).pins = d.pins := rfl
@[simp] theorem Device.becomeClosed_lane (b : Bank) (d : Device) : (d.becomeClosed b).lane = d.lane := rfl
@[simp] theorem Device.becomeClosed_account (b : Bank) (d : Device) : (d.becomeClosed b).account = d.account := rfl
@[simp] theorem Device.becomeClosed_member (b : Bank) (d : Device) : (d.becomeClosed b).member = d.member := rfl
@[simp] theorem Device.becomeClosed_retention (b : Bank) (d : Device) : (d.becomeClosed b).retention = d.retention := rfl
@[simp] theorem Device.becomeClosed_sched (b : Bank) (d : Device) : (d.becomeClosed b).sched = d.sched := rfl
@[simp] theorem Device.becomeClosed_port (b : Bank) (d : Device) : (d.becomeClosed b).port = d.port := rfl
@[simp] theorem Device.becomeClosed_faults (b : Bank) (d : Device) : (d.becomeClosed b).faults = d.faults := rfl
@[simp] theorem Device.becomeClosed_array (b : Bank) (d : Device) : (d.becomeClosed b).array = d.array := rfl
@[simp] theorem Device.becomeClosed_pins (b : Bank) (d : Device) : (d.becomeClosed b).pins = d.pins := rfl

/-! The lower halves captured at a first data slot's close (R88). -/

@[simp] theorem State.takeLowers_now (s : State) : s.takeLowers.now = s.now := rfl
@[simp] theorem State.takeLowers_slot (s : State) : s.takeLowers.slot = s.slot := rfl
@[simp] theorem State.takeLowers_windowOut (s : State) : s.takeLowers.windowOut = s.windowOut := rfl
@[simp] theorem State.takeLowers_pending (s : State) : s.takeLowers.pending = s.pending := rfl
@[simp] theorem State.takeLowers_after_lane (s : State) : s.takeLowers.after.lane = s.after.lane := rfl
@[simp] theorem State.takeLowers_after_mirror (s : State) : s.takeLowers.after.mirror = s.after.mirror := rfl
@[simp] theorem State.takeLowers_after_account (s : State) : s.takeLowers.after.account = s.after.account := rfl
@[simp] theorem State.takeLowers_after_member (s : State) : s.takeLowers.after.member = s.after.member := rfl
@[simp] theorem State.takeLowers_after_retention (s : State) : s.takeLowers.after.retention = s.after.retention := rfl
@[simp] theorem State.takeLowers_after_port (s : State) : s.takeLowers.after.port = s.after.port := rfl
@[simp] theorem State.takeLowers_after_faults (s : State) : s.takeLowers.after.faults = s.after.faults := rfl
@[simp] theorem State.takeLowers_after_array (s : State) : s.takeLowers.after.array = s.after.array := rfl
@[simp] theorem State.takeLowers_after_pins (s : State) : s.takeLowers.after.pins = s.after.pins := rfl
@[simp] theorem State.takeLowers_after_sched (s : State) : s.takeLowers.after.sched = { s.after.sched with ownBursts := s.after.sched.ownBursts.map (OwnBurst.takeLower s.now.array (Config.undefinedBurst s.free)) } := rfl

end Sys2Proof.Machine
end

