-- ==== Sys2Proof/Laws/Ops.lean ====
section
/-! SUPPORT. One lemma per shared operation, saying what it can do: banks, entries, the two freezes, lapses and the regrant. -/

namespace Sys2Proof.Machine

/-! ### Banks -/

theorem mem_allBanks (b : Bank) : b ∈ allBanks := by
  revert b; decide

theorem mem_allStations (x : Station) : x ∈ allStations := by
  revert x; decide

theorem mapVec_getElem {α β : Type} {n : Nat} (f : α → β) (v : Vector α n) (i : Fin n) : (mapVec f v)[i] = f v[i] := by
  simp [mapVec, Vector.getElem_mk]

@[simp] theorem Device.bank_setBank_self (b : Bank) (r : BankRec) (d : Device) : (d.setBank b r).bank b = r := by
  simp [Device.bank, Device.setBank]

theorem Device.bank_setBank_ne {b c : Bank} (h : c ≠ b) (r : BankRec) (d : Device) :
    (d.setBank b r).bank c = d.bank c := by
  have : b.val ≠ c.val := fun e => h (Fin.ext e.symm)
  simp [Device.bank, Device.setBank, this]

theorem Device.bank_setBank (b c : Bank) (r : BankRec) (d : Device) :
    (d.setBank b r).bank c = if c = b then r else d.bank c := by
  split
  · next h => subst h; simp
  · next h => exact Device.bank_setBank_ne h r d

theorem Device.bank_mapBanks (f : BankRec → BankRec) (d : Device) (b : Bank) : (d.mapBanks f).bank b = f (d.bank b) :=
  mapVec_getElem f _ b

theorem Device.bank_of_mirror {d e : Device} (h : d.mirror = e.mirror) (b : Bank) : d.bank b = e.bank b := by
  simp [Device.bank, h]

theorem Device.bank_countSlot (d : Device) (b : Bank) : d.countSlot.bank b = (d.bank b).count :=
  mapVec_getElem BankRec.count _ b

theorem Device.bank_ageSlot (d : Device) (b : Bank) : d.ageSlot.bank b = (d.bank b).age :=
  mapVec_getElem BankRec.age _ b

theorem Device.allClosed_iff (d : Device) : d.allClosed = true ↔ ∀ b, (d.bank b).st = .closed := by
  simp [Device.allClosed, List.all_eq_true, mem_allBanks]

theorem Device.noWaiters_iff (d : Device) : d.noWaiters = true ↔ ∀ b, (d.bank b).waiters = [] := by
  simp [Device.noWaiters, List.all_eq_true, mem_allBanks]

/-! ### Freezing -/

/-- The freezing conditions read the balance, the sync-pending set and the array state only. -/
theorem Device.freezing_congr {d e : Device} (h₁ : d.account.balance = e.account.balance)
    (h₂ : d.member.syncPending = e.member.syncPending) (h₃ : d.mirror.array = e.mirror.array) :
    d.freezing = e.freezing := by
  simp [Device.freezing, Device.urgent, h₁, h₂, h₃]

@[simp] theorem Device.freezing_setBank (b : Bank) (r : BankRec) (d : Device) : (d.setBank b r).freezing = d.freezing := rfl
@[simp] theorem Device.freezing_updHead (b : Bank) (f : Access → Access) (d : Device) :
    (d.updHead b f).freezing = d.freezing := rfl
@[simp] theorem Device.freezing_countSlot (d : Device) : d.countSlot.freezing = d.freezing := rfl

/-! ### The fault list -/

theorem joinFaults_length (l es : List FaultEntry) : (joinFaults l es).length ≤ 8 := by
  simp [joinFaults, Config.faultMax]; omega

/-- R174: a LEFT_SYNC entry comes last where the close has none yet. -/
theorem insertEntry_leftSync {e : FaultEntry} (he : e.kind = .leftSync) :
    ∀ {l : List FaultEntry}, (∀ f ∈ l, f.kind ≠ .leftSync) → insertEntry e l = l ++ [e]
  | [], _ => rfl
  | f :: t, h => by
    have hf : e.before f = false := by
      have := h f (by simp)
      rcases f with ⟨k, _, _, _, _, _⟩
      cases k <;> simp_all [FaultEntry.before, FaultKind.rank]
    have ht : insertEntry e t = t ++ [e] := insertEntry_leftSync he (fun g hg => h g (List.mem_cons_of_mem f hg))
    simp [insertEntry, hf, ht]

/-- The last entry to join a list is its last (R174). -/
theorem joinFaults_concat_getLast? (l es : List FaultEntry) (e : FaultEntry) :
    (joinFaults l (es ++ [e])).getLast? = some e := by
  simp only [joinFaults, ← List.append_assoc, List.length_append, List.length_singleton, Config.faultMax]
  rw [List.drop_append_of_le_length (by simp)]
  simp

theorem joinFaults_nil {l : List FaultEntry} (h : l.length ≤ 8) : joinFaults l [] = l := by
  simp [joinFaults, Config.faultMax, Nat.sub_eq_zero_of_le h]

/-! ### Lapses and the regrant -/

theorem BankRec.leave_st (w : Nat) (x : Station) (r : BankRec) : (r.leave w x).st = r.st := by
  unfold BankRec.leave; split <;> [split; skip] <;> rfl

/-- Everything of a picture but its bank records, its fault list and its request queue. -/
def Device.restAgrees (d e : Device) : Prop :=
  d.lane = e.lane ∧ d.mirror.lastOpen = e.mirror.lastOpen ∧ d.mirror.lastBankRefresh = e.mirror.lastBankRefresh
    ∧ d.mirror.reservation = e.mirror.reservation ∧ d.mirror.array = e.mirror.array ∧ d.account = e.account
    ∧ d.member = e.member ∧ d.retention = e.retention ∧ d.sched = e.sched ∧ d.array = e.array ∧ d.pins = e.pins
    ∧ d.port.completions = e.port.completions ∧ d.port.overflow = e.port.overflow ∧ d.port.heldRequest = e.port.heldRequest
    ∧ d.port.arrivals = e.port.arrivals ∧ d.port.control = e.port.control

theorem Device.restAgrees_refl (d : Device) : d.restAgrees d := by simp [Device.restAgrees]

theorem Device.restAgrees_trans {d e f : Device} (h : d.restAgrees e) (g : e.restAgrees f) : d.restAgrees f := by
  simp only [Device.restAgrees] at *
  simp_all

/-- What every step of a lapse and of the regrant keeps, but for the grant of bank `b`. -/
structure State.regrantsOnly (b : Bank) (s' s : State) : Prop where
  now : s'.now = s.now
  pending : s'.pending = s.pending
  windowOut : s'.windowOut = s.windowOut
  free : s'.free = s.free
  heard : s'.slot.frameHeard = s.slot.frameHeard
  closing : s'.slot.closing = s.slot.closing
  rest : s'.after.restAgrees s.after
  others : ∀ c, c ≠ b → s'.after.bank c = s.after.bank c
  st : (s'.after.bank b).st = (s.after.bank b).st

theorem State.regrantsOnly_refl (b : Bank) (s : State) : s.regrantsOnly b s :=
  ⟨rfl, rfl, rfl, rfl, rfl, rfl, Device.restAgrees_refl _, fun _ _ => rfl, rfl⟩

theorem State.regrantsOnly_trans {b : Bank} {s t u : State} (h : u.regrantsOnly b t) (g : t.regrantsOnly b s) :
    u.regrantsOnly b s :=
  ⟨h.now.trans g.now, h.pending.trans g.pending, h.windowOut.trans g.windowOut, h.free.trans g.free,
    h.heard.trans g.heard, h.closing.trans g.closing, Device.restAgrees_trans h.rest g.rest,
    fun c hc => (h.others c hc).trans (g.others c hc), h.st.trans g.st⟩

/-- A record of bank `b` replaced by one in the same state. -/
theorem State.regrantsOnly_setBank (b : Bank) (r : Device → BankRec) (s : State)
    (h : (r s.after).st = (s.after.bank b).st) : (s.upd (fun d => d.setBank b (r d))).regrantsOnly b s :=
  ⟨rfl, rfl, rfl, rfl, rfl, rfl, by simp [Device.restAgrees], fun c hc => by simp [Device.bank_setBank_ne hc],
    by simp [h]⟩

theorem State.lapsedAt_spec (b : Bank) (x : Station) (s : State) : (s.lapsedAt b x).regrantsOnly b s := by
  unfold State.lapsedAt
  split
  · exact ⟨rfl, rfl, rfl, rfl, rfl, rfl, by simp [Device.restAgrees], fun _ _ => rfl, rfl⟩
  · exact State.regrantsOnly_refl b s

/-- A lapse changes the bank's list, yield point and grant, and at the lapsed head the fault list and its request. -/
theorem State.lapse_spec (b : Bank) (s : State) : (s.lapse b).regrantsOnly b s := by
  unfold State.lapse
  split
  · exact State.regrantsOnly_setBank b (fun d => { d.bank b with grant := none }) s rfl
  · exact State.regrantsOnly_trans (State.lapsedAt_spec b _ _)
      (State.regrantsOnly_setBank b _ s (BankRec.leave_st _ _ _))

theorem State.lapseIfDue_spec (b : Bank) (s : State) : (s.lapseIfDue b).regrantsOnly b s := by
  unfold State.lapseIfDue
  split
  · exact State.lapse_spec b s
  · exact State.regrantsOnly_refl b s

/-- The regrant changes grants, and by lapses lists, yield points, requests and entries; nothing else. -/
theorem State.regrantBank_spec (s : State) (b : Bank) : (s.regrantBank b).regrantsOnly b s := by
  unfold State.regrantBank
  split
  · split
    · exact State.regrantsOnly_trans (State.regrantsOnly_setBank b
        (fun d => { d.bank b with grant := (d.bank b).grant.map (fun _ => .frozen) }) _ rfl) (State.lapseIfDue_spec b s)
    · exact State.regrantsOnly_refl b s
  · split
    · exact State.regrantsOnly_refl b s
    · exact State.regrantsOnly_setBank b
        (fun d => { d.bank b with grant := some (.running d.member.profile.grantWindow) }) s rfl
  · exact State.regrantsOnly_refl b s
  · exact State.regrantsOnly_refl b s

/-- What the regrant leaves. -/
theorem State.regrant_spec (s : State) :
    s.regrant.now = s.now ∧ s.regrant.pending = s.pending ∧ s.regrant.windowOut = s.windowOut ∧ s.regrant.free = s.free
      ∧ s.regrant.slot.frameHeard = s.slot.frameHeard ∧ s.regrant.slot.closing = s.slot.closing
      ∧ s.regrant.after.restAgrees s.after ∧ ∀ c, (s.regrant.after.bank c).st = (s.after.bank c).st := by
  unfold State.regrant
  generalize allBanks = l
  induction l generalizing s with
  | nil => exact ⟨rfl, rfl, rfl, rfl, rfl, rfl, Device.restAgrees_refl _, fun _ => rfl⟩
  | cons b t ih =>
    have r := s.regrantBank_spec b
    obtain ⟨i1, i2, i3, i4, i5, i6, i7, i8⟩ := ih (s.regrantBank b)
    refine ⟨i1.trans r.now, i2.trans r.pending, i3.trans r.windowOut, i4.trans r.free, i5.trans r.heard,
      i6.trans r.closing, Device.restAgrees_trans i7 r.rest, fun c => (i8 c).trans ?_⟩
    by_cases h : c = b
    · subst h; exact r.st
    · exact congrArg BankRec.st (r.others c h)

/-- With every grant in line already, the regrant changes nothing. -/
theorem State.regrant_of_settled {s : State} (h : s.after.grantsSettled) : s.regrant = s := by
  have one (b : Bank) : s.regrantBank b = s := by
    obtain ⟨h1, h2⟩ := h b
    unfold State.regrantBank
    cases hg : (s.after.bank b).grant with
    | none => rfl
    | some g =>
      cases g with
      | running w => simp [h1 w hg]
      | paused => rfl
      | frozen => simp [h2 hg]
  unfold State.regrant
  generalize allBanks = l
  induction l with
  | nil => rfl
  | cons b t ih => rw [List.foldl_cons, one b]; exact ih

/-! ### The drops due at a close -/

theorem State.takeDrop_of_not_due {m : Station} {s : State} (h : s.dropDue m = false) : s.takeDrop m = s := by
  unfold State.takeDrop
  rw [if_neg (by rw [h]; decide)]

/-- With no drop due, taking the drops changes nothing. -/
theorem State.takeDrops_of_none {s : State} (h : ∀ m, s.dropDue m = false) : s.takeDrops = s := by
  have f : ∀ l : List Station, l.foldl (fun s m => State.takeDrop m s) s = s := by
    intro l
    induction l with
    | nil => rfl
    | cons m t ih => rw [List.foldl_cons, State.takeDrop_of_not_due (h m), ih]
  exact f allStations

end Sys2Proof.Machine
end

