-- ==== Sys2Proof/Laws/Frames.lean ====
section
/-! SUPPORT. What a frame heard comes to: the one equation for an accepted frame, the one for a vetoed frame, and what the parts of an
acceptance keep. -/

namespace Sys2Proof.Machine

/-- The slot with its frame heard. -/
def State.hearing (s : State) : State := { s with slot := { s.slot with frameHeard := true } }

/-- The data a WRITE command brings; the other frames bring none. -/
def frameData (k : FrameKind) (d : Burst) : Burst := if k = .write then d else 0#512

theorem State.laneSlot_of_begun {s : State} (h : s.begun) : s.laneSlot = s := by
  simp [State.laneSlot, h.1, h.2]

/-- A frame command in a slot that has just begun. -/
theorem exec_frame {s : State} (h : s.begun) (k : FrameKind) (x : Heard) (d : Burst) :
    exec (frameCommand (some k) x d) s = .next (State.heard (some k) x (frameData k d) s) := by
  cases k <;>
    simp [frameCommand, exec, execOpenFrame, execReadFrame, execWriteFrame, execCloseFrame, execBankRefreshFrame,
      execFullRefreshFrame, execMarkFrame, execRetainFrame, execWakeFrame, execSyncRequestFrame, execRollCallFrame,
      execNoticeFrame, execWithdrawFrame, execVoteFrame, execPresenceFrame, hear, frameData, State.laneSlot_of_begun h]

theorem exec_kindCode15Frame {s : State} (h : s.begun) (x : Heard) :
    exec (.kindCode15Frame x) s = .next (State.heard none x 0#512 s) := by
  simp [exec, execKindCode15Frame, hear, State.laneSlot_of_begun h]

/-- A frame command in a slot that has just begun, whatever its kind code. -/
theorem exec_frameCommand {s : State} (h : s.begun) (k : Option FrameKind) (x : Heard) (d : Burst) :
    exec (frameCommand k x d) s
      = .next (State.heard k x (match k with | some k => frameData k d | none => 0#512) s) := by
  cases k with
  | none => exact exec_kindCode15Frame h x
  | some k => exact exec_frame h k x d

/-- The kind code of a frame heard stands in bits 9 to 6 of its arbitration field (section 11.1). -/
theorem fieldHeard_kind (k : Option FrameKind) (h : Heard) : (fieldHeard k h).extractLsb' 6 4 = codeHeard k := by
  unfold fieldHeard arbitrationField
  apply BitVec.eq_of_getLsbD_eq
  intro i hi
  simp only [BitVec.getLsbD_extractLsb', BitVec.getLsbD_append]
  interval_cases i <;> simp

/-- A frame of a kind never reads as an empty lane: its kind code is not 15 (R69, R70). -/
theorem State.laneEmpty_of_kind (k : FrameKind) (h : Heard) (s : State) : s.laneEmpty (some k) h = false := by
  have e : fieldHeard (some k) h ≠ BitVec.allOnes 12 := by
    intro e
    have c := fieldHeard_kind (some k) h
    rw [e] at c
    revert c
    cases k <;> decide
  unfold State.laneEmpty
  rw [beq_eq_false_iff_ne.2 e, Bool.false_and]

/-- In a slot that reads as empty nothing is heard: all that changes is that the slot has carried what it carries (R69). -/
theorem State.heard_of_empty {s : State} {k : Option FrameKind} {h : Heard} (e : s.laneEmpty k h = true) (d : Burst) :
    State.heard k h d s = s.hearing := by
  unfold State.heard
  exact if_pos (Or.inr e)

/-- A vetoed frame. -/
theorem State.heard_of_vetoed {s : State} (hl : s.now.pins.lrstN = true) {k : Option FrameKind} {h : Heard} (d : Burst)
    (v : s.vetoes k h) :
    State.heard k h d s
      = s.hearing.vetoed s.slot.won (stationVerdict s.now k h (s.readBackBad k h)) k h := by
  have e : ((stationVerdict s.now k h (s.readBackBad k h)).isSome || s.arrayVeto k h || h.peerVeto) = true := by
    rcases v.2 with v | v | v <;> simp [v]
  have n : ¬ (s.hearing.now.pins.lrstN = false ∨ s.hearing.laneEmpty k h = true) := by
    rintro (c | c)
    · exact absurd (hl.symm.trans c) (by decide)
    · exact absurd (v.1.symm.trans c) (by decide)
  unfold State.heard
  exact (if_neg n).trans (if_pos e)

/-- An accepted frame: nobody vetoes it. -/
theorem State.heard_of_carried {h : Heard} {f : Frame} {s : State} (c : Carried h f s)
    (v : stationVerdict s.now (some f.body.kind) h (s.readBackBad (some f.body.kind) h) = none) (d : Burst) :
    State.heard (some f.body.kind) h d s = s.hearing.accepted s.slot.won f d := by
  have e : (stationVerdict s.now (some f.body.kind) h (s.readBackBad (some f.body.kind) h)).isSome = false := by
    rw [v]; rfl
  have ea : s.arrayVeto (some f.body.kind) h = false := by
    simp [State.arrayVeto, c.check, c.form, c.array]
  have e3 : ((stationVerdict s.now (some f.body.kind) h (s.readBackBad (some f.body.kind) h)).isSome
      || s.arrayVeto (some f.body.kind) h || h.peerVeto) = false := by
    rw [e, ea, c.peers]; rfl
  have n : ¬ (s.hearing.now.pins.lrstN = false ∨ s.hearing.laneEmpty (some f.body.kind) h = true) := by
    rintro (x | x)
    · exact absurd (c.lane.symm.trans x) (by decide)
    · exact absurd ((State.laneEmpty_of_kind f.body.kind h s.hearing).symm.trans x) (by decide)
  unfold State.heard
  refine (if_neg n).trans ((if_neg (by rw [Bool.not_eq_true]; exact e3)).trans ?_)
  simp [c.form, State.hearing]

/-- The verdict of a station that is not synced on a frame carried in good form. -/
theorem stationVerdict_of_carried {h : Heard} {f : Frame} {s : State} (c : Carried h f s)
    (hs : s.now.member.state ≠ .synced) :
    stationVerdict s.now (some f.body.kind) h (s.readBackBad (some f.body.kind) h) = none := by
  have hc := c.check
  have hf := c.form
  have hb := c.back
  unfold stationVerdict
  rw [hb, hc]
  generalize s.now.member.state = m at hs
  cases m with
  | synced => exact absurd rfl hs
  | standby => rfl
  | mismatch => rfl
  | rollCall => simp [hf]
  | unsynced => simp [hf]

/-- The verdict of a synced station that finds the frame legal. -/
theorem stationVerdict_of_accepted {h : Heard} {f : Frame} {s : State} (a : Accepted h f s) :
    stationVerdict s.now (some f.body.kind) h (s.readBackBad (some f.body.kind) h) = none := by
  unfold stationVerdict
  rw [a.carried.back, a.synced]
  simp [a.carried.check, a.carried.form, a.legal]

/-- The state with the array having applied an accepted frame. -/
def State.arrayTook (own : Bool) (f : Frame) (d : Burst) (s : State) : State :=
  s.upd (Device.updArray (ArrayDie.accept own (s.writeData own f.body d) f.body))

/-- The comparison of a ROLL CALL or SYNC REQUEST makes an entry at most. -/
theorem State.compareProfile_spec (x : Station) (body : Body) (s : State) :
    (s.compareProfile x body).now = s.now ∧ (s.compareProfile x body).after.member = s.after.member
      ∧ (s.compareProfile x body).after.restAgrees s.after ∧ (s.compareProfile x body).pending = s.pending
      ∧ (s.compareProfile x body).after.mirror = s.after.mirror
      ∧ (s.compareProfile x body).after.port = s.after.port := by
  unfold State.compareProfile
  split
  · exact ⟨rfl, rfl, Device.restAgrees_refl _, rfl, rfl, rfl⟩
  · exact ⟨rfl, rfl, by simp [State.mismatchEntry, Device.restAgrees], rfl, rfl, rfl⟩

/-- Whether a station drops itself is read from the membership units alone. -/
theorem State.dropsSelf_of_same {s t : State} (f : Frame) (h : t.now = s.now) (g : t.after.member = s.after.member) :
    t.dropsSelf f = s.dropsSelf f := by
  simp [State.dropsSelf, State.dropDue, Device.synced, h, g]

/-- An accepted frame at a synced station, as one equation. -/
theorem exec_accepted {h : Heard} {f : Frame} {s : State} (a : Accepted h f s) (d : Burst) :
    exec (frameCommand (some f.body.kind) h d) s
      = .next ((((((s.hearing.arrayTook s.slot.won f (frameData f.body.kind d)).compareProfile f.sender f.body).bodyTaken
          s.slot.won f.sender f.body).upd (Device.acceptCommon s.slot.won f.sender f.body.kind)).regrant)) := by
  rw [exec_frame a.carried.begun, State.heard_of_carried a.carried (stationVerdict_of_accepted a)]
  refine congrArg Host.Outcome.next ?_
  have hd : ((s.hearing.arrayTook s.slot.won f (frameData f.body.kind d)).compareProfile f.sender f.body).dropsSelf f
      = false := by
    rw [← a.stays]
    have c := State.compareProfile_spec f.sender f.body (s.hearing.arrayTook s.slot.won f (frameData f.body.kind d))
    exact State.dropsSelf_of_same f c.1 c.2.1
  unfold State.accepted
  have hs : s.hearing.now.member.state = .synced := a.synced
  simp only [State.upd_now, hs]
  unfold State.acceptSynced
  exact if_neg (by rw [Bool.not_eq_true]; exact hd)

/-- A frame that is no ROLL CALL or SYNC REQUEST is compared with nothing. -/
theorem State.compareProfile_of_agrees {x : Station} {body : Body} {s : State} (h : s.now.profileAgrees x body = true) :
    s.compareProfile x body = s := by
  simp [State.compareProfile, h]

/-! ### A counted slot -/

theorem BankRec.grant_running_of_count {r : BankRec} {w : Nat} (h : r.count.grant = some (.running w)) :
    ∃ w', r.grant = some (.running w') := by
  unfold BankRec.count at h
  simp only at h
  split at h <;> simp_all

theorem BankRec.grant_frozen_count {r : BankRec} : r.count.grant = some .frozen ↔ r.grant = some .frozen := by
  unfold BankRec.count
  simp only
  split <;> simp_all

/-- Counting a slot leaves the grants in line with the freezing conditions. -/
theorem Device.grantsSettled_countSlot {d : Device} (h : d.grantsSettled) : d.countSlot.grantsSettled := by
  intro b
  rw [Device.bank_countSlot, Device.freezing_countSlot]
  refine ⟨fun w hw => ?_, fun hf => (h b).2 (BankRec.grant_frozen_count.1 hf)⟩
  obtain ⟨w', hw'⟩ := BankRec.grant_running_of_count hw
  exact (h b).1 w' hw'

/-- The banks after the close of a slot in which nothing has happened. -/
theorem State.bank_of_counted {s : State} (h : s.counted) (b : Bank) : s.after.bank b = (s.now.bank b).count := by
  rw [h.1]; exact Device.bank_countSlot _ _

theorem State.grantsSettled_of_counted {s : State} (h : s.counted) (g : s.now.grantsSettled) : s.after.grantsSettled := by
  have c := Device.grantsSettled_countSlot g
  rw [h.1]; exact c

/-- A picture whose freezing conditions are those of a settled one and whose grants are its grants or none is settled. -/
theorem Device.grantsSettled_of_fewer {d e : Device} (h : d.freezing = e.freezing)
    (hb : ∀ b, (d.bank b).grant = (e.bank b).grant ∨ (d.bank b).grant = none) (g : e.grantsSettled) : d.grantsSettled := by
  intro b
  rw [h]
  rcases hb b with hb | hb
  · rw [hb]; exact g b
  · rw [hb]
    exact ⟨fun _ hw => absurd hw (by simp), fun hw => absurd hw (by simp)⟩

end Sys2Proof.Machine
end

