-- ==== Sys2Proof/Laws/Memory.lean ====
section
/-! SUPPORT. The array's contents: every operation keeps the canonical form, and what a byte reads after a write. -/

namespace Sys2Proof.Machine

/-! ### The cells -/

theorem cellsAbove_weaken {n a b : Nat} (h : a ≤ b) {l : List Host.Cell} (w : cellsAbove n b l = true) :
    cellsAbove n a l = true := by
  cases l with
  | nil => rfl
  | cons c t =>
    obtain ⟨k, v⟩ := c
    simp only [cellsAbove, Bool.and_eq_true, decide_eq_true_eq] at w ⊢
    exact ⟨⟨lt_of_le_of_lt h w.1.1, w.1.2⟩, w.2⟩

theorem cellsAbove_consCell {n a b : Nat} {v : Byte} {l : List Host.Cell} (h : a < b) (w : cellsAbove n b l = true) :
    cellsAbove n a (consCell n b v l) = true := by
  unfold consCell
  split
  · exact cellsAbove_weaken h.le w
  · next hv => simp [cellsAbove, h, hv, w]

/-- A byte written above `a` keeps the form above `a`. -/
theorem cellsAbove_writeCells {n a b : Nat} {v : Byte} (h : a < b) {l : List Host.Cell} (w : cellsAbove n a l = true) :
    cellsAbove n a (writeCells n l b v) = true := by
  induction l generalizing a with
  | nil => exact cellsAbove_consCell h rfl
  | cons c t ih =>
    obtain ⟨k, u⟩ := c
    simp only [cellsAbove, Bool.and_eq_true, decide_eq_true_eq] at w
    obtain ⟨⟨hk, hu⟩, ht⟩ := w
    unfold writeCells
    split
    · next hb =>
      refine cellsAbove_consCell h ?_
      simp [cellsAbove, hb, hu, ht]
    · split
      · next _ hb =>
        subst hb
        exact cellsAbove_consCell hk ht
      · next hb hb' =>
        have hkb : k < b := by omega
        simp only [cellsAbove, Bool.and_eq_true, decide_eq_true_eq]
        exact ⟨⟨hk, hu⟩, ih hkb ht⟩

theorem readCells_consCell_ne {n a b : Nat} (h : a ≠ b) (v o : Byte) (l : List Host.Cell) :
    readCells o (consCell n a v l) b = readCells o l b := by
  unfold consCell
  split
  · rfl
  · simp [readCells, h]

/-- Another byte reads as before. -/
theorem readCells_writeCells_ne {n a b : Nat} (h : a ≠ b) (v o : Byte) (l : List Host.Cell) :
    readCells o (writeCells n l a v) b = readCells o l b := by
  induction l with
  | nil => exact readCells_consCell_ne h v o []
  | cons c t ih =>
    obtain ⟨k, u⟩ := c
    unfold writeCells
    split
    · exact readCells_consCell_ne h v o _
    · split
      · next _ hk =>
        subst hk
        rw [readCells_consCell_ne h]
        simp [readCells, h]
      · simp only [readCells]
        rw [ih]

theorem readCells_of_cellsAbove {n a b : Nat} (h : b ≤ a) {o : Byte} {l : List Host.Cell} (w : cellsAbove n a l = true) :
    readCells o l b = o := by
  induction l generalizing a with
  | nil => rfl
  | cons c t ih =>
    obtain ⟨k, u⟩ := c
    simp only [cellsAbove, Bool.and_eq_true, decide_eq_true_eq] at w
    have hk : k ≠ b := by omega
    simp only [readCells, hk, if_false]
    exact ih (by omega : b ≤ k) w.2

theorem readCells_consCell_self {n a : Nat} (v : Byte) {l : List Host.Cell} (w : cellsAbove n a l = true) :
    readCells (Config.unassuredByte n a) (consCell n a v l) a = v := by
  unfold consCell
  split
  · next hv => rw [readCells_of_cellsAbove le_rfl w, hv]
  · simp [readCells]

/-! ### The contents -/

/-- The form over all the cells: the first one as it stands, the others above it. -/
theorem Memory.wf_iff (m : Memory) : Memory.wf m = true ↔
    m.cells = [] ∨ ∃ k v t, m.cells = (k, v) :: t ∧ v ≠ Config.unassuredByte m.epoch k ∧ cellsAbove m.epoch k t = true := by
  unfold Memory.wf
  cases m.cells with
  | nil => simp
  | cons c t =>
    obtain ⟨k, v⟩ := c
    simp

theorem Memory.wf_of_cellsAbove {n a : Nat} {l : List Host.Cell} (w : cellsAbove n a l = true) :
    Memory.wf ⟨n, l⟩ = true := by
  cases l with
  | nil => rfl
  | cons c t =>
    obtain ⟨k, v⟩ := c
    simp only [cellsAbove, Memory.wf, Bool.and_eq_true, decide_eq_true_eq] at w ⊢
    exact ⟨w.1.2, w.2⟩

/-- A write and a burst belong to the epoch of the contents. -/
@[simp] theorem Memory.epoch_writeByte (m : Memory) (a : Nat) (v : Byte) : (m.writeByte a v).epoch = m.epoch := rfl

@[simp] theorem Memory.epoch_unassured (m : Memory) : m.unassured.epoch = m.epoch + 1 := rfl

@[simp] theorem Memory.epoch_writeBytes (m : Memory) (base : Nat) (d : Burst) (first n : Nat) :
    (m.writeBytes base d first n).epoch = m.epoch := by
  induction n with
  | zero => rfl
  | succ k ih => exact ih

@[simp] theorem Memory.epoch_writeBurst (m : Memory) (base : Nat) (d : Burst) : (m.writeBurst base d).epoch = m.epoch :=
  Memory.epoch_writeBytes m base d 0 64

/-- Contents that nothing assures are in canonical form, every byte of them a free value. -/
theorem Memory.wf_unassured (m : Memory) : Memory.wf m.unassured = true := rfl

theorem Memory.readByte_unassured (m : Memory) (a : Nat) :
    m.unassured.readByte a = Config.unassuredByte (m.epoch + 1) a := rfl

/-- A byte written keeps the canonical form. -/
theorem Memory.wf_writeByte {m : Memory} (w : Memory.wf m = true) (b : Nat) (v : Byte) :
    Memory.wf (m.writeByte b v) = true := by
  obtain ⟨n, l⟩ := m
  cases l with
  | nil =>
    show Memory.wf ⟨n, consCell n b v []⟩ = true
    unfold consCell
    split
    · rfl
    · next hv => simp [Memory.wf, cellsAbove, hv]
  | cons c t =>
    obtain ⟨k, u⟩ := c
    simp only [Memory.wf, Bool.and_eq_true, decide_eq_true_eq] at w
    obtain ⟨hu, ht⟩ := w
    show Memory.wf ⟨n, writeCells n ((k, u) :: t) b v⟩ = true
    unfold writeCells
    split
    · next hb =>
      unfold consCell
      split
      · simp [Memory.wf, hu, ht]
      · next hv => simp [Memory.wf, cellsAbove, hv, hb, hu, ht]
    · split
      · next _ hb =>
        subst hb
        unfold consCell
        split
        · exact Memory.wf_of_cellsAbove ht
        · next hv => simp [Memory.wf, hv, ht]
      · next hb hb' =>
        have hkb : k < b := by omega
        simp only [Memory.wf, Bool.and_eq_true, decide_eq_true_eq]
        exact ⟨hu, cellsAbove_writeCells hkb ht⟩

theorem Memory.wf_writeBytes {m : Memory} (w : Memory.wf m = true) (base : Nat) (d : Burst) (first n : Nat) :
    Memory.wf (m.writeBytes base d first n) = true := by
  induction n with
  | zero => exact w
  | succ k ih => exact Memory.wf_writeByte ih _ _

/-- A burst written keeps the canonical form. -/
theorem Memory.wf_writeBurst {m : Memory} (w : Memory.wf m = true) (base : Nat) (d : Burst) :
    Memory.wf (m.writeBurst base d) = true := Memory.wf_writeBytes w base d 0 64

/-- The bursts a reset cuts short keep the canonical form. -/
theorem wf_cutWrites (n : Nat) (l : List ArrayBurst) {m : Memory} (w : Memory.wf m = true) :
    Memory.wf (cutWrites n l m).2 = true := by
  induction l generalizing n m with
  | nil => exact w
  | cons i t ih =>
    unfold cutWrites
    split
    · exact ih _ (Memory.wf_writeBurst w _ _)
    · exact ih _ w

theorem wf_storePart {m : Memory} (w : Memory.wf m = true) (i : ArrayBurst) : Memory.wf (storePart m i) = true := by
  unfold storePart
  split
  · exact Memory.wf_writeBytes w _ _ _ _
  · exact w

/-- The halves that a slot's close stores keep the canonical form. -/
theorem wf_storeParts (l : List ArrayBurst) {m : Memory} (w : Memory.wf m = true) :
    Memory.wf (l.foldl storePart m) = true := by
  induction l generalizing m with
  | nil => exact w
  | cons i t ih => exact ih (wf_storePart w i)

theorem ArrayDie.wf_closeSlot (before : ArrayDie) {a : ArrayDie} (w : Memory.wf a.mem = true) :
    Memory.wf (ArrayDie.closeSlot before a).mem = true := wf_storeParts _ w

/-- Another byte reads as before. -/
theorem Memory.readByte_writeByte_ne {a b : Nat} (h : a ≠ b) (v : Byte) (m : Memory) :
    Memory.readByte (m.writeByte a v) b = Memory.readByte m b := readCells_writeCells_ne h v _ m.cells

/-- The byte written reads as written. -/
theorem Memory.readByte_writeByte_self {m : Memory} (w : Memory.wf m = true) (a : Nat) (v : Byte) :
    Memory.readByte (m.writeByte a v) a = v := by
  obtain ⟨n, l⟩ := m
  show readCells (Config.unassuredByte n a) (writeCells n l a v) a = v
  induction l with
  | nil => exact readCells_consCell_self v rfl
  | cons c t ih =>
    obtain ⟨k, u⟩ := c
    simp only [Memory.wf, Bool.and_eq_true, decide_eq_true_eq] at w
    unfold writeCells
    split
    · next hb => exact readCells_consCell_self v (by simp [cellsAbove, hb, w.1, w.2])
    · split
      · next _ hb => subst hb; exact readCells_consCell_self v w.2
      · next hb hb' =>
        have hk : k ≠ a := by omega
        simp only [readCells, hk, if_false]
        exact ih (Memory.wf_of_cellsAbove w.2)

/-- Outside the bytes written, every byte reads as before. -/
theorem Memory.readByte_writeBytes_of_outside {base a first : Nat} (n : Nat) (h : a < base + first ∨ base + (first + n) ≤ a)
    (d : Burst) (m : Memory) : Memory.readByte (m.writeBytes base d first n) a = Memory.readByte m a := by
  induction n with
  | zero => rfl
  | succ k ih =>
    show Memory.readByte ((m.writeBytes base d first k).writeByte (base + (first + k)) (burstByte d (first + k))) a = _
    rw [Memory.readByte_writeByte_ne (by omega), ih (by omega)]

/-- Outside the burst written, every byte reads as before. -/
theorem Memory.readByte_writeBurst_of_outside {base a : Nat} (h : a < base ∨ base + 64 ≤ a) (d : Burst) (m : Memory) :
    Memory.readByte (m.writeBurst base d) a = Memory.readByte m a :=
  Memory.readByte_writeBytes_of_outside 64 (by omega) d m

/-- The bytes written read as written. -/
theorem Memory.readByte_writeBytes {m : Memory} (w : Memory.wf m = true) (base : Nat) (d : Burst) {first n k : Nat} (hf : first ≤ k)
    (h : k < first + n) : Memory.readByte (m.writeBytes base d first n) (base + k) = burstByte d k := by
  induction n with
  | zero => omega
  | succ j ih =>
    show Memory.readByte ((m.writeBytes base d first j).writeByte (base + (first + j)) (burstByte d (first + j))) (base + k) = _
    by_cases e : k = first + j
    · subst e; exact Memory.readByte_writeByte_self (Memory.wf_writeBytes w _ _ _ _) _ _
    · rw [Memory.readByte_writeByte_ne (by omega), ih (by omega)]

/-- Each byte of a burst written reads as written. -/
theorem Memory.readByte_writeBurst {m : Memory} (w : Memory.wf m = true) (base : Nat) (d : Burst) {k : Nat} (h : k < 64) :
    Memory.readByte (m.writeBurst base d) (base + k) = burstByte d k :=
  Memory.readByte_writeBytes w base d (Nat.zero_le k) (by omega)

/-- Two bursts lie at the same address or in bytes apart (section 0.3). -/
theorem burstAddress_apart (b c : Bank) (r q : Row) (x y : Column) :
    burstAddress b r x = burstAddress c q y ∨ burstAddress b r x + 64 ≤ burstAddress c q y
      ∨ burstAddress c q y + 64 ≤ burstAddress b r x := by
  unfold burstAddress
  omega

/-- Burst, bank, row and column of an address agree. -/
theorem burstAddress_inj {b c : Bank} {r q : Row} {x y : Column} (h : burstAddress b r x = burstAddress c q y) :
    b = c ∧ r = q ∧ x = y := by
  unfold burstAddress at h
  have hr := r.isLt
  have hq := q.isLt
  have hx := x.isLt
  have hy := y.isLt
  refine ⟨Fin.ext (by omega), BitVec.eq_of_toNat_eq (by omega), BitVec.eq_of_toNat_eq (by omega)⟩

/-- The part of a burst that a slot settles lies within its 64 bytes. -/
theorem ArrayBurst.part_le (i : ArrayBurst) : i.part.1 + i.part.2 ≤ 64 := by
  unfold ArrayBurst.part
  split <;> [decide; (split <;> [(split <;> decide); decide])]

/-- Is the address outside the part that the slot now closing settles of the burst? -/
def ArrayBurst.outside (i : ArrayBurst) (a : Nat) : Prop :=
  a < burstAddress i.bank i.row i.column + i.part.1
    ∨ burstAddress i.bank i.row i.column + (i.part.1 + i.part.2) ≤ a

/-- The slot's close leaves every byte outside the halves of the WRITE bursts that it carried as it was. -/
theorem readByte_storeParts_of_outside {a : Nat} (l : List ArrayBurst) (m : Memory)
    (h : ∀ i ∈ l, i.isWrite = true → i.outside a) :
    Memory.readByte (l.foldl storePart m) a = Memory.readByte m a := by
  induction l generalizing m with
  | nil => rfl
  | cons i t ih =>
    rw [List.foldl_cons, ih _ (fun j hj => h j (List.mem_cons_of_mem _ hj))]
    unfold storePart
    split
    · next hw => exact Memory.readByte_writeBytes_of_outside _ (h i List.mem_cons_self hw) _ _
    · rfl

/-- A byte of a half that the slot carried reads as written, where every WRITE burst in the same place that moves with it
brings the same data. -/
theorem readByte_storeParts {l : List ArrayBurst} {m : Memory} (w : Memory.wf m = true) {i : ArrayBurst} (hi : i ∈ l)
    (hw : i.isWrite = true) {k : Nat} (hf : i.part.1 ≤ k) (hk : k < i.part.1 + i.part.2)
    (hs : ∀ j ∈ l, j.isWrite = true → j.bank = i.bank → j.row = i.row → j.column = i.column → j.part.2 ≠ 0 → j.data = i.data) :
    Memory.readByte (l.foldl storePart m) (burstAddress i.bank i.row i.column + k) = burstByte i.data k := by
  induction l generalizing m i with
  | nil => exact absurd hi (by simp)
  | cons j t ih =>
    rw [List.foldl_cons]
    by_cases hm : ∃ e ∈ t, e.isWrite = true ∧ burstAddress e.bank e.row e.column = burstAddress i.bank i.row i.column
        ∧ e.part.1 ≤ k ∧ k < e.part.1 + e.part.2
    · obtain ⟨e, he, hwe, ha, hfe, hke⟩ := hm
      obtain ⟨hb, hr, hc⟩ := burstAddress_inj ha
      have hd := hs e (List.mem_cons_of_mem _ he) hwe hb hr hc (by omega)
      have key := ih (wf_storePart w j) he hwe hfe hke (fun g hg hwg h1 h2 h3 h4 =>
        (hs g (List.mem_cons_of_mem _ hg) hwg (h1.trans hb) (h2.trans hr) (h3.trans hc) h4).trans hd.symm)
      rw [ha, hd] at key
      exact key
    · have hit : i ∉ t := fun hit => hm ⟨i, hit, hw, rfl, hf, hk⟩
      have hij : i = j := by
        rcases List.mem_cons.1 hi with e | e
        · exact e
        · exact absurd e hit
      subst hij
      rw [readByte_storeParts_of_outside]
      · unfold storePart
        rw [if_pos hw]
        exact Memory.readByte_writeBytes w _ _ hf hk
      · intro e he hwe
        have hle := e.part_le
        have hli := i.part_le
        rcases burstAddress_apart e.bank i.bank e.row i.row e.column i.column with h | h | h
        · by_cases hc : e.part.1 ≤ k ∧ k < e.part.1 + e.part.2
          · exact absurd ⟨e, he, hwe, h, hc⟩ hm
          · unfold ArrayBurst.outside; omega
        · exact Or.inr (by omega)
        · exact Or.inl (by omega)

/-- A reset leaves every byte outside the WRITE bursts in flight as it was. -/
theorem readByte_cutWrites {a : Nat} (n : Nat) (l : List ArrayBurst) (m : Memory)
    (h : ∀ i ∈ l, i.isWrite = true →
      a < burstAddress i.bank i.row i.column ∨ burstAddress i.bank i.row i.column + 64 ≤ a) :
    Memory.readByte (cutWrites n l m).2 a = Memory.readByte m a := by
  induction l generalizing n m with
  | nil => rfl
  | cons i t ih =>
    have ht : ∀ j ∈ t, j.isWrite = true →
        a < burstAddress j.bank j.row j.column ∨ burstAddress j.bank j.row j.column + 64 ≤ a :=
      fun j hj => h j (List.mem_cons_of_mem _ hj)
    unfold cutWrites
    split
    · next hw =>
      rw [ih _ _ ht, Memory.readByte_writeBurst_of_outside (h i List.mem_cons_self hw)]
    · exact ih _ _ ht

end Sys2Proof.Machine
end

