-- ==== Sys2Proof/WellFormed.lean ====
section
/-! DEFINITION. What a command's operands must satisfy to be one the data book's layouts admit (chapter 11). A frame as heard may
hold any bits, and a bank or station operand is in range by its type. -/

namespace Sys2Proof

/-- The kind code of a request record: word 0, bits 25-23 (section 11.2). -/
def recordKind (w0 : Word) : Nat := (w0.extractLsb' 23 3).toNat

/-- The bursts field of a request record: word 0, bits 21-19 (section 11.2). -/
def recordBursts (w0 : Word) : Nat := (w0.extractLsb' 19 3).toNat

/-- Write data placed with a WRITE record: one burst per burst named, none where the field is out of range (R150, R181). -/
def writeDataFits (w0 : Word) (data : List Burst) : Bool :=
  if 1 ≤ recordBursts w0 ∧ recordBursts w0 ≤ 4 then data.length == recordBursts w0 else data.isEmpty

/-- Is the write of a control word one that places no operation (R182)? The writes of word 0 that place one are the
commands START, PROFILE_LOAD, STATUS_READ and FAULT_LIST_READ. -/
def placesNoOperation (address : BitVec 3) (value : Word) : Bool :=
  address != 0#3 || !(decide (1 ≤ value.toNat) && decide (value.toNat ≤ 4))

/-- A well-formed command. -/
def Instr.wf : Instr → Bool
  | .slotArbitration others => decide (others.length ≤ 5)
  | .readRequest w0 _ => recordKind w0 == 0 || decide (5 ≤ recordKind w0)
  | .writeRequest w0 _ data => recordKind w0 == 1 && writeDataFits w0 data
  | .retainRequest w0 _ => recordKind w0 == 2
  | .resumeRequest w0 _ => recordKind w0 == 3
  | .cancel w0 _ => recordKind w0 == 4
  | .controlWordWrite address value => placesNoOperation address value
  | .openFrame _ | .readFrame _ | .writeFrame _ _ | .closeFrame _ | .bankRefreshFrame _ | .fullRefreshFrame _ | .markFrame _
  | .retainFrame _ | .wakeFrame _ | .syncRequestFrame _ | .rollCallFrame _ | .noticeFrame _ | .withdrawFrame _
  | .voteFrame _ | .presenceFrame _ | .kindCode15Frame _ | .settleGuardExpiry _ | .closeGuardExpiry _ | .rechargeExpiry _
  | .refreshBusyExpiry _ | .yieldBeforeExpiry _ | .yieldGraceExpiry _ | .grantWindowExpiry _ | .intervalCountdownExpiry
  | .wakingGuardExpiry | .rollCallWindowExpiry | .memberDrop _ | .presenceAgeReached | .idleCloseTimerExpiry _
  | .dataLaneReservationFree | .lastDataSlotClose | .completionReservation | .completionRead | .detachedCompletionPosted
  | .start _ _ | .profileLoad | .statusRead | .faultListRead | .laneReset | .stationReset | .ownAgeLimitUnsynced
  | .resetInputRelease _ => true

end Sys2Proof
end

