-- ==== Sys2Proof/Tests/Slice0.lean ====
section
/-! SUPPORT. The model's own tests: an ill-formed term for each check of WellFormed, layouts, a step or two of the commands, and for
every statement with hypotheses a concrete state that meets them. -/

set_option Elab.async false

namespace Sys2Proof.Tests

open Sys2Proof.Machine

/-! ### Well-formed commands: one ill-formed term for each check -/

theorem test_wf_arbitration : Instr.wf (.slotArbitration [0, 1, 2, 3, 4, 5]) = false
    ∧ Instr.wf (.slotArbitration [0, 1, 2, 3, 4]) = true := by decide +kernel

/-- A request record of a kind code, with its bursts field. -/
def record (tag : Tag) (kind bursts : BitVec 3) (b : BitVec 4) (column : BitVec 8) : Word :=
  tag ++ kind ++ 0#1 ++ bursts ++ b ++ column ++ 0#7

theorem test_wf_kinds : Instr.wf (.readRequest (record 1 1 1 0 0) 0) = false ∧ Instr.wf (.readRequest (record 1 7 1 0 0) 0) = true
    ∧ Instr.wf (.writeRequest (record 1 0 1 0 0) 0 [0]) = false ∧ Instr.wf (.retainRequest (record 1 3 0 0 0) 0) = false
    ∧ Instr.wf (.resumeRequest (record 1 2 0 0 0) 0) = false ∧ Instr.wf (.cancel (record 1 0 0 0 0) 0) = false := by
  decide +kernel

theorem test_wf_writeData : Instr.wf (.writeRequest (record 1 1 2 0 0) 0 [0]) = false
    ∧ Instr.wf (.writeRequest (record 1 1 2 0 0) 0 [0, 0]) = true
    ∧ Instr.wf (.writeRequest (record 1 1 5 0 0) 0 [0]) = false := by decide +kernel

theorem test_wf_controlWord : Instr.wf (.controlWordWrite 0 3) = false ∧ Instr.wf (.controlWordWrite 0 5) = true := by
  decide +kernel

/-! ### Layouts (chapter 11) -/

/-- An OPEN of bank 5, row 90 from station 3 with tie value 1, bit by bit: class BANK, kind 5. -/
theorem test_open_bits :
    (Frame.mk .bank 1 3 (.openRow 5 90)).field = 0b01_0101_001_011#12
      ∧ bodyBits (.openRow 5 90) = 0b0101_00000001011010_00000000000000#32 := by decide +kernel

/-- A FULL REFRESH: balance-after -4, membership stations 0 and 2, first flag set, digest 0xBEEF. -/
theorem test_fullRefresh_bits :
    bodyBits (.fullRefresh (-4) 0b000101 true 0xBEEF) = 0b1111100_000101_1_00_1011111011101111#32 := by decide +kernel

/-- The check register after one 1 bit at all ones is shifted only; after a 0 bit it takes in the polynomial. -/
theorem test_check_step : crcStep 0x07#8 0xFF#8 true = 0xFE#8 ∧ crcStep 0x07#8 0xFF#8 false = 0xF9#8 := by decide +kernel

/-- The defaults in the layout of the profile words (R182). -/
theorem test_profile_words :
    Control.reset.profile0 = 0b0010100000_00001000000_0001100_0000#32 ∧ Control.reset.profile1 = 0b00001000_0_00000000000000000000000#32 := by
  decide +kernel

/-- A fault entry: RULE_VETO at index 7 from station 2 about a READ of bank 3. -/
theorem test_fault_word :
    FaultEntry.word ⟨.ruleVeto, 7, some 2, some 3, some .read, none⟩
      = 0b0010_00000111_1_010_1_0011_1_0110_000_000#32 := by decide +kernel

theorem test_no_word_spells_a_command : decodeTableWord 16 0x1234 = none := rfl

/-! ### Small states -/

/-- Station 1 of three, synced, the array ACTIVE and everything CLOSED. -/
def live : Device :=
  let d := Device.stationReset { ArrayDie.reset Memory.powerUp with state := .active } Pins.released
  { d with
    mirror := { d.mirror with array := .active }
    member := { d.member with state := .synced, straps := some ⟨1, 3⟩, digest := some 0x1234#16, members := 7#6 } }

/-- A slot that begins at a picture, its arbitration past. -/
def slotAt (d : Device) : State := ⟨d, d.countSlot, { Slot.fresh with arbitrated := true }, [], 0, []⟩

/-- A slot that begins at a picture, its arbitration to come. -/
def freshAt (d : Device) : State := ⟨d, d.countSlot, Slot.fresh, [], 0, []⟩

/-- The slot with this station as the sender of a frame. -/
def sending (f : Frame) (s : State) : State := { s with slot := { s.slot with candidate := some f, won := true } }

/-- A bank record in the mirror and beside it a bank of the array. -/
def withBank (b : Bank) (r : BankRec) (a : ArrayBank) (d : Device) : Device :=
  { d.setBank b r with array := d.array.setBank b a }

/-- The picture in another station state. -/
def inState (st : StationState) (d : Device) : Device := { d with member := { d.member with state := st } }

/-- A queued READ of bank 2, row 9. -/
def reading : Access :=
  { tag := 5, isWrite := false, bank := 2, row := 9, column := 4, bursts := 2, hint := false, data := [], stamp := 0,
    progress := .waiting, accepted := 0, reserved := false, cancelled := false, captured := [] }

/-- The picture with a request queue. -/
def queued (q : List Entry) (d : Device) : Device := d.setQueue q

theorem slotAt_counted (d : Device) : (slotAt d).counted := ⟨rfl, rfl, rfl, rfl, rfl⟩

theorem sending_counted (f : Frame) (d : Device) : (sending f (slotAt d)).counted := ⟨rfl, rfl, rfl, rfl, rfl⟩

/-- The grants in line with the freeze, by computation. -/
def settledNow (d : Device) : Bool :=
  allBanks.all (fun b => match (d.bank b).grant with
    | some (.running _) => !d.freezing
    | some .frozen => d.freezing
    | some .paused | none => true)

theorem grantsSettled_of {d : Device} (h : settledNow d = true) : d.grantsSettled := by
  intro b
  have := List.all_eq_true.1 h b (mem_allBanks b)
  constructor
  · intro w hw; simpa [hw] using this
  · intro hw; simpa [hw] using this

/-- A frame carried, by computation. -/
def carriedNow (f : Frame) (s : State) : Bool :=
  !s.slot.frameHeard && !s.slot.closing && s.now.pins.lrstN && checkOk (some f.body.kind) f.heard
    && decodeFrame f.body.kind f.heard == some f && !s.readBackBad (some f.body.kind) f.heard && !arrayVetoes s.now.array f.body

theorem carried_of {f : Frame} {s : State} (h : carriedNow f s = true) : Carried f.heard f s := by
  simp only [carriedNow, Bool.and_eq_true, Bool.not_eq_true', beq_iff_eq] at h
  obtain ⟨⟨⟨⟨⟨⟨h1, h2⟩, h3⟩, h4⟩, h5⟩, h6⟩, h7⟩ := h
  exact ⟨⟨h1, h2⟩, h3, h4, h5, rfl, h6, h7⟩

/-- A frame accepted, by computation. -/
def acceptedNow (f : Frame) (s : State) : Bool :=
  carriedNow f s && settledNow s.now && s.now.member.state == .synced && judge s.now f == none && !s.dropsSelf f

theorem accepted_of {f : Frame} {s : State} (c : s.counted) (h : acceptedNow f s = true) : Accepted f.heard f s := by
  simp only [acceptedNow, Bool.and_eq_true, Bool.not_eq_true', beq_iff_eq] at h
  obtain ⟨⟨⟨⟨h1, h2⟩, h3⟩, h4⟩, h5⟩ := h
  exact ⟨carried_of h1, c, grantsSettled_of h2, h3, h4, h5⟩

/-- A frame from a station, with tie value 0. -/
def from_ (x : Station) (c : FrameClass) (b : Body) : Frame := ⟨c, 0, x, b⟩

/-- The state a command leads to. -/
def after (c : Instr) (s : State) : State :=
  match exec c s with
  | .next t => t
  | .fault _ | .refused _ => s

/-! ### Witnesses: the queue and the idle slot -/

/-- Banks in every state, their guards at 1. -/
def busy : Device :=
  let d := withBank 1 ⟨.opened 7 2 1023 1 1, [], none, none⟩ (.opened 7 1) live
  let d := withBank 2 ⟨.closePending 7 2 5 1, [], none, none⟩ (.closePending 1) d
  let d := withBank 3 ⟨.recharging 1, [0], none, none⟩ (.recharging 1) d
  let d := withBank 4 ⟨.refreshing 1 .bank, [0], none, some .paused⟩ (.refreshing 1) d
  withBank 5 ⟨.closePending 7 2 1024 2, [], none, none⟩ (.closePending 2) d

theorem test_witness_step : ∃ s : State, s.pending = [.completionRead] ∧ step s = exec .completionRead { s with pending := [] } :=
  ⟨{ slotAt live with pending := [.completionRead] }, rfl, rfl⟩

theorem test_witness_idleSlot :
    (slotAt busy).pending = [] ∧ (slotAt busy).begun ∧ (slotAt busy).counted ∧ step (slotAt busy) = .next (slotAt busy).closeSlot
      ∧ busy.member.window ≠ some 1 ∧ (slotAt busy).closeSlot.now.member.state = busy.member.state :=
  ⟨rfl, ⟨rfl, rfl⟩, slotAt_counted _, rfl, by decide +kernel, by decide +kernel⟩

theorem test_idleSlot : ((slotAt busy).closeSlot.now.bank 1).st = .opened 7 2 1024 0 0
    ∧ ((slotAt busy).closeSlot.now.bank 2).st = .recharging 3 ∧ ((slotAt busy).closeSlot.now.bank 3).grant = some (.running 12)
    ∧ ((slotAt busy).closeSlot.now.bank 4).grant = some (.running 12) := by decide +kernel

theorem test_witness_idleClauses : (∀ m : Station, busy.member.members.has m = true → busy.member.ages[m] ≠ 12287)
    ∧ busy.retention.wakingGuard ≠ some 1 ∧ (busy.bank 3).grant ≠ some (.running 1) := by decide +kernel

/-- A slot that has carried its frame. -/
def carriedSlot : State := { slotAt busy with slot := { (slotAt busy).slot with frameHeard := true } }

theorem test_lateFrame : carriedSlot.slot.frameHeard = true ∧ (after .presenceAgeReached carriedSlot).now.mirror = (slotAt busy).closeSlot.now.mirror
    ∧ (after (.presenceFrame (from_ 0 .idle .presence).heard) carriedSlot).now = (slotAt busy).closeSlot.now := by decide +kernel

/-! ### Witnesses: verdicts, both ways -/

/-- The picture with a balance. -/
def balanced (n : Int) (d : Device) : Device := { d with account := { d.account with balance := n } }

theorem test_witness_open : judge (balanced 47 live) (from_ 0 .bank (.openRow 3 5)) = none
    ∧ judge (balanced 48 live) (from_ 0 .bank (.openRow 3 5)) = some .rule := by decide +kernel

/-- Bank 1 held by station 2, its settle guard run down. -/
def heldByTwo (closeGuard : Nat) (y : Option Yield) (ws : List Station) : Device :=
  withBank 1 ⟨.opened 7 2 70 0 closeGuard, ws, y, none⟩ (.opened 7 closeGuard) live

theorem test_witness_burst : judge (heldByTwo 0 (some (.grace 1)) [0]) (from_ 2 .bank (.read 1 3 false)) = none
    ∧ judge (heldByTwo 0 (some .barred) [0]) (from_ 2 .bank (.write 1 3 true)) = some .rule := by decide +kernel

theorem test_witness_close : judge (heldByTwo 0 none []) (from_ 2 .bank (.close 1 false)) = none
    ∧ judge (heldByTwo 0 (some .barred) [0]) (from_ 0 .urgent (.close 1 true)) = none
    ∧ judge (balanced 48 (heldByTwo 0 none [])) (from_ 0 .urgent (.close 1 true)) = none
    ∧ judge (heldByTwo 1 none []) (from_ 2 .bank (.close 1 false)) = some .rule := by decide +kernel

theorem test_witness_bankRefresh : judge (balanced (-48) live) (from_ 0 .idle (.bankRefresh 3 (-48))) = none
    ∧ judge (heldByTwo 0 none []) (from_ 0 .idle (.bankRefresh 1 (-1))) = some .rule
    ∧ judge live (from_ 0 .idle (.bankRefresh 3 0)) = some .stamp := by decide +kernel

theorem test_witness_notice : judge (heldByTwo 0 none []) (from_ 0 .routine (.notice 1)) = none
    ∧ judge (heldByTwo 0 none []) (from_ 2 .routine (.notice 1)) = some .rule := by decide +kernel

/-- An aligned account with a last-MARK mark. -/
def aligned (m : Nat) : Device :=
  { live with account := { live.account with aligned := true, lastMark := some m, index := 255 } }

theorem test_witness_mark : judge (aligned 80) (from_ 0 .urgent (.mark 0)) = none
    ∧ judge (aligned 79) (from_ 0 .urgent (.mark 0)) = some .stamp ∧ judge live (from_ 4 .urgent (.mark 9)) = some .rule := by
  decide +kernel

theorem test_witness_fullRefresh : judge (balanced 12 live) (from_ 0 .urgent (.fullRefresh 0 7 false 0x1234)) = none
    ∧ judge live (from_ 0 .urgent (.fullRefresh 0 7 true 0x1234)) = some .rule
    ∧ judge (balanced (-37) live) (from_ 0 .urgent (.fullRefresh (-49) 7 false 0x1234)) = some .stamp := by decide +kernel

theorem test_witness_reservation : (∃ c : Nat, 1 ≤ c) ∧ reservationAdmits (some ⟨3, false, 0⟩) false = true
    ∧ reservationAdmits (some ⟨4, false, 0⟩) false = false ∧ reservationAdmits (some ⟨1, false, 0⟩) true = true
    ∧ reservationAdmits (some ⟨2, false, 0⟩) true = false := ⟨⟨1, le_rfl⟩, by decide +kernel⟩

/-- Everyone has voted. -/
def voted : Device := { live with retention := { live.retention with votes := 7#6 } }

/-- Everyone has voted, a RETAIN request of this station is queued, and an empty bank has an old RUNNING grant. -/
def ready : Device :=
  queued [.retain 9 0] (withBank 3 ⟨.closed, [], none, some (.running 2)⟩ .closed
    { voted with retention := { voted.retention with ownVote := true } })

/-- The array RETAINING. -/
def retained (age : Nat) : Device :=
  { voted with
    mirror := { live.mirror with array := .retaining }
    retention := { voted.retention with ageMark := some age }
    array := { live.array with state := .retaining } }

theorem test_witness_retention : judge voted (from_ 0 .routine .retain) = none ∧ judge live (from_ 0 .routine .retain) = some .rule
    ∧ judge (retained 6) (from_ 0 .bank .wake) = none ∧ judge (retained 5) (from_ 0 .bank .wake) = some .rule
    ∧ judge live (from_ 0 .routine (.vote true)) = none ∧ judge live (from_ 0 .routine (.vote false)) = some .rule := by
  decide +kernel

/-! ### Witnesses: accepted frames -/

/-- Bank 3 CLOSED with station 2 at the head of a RUNNING grant and station 0 behind it. -/
def granted : Device := withBank 3 ⟨.closed, [2, 0], none, some (.running 1)⟩ .closed live

theorem test_witness_acceptedOpen :
    Accepted (from_ 2 .bank (.openRow 3 5)).heard (from_ 2 .bank (.openRow 3 5)) (slotAt granted) :=
  accepted_of (slotAt_counted _) (by decide +kernel)

theorem test_witness_acceptedBurst : (let f := from_ 2 .bank (.read 1 3 true)
    Accepted f.heard f (slotAt (heldByTwo 1 none [])) ∧ (heldByTwo 1 none []).array.banks[(1 : Bank)] = .opened 7 1)
    ∧ (let f := from_ 2 .bank (.write 1 3 false)
      Accepted f.heard f (slotAt (heldByTwo 6 none [])) ∧ ((heldByTwo 6 none []).bank 1).st = .opened 7 2 70 0 6) :=
  ⟨⟨accepted_of (slotAt_counted _) (by decide +kernel), by decide +kernel⟩,
    ⟨accepted_of (slotAt_counted _) (by decide +kernel), by decide +kernel⟩⟩

theorem test_witness_acceptedClose : (let f := from_ 2 .bank (.close 1 false)
    Accepted f.heard f (slotAt (heldByTwo 0 none [])))
    ∧ (let f := from_ 0 .bank (.close 1 true)
      Accepted f.heard f (slotAt (heldByTwo 0 (some .barred) [0]))) :=
  ⟨accepted_of (slotAt_counted _) (by decide +kernel), accepted_of (slotAt_counted _) (by decide +kernel)⟩

theorem test_witness_acceptedBankRefresh : let f := from_ 0 .routine (.bankRefresh 3 (-1))
    Accepted f.heard f (slotAt granted) := accepted_of (slotAt_counted _) (by decide +kernel)

theorem test_witness_acceptedFullRefresh : let f := from_ 0 .urgent (.fullRefresh (-12) 7 false 0x1234)
    Accepted f.heard f (slotAt granted) := accepted_of (slotAt_counted _) (by decide +kernel)

theorem test_witness_acceptedMark : (let f := from_ 0 .urgent (.mark 7)
    Accepted f.heard f (slotAt (balanced 40 granted))) ∧ (let f := from_ 0 .urgent (.mark 7)
    Accepted f.heard f (slotAt (balanced 49 live))) ∧ (48 : Int) < (balanced 49 live).account.balance :=
  ⟨accepted_of (slotAt_counted _) (by decide +kernel), accepted_of (slotAt_counted _) (by decide +kernel), by decide +kernel⟩

theorem test_witness_acceptedRetain : (let f := from_ 0 .routine .retain
    Accepted f.heard f (slotAt voted) ∧ voted.array.state = .active)
    ∧ (let f := from_ 0 .routine .retain
      let d := { voted with array := { voted.array with state := .uninit } }
      Accepted f.heard f (slotAt d) ∧ d.array.state ≠ .active) :=
  ⟨⟨accepted_of (slotAt_counted _) (by decide +kernel), rfl⟩,
    ⟨accepted_of (slotAt_counted _) (by decide +kernel), by decide +kernel⟩⟩

theorem test_acceptedRetain : (let f := from_ 0 .routine .retain
    Accepted f.heard f (slotAt ready) ∧ (after (.retainFrame f.heard) (slotAt ready)).after.port.queue = []
      ∧ (after (.retainFrame f.heard) (slotAt ready)).after.port.completions = [⟨9, .done, 0, []⟩]
      ∧ ((after (.retainFrame f.heard) (slotAt ready)).after.bank 3).grant = some .frozen) :=
  ⟨accepted_of (slotAt_counted _) (by decide +kernel), by decide +kernel⟩

theorem test_overrun : (let f := from_ 0 .urgent (.mark 7)
    (after (.markFrame f.heard) (slotAt (balanced 49 live))).after.array.mem = ⟨1, []⟩
      ∧ (after (.markFrame f.heard) (slotAt (balanced 48 live))).after.array.mem = ⟨0, []⟩) := by decide +kernel

theorem test_witness_acceptedWake : let f := from_ 0 .bank .wake
    Accepted f.heard f (slotAt (retained 6)) := accepted_of (slotAt_counted _) (by decide +kernel)

theorem test_witness_acceptedSync : (let f := from_ 2 .routine (.syncRequest 0x1234)
    Accepted f.heard f (slotAt granted)) ∧ (let f := from_ 2 .routine (.rollCall 0x1234 4)
    Accepted f.heard f (slotAt granted) ∧ ¬ ((4 : BitVec 3).toNat = granted.peers)) :=
  ⟨accepted_of (slotAt_counted _) (by decide +kernel), accepted_of (slotAt_counted _) (by decide +kernel), by decide +kernel⟩

theorem test_witness_acceptedNotice : let f := from_ 0 .routine (.notice 1)
    Accepted f.heard f (slotAt (heldByTwo 0 none [])) := accepted_of (slotAt_counted _) (by decide +kernel)

theorem test_witness_acceptedWithdraw : let f := from_ 2 .routine (.withdraw 3)
    Accepted f.heard f (slotAt granted) := accepted_of (slotAt_counted _) (by decide +kernel)

theorem test_witness_acceptedVotePresence : (let f := from_ 0 .routine (.vote true)
    Accepted f.heard f (slotAt live)) ∧ (let f := from_ 5 .idle .presence
    Accepted f.heard f (slotAt live)) :=
  ⟨accepted_of (slotAt_counted _) (by decide +kernel), accepted_of (slotAt_counted _) (by decide +kernel)⟩

theorem test_witness_everyAcceptance : let f := from_ 1 .idle .presence
    Accepted f.heard f (sending f (slotAt live)) := accepted_of (sending_counted _ _) (by decide +kernel)

/-! ### Witnesses: vetoed frames and the other station states -/

/-- The station with counts of vetoes. -/
def counts (own dissent : Nat) : Device := { live with lane := ⟨own, dissent, 0⟩ }

/-- A frame of a station that is no member. -/
def outsider : Frame := from_ 4 .bank (.openRow 3 5)

theorem test_witness_vetoed : let s := slotAt (counts 3 2)
    s.begun ∧ s.counted ∧ s.now.pins.lrstN = true ∧ s.vetoes (some .openRow) outsider.heard ∧ ¬ (3 ≤ s.now.lane.dissent) :=
  ⟨⟨rfl, rfl⟩, slotAt_counted _, rfl, ⟨by decide +kernel, Or.inl (by decide +kernel)⟩, by decide +kernel⟩

theorem test_witness_vetoLimits :
    (let s := slotAt (counts 0 3)
     s.begun ∧ s.counted ∧ s.vetoes (some .openRow) outsider.heard
      ∧ (stationVerdict s.now (some .openRow) outsider.heard (s.readBackBad (some .openRow) outsider.heard)).isSome = true
      ∧ s.now.member.state = .synced ∧ 3 ≤ s.now.lane.dissent)
    ∧ (let f := from_ 1 .idle .presence
       let s := sending f (slotAt (counts 4 0))
       s.begun ∧ s.counted ∧ s.vetoes (some .presence) { f.heard with peerVeto := true }
        ∧ s.slot.won = true ∧ s.now.member.state = .synced ∧ 4 ≤ s.now.lane.vetoCount) :=
  ⟨⟨⟨rfl, rfl⟩, slotAt_counted _, ⟨by decide +kernel, Or.inl (by decide +kernel)⟩, by decide +kernel⟩,
    ⟨⟨rfl, rfl⟩, sending_counted _ _, ⟨by decide +kernel, Or.inr (Or.inr rfl)⟩, by decide +kernel⟩⟩

/-- This station about to drop itself. -/
def dropping : Device := { live with member := { live.member with ages := #v[0, 12287, 0, 0, 0, 0] } }

theorem test_witness_notApplied : (let f := from_ 0 .urgent (.mark 7)
    Carried f.heard f (slotAt (inState .standby live)) ∧ Carried f.heard f (slotAt (inState .unsynced live))
    ∧ Carried f.heard f (slotAt dropping) ∧ judge dropping f = none ∧ (slotAt dropping).dropsSelf f = true) :=
  ⟨carried_of (by decide +kernel), carried_of (by decide +kernel), carried_of (by decide +kernel), by decide +kernel⟩

theorem test_witness_rollCall : (let f := from_ 0 .routine (.rollCall 0x1234 3)
    Carried f.heard f (slotAt (inState .rollCall live))) ∧ (let f := from_ 0 .idle .presence
    Carried f.heard f (slotAt (inState .rollCall live)) ∧ f.body.kind ≠ .rollCall ∧ f.body.kind ≠ .fullRefresh) :=
  ⟨carried_of (by decide +kernel), carried_of (by decide +kernel), by decide +kernel⟩

theorem test_witness_fullRefreshSettles :
    (let f := from_ 0 .urgent (.fullRefresh 0 7 true 0x1234)
     Carried f.heard f (slotAt (inState .rollCall live)) ∧ live.member.digest = some 0x1234 ∧ live.namedIn 7 = true)
    ∧ (let f := from_ 0 .urgent (.fullRefresh 0 5 false 0x1234)
       Carried f.heard f (slotAt (inState .rollCall live)) ∧ Carried f.heard f (slotAt (inState .unsynced live))
        ∧ live.namedIn 5 = false)
    ∧ (let f := from_ 0 .urgent (.fullRefresh 0 7 false 0x4321)
       Carried f.heard f (slotAt (inState .unsynced live)) ∧ live.member.digest ≠ some 0x4321) :=
  ⟨⟨carried_of (by decide +kernel), by decide +kernel⟩, ⟨carried_of (by decide +kernel), carried_of (by decide +kernel),
    by decide +kernel⟩, ⟨carried_of (by decide +kernel), by decide +kernel⟩⟩

/-! ### Witnesses: the events of a slot -/

/-- Yield points at 1 in both stages. -/
def yielding : Device :=
  withBank 0 ⟨.opened 7 2 63 0 0, [0], some (.before 1), none⟩ (.opened 7 0)
    (withBank 1 ⟨.opened 7 2 96 0 0, [0], some (.grace 1), none⟩ (.opened 7 0) live)

/-- Counters at 1. -/
def counting : Device :=
  { live with
    mirror := { live.mirror with reservation := some ⟨1, false, 2⟩ }
    account := { live.account with countdown := some 1 }
    sched := { live.sched with idle := live.sched.idle.set 3 (some 1) } }

theorem test_witness_guards : ((slotAt busy).now.bank 1).st.settle? = some 1
    ∧ ((slotAt busy).after.bank 1).st = .opened 7 2 1023 1 1 ∧ ((slotAt busy).now.bank 2).st.closeGuard? = some 1
    ∧ ((slotAt busy).after.bank 2).st = .closePending 7 2 5 1 ∧ ((slotAt yielding).after.bank 0).before? = some 1
    ∧ ((slotAt yielding).now.bank 0).before? = some 1 ∧ ((slotAt yielding).now.bank 1).grace? = some 1
    ∧ ((slotAt yielding).after.bank 1).grace? = some 1 := by decide +kernel

theorem test_witness_counters : (slotAt counting).now.account.countdown = some 1 ∧ (slotAt counting).after.account.countdown = some 1
    ∧ (slotAt counting).now.mirror.reservation = some ⟨1, false, 2⟩ ∧ (slotAt counting).after.mirror.reservation = some ⟨1, false, 2⟩
    ∧ (slotAt counting).now.sched.idle[(3 : Bank)] = some 1 ∧ (slotAt counting).after.sched.idle[(3 : Bank)] = some 1
    ∧ (slotAt (inState .unsynced dropping)).now.ownAge = 12287 ∧ (slotAt (inState .unsynced dropping)).after.ownAge = 12287 := by
  decide +kernel

theorem test_witness_busy : ((slotAt busy).now.bank 3).st = .recharging 1 ∧ ((slotAt busy).after.bank 3).st = .recharging 1
    ∧ ((slotAt busy).now.bank 4).st = .refreshing 1 .bank ∧ ((slotAt busy).after.bank 4).st = .refreshing 1 .bank := by
  decide +kernel

theorem test_witness_grantWindow : ((slotAt granted).now.bank 3).grant = some (.running 1)
    ∧ ((slotAt granted).after.bank 3).grant = some (.running 1) ∧ ((slotAt granted).after.bank 3).waiters = [2, 0] := by
  decide +kernel

/-- The array WAKING for one more slot, with a grant it froze. -/
def waking : Device :=
  let d := withBank 3 ⟨.closed, [2], none, some .frozen⟩ .closed live
  { d with mirror := { d.mirror with array := .waking }, retention := { d.retention with wakingGuard := some 1 } }

theorem test_witness_waking : (slotAt waking).now.retention.wakingGuard = some 1 ∧ (slotAt waking).after.retention.wakingGuard = some 1
    ∧ (slotAt waking).after.mirror.array = .waking ∧ (slotAt waking).after.grantsSettled :=
  ⟨rfl, rfl, rfl, grantsSettled_of (by decide +kernel)⟩

/-- A roll call in its last slot. -/
def lastCall (set : StationSet) : Device :=
  { live with member := { live.member with state := .rollCall, window := some 1, rollCall := set } }

theorem test_leftOutAtWindow : (let f := from_ 0 .urgent (.fullRefresh 0 5 false 0x1234)
    Carried f.heard f (slotAt (lastCall 1))
      ∧ (after (.fullRefreshFrame f.heard) (slotAt (lastCall 1))).after.faults.map FaultEntry.reason = [some .laneRunning]
      ∧ (after (.fullRefreshFrame f.heard) (slotAt (lastCall 2))).after.faults.map FaultEntry.reason = [some .leftOut]) :=
  ⟨carried_of (by decide +kernel), by decide +kernel⟩

theorem test_witness_window : (slotAt (lastCall 2)).now.member.window = some 1 ∧ (slotAt (lastCall 2)).after.member.window = some 1
    ∧ (slotAt (lastCall 2)).after.ownInRollCall = true ∧ (slotAt (lastCall 1)).after.ownInRollCall = false := by decide +kernel

/-- Station 2 silent for 12287 slots. -/
def silent : Device := { granted with member := { live.member with ages := #v[0, 0, 12287, 0, 0, 0] } }

theorem test_witness_drop : ((slotAt silent).now.member.state = .synced ∧ (slotAt silent).after.member.members.has 2 = true
    ∧ (slotAt silent).now.member.ages[(2 : Station)] = 12287 ∧ (slotAt silent).after.member.ages[(2 : Station)] = 12287
    ∧ (slotAt silent).after.ownNumber ≠ some 2) ∧ (slotAt silent).after.grantsSettled
    ∧ ((slotAt dropping).after.member.members.has 1 = true ∧ (slotAt dropping).now.member.ages[(1 : Station)] = 12287
      ∧ (slotAt dropping).after.ownNumber = some 1) :=
  ⟨by decide +kernel, grantsSettled_of (by decide +kernel), by decide +kernel⟩

theorem test_witness_presence : (freshAt dropping).begun ∧ (freshAt dropping).slot.arbitrated = false
    ∧ (freshAt dropping).now.ownAge = 12287 ∧ (freshAt dropping).now.member.state = .synced
    ∧ (freshAt (inState .rollCall live)).now.member.state = .rollCall := ⟨⟨rfl, rfl⟩, by decide +kernel⟩

theorem test_presence : (after .presenceAgeReached (freshAt dropping)).now.member.presence = some .urgent := by decide +kernel

/-- A READ queued at a synced station. -/
def wanting : Device := queued [.access reading] live

theorem test_witness_reservations : (freshAt wanting).begun ∧ (freshAt wanting).after.port = (freshAt wanting).now.port
    ∧ ((freshAt wanting).now.port.queue.map Entry.tag).Nodup ∧ (freshAt wanting).now.ownNumber = some 1
    ∧ (freshAt wanting).now.member.state = .synced ∧ (freshAt (inState .unsynced wanting)).now.member.state ≠ .synced :=
  ⟨⟨rfl, rfl⟩, rfl, by decide +kernel⟩

theorem test_reservation : (after .completionReservation (freshAt wanting)).now.reservations = 1 := by decide +kernel

/-- The last slot of an own READ burst; `p` is its request's progress. -/
def moving (p : Progress) : Device :=
  let d := queued [.access { reading with progress := p, accepted := 1, bursts := 1, reserved := true }] live
  { d with
    sched := { d.sched with ownBursts := [⟨5, false, 2, 9, 4, 1, some 7⟩] }
    array := { d.array with inFlight := [⟨false, 2, 9, 4, true, 0, 1, false⟩] } }

theorem test_witness_lastDataSlot (p : Progress) : (slotAt (moving p)).after.sched.ownBursts.filter OwnBurst.due
      = [⟨5, false, 2, 9, 4, 0, some 7⟩]
    ∧ (findAccess 5 (slotAt (moving p)).after.port.queue).map Access.progress = some p
    ∧ ((accesses (slotAt (moving p)).after.port.queue).map Access.tag).Nodup := by
  cases p <;> decide +kernel

/-- The second data slot of a WRITE burst at the array, beside the first of another. -/
def storing : Device :=
  { live with array := { live.array with
    inFlight := [⟨true, 2, 9, 4, false, 0xA5#512 <<< 256, 1, false⟩, ⟨true, 3, 9, 4, false, 0, 2, false⟩] } }

theorem test_witness_stored : Memory.wf (slotAt storing).after.array.mem = true
    ∧ (slotAt storing).after.array.inFlight.filter (fun i => i.isWrite && decide (i.left ≤ 1))
      = [⟨true, 2, 9, 4, false, 0xA5#512 <<< 256, 0, false⟩, ⟨true, 3, 9, 4, false, 0, 1, false⟩]
    ∧ (slotAt storing).pending = [] := by decide +kernel

theorem test_stored :
    Memory.readByte (ArrayDie.closeSlot storing.array (slotAt storing).after.array).mem (burstAddress 2 9 4 + 32) = 0xA5 :=
  (readByte_storeParts (l := (slotAt storing).after.array.inFlight) (m := Memory.powerUp)
    (i := ⟨true, 2, 9, 4, false, 0xA5#512 <<< 256, 0, false⟩) (k := 32) rfl (by decide +kernel) rfl (by decide +kernel)
    (by decide +kernel) (by decide +kernel)).trans (by decide +kernel)

theorem test_storedLower :
    Memory.readByte (ArrayDie.closeSlot storing.array (slotAt storing).after.array).mem (burstAddress 3 9 4 + 31) = 0 :=
  (readByte_storeParts (l := (slotAt storing).after.array.inFlight) (m := Memory.powerUp)
    (i := ⟨true, 3, 9, 4, false, 0, 1, false⟩) (k := 31) rfl (by decide +kernel) rfl (by decide +kernel)
    (by decide +kernel) (by decide +kernel)).trans (by decide +kernel)

/-- The first data slot of an own READ: its lower half is captured at the close. -/
def movingFirst : Device :=
  { live with sched := { live.sched with ownBursts := [⟨5, false, 2, 9, 4, 2, none⟩] }
              array := { live.array with inFlight := [⟨false, 2, 9, 4, true, 0, 2, false⟩] } }

theorem test_lowerHalf : ArrayDie.drives movingFirst.array ⟨5, false, 2, 9, 4, 1, none⟩ 2 = true
    ∧ (slotAt movingFirst).takeLowers.after.sched.ownBursts.map (fun o => (o.left, o.lower.isSome)) = [(1, true)]
    ∧ (slotAt movingFirst).closeSlot.now.sched.ownBursts.map (fun o => (o.left, o.lower.isSome)) = [(1, true)]
    ∧ (slotAt movingFirst).closeSlot.now.array.inFlight = [⟨false, 2, 9, 4, true, 0, 1, false⟩] := by decide +kernel

theorem test_retainWorksNoHalfOn :
    let a := ArrayDie.accept false 0 .retain { movingFirst.array with inFlight := [⟨true, 2, 9, 4, false, 0, 1, false⟩, ⟨true, 3, 9, 4, false, 0, 2, false⟩] }
    a.inFlight = [⟨true, 2, 9, 4, false, 0, 1, false⟩] ∧ (ArrayDie.closeSlot movingFirst.array a).inFlight = [] := by decide +kernel

theorem test_cutBurst : (undriveOwn 7 [⟨true, 2, 9, 4, true, 0, 0, false⟩]).2.map ArrayBurst.part = [(0, 64)] := rfl

/-- Two own bursts, one of them at its last data slot. -/
def movingTwo : Device := { live with sched := { live.sched with ownBursts := [⟨5, false, 2, 9, 4, 1, none⟩, ⟨5, false, 2, 9, 5, 3, none⟩] } }

theorem test_lastDataSlot_two : (∃ o ∈ (slotAt movingTwo).after.sched.ownBursts, o.left = 0)
    ∧ (after .lastDataSlotClose (slotAt movingTwo)).after.sched.ownBursts = [⟨5, false, 2, 9, 5, 2, none⟩]
    ∧ (∀ o ∈ (after .lastDataSlotClose (slotAt movingTwo)).after.sched.ownBursts, o.left ≠ 0) := by decide +kernel

/-- A detached READ and a detached RETAIN waiting for room. -/
def detached : Device := inState .mismatch (queued [.access reading, .retain 9 1] live)

theorem test_witness_detached : (slotAt detached).now.member.state = .mismatch ∧ (slotAt detached).now.roomTaken < 16
    ∧ (slotAt detached).after.port.queue = (slotAt detached).now.port.queue
    ∧ (slotAt detached).now.port.queue = [.access reading, .retain 9 1] ∧ (Entry.retain 9 1).tag ≠ reading.tag
    ∧ (slotAt (detached.setQueue [.retain 9 1])).now.port.queue = [.retain 9 1] := by decide +kernel

theorem test_witness_notDue : ((slotAt live).now.bank 0).st.settle? ≠ some 1 ∧ (slotAt live).now.account.countdown ≠ some 1
    ∧ (slotAt live).now.member.ages[(0 : Station)] ≠ 12287 ∧ (slotAt live).now.member.state ≠ .unsynced
    ∧ (slotAt live).now.sched.ownBursts = [] ∧ (slotAt live).now.member.window ≠ some 1 := by decide +kernel

/-! ### Witnesses: requests and the control window -/

/-- A record of a READ at the end of its range: bank 11, column 124, 4 bursts. -/
def edge : Word := record 63 0 4 11 124

theorem test_witness_access : (slotAt live).after.outOfReset = true ∧ (slotAt live).slot.requestPlaced = false
    ∧ (edge.extractLsb' 15 4 = BitVec.ofNat 4 (11 : Bank).val) ∧ (edge.extractLsb' 7 8).toNat + (edge.extractLsb' 19 3).toNat = 128
    ∧ ((0x3FFF0000 : Word).extractLsb' 16 16).toNat = 16383 ∧ (slotAt live).now.outstanding (edge.extractLsb' 26 6) = false
    ∧ (slotAt live).now.port.queue.length < 16 := by decide +kernel

theorem test_access : (after (.readRequest edge 0x3FFF0000) (slotAt live)).after.port.queue.map Entry.tag = [63]
    ∧ (after (.readRequest (record 63 0 4 11 125) 0) (slotAt live)).after.port.completions = [⟨63, .refusedRange, 0, []⟩] := by
  decide +kernel

/-- A queue of sixteen requests. -/
def full : Device := queued ((List.range 16).map (fun n => .access { reading with tag := BitVec.ofNat 6 n })) live

theorem test_witness_refusals : (inState .standby live).member.state = .standby
    ∧ (after (.retainRequest (record 5 2 0 0 0) 0) (slotAt wanting)).after.port.completions = [⟨5, .refusedTag, 0, []⟩]
    ∧ (after (.retainRequest (record 6 2 0 0 0) 0) (slotAt (queued [.retain 5 0] live))).after.port.completions = [⟨6, .refusedState, 0, []⟩]
    ∧ (after (.readRequest (record 60 0 1 0 0) 0) (slotAt full)).after.port.overflow = true
    ∧ (after (.readRequest (record 60 0 1 0 0) 0) (slotAt (inState .mismatch full))).after.port.completions = [⟨60, .refusedState, 0, []⟩] := by
  decide +kernel

theorem test_witness_held : let s := after (.readRequest (record 1 0 1 0 0) 0) (slotAt live)
    s.slot.requestPlaced = true ∧ s.after.port.heldRequest = none
      ∧ (after (.readRequest (record 2 0 1 0 0) 0) s).after.port.heldRequest ≠ none
      ∧ (after (.cancel (record 0 4 0 0 0) 0) (after (.readRequest (record 2 0 1 0 0) 0) s)).after.port.overflow = true := by decide +kernel

/-- A slot with LRST_N low. -/
def low : State := after .laneReset (slotAt live)

theorem test_witness_low : low.after.outOfReset = false ∧ low.now.pins.lrstN = false ∧ low.begun
    ∧ after (.cancel 0 0) low = low ∧ after (.controlWordWrite 1 5) low = low :=
  ⟨by decide +kernel, by decide +kernel, ⟨rfl, rfl⟩, by decide +kernel⟩

/-- The slot at whose close this station drops itself, with a RETAIN request queued in the array state RETAINING. -/
def leaving : Device :=
  let d := queued [.retain 9 0] (retained 2)
  { d with member := dropping.member, retention := { d.retention with ownVote := true } }

theorem test_dropFirst : (slotAt leaving).dropDue 1 = true
    ∧ (after (.readRequest (record 3 0 1 0 0) 0) (slotAt leaving)).after.port.completions = [⟨9, .withdrawn, 0, []⟩]
    ∧ (after (.resumeRequest (record 3 3 0 0 0) 0) (slotAt leaving)).after.retention.resume.map PendingResume.path = some .resync := by
  decide +kernel

theorem test_witness_retainResume : (slotAt live).after.outOfReset = true ∧ (slotAt live).now.roomTaken < 16
    ∧ (∀ m, (slotAt live).dropDue m = false) ∧ (slotAt live).after.ownVoted = false ∧ (slotAt voted).after.ownVoted = true
    ∧ (slotAt (retained 0)).after.mirror.array = .retaining ∧ (slotAt (inState .unsynced live)).after.member.state = .unsynced
    ∧ (slotAt live).now.retention.resume = none := by decide +kernel

/-- The slot at whose close the station enters MISMATCH. -/
def entering : State :=
  { slotAt (inState .unsynced live) with after := inState .mismatch (inState .unsynced live).countSlot }

theorem test_witness_entering : entering.after.outOfReset = true ∧ entering.now.member.state ≠ .mismatch
    ∧ entering.after.member.state = .mismatch ∧ (∀ m, entering.dropDue m = false) := by decide +kernel

theorem test_witness_cancel : findAccess 5 (slotAt wanting).now.port.queue = some reading ∧ reading.progress ≠ .issued
    ∧ (slotAt wanting).now.roomTaken < 16 ∧ findAccess 5 (slotAt wanting).after.port.queue = some reading
    ∧ (slotAt wanting).after.sched.ownBursts = [] ∧ findAccess 6 (slotAt wanting).now.port.queue = none
    ∧ (findAccess 5 (moving .held).port.queue).map Access.reserved = some true
    ∧ (∃ o ∈ (slotAt (moving .held)).after.sched.ownBursts, o.tag = 5)
    ∧ (findAccess 5 (moving .issued).port.queue).map Access.progress = some .issued
    ∧ retainEntry (queued [.retain 5 0] live).port.queue = some 5 := by decide +kernel

/-- A completion queue with no room left. -/
def crowded : Device :=
  { wanting with port := { wanting.port with completions := List.replicate 16 ⟨1, .done, 0, []⟩ } }

theorem test_witness_cancelDiscarded : reading.reserved = false ∧ 16 ≤ (slotAt crowded).now.roomTaken
    ∧ (after (.cancel 0 0x1400#32) (slotAt crowded)).after.port.overflow = true := by decide +kernel

/-- A slot whose close enters MISMATCH, so far as a CANCEL reads it. -/
def leavingFor (d : Device) : State := { slotAt d with after := inState .mismatch (slotAt d).after }

theorem test_cancelEnteringMismatch : (after (.cancel 0 0x1400#32) (leavingFor crowded)).after.port.overflow = true
    ∧ (after (.cancel 0 0x1400#32) (leavingFor wanting)).after = (leavingFor wanting).after
    ∧ (after (.cancel 0 0x1400#32) (slotAt (inState .mismatch crowded))).after.port.overflow = false := by decide +kernel

theorem test_witness_completionRead : (slotAt crowded).slot.completionRead = false
    ∧ (after .completionRead (slotAt crowded)).slot.completionRead = true
    ∧ (after .completionRead (slotAt crowded)).windowOut = [0b1_000001_000_000_0000000000000000000#32]
    ∧ (after .completionRead (slotAt live)).windowOut = [0#32] := by decide +kernel

/-- A station in STANDBY. -/
def asleep : Device := Device.stationReset (ArrayDie.reset Memory.powerUp) Pins.released

theorem test_witness_start : (slotAt asleep).after.outOfReset = true ∧ (slotAt asleep).slot.controlPlaced = false
    ∧ (slotAt asleep).now.member.state = .standby ∧ (after (.start 5 6) (slotAt asleep)).after.member.state = .rollCall
    ∧ (after (.start 5 5) (slotAt asleep)).after.port.control.outcome = 3 ∧ (slotAt live).now.member.state ≠ .standby := by
  decide +kernel

theorem test_witness_profile : (after .profileLoad (slotAt asleep)).after.port.control.outcome = 2
    ∧ (after .profileLoad (slotAt { asleep with port := { asleep.port with control := { Control.reset with profile0 := 0 } } })).after.port.control.outcome = 4
    ∧ (after .profileLoad (slotAt live)).after.port.control.outcome = 5 := by decide +kernel

theorem test_witness_controlWindow : (slotAt live).after.outOfReset = true ∧ (after .statusRead (slotAt live)).slot.controlPlaced = true
    ∧ (after .statusRead (slotAt live)).after.port.control.statusA = 0b011_0_001_011_01_0000000_00000000_0000_0#32
    ∧ (slotAt live).after.pins.stationStrap = (slotAt live).now.pins.stationStrap
    ∧ (after (.start 1 3) (after .statusRead (slotAt asleep))).after.member.state = .standby := by decide +kernel

/-! ### Witnesses: arbitration, candidates, encodings and invariants -/

theorem test_witness_arbitration : (freshAt wanting).begun ∧ (freshAt wanting).slot.arbitrated = false
    ∧ (after (.slotArbitration [0b01_0101_000_000#12]) (after .completionReservation (freshAt wanting))).slot.won = false
    ∧ (after (.slotArbitration [0b01_0101_001_010#12]) (after .completionReservation (freshAt wanting))).slot.won = true :=
  ⟨⟨rfl, rfl⟩, by decide +kernel⟩

theorem test_witness_candidate : wanting.takeReservations.member.state = .synced
    ∧ wanting.takeReservations.candidate = some ⟨.bank, 1, 1, .openRow 2 9⟩ := by decide +kernel

/-- Bank 2 held by this station on a row. -/
def mine (row : Row) : Device := withBank 2 ⟨.opened row 1 3 0 0, [], none, none⟩ (.opened row 0) wanting

theorem test_witness_headRequest : ((mine 9).bank 2).st = .opened 9 1 3 0 0 ∧ ((mine 8).bank 2).st.holder? = some 1
    ∧ (live.bank 2).st = .closed ∧ (granted.bank 3).waiters.head? = some 2 ∧ ((heldByTwo 0 none []).bank 1).st.holder? = some 2
    ∧ (busy.bank 2).st = .closePending 7 2 5 1 ∧ (1 : Station) ∉ (granted.bank 3).waiters ∧ (0 : Station) ∈ (granted.bank 3).waiters
    ∧ ((withBank 2 ⟨.recharging 2, [], none, none⟩ (.recharging 2) live).bank 2).st.holder? = none := by decide +kernel

theorem test_witness_wellFormedFrame : let f := from_ 0 .urgent (.fullRefresh (-48) 63 false 0xFFFF)
    classPermitted f.body.kind f.cls = true ∧ decodeFrame f.body.kind f.heard = some f := by decide +kernel

/-- A frame heard with one field changed and a correct check. -/
def rechecked (k : Option FrameKind) (h : Heard) : Heard := { h with check := frameCheck (fieldHeard k h) h.body }

theorem test_witness_malformed : let h := rechecked (some .openRow) { outsider.heard with body := 0xC0000000#32 }
    checkOk (some .openRow) h = true ∧ (slotAt live).readBackBad (some .openRow) h = false
      ∧ decodeFrame .openRow h = none ∧ decodeFrame .openRow (rechecked (some .openRow) { outsider.heard with sender := 6 }) = none
      ∧ checkOk none (rechecked none outsider.heard) = true ∧ decodeFrame .openRow outsider.heard = some outsider := by decide +kernel

theorem test_witness_invariants : (slotAt live).both Device.accountOk ∧ (slotAt live).both Device.countsOk
    ∧ (slotAt live).both Device.memoryOk ∧ step (slotAt live) = .next (slotAt live).closeSlot := by
  refine ⟨⟨?_, ?_⟩, ⟨?_, ?_⟩, ⟨rfl, rfl⟩, rfl⟩ <;> simp only [Device.accountOk, Device.countsOk] <;> decide +kernel

theorem test_witness_grantsOk : (slotAt granted).grantsOk :=
  ⟨⟨⟨grantsSettled_of (by decide +kernel), fun h => absurd rfl h⟩, ⟨grantsSettled_of (by decide +kernel), fun h => absurd rfl h⟩⟩,
    fun h => absurd h (by decide +kernel), fun _ => slotAt_counted _⟩

/-! ### Commands not met above -/

theorem test_resets : (after .laneReset (slotAt live)).now.member.state = .standby
    ∧ (after .laneReset (slotAt live)).now.pins.lrstN = false ∧ (after .laneReset (slotAt live)).now.array.state = .uninit
    ∧ (after .stationReset (slotAt live)).now.member.state = .standby ∧ (after .stationReset (slotAt live)).now.array.state = .active
    ∧ (after (.resetInputRelease .stationReset) (after .stationReset (slotAt live))).after.outOfReset = true := by decide +kernel

theorem test_grant_lapse : (after (.grantWindowExpiry 3) (slotAt granted)).after.bank 3
    = ⟨.closed, [0], none, some (.running 12)⟩ := by decide +kernel

theorem test_drop : ((after (.memberDrop 2) (slotAt silent)).after.bank 3).waiters = [0]
    ∧ (after (.memberDrop 2) (slotAt silent)).after.member.members = 3#6
    ∧ (after (.memberDrop 1) (slotAt dropping)).after.member.state = .unsynced := by decide +kernel

/-- A slot at whose close member 0 has been dropped already, and a FORCED_CLOSE entry made. -/
def withEntries (s : State) : State :=
  { s with slot := { s.slot with entries :=
    [⟨.forcedClose, 0, some 2, some 3, some .close, none⟩, ⟨.memberDropped, 0, some 0, none, none, none⟩] } }

theorem test_leftSync_last : ((after (.memberDrop 1) (withEntries (slotAt dropping))).after.faults.map FaultEntry.kind
      = [.forcedClose, .leftSync])
    ∧ (after .rollCallWindowExpiry (withEntries (slotAt (lastCall 1)))).after.faults.map FaultEntry.reason
      = [none, some .laneRunning] := by decide +kernel

theorem test_noticeBeforeDrop : (BankRec.leave 12 2 (BankRec.noticed 64 (.running 12) 0
    ⟨.opened 9 1 200 0 0, [2], some .barred, none⟩)) = ⟨.opened 9 1 200 0 0, [0], some .barred, none⟩ := by decide +kernel

theorem test_kindCode15 : (after (.kindCode15Frame (rechecked none outsider.heard)) (slotAt live)).after.lane.dissent = 1
    ∧ (after (.kindCode15Frame (rechecked none outsider.heard)) (slotAt live)).after.faults.map FaultEntry.kind = [.checkVeto] := by
  decide +kernel

/-- An arbitration field of all ones. -/
def allOnes : Heard := rechecked none { outsider.heard with cls := 3, tie := 7, sender := 7 }

theorem test_emptySlot : (slotAt live).laneEmpty none allOnes = true
    ∧ after (.kindCode15Frame allOnes) (slotAt live) = (slotAt live).hearing := by decide +kernel

theorem test_freeze : ((after (.markFrame (from_ 0 .urgent (.mark 7)).heard) (slotAt (balanced 40 granted))).after.bank 3)
    = ⟨.closed, [0], none, some .frozen⟩ := by decide +kernel

end Sys2Proof.Tests
end

