-- ==== Sys2Proof/Proofs/BankGuards.lean ====
section
/-! The verdicts on OPEN and BANK REFRESH and the admission of a burst by the data-lane reservation (chapter 1): how `judge` orders
its reasons, what each block asks of the frame, and the statements of R6, R13 and R19. -/

namespace Sys2Proof.Machine

/-! ### The order of the reasons (R77) -/

/-- Reason rule comes before every other. -/
theorem judge_of_not_ruleLegal {d : Device} {f : Frame} (h : ¬ ruleLegal d f.sender f.body = true) :
    judge d f = some .rule := by
  simp [judge, h]

theorem judge_of_ruleLegal_of_stampOk {d : Device} {f : Frame} (h : ruleLegal d f.sender f.body = true)
    (ha : accountStampOk d f.body = true) (hm : membershipStampOk d f.body = true) : judge d f = none := by
  simp [judge, h, ha, hm]

theorem judge_of_ruleLegal_of_not_accountStampOk {d : Device} {f : Frame} (h : ruleLegal d f.sender f.body = true)
    (ha : ¬ accountStampOk d f.body = true) : judge d f = some .stamp := by
  simp [judge, h, ha]

/-- The frame is legal for reason rule when each of the five blocks finds it so. -/
theorem ruleLegal_iff (d : Device) (x : Station) (body : Body) :
    ruleLegal d x body = true ↔ bankMirrorLegal d x body = true ∧ waiterListsLegal d x body = true
      ∧ accountLegal d body = true ∧ membershipLegal d x body = true ∧ retentionLegal d x body = true := by
  simp [ruleLegal, and_assoc]

theorem Device.urgent_eq_false_iff (d : Device) : d.urgent = false ↔ d.account.balance < 48 := by
  rw [Device.urgent, decide_eq_false_iff_not, not_le, Config.urgentLevel]

/-! ### What each block asks of an OPEN (R6) -/

section
variable (d : Device) (x : Station) (b : Bank) (row : Row)

theorem bankMirrorLegal_openRow_iff : bankMirrorLegal d x (.openRow b row) = true ↔
    (d.bank b).st = .closed ∧ d.mirror.array = .active ∧ markReads d.mirror.lastOpen = 2 := by
  simp [bankMirrorLegal, Config.spacing, and_assoc]

/-- A bank that no one waits for and no grant binds is free to all; a grant admits the head of the list alone. -/
theorem waiterListsLegal_openRow_iff : waiterListsLegal d x (.openRow b row) = true ↔
    ((d.bank b).waiters = [] ∧ (d.bank b).grant = none)
      ∨ ((d.bank b).grant ≠ none ∧ (d.bank b).waiters.head? = some x) := by
  simp [waiterListsLegal, Option.isSome_iff_ne_none]

theorem accountLegal_openRow_iff : accountLegal d (.openRow b row) = true ↔ d.account.balance < 48 := by
  simp [accountLegal, Device.urgent_eq_false_iff]

theorem membershipLegal_openRow_iff : membershipLegal d x (.openRow b row) = true ↔
    d.member.members.has x = true ∧ d.member.syncPending = 0#6 := by
  simp [membershipLegal, anySender]

theorem ruleLegal_openRow_iff : ruleLegal d x (.openRow b row) = true ↔
    (d.bank b).st = .closed ∧ d.mirror.array = .active ∧ markReads d.mirror.lastOpen = 2 ∧ d.account.balance < 48
      ∧ d.member.syncPending = 0#6 ∧ d.member.members.has x = true
      ∧ (((d.bank b).waiters = [] ∧ (d.bank b).grant = none)
          ∨ ((d.bank b).grant ≠ none ∧ (d.bank b).waiters.head? = some x)) := by
  have hr : retentionLegal d x (.openRow b row) = true := rfl
  rw [ruleLegal_iff, bankMirrorLegal_openRow_iff, waiterListsLegal_openRow_iff, accountLegal_openRow_iff,
    membershipLegal_openRow_iff]
  tauto

end

/-! ### What each block asks of a BANK REFRESH (R13, R52) -/

section
variable (d : Device) (x : Station) (b : Bank) (balanceAfter : Int)

theorem bankMirrorLegal_bankRefresh_iff : bankMirrorLegal d x (.bankRefresh b balanceAfter) = true ↔
    (d.bank b).st = .closed ∧ d.mirror.array = .active ∧ markReads d.mirror.lastBankRefresh = 2 := by
  simp [bankMirrorLegal, Config.spacing, and_assoc]

theorem accountLegal_bankRefresh_iff : accountLegal d (.bankRefresh b balanceAfter) = true ↔
    d.account.rotation.has b = false := by
  simp [accountLegal]

theorem membershipLegal_bankRefresh_iff : membershipLegal d x (.bankRefresh b balanceAfter) = true ↔
    d.member.members.has x = true := by
  simp [membershipLegal, anySender]

theorem ruleLegal_bankRefresh_iff : ruleLegal d x (.bankRefresh b balanceAfter) = true ↔
    (d.bank b).st = .closed ∧ d.mirror.array = .active ∧ markReads d.mirror.lastBankRefresh = 2
      ∧ d.account.rotation.has b = false ∧ d.member.members.has x = true := by
  have hw : waiterListsLegal d x (.bankRefresh b balanceAfter) = true := rfl
  have hr : retentionLegal d x (.bankRefresh b balanceAfter) = true := rfl
  rw [ruleLegal_iff, bankMirrorLegal_bankRefresh_iff, accountLegal_bankRefresh_iff, membershipLegal_bankRefresh_iff]
  tauto

/-- The balance after a BANK REFRESH: one less, but for the floor, which it keeps (R50, R52). -/
theorem bankRefreshResult_eq (balance : Int) :
    bankRefreshResult balance = if balance ≤ -48 then -48 else balance - 1 := by
  unfold bankRefreshResult Config.balanceFloor
  split_ifs <;> omega

theorem accountStampOk_bankRefresh_iff : accountStampOk d (.bankRefresh b balanceAfter) = true ↔
    balanceAfter = if d.account.balance ≤ -48 then -48 else d.account.balance - 1 := by
  simp [accountStampOk, bankRefreshResult_eq]

end

/-! ### What the data-lane reservation asks of a burst (R19) -/

/-- A burst in the reservation's direction may follow the last reserved slot at once. -/
theorem reservationAdmits_sameDirection (c : Nat) (o : Station) (isWrite : Bool) :
    reservationAdmits (some ⟨c, isWrite, o⟩) isWrite = true ↔ c - 1 < if isWrite then 2 else 3 := by
  simp [reservationAdmits]

/-- A burst in the other direction leaves one slot empty for the turnaround. -/
theorem reservationAdmits_otherDirection {held isWrite : Bool} (h : held ≠ isWrite) (c : Nat) (o : Station) :
    reservationAdmits (some ⟨c, held, o⟩) isWrite = true ↔ c - 1 + 2 ≤ if isWrite then 2 else 3 := by
  simp [reservationAdmits, h]

end Sys2Proof.Machine

/-! ### The statements -/

section
open Sys2Proof Sys2Proof.Machine

/-- Settles O4: the five blocks' questions about an OPEN are its seven conditions, and no block judges its stamp. -/
theorem openIsLegalExactlyUnderSevenConditions : Obligations.OpenIsLegalExactlyUnderSevenConditions := by
  intro d cls tie x b row legalNow
  have hrule : ruleLegal d x (.openRow b row) = true ↔ legalNow := ruleLegal_openRow_iff d x b row
  constructor
  · intro h
    exact judge_of_ruleLegal_of_stampOk (hrule.mpr h) rfl rfl
  · intro h
    exact judge_of_not_ruleLegal (mt hrule.mp h)

/-- Settles O7: five of the six conditions are judged for reason rule, the sixth, the balance-after, by the refresh account for
reason stamp. -/
theorem bankRefreshIsLegalExactlyUnderSixConditions : Obligations.BankRefreshIsLegalExactlyUnderSixConditions := by
  intro d cls tie x b balanceAfter legalNow stamp
  have hrule : ruleLegal d x (.bankRefresh b balanceAfter) = true ↔ legalNow := ruleLegal_bankRefresh_iff d x b balanceAfter
  have hstamp : accountStampOk d (.bankRefresh b balanceAfter) = true ↔ balanceAfter = stamp :=
    accountStampOk_bankRefresh_iff d b balanceAfter
  refine ⟨?legal, ?rule, ?stamp⟩
  case legal =>
    rintro ⟨h, ha⟩
    exact judge_of_ruleLegal_of_stampOk (hrule.mpr h) (hstamp.mpr ha) rfl
  case rule =>
    intro h
    exact judge_of_not_ruleLegal (mt hrule.mp h)
  case stamp =>
    rintro ⟨h, ha⟩
    exact judge_of_ruleLegal_of_not_accountStampOk (hrule.mpr h) (mt hstamp.mp ha)

/-- Settles O11, by the reservation's direction against the burst's. -/
theorem reservationAdmitsABurstOnThreeConditions : Obligations.ReservationAdmitsABurstOnThreeConditions := by
  refine ⟨fun _ => rfl, ?_⟩
  intro c o held isWrite _ last first
  rcases eq_or_ne held isWrite with rfl | hne
  · simpa using reservationAdmits_sameDirection c o held
  · simpa [hne] using reservationAdmits_otherDirection hne c o

end
end

