-- ==== Sys2Proof/Proofs/NoticeGuards.lean ====
section
/-! The verdict on NOTICE (chapter 2): the two blocks that judge it, the waiter lists and the membership unit, and the statement
of R28. -/

namespace Sys2Proof.Machine

/-! ### What each block asks of a NOTICE (R28) -/

section
variable (d : Device) (x : Station) (b : Bank)

/-- The four conditions that R28 gives the waiter lists. -/
theorem waiterListsLegal_notice_iff : waiterListsLegal d x (.notice b) = true ↔
    d.mirror.array ≠ .retaining ∧ (d.bank b).st.holder? ≠ some x ∧ x ∉ (d.bank b).waiters
      ∧ (d.bank b).waiters.length < 5 := by
  simp only [waiterListsLegal, Bool.and_eq_true, decide_eq_true_eq, and_assoc]
  simp [Config.waiterMax]

/-- The two conditions that R28 gives the membership unit. -/
theorem membershipLegal_notice_iff : membershipLegal d x (.notice b) = true ↔
    d.member.members.has x = true ∧ d.member.syncPending = 0#6 := by
  simp [membershipLegal, anySender]

/-- The bank mirror, the refresh account and the retention unit ask nothing of a NOTICE: neither the bank's state nor the balance
enters. -/
theorem ruleLegal_notice_iff : ruleLegal d x (.notice b) = true ↔
    d.member.members.has x = true ∧ d.member.syncPending = 0#6 ∧ d.mirror.array ≠ .retaining
      ∧ (d.bank b).st.holder? ≠ some x ∧ x ∉ (d.bank b).waiters ∧ (d.bank b).waiters.length < 5 := by
  have hb : bankMirrorLegal d x (.notice b) = true := rfl
  have ha : accountLegal d (.notice b) = true := rfl
  have hr : retentionLegal d x (.notice b) = true := rfl
  rw [ruleLegal_iff, waiterListsLegal_notice_iff, membershipLegal_notice_iff]
  tauto

end

end Sys2Proof.Machine

/-! ### The statement -/

section
open Sys2Proof Sys2Proof.Machine

/-- Settles O8: the waiter lists' four questions and the membership unit's two are the six conditions, and no block judges a
NOTICE's stamp. -/
theorem noticeIsLegalExactlyUnderSixConditions : Obligations.NoticeIsLegalExactlyUnderSixConditions := by
  intro d cls tie x b legalNow
  have hrule : ruleLegal d x (.notice b) = true ↔ legalNow := ruleLegal_notice_iff d x b
  constructor
  · intro h
    exact judge_of_ruleLegal_of_stampOk (hrule.mpr h) rfl rfl
  · intro h
    exact judge_of_not_ruleLegal (mt hrule.mp h)

end
end

