-- ==== Sys2Proof/Proofs/MarkGuards.lean ====
section
/-! The verdict on MARK (chapter 3): the membership unit judges the sender, the refresh account of an aligned station the index
and the spacing, and the statement of R60. -/

namespace Sys2Proof.Machine

/-! ### What each block asks of a MARK (R60) -/

section
variable (d : Device) (x : Station) (index : BitVec 8)

theorem membershipLegal_mark_iff : membershipLegal d x (.mark index) = true ↔ d.member.members.has x = true := by
  simp [membershipLegal, anySender]

/-- Membership is the only condition for reason rule: the array state, the balance, the banks and the sync-pending set do not
enter. -/
theorem ruleLegal_mark_iff : ruleLegal d x (.mark index) = true ↔ d.member.members.has x = true := by
  have hb : bankMirrorLegal d x (.mark index) = true := rfl
  have hw : waiterListsLegal d x (.mark index) = true := rfl
  have ha : accountLegal d (.mark index) = true := rfl
  have hr : retentionLegal d x (.mark index) = true := rfl
  rw [ruleLegal_iff, membershipLegal_mark_iff]
  tauto

theorem accountStampOk_mark_of_unaligned {d : Device} (h : d.account.aligned = false) :
    accountStampOk d (.mark index) = true := by
  simp [accountStampOk, h]

/-- An absent last-MARK mark meets the spacing; a present one has to read half the interval or more. -/
theorem accountStampOk_mark_of_aligned {d : Device} (h : d.account.aligned = true) :
    accountStampOk d (.mark index) = true ↔
      index = d.account.index + 1#8 ∧ ∀ m, d.account.lastMark = some m → d.member.profile.interval / 2 ≤ m := by
  cases hmark : d.account.lastMark with
  | none => simp [accountStampOk, h, hmark]
  | some m => simp [accountStampOk, h, hmark]

theorem accountStampOk_mark_iff : accountStampOk d (.mark index) = true ↔
    (d.account.aligned = true →
      index = d.account.index + 1#8 ∧ ∀ m, d.account.lastMark = some m → d.member.profile.interval / 2 ≤ m) := by
  cases haligned : d.account.aligned with
  | false => simp [accountStampOk_mark_of_unaligned index haligned]
  | true => simp only [accountStampOk_mark_of_aligned index haligned, true_implies]

end

end Sys2Proof.Machine

/-! ### The statement -/

section
open Sys2Proof Sys2Proof.Machine

/-- Settles O9: membership is the whole of reason rule, and the refresh account's question is the whole of reason stamp. -/
theorem markIsJudgedByMembershipIndexAndSpacing : Obligations.MarkIsJudgedByMembershipIndexAndSpacing := by
  intro d cls tie x index spaced stamped
  have hrule : ruleLegal d x (.mark index) = true ↔ d.member.members.has x = true := ruleLegal_mark_iff d x index
  have hstamp : accountStampOk d (.mark index) = true ↔ stamped := accountStampOk_mark_iff d index
  refine ⟨?rule, ?legal, ?stamp⟩
  case rule =>
    intro h
    exact judge_of_not_ruleLegal (mt hrule.mp (Bool.eq_false_iff.mp h))
  case legal =>
    rintro ⟨h, hs⟩
    exact judge_of_ruleLegal_of_stampOk (hrule.mpr h) (hstamp.mpr hs) rfl
  case stamp =>
    rintro ⟨h, hs⟩
    exact judge_of_ruleLegal_of_not_accountStampOk (hrule.mpr h) (mt hstamp.mp hs)

end
end

