-- ==== Sys2Proof/Proofs/EventsKeep.lean ====
section
/-! What every event of a slot keeps: the ranges of the account, the counts and the fault list, the canonical form of the array's
contents, grants in line with the freeze, and the queue of commands. One relation says it (`State.Keeps`), one lemma per operation
shows it, and the invariants of every step (R22, R24, R26, R41, R48, R54, R84, R85, R169) follow from it. -/

namespace Sys2Proof.Machine

/-! ### One picture -/

/-- A bank record in line with a picture: its grant with the freezing conditions, and empty where the station is not synced. -/
def Device.admits (d : Device) (r : BankRec) : Prop :=
  (∀ w, r.grant = some (.running w) → d.freezing = false) ∧ (r.grant = some .frozen → d.freezing = true)
    ∧ (d.member.state ≠ .synced → r.waiters = [] ∧ r.grant = none)

theorem Device.grantsOk_iff (d : Device) : d.grantsOk ↔ ∀ b, d.admits (d.bank b) :=
  ⟨fun ⟨settled, empty⟩ b => ⟨(settled b).1, (settled b).2, fun h => empty h b⟩,
    fun h => ⟨fun b => ⟨(h b).1, (h b).2.1⟩, fun hs b => (h b).2.2 hs⟩⟩

theorem Device.admits_congr {d e : Device} {r : BankRec} (hf : e.freezing = d.freezing)
    (hs : e.member.state = d.member.state) : e.admits r ↔ d.admits r := by
  simp only [Device.admits, hf, hs]

/-- A record that changes its state or its yield point alone, or loses its grant. -/
theorem Device.admits_of_fewer {d : Device} {r q : BankRec} (h : d.admits q) (hw : r.waiters = q.waiters)
    (hg : r.grant = q.grant ∨ r.grant = none) : d.admits r := by
  obtain ⟨running, frozen, empty⟩ := h
  rcases hg with hg | hg
  · exact ⟨hg ▸ running, hg ▸ frozen, by rw [hw, hg]; exact empty⟩
  · refine ⟨by simp [hg], by simp [hg], fun hs => ⟨hw ▸ (empty hs).1, hg⟩⟩

theorem Device.grantsOk_setBank {d : Device} (g : d.grantsOk) (b : Bank) {r : BankRec} (h : d.admits r) :
    (d.setBank b r).grantsOk := by
  rw [Device.grantsOk_iff] at g ⊢
  intro c
  rw [Device.admits_congr (e := d.setBank b r) (d := d) rfl rfl, Device.bank_setBank]
  split
  · exact h
  · exact g c

/-- A grant passed on is RUNNING, PAUSED or FROZEN as it was (R39). -/
theorem Device.admits_leave {d : Device} {r : BankRec} (h : d.admits r) (window : Nat) (x : Station) :
    d.admits (r.leave window x) := by
  obtain ⟨running, frozen, empty⟩ := h
  unfold BankRec.leave
  split
  · next hx =>
    have synced : ¬ d.member.state ≠ .synced := fun hs => by rw [(empty hs).1] at hx; simp at hx
    split
    · exact ⟨by simp, by simp, fun hs => absurd hs synced⟩
    · refine ⟨?_, ?_, fun hs => absurd hs synced⟩
      all_goals
        rcases hg : r.grant with _ | (_ | _ | _) <;> dsimp only <;> split <;> simp_all [passGrant]
  · exact ⟨running, frozen, empty⟩

/-- A picture changed to one that keeps the ranges of the account, the counts and the fault list, and the contents' form. -/
structure Device.KeepsRanges (e d : Device) : Prop where
  account : d.accountOk → e.accountOk
  counts : d.countsOk → e.countsOk
  memory : d.memoryOk → e.memoryOk

/-- A picture changed to one that keeps the ranges and the grants, and does not become synced. -/
structure Device.Keeps (e d : Device) : Prop extends Device.KeepsRanges e d where
  grants : d.grantsOk → e.grantsOk
  synced : e.member.state = .synced → d.member.state = .synced

theorem Device.KeepsRanges.refl (d : Device) : d.KeepsRanges d := ⟨id, id, id⟩

theorem Device.Keeps.refl (d : Device) : d.Keeps d := ⟨.refl d, id, id⟩

theorem Device.KeepsRanges.trans {f e d : Device} (h : f.KeepsRanges e) (g : e.KeepsRanges d) : f.KeepsRanges d :=
  ⟨h.account ∘ g.account, h.counts ∘ g.counts, h.memory ∘ g.memory⟩

theorem Device.Keeps.trans {f e d : Device} (h : f.Keeps e) (g : e.Keeps d) : f.Keeps d :=
  ⟨h.toKeepsRanges.trans g.toKeepsRanges, h.grants ∘ g.grants, g.synced ∘ h.synced⟩

theorem Device.Keeps.foldl {α : Type} {f : Device → α → Device} (h : ∀ d x, (f d x).Keeps d) (l : List α) (d : Device) :
    (l.foldl f d).Keeps d := by
  induction l generalizing d with
  | nil => exact .refl d
  | cons x t ih => exact (ih (f d x)).trans (h d x)

/-- A change that leaves the parts alone that have a range, and the contents. -/
theorem Device.KeepsRanges.of_same {e d : Device} (lane : e.lane = d.lane) (balance : e.account.balance = d.account.balance)
    (rotation : e.account.rotation = d.account.rotation) (faults : e.faults = d.faults) (mem : e.array.mem = d.array.mem) :
    e.KeepsRanges d where
  account h := by simpa only [Device.accountOk, balance, rotation] using h
  counts h := by simpa only [Device.countsOk, lane, faults] using h
  memory h := by simpa only [Device.memoryOk, mem] using h

/-- A change that leaves the blocks alone of which the invariants speak. -/
theorem Device.Keeps.of_same {e d : Device} (lane : e.lane = d.lane) (account : e.account = d.account)
    (faults : e.faults = d.faults) (mem : e.array.mem = d.array.mem) (mirror : e.mirror = d.mirror)
    (member : e.member = d.member) : e.Keeps d where
  toKeepsRanges := .of_same lane (account ▸ rfl) (account ▸ rfl) faults mem
  grants h := by
    rw [Device.grantsOk_iff] at h ⊢
    intro b
    rw [Device.bank_of_mirror mirror]
    exact (Device.admits_congr (Device.freezing_congr (by rw [account]) (by rw [member]) (by rw [mirror]))
      (by rw [member])).2 (h b)
  synced h := member ▸ h

/-- A bank record set to one in line with the picture. -/
theorem Device.Keeps.setBank {d : Device} (b : Bank) {r : BankRec} (h : d.admits (d.bank b) → d.admits r) :
    (d.setBank b r).Keeps d :=
  ⟨⟨id, id, id⟩, fun g => Device.grantsOk_setBank g b (h ((Device.grantsOk_iff d).1 g b)), id⟩

theorem Device.Keeps.updHead (b : Bank) (f : Access → Access) (d : Device) : (d.updHead b f).Keeps d :=
  .of_same rfl rfl rfl rfl rfl rfl

theorem Device.Keeps.becomeClosed (b : Bank) (d : Device) : (d.becomeClosed b).Keeps d := by
  refine .setBank b fun h => ?_
  obtain ⟨_, _, empty⟩ := h
  unfold Device.freshGrant
  refine ⟨?_, ?_, fun hs => ⟨(empty hs).1, by simp [(empty hs).1]⟩⟩ <;> dsimp only <;> split_ifs <;> simp_all

/-! ### The client port's operations -/

/-- What a completion changes: the request queue, the completions and the retention unit. -/
theorem Device.completeRetain_eq (st : Status) (d : Device) :
    d.completeRetain st = { d with retention := (d.completeRetain st).retention, port := (d.completeRetain st).port } := by
  unfold Device.completeRetain
  split <;> rfl

theorem Device.resumeDone_eq (p : ResumePath) (d : Device) :
    d.resumeDone p = { d with retention := (d.resumeDone p).retention, port := (d.resumeDone p).port } := by
  unfold Device.resumeDone
  split
  · split
    · unfold Device.completeResume
      split <;> rfl
    · rfl
  · rfl

theorem Device.resumeOnVoteLeft_eq (d : Device) :
    d.resumeOnVoteLeft = { d with retention := d.resumeOnVoteLeft.retention, port := d.resumeOnVoteLeft.port } := by
  unfold Device.resumeOnVoteLeft
  split
  · rfl
  · exact Device.resumeDone_eq .vote d

theorem Device.Keeps.of_port {e d : Device} (h : e = { d with retention := e.retention, port := e.port }) : e.Keeps d := by
  rw [h]; exact .of_same rfl rfl rfl rfl rfl rfl

theorem Device.Keeps.completeRetain (st : Status) (d : Device) : (d.completeRetain st).Keeps d :=
  .of_port (Device.completeRetain_eq st d)

theorem Device.Keeps.accessWithdraws (d : Device) : d.accessWithdraws.Keeps d := by
  unfold Device.accessWithdraws
  split
  · exact .completeRetain .withdrawn d
  · exact .refl d

theorem Device.Keeps.cancelAccess (t : Tag) (d : Device) : (d.cancelAccess t).Keeps d := by
  unfold Device.cancelAccess
  split
  · exact .refl d
  · split <;> exact .of_same rfl rfl rfl rfl rfl rfl

/-! ### The state -/

/-- The picture after the close is in order: its grants are, and a station in STANDBY is not synced at it. -/
def State.inOrder (s : State) : Prop :=
  s.after.grantsOk ∧ (s.now.member.state = .standby → s.after.member.state ≠ .synced)

/-- What every change within a slot keeps of the ranges: the present picture, the queue of commands, the account, the counts and the
fault list, the contents' form, and that something has happened in the slot. -/
structure State.KeepsRanges (t s : State) : Prop where
  now : t.now = s.now
  pending : t.pending = s.pending
  account : s.after.accountOk → t.after.accountOk
  counts : s.both Device.countsOk → t.after.countsOk
  memory : s.after.memoryOk → t.after.memoryOk
  busy : ¬ s.begun → ¬ t.begun

/-- What an event of a slot keeps: the ranges, and grants in order. -/
structure State.Keeps (t s : State) : Prop extends State.KeepsRanges t s where
  order : s.inOrder → t.inOrder

theorem State.KeepsRanges.refl (s : State) : s.KeepsRanges s := ⟨rfl, rfl, id, And.right, id, id⟩

theorem State.Keeps.refl (s : State) : s.Keeps s := ⟨.refl s, id⟩

theorem State.KeepsRanges.trans {u t s : State} (h : u.KeepsRanges t) (g : t.KeepsRanges s) : u.KeepsRanges s where
  now := h.now.trans g.now
  pending := h.pending.trans g.pending
  account := h.account ∘ g.account
  counts c := h.counts ⟨g.now ▸ c.1, g.counts c⟩
  memory := h.memory ∘ g.memory
  busy := h.busy ∘ g.busy

theorem State.Keeps.trans {u t s : State} (h : u.Keeps t) (g : t.Keeps s) : u.Keeps s :=
  ⟨h.toKeepsRanges.trans g.toKeepsRanges, h.order ∘ g.order⟩

theorem State.Keeps.foldl {α : Type} {f : State → α → State} (h : ∀ s x, (f s x).Keeps s) (l : List α) (s : State) :
    (l.foldl f s).Keeps s := by
  induction l generalizing s with
  | nil => exact State.Keeps.refl s
  | cons x t ih => exact (ih (f s x)).trans (h s x)

/-- The picture after the close changed to one that keeps what it kept; the other parts of the state but the slot play no role. -/
theorem State.Keeps.of_after {t s : State} (now : t.now = s.now) (pending : t.pending = s.pending)
    (slot : ¬ s.begun → ¬ t.begun) (h : t.after.Keeps s.after) : t.Keeps s where
  now := now
  pending := pending
  account := h.account
  counts c := h.counts c.2
  memory := h.memory
  busy := slot
  order o := ⟨h.grants o.1, fun hs ht => o.2 (now ▸ hs) (h.synced ht)⟩

theorem State.Keeps.upd {f : Device → Device} {s : State} (h : (f s.after).Keeps s.after) : (s.upd f).Keeps s :=
  .of_after rfl rfl id h

theorem State.begun_close (s : State) : ¬ s.close.begun := fun h => by simp [State.begun] at h

theorem State.Keeps.close (s : State) : s.close.Keeps s := .of_after rfl rfl (fun _ => s.begun_close) (.refl _)

/-- Entries that join the fault list leave at most 8 (R169). -/
theorem State.Keeps.settleFaults (s : State) : s.settleFaults.Keeps s where
  now := rfl
  pending := rfl
  account h := h
  counts c := ⟨c.2.1, c.2.2.1, joinFaults_length _ _⟩
  memory h := h
  busy h := h
  order h := h

theorem State.Keeps.addFault (e : FaultEntry) (s : State) : (s.addFault e).Keeps s :=
  (State.Keeps.settleFaults _).trans (.of_after rfl rfl id (.refl _))

theorem State.Keeps.retractDrops (s : State) : s.retractDrops.Keeps s :=
  (State.Keeps.settleFaults _).trans (.of_after rfl rfl id (.refl _))

/-- A bank of the reset picture is CLOSED with no waiter and no grant (R2, R26). -/
theorem Device.bank_of_reset {d : Device} (h : d.mirror = Mirror.reset) (b : Bank) : d.bank b = BankRec.reset := by
  simp [Device.bank, h, Mirror.reset]

/-- Entry into UNSYNCED puts the account, the counts and the mirror in the reset picture (R86, R91). -/
theorem Device.Keeps.toUnsynced (q : Bool) (d : Device) : (d.toUnsynced q).Keeps d where
  account _ := by simp [Device.accountOk, Device.toUnsynced, Account.reset]
  counts c := ⟨by simp [Device.toUnsynced, LaneUnit.reset], by simp [Device.toUnsynced, LaneUnit.reset], c.2.2⟩
  memory h := h
  grants _ := by
    rw [Device.grantsOk_iff]
    intro b
    rw [Device.bank_of_reset (d := d.toUnsynced q) rfl]
    simp [Device.admits, BankRec.reset]
  synced h := by simp [Device.toUnsynced] at h

theorem State.Keeps.enterUnsynced (r : LeftReason) (q : Bool) (s : State) : (s.enterUnsynced r q).Keeps s :=
  (State.Keeps.addFault _ _).trans ((State.Keeps.upd (.toUnsynced q _)).trans (.retractDrops s))

/-! ### Lapses and the regrant -/

theorem State.Keeps.lapsedAt (b : Bank) (x : Station) (s : State) : (s.lapsedAt b x).Keeps s := by
  unfold State.lapsedAt
  split
  · exact (State.Keeps.addFault _ _).trans (.upd (.updHead b _ _))
  · exact .refl s

theorem State.Keeps.lapse (b : Bank) (s : State) : (s.lapse b).Keeps s := by
  unfold State.lapse
  split
  · exact .upd (.setBank b fun h => Device.admits_of_fewer h rfl (.inr rfl))
  · exact (State.Keeps.lapsedAt b _ _).trans (.upd (.setBank b fun h => Device.admits_leave h _ _))

theorem State.Keeps.lapseIfDue (b : Bank) (s : State) : (s.lapseIfDue b).Keeps s := by
  unfold State.lapseIfDue
  split
  · exact .lapse b s
  · exact .refl s

/-- A record of the mirror set: of the ranges nothing reads it. -/
theorem State.KeepsRanges.setBank (b : Bank) (r : Device → BankRec) (s : State) :
    (s.upd (fun d => d.setBank b (r d))).KeepsRanges s :=
  ⟨rfl, rfl, id, And.right, id, id⟩

theorem State.KeepsRanges.regrantBank (s : State) (b : Bank) : (s.regrantBank b).KeepsRanges s := by
  unfold State.regrantBank
  split
  · split
    · exact (State.KeepsRanges.setBank b _ _).trans (State.Keeps.lapseIfDue b s).toKeepsRanges
    · exact .refl s
  · split
    · exact .refl s
    · exact .setBank b _ s
  · exact .refl s
  · exact .refl s

theorem State.KeepsRanges.regrant (s : State) : s.regrant.KeepsRanges s := by
  unfold State.regrant
  generalize allBanks = l
  induction l generalizing s with
  | nil => exact .refl s
  | cons b t ih => exact (ih (s.regrantBank b)).trans (.regrantBank s b)

/-- The grant of bank `b` is in line with the freezing conditions. -/
def State.settledAt (b : Bank) (s : State) : Prop :=
  (∀ w, (s.after.bank b).grant = some (.running w) → s.after.freezing = false)
    ∧ ((s.after.bank b).grant = some .frozen → s.after.freezing = true)

theorem Device.freezing_of_rest {d e : Device} (h : d.restAgrees e) : d.freezing = e.freezing := by
  obtain ⟨_, _, _, _, array, account, member, _⟩ := h
  exact Device.freezing_congr (by rw [account]) (by rw [member]) array

theorem Device.member_of_rest {d e : Device} (h : d.restAgrees e) : d.member = e.member := by
  obtain ⟨_, _, _, _, _, _, member, _⟩ := h
  exact member

/-- The regrant of a bank brings its own grant into line (R41). -/
theorem State.settledAt_regrantBank_self (s : State) (b : Bank) : (s.regrantBank b).settledAt b := by
  unfold State.regrantBank
  split
  · split
    · next hf =>
      have hf' : (s.lapseIfDue b).after.freezing = true :=
        (Device.freezing_of_rest (State.lapseIfDue_spec b s).rest).trans hf
      refine ⟨fun w hw => ?_, fun _ => by simpa [State.freeze] using hf'⟩
      simp [State.freeze] at hw
    · next w hg hf =>
      exact ⟨fun _ _ => by simpa using hf, fun hz => by simp [hg] at hz⟩
  · split
    · next hg hf => exact ⟨fun w hw => by simp [hg] at hw, fun _ => hf⟩
    · next hg hf => exact ⟨fun _ _ => by simpa using hf, fun hz => by simp at hz⟩
  · next hg => exact ⟨fun w hw => by simp [hg] at hw, fun hz => by simp [hg] at hz⟩
  · next hg => exact ⟨fun w hw => by simp [hg] at hw, fun hz => by simp [hg] at hz⟩

theorem State.settledAt_regrantBank {s : State} {c : Bank} (h : s.settledAt c) (b : Bank) :
    (s.regrantBank b).settledAt c := by
  by_cases e : c = b
  · subst e; exact s.settledAt_regrantBank_self c
  · have spec := s.regrantBank_spec b
    unfold State.settledAt
    rw [spec.others c e, Device.freezing_of_rest spec.rest]
    exact h

/-- After the regrant every grant is in line with the freezing conditions. -/
theorem State.grantsSettled_regrant (s : State) : s.regrant.after.grantsSettled := by
  have keep (l : List Bank) (c : Bank) (s : State) (h : s.settledAt c) : (l.foldl State.regrantBank s).settledAt c := by
    induction l generalizing s with
    | nil => exact h
    | cons b t ih => exact ih _ (State.settledAt_regrantBank h b)
  have reach (l : List Bank) (c : Bank) (hc : c ∈ l) (s : State) : (l.foldl State.regrantBank s).settledAt c := by
    induction l generalizing s with
    | nil => exact absurd hc List.not_mem_nil
    | cons b t ih =>
      rcases List.mem_cons.1 hc with rfl | ht
      · exact keep t c _ (s.settledAt_regrantBank_self c)
      · exact ih ht _
  exact fun b => reach allBanks b (mem_allBanks b) s

/-- The regrant leaves a picture in order, whatever was frozen or running before it. -/
theorem State.inOrder_regrant {s : State}
    (empty : s.after.member.state ≠ .synced → ∀ b, (s.after.bank b).waiters = [] ∧ (s.after.bank b).grant = none)
    (standby : s.now.member.state = .standby → s.after.member.state ≠ .synced) : s.regrant.inOrder := by
  by_cases hs : s.after.member.state = .synced
  · obtain ⟨now, _, _, _, _, _, rest, _⟩ := s.regrant_spec
    have member := Device.member_of_rest rest
    refine ⟨⟨s.grantsSettled_regrant, fun h => absurd ?_ h⟩, ?_⟩
    · rw [member]; exact hs
    · rw [now, member]; exact standby
  · have settled : s.after.grantsSettled := fun b => by simp [(empty hs b).2]
    rw [State.regrant_of_settled settled]
    exact ⟨⟨settled, empty⟩, standby⟩

/-! ### The events at a slot's close (R3, log entry 4) -/

/-- An event of the slot's close: not due it changes nothing, and where it is taken the slot is closing. -/
def State.Event (t s : State) : Prop := t = s ∨ t.Keeps s.close

theorem State.Event.keeps {t s : State} (h : t.Event s) : t.Keeps s := by
  rcases h with rfl | h
  · exact .refl _
  · exact h.trans (.close s)

/-- A record whose state or yield point alone is changed, the slot closing. -/
theorem State.Event.setRecord (b : Bank) (r : BankRec → BankRec) (s : State) (hw : ∀ q, (r q).waiters = q.waiters)
    (hg : ∀ q, (r q).grant = q.grant) : (s.close.upd (fun d => d.setBank b (r (d.bank b)))).Event s :=
  .inr (.upd (.setBank b fun h => Device.admits_of_fewer h (hw _) (.inl (hg _))))

/-- Blocks of which the invariants do not speak changed, the slot closing. -/
theorem State.Event.upd (f : Device → Device) (s : State) (h : (f s.after).Keeps s.after) : (s.close.upd f).Event s :=
  .inr (.upd h)

theorem State.event_takeSettle (b : Bank) (s : State) : (s.takeSettle b).Event s := by
  unfold State.takeSettle
  split
  · split
    · exact .setRecord b (fun q => { q with st := _ }) s (fun _ => rfl) (fun _ => rfl)
    all_goals exact .inl rfl
  · exact .inl rfl

theorem State.event_takeCloseGuard (b : Bank) (s : State) : (s.takeCloseGuard b).Event s := by
  unfold State.takeCloseGuard
  split
  · split
    · exact .setRecord b (fun q => { q with st := _ }) s (fun _ => rfl) (fun _ => rfl)
    · exact .setRecord b (fun q => { q with st := _ }) s (fun _ => rfl) (fun _ => rfl)
    all_goals exact .inl rfl
  · exact .inl rfl

theorem State.event_takeRecharge (b : Bank) (s : State) : (s.takeRecharge b).Event s := by
  unfold State.takeRecharge
  split
  · exact .upd _ s (.becomeClosed b _)
  · exact .inl rfl

theorem State.event_takeRefreshBusy (b : Bank) (s : State) : (s.takeRefreshBusy b).Event s := by
  unfold State.takeRefreshBusy
  split
  · exact .upd _ s (.becomeClosed b _)
  · exact .inl rfl

theorem State.event_takeYieldBefore (b : Bank) (s : State) : (s.takeYieldBefore b).Event s := by
  unfold State.takeYieldBefore
  split
  · exact .setRecord b (fun q => { q with yield := _ }) s (fun _ => rfl) (fun _ => rfl)
  · exact .inl rfl

theorem State.event_takeYieldGrace (b : Bank) (s : State) : (s.takeYieldGrace b).Event s := by
  unfold State.takeYieldGrace
  split
  · exact .setRecord b (fun q => { q with yield := _ }) s (fun _ => rfl) (fun _ => rfl)
  · exact .inl rfl

theorem State.event_takeGrantWindow (b : Bank) (s : State) : (s.takeGrantWindow b).Event s := by
  unfold State.takeGrantWindow
  split
  · exact .inr (.lapse b s.close)
  · exact .inl rfl

/-- A change of the account that leaves the balance and the rotation set. -/
theorem Device.Keeps.setAccount {d : Device} {a : Account} (balance : a.balance = d.account.balance)
    (rotation : a.rotation = d.account.rotation) : ({ d with account := a } : Device).Keeps d where
  account h := by simpa only [Device.accountOk, balance, rotation] using h
  counts := id
  memory := id
  grants h := by
    rw [Device.grantsOk_iff] at h ⊢
    exact fun b => (Device.admits_congr (e := { d with account := a }) (d := d)
      (Device.freezing_congr balance rfl rfl) rfl).2 (h b)
  synced := id

/-- A change of the membership unit that leaves the sync-pending set and the station state. -/
theorem Device.Keeps.setMember {e d : Device} (h : e = { d with member := e.member })
    (syncPending : e.member.syncPending = d.member.syncPending) (state : e.member.state = d.member.state) : e.Keeps d := by
  rw [h]
  refine ⟨⟨id, id, id⟩, fun g => ?_, fun hs => state ▸ hs⟩
  rw [Device.grantsOk_iff] at g ⊢
  exact fun b => (Device.admits_congr (e := { d with member := e.member }) (d := d)
    (Device.freezing_congr rfl syncPending rfl) state).2 (g b)

theorem State.event_takeInterval (s : State) : s.takeInterval.Event s := by
  unfold State.takeInterval
  split
  · exact .upd _ s (.setAccount rfl rfl)
  · exact .inl rfl

theorem State.event_takeReservationFree (s : State) : s.takeReservationFree.Event s := by
  unfold State.takeReservationFree
  split
  · exact .upd _ s ⟨⟨id, id, id⟩, id, id⟩
  · exact .inl rfl

theorem State.event_takeIdle (b : Bank) (s : State) : (s.takeIdle b).Event s := by
  unfold State.takeIdle
  split
  · exact .upd _ s (.of_same rfl rfl rfl rfl rfl rfl)
  · exact .inl rfl

theorem State.event_takeOwnAgeLimit (s : State) : s.takeOwnAgeLimit.Event s := by
  unfold State.takeOwnAgeLimit
  split
  · exact .upd _ s (.setMember rfl rfl rfl)
  · exact .inl rfl

/-- The WAKING guard's end brings every grant into line with the array state it leaves (R41, R122). -/
theorem State.event_takeWakingGuard (s : State) : s.takeWakingGuard.Event s := by
  unfold State.takeWakingGuard
  split
  · refine .inr ⟨(State.KeepsRanges.regrant _).trans ⟨rfl, rfl, id, And.right, id, id⟩, fun o => ?_⟩
    exact State.inOrder_regrant o.1.2 o.2
  · exact .inl rfl

theorem State.event_takeRollCallWindow (s : State) : s.takeRollCallWindow.Event s := by
  unfold State.takeRollCallWindow
  split
  · split
    · exact .upd _ s (.setMember rfl rfl rfl)
    · exact .inr (.enterUnsynced _ _ _)
  · exact .inl rfl

theorem State.synced_of_dropDue {m : Station} {s : State} (h : s.dropDue m = true) : s.after.member.state = .synced := by
  simp only [State.dropDue, Device.synced, Bool.and_eq_true, beq_iff_eq] at h
  exact h.1.1.1.2

/-- A drop leaves a synced station's grants in line with the sync-pending set it leaves (R41, R46). -/
theorem State.event_takeDrop (m : Station) (s : State) : (s.takeDrop m).Event s := by
  unfold State.takeDrop
  split
  · next due =>
    split
    · exact .inr (.enterUnsynced _ _ _)
    · refine .inr ⟨(State.KeepsRanges.regrant _).trans
        ((State.Keeps.addFault _ _).toKeepsRanges.trans ⟨rfl, rfl, id, And.right, id, id⟩), fun o => ?_⟩
      exact State.inOrder_regrant (fun h => absurd (State.synced_of_dropDue due) h) o.2
  · exact .inl rfl

theorem State.Keeps.finishBurst (s : State) (o : OwnBurst) : (s.finishBurst o).Keeps s := by
  unfold State.finishBurst
  refine .of_after rfl rfl id ?_
  dsimp only [State.upd]
  split
  · exact .of_same rfl rfl rfl rfl rfl rfl
  · exact .of_same rfl rfl rfl rfl rfl rfl

theorem State.event_takeDataSlots (s : State) : s.takeDataSlots.Event s := by
  unfold State.takeDataSlots
  dsimp only
  split
  · exact .inl rfl
  · exact .inr (.foldl .finishBurst _ _)

theorem State.Keeps.takeLowers (s : State) : s.takeLowers.Keeps s :=
  .of_after rfl rfl id (.of_same rfl rfl rfl rfl rfl rfl)

theorem State.event_takeDetached (s : State) : s.takeDetached.Event s := by
  unfold State.takeDetached
  split
  · split
    · exact .upd _ s (.of_same rfl rfl rfl rfl rfl rfl)
    · exact .upd _ s (.of_same rfl rfl rfl rfl rfl rfl)
    · exact .inl rfl
  · exact .inl rfl

theorem State.Keeps.takeDrops (s : State) : s.takeDrops.Keeps s :=
  .foldl (fun s m => (State.event_takeDrop m s).keeps) allStations s

/-- The expiries of one bank that no command has taken, in the order of the close. -/
theorem State.Keeps.takeBank (s : State) (b : Bank) :
    (((((((s.takeSettle b).takeCloseGuard b).takeRecharge b).takeRefreshBusy b).takeYieldBefore b).takeYieldGrace
      b).takeGrantWindow b).Keeps s :=
  (State.event_takeGrantWindow b _).keeps.trans <| (State.event_takeYieldGrace b _).keeps.trans <|
    (State.event_takeYieldBefore b _).keeps.trans <| (State.event_takeRefreshBusy b _).keeps.trans <|
    (State.event_takeRecharge b _).keeps.trans <| (State.event_takeCloseGuard b _).keeps.trans
      (State.event_takeSettle b s).keeps

theorem State.Keeps.takeAll (s : State) : s.takeAll.Keeps s := by
  unfold State.takeAll
  refine (State.event_takeDetached _).keeps.trans ?_
  refine (State.Keeps.foldl (fun s b => (State.event_takeIdle b s).keeps) _ _).trans ?_
  refine (State.event_takeOwnAgeLimit _).keeps.trans ?_
  refine (State.Keeps.takeLowers _).trans ?_
  refine (State.event_takeDataSlots _).keeps.trans ?_
  refine (State.event_takeReservationFree _).keeps.trans ?_
  refine (State.event_takeRollCallWindow _).keeps.trans ?_
  refine (State.event_takeWakingGuard _).keeps.trans ?_
  refine (State.event_takeInterval _).keeps.trans ?_
  exact (State.Keeps.foldl .takeBank _ _).trans (.takeDrops s)

/-! ### The request window and the control window -/

theorem State.Keeps.discard (s : State) : s.discard.Keeps s :=
  .of_after rfl rfl id (.of_same rfl rfl rfl rfl rfl rfl)

theorem State.Keeps.refuse (r : Request) (st : Status) (s : State) : (s.refuse r st).Keeps s := by
  unfold State.refuse
  split
  · exact .upd (.of_same rfl rfl rfl rfl rfl rfl)
  · exact .discard s

theorem State.Keeps.takeAccess (r : Request) (s : State) : (s.takeAccess r).Keeps s := by
  unfold State.takeAccess
  split
  · exact .refl s
  · have drops := State.Keeps.takeDrops s
    generalize s.takeDrops = u at drops
    refine (State.Keeps.upd ?_).trans drops
    dsimp only
    split
    · exact .of_same rfl rfl rfl rfl rfl rfl
    · exact (Device.Keeps.accessWithdraws _).trans (.of_same rfl rfl rfl rfl rfl rfl)

theorem State.Keeps.takeRetain (r : Request) (s : State) : (s.takeRetain r).Keeps s := by
  refine .upd ?_
  split
  · exact .of_same rfl rfl rfl rfl rfl rfl
  · exact .of_same rfl rfl rfl rfl rfl rfl

theorem State.Keeps.takeResume (r : Request) (s : State) : (s.takeResume r).Keeps s := by
  have drops := State.Keeps.takeDrops s
  unfold State.takeResume
  generalize s.takeDrops = u at drops
  refine (State.Keeps.upd ?_).trans drops
  dsimp only
  split
  · exact .of_same rfl rfl rfl rfl rfl rfl
  · have withdrawn (d : Device) :
        (if (retainEntry d.port.queue).isSome then d.completeRetain .withdrawn else d).Keeps d := by
      split
      · exact .completeRetain .withdrawn d
      · exact .refl d
    refine Device.Keeps.trans ?_ (withdrawn u.after)
    split
    · exact .of_same rfl rfl rfl rfl rfl rfl
    · exact .of_same rfl rfl rfl rfl rfl rfl

theorem State.Keeps.takeCancel (r : Request) (s : State) : (s.takeCancel r).Keeps s := by
  unfold State.takeCancel
  split
  · exact .refl s
  · split
    · split_ifs
      · exact .refl s
      · exact .discard s
      · exact .refl s
      · exact .upd (.cancelAccess _ _)
    · split
      · exact .upd (.completeRetain _ _)
      · exact .refl s

theorem State.Keeps.actRequest (r : Request) (s : State) : (s.actRequest r).Keeps s := by
  unfold State.actRequest
  split
  · exact .takeCancel r s
  · split
    · exact .refuse r _ s
    · exact .discard s
    · split
      · exact .takeAccess r s
      · exact .takeAccess r s
      · exact .takeRetain r s
      · exact .takeResume r s
      · exact .refl s
      · exact .refl s

theorem State.event_placeRequest (r : Request) (s : State) : (s.placeRequest r).Event s := by
  unfold State.placeRequest
  split_ifs
  · exact .inl rfl
  · dsimp only
    split_ifs
    · exact .inr (.discard _)
    · exact .inr (.upd (.of_same rfl rfl rfl rfl rfl rfl))
    · exact .inr ((State.Keeps.actRequest r _).trans (.of_after rfl rfl id (.refl _)))

theorem State.event_readCompletion (s : State) : s.readCompletion.Event s := by
  unfold State.readCompletion
  split_ifs
  · exact .inl rfl
  · dsimp only
    split_ifs
    · exact .inr (.of_after rfl rfl id (.refl _))
    · exact .inr (.of_after rfl rfl id (.of_same rfl rfl rfl rfl rfl rfl))

theorem State.Keeps.updControl (f : Control → Control) (s : State) : (s.updControl f).Keeps s :=
  .upd (.of_same rfl rfl rfl rfl rfl rfl)

theorem State.Keeps.outcome (o : ControlOutcome) (s : State) : (s.outcome o).Keeps s := .updControl _ s

/-- An operation that keeps what an event keeps, placed in the control window. -/
theorem State.event_control {act : State → State} (h : ∀ s, (act s).Keeps s) (s : State) : (s.control act).Event s := by
  unfold State.control
  split_ifs
  · exact .inl rfl
  · exact .inr (.refl _)
  · exact .inr ((h _).trans (.of_after rfl rfl id (.refl _)))

/-- START: a station in STANDBY is not synced, so it has no waiter and no grant, and ROLL_CALL finds none (R26). -/
theorem State.Keeps.startWith (number peers : BitVec 3) (s : State) : (s.startWith number peers).Keeps s := by
  unfold State.startWith
  split
  · next standby =>
    split
    · refine (State.Keeps.outcome _ _).trans ⟨⟨rfl, rfl, id, And.right, id, id⟩, fun o => ?_⟩
      have empty := o.1.2 (o.2 standby)
      refine ⟨(Device.grantsOk_iff _).2 fun b => ?_, fun _ h => nomatch h⟩
      exact ⟨fun w h => (nomatch (empty b).2.symm.trans h), fun h => (nomatch (empty b).2.symm.trans h), fun _ => empty b⟩
    · exact .outcome _ s
  · exact .outcome _ s

theorem State.Keeps.loadProfile (s : State) : s.loadProfile.Keeps s := by
  unfold State.loadProfile
  dsimp only
  split_ifs
  · exact (State.Keeps.outcome _ _).trans (.upd (.setMember rfl rfl rfl))
  · exact .outcome _ s
  · exact .outcome _ s

theorem State.Keeps.readStatus (s : State) : s.readStatus.Keeps s :=
  (State.Keeps.upd (.of_same rfl rfl rfl rfl rfl rfl)).trans (.updControl _ s)

theorem State.Keeps.readFault (s : State) : s.readFault.Keeps s :=
  (State.Keeps.settleFaults _).trans (.of_after rfl rfl id (.of_same rfl rfl rfl rfl rfl rfl))

theorem State.event_writeOperation (code : Word) (s : State) : (s.writeOperation code).Event s := by
  unfold State.writeOperation
  split_ifs
  · exact State.event_control (.startWith _ _) s
  · exact State.event_control .loadProfile s
  · exact State.event_control .readStatus s
  · exact State.event_control .readFault s
  · exact .inl rfl

theorem State.event_writeControl (address : BitVec 3) (value : Word) (s : State) :
    (s.writeControl address value).Event s := by
  unfold State.writeControl
  split_ifs
  · exact .inl rfl
  · exact State.event_writeOperation value s
  · exact .inr (.updControl _ _)
  · exact .inr (.updControl _ _)
  · exact .inl rfl

/-! ### The close of a slot and the start of the next (R3) -/

theorem State.Keeps.actDeferred (s : State) : s.actDeferred.Keeps s := by
  unfold State.actDeferred
  split
  · split
    · exact .actRequest _ s
    · exact .refl s
  · exact .refl s

theorem State.Keeps.settleScheduler (s : State) : s.settleScheduler.Keeps s := by
  refine .upd (Device.Keeps.trans (.foldl (fun d b => ?_) _ _) (.foldl (fun d b => ?_) _ _))
  · exact .of_same rfl rfl rfl rfl rfl rfl
  · exact .updHead b _ d

/-- What the array's own expiries store keeps the contents' form (R22, R88). -/
theorem State.Keeps.settleArray (s : State) : s.settleArray.Keeps s :=
  .upd ⟨⟨id, id, fun h => ArrayDie.wf_closeSlot _ h⟩, id, id⟩

theorem BankRec.age_waiters (r : BankRec) : r.age.waiters = r.waiters := by
  unfold BankRec.age; split <;> rfl

theorem BankRec.age_grant (r : BankRec) : r.age.grant = r.grant := by
  unfold BankRec.age; split <;> rfl

theorem Device.Keeps.ageSlot (d : Device) : d.ageSlot.Keeps d where
  toKeepsRanges := .of_same rfl rfl rfl rfl rfl
  grants h := by
    rw [Device.grantsOk_iff] at h ⊢
    intro b
    rw [Device.bank_ageSlot]
    exact (Device.admits_congr (e := d.ageSlot) (d := d) rfl rfl).2
      (Device.admits_of_fewer (h b) (BankRec.age_waiters _) (.inl (BankRec.age_grant _)))
  synced h := h

theorem Device.Keeps.countSlot (d : Device) : d.countSlot.Keeps d where
  toKeepsRanges := .of_same rfl rfl rfl rfl rfl
  grants h := by
    refine ⟨Device.grantsSettled_countSlot h.1, fun hs b => ?_⟩
    have empty := h.2 hs b
    rw [Device.bank_countSlot]
    exact ⟨empty.1, by simp [BankRec.count, empty.2]⟩
  synced h := h

theorem Device.Keeps.presenceReached (d : Device) : d.presenceReached.Keeps d := .setMember rfl rfl rfl

/-- The completion reservations change the request queue alone. -/
theorem Device.takeReservations_eq (d : Device) : d.takeReservations = d.setQueue d.takeReservations.port.queue := by
  have fold (l : List Access) (d e : Device) (h : e = d.setQueue e.port.queue) :
      let f (d' : Device) (a : Access) : Device :=
        if d'.hasRoom then
          d'.setQueue (mapAccess (fun a' => if a'.tag = a.tag then { a' with reserved := true } else a') d'.port.queue)
        else d'
      l.foldl f e = d.setQueue (l.foldl f e).port.queue := by
    intro f
    induction l generalizing e with
    | nil => exact h
    | cons a t ih =>
      refine ih (f e a) ?_
      dsimp only [f]
      split
      · rw [h]; rfl
      · exact h
  unfold Device.takeReservations
  split
  · exact fold _ d d rfl
  · rfl

theorem Device.Keeps.takeReservations (d : Device) : d.takeReservations.Keeps d := by
  rw [Device.takeReservations_eq]
  exact .of_same rfl rfl rfl rfl rfl rfl

/-- The picture at the start of the next slot. -/
theorem State.startSlot_now_keeps (s : State) : s.startSlot.now.Keeps s.after :=
  (Device.Keeps.takeReservations _).trans <| (Device.Keeps.presenceReached _).trans <| (Device.Keeps.ageSlot _).trans
    (.of_same rfl rfl rfl rfl rfl rfl)

/-- The state at the end of the slot in progress, before the next slot starts. -/
def State.closed (s : State) : State := s.takeAll.actDeferred.settleScheduler.settleArray

theorem State.closeSlot_eq (s : State) : s.closeSlot = s.closed.startSlot := by
  unfold State.closeSlot State.closed
  rfl

theorem State.Keeps.closed (s : State) : s.closed.Keeps s := by
  unfold State.closed
  refine (State.Keeps.settleArray _).trans ?_
  refine (State.Keeps.settleScheduler _).trans ?_
  exact (State.Keeps.actDeferred _).trans (.takeAll s)

theorem State.startSlot_after (s : State) : s.startSlot.after = s.startSlot.now.countSlot := rfl

/-- The next slot begins counted, with nothing heard in it. -/
theorem State.startSlot_counted (s : State) : s.startSlot.begun ∧ s.startSlot.counted :=
  ⟨⟨rfl, rfl⟩, rfl, rfl, rfl, rfl, rfl⟩

theorem State.closeSlot_counted (s : State) : s.closeSlot.begun ∧ s.closeSlot.counted := by
  rw [State.closeSlot_eq]
  exact s.closed.startSlot_counted

theorem State.startSlot_pending (s : State) : s.startSlot.pending = s.pending := rfl

theorem State.closeSlot_pending (s : State) : s.closeSlot.pending = s.pending := by
  rw [State.closeSlot_eq, State.startSlot_pending]
  exact (State.Keeps.closed s).pending

/-- An invariant of one picture that the start of a slot keeps. -/
theorem State.startSlot_both {P : Device → Prop} (step : ∀ {d e : Device}, e.Keeps d → P d → P e) {s : State}
    (h : P s.after) : s.startSlot.both P := by
  have now : P s.startSlot.now := step s.startSlot_now_keeps h
  refine ⟨now, ?_⟩
  rw [State.startSlot_after]
  exact step (Device.Keeps.countSlot _) now

/-- An invariant of one picture that the close and the start of a slot keep. -/
theorem State.closeSlot_both {P : Device → Prop} (step : ∀ {d e : Device}, e.Keeps d → P d → P e) {s : State}
    (h : P s.closed.after) : s.closeSlot.both P := by
  rw [State.closeSlot_eq]
  exact State.startSlot_both step h

end Sys2Proof.Machine
end

