-- ==== Sys2Proof/Proofs/FramesKeep.lean ====
section
/-! What a frame heard keeps, what each command of the table comes to, and the invariants of every step. -/

namespace Sys2Proof.Machine

/-! ### A vetoed frame -/

theorem State.KeepsRanges.upd {f : Device → Device} {s : State} (h : (f s.after).KeepsRanges s.after) :
    (s.upd f).KeepsRanges s :=
  ⟨rfl, rfl, h.account, fun c => h.counts c.2, h.memory, id⟩

theorem State.Keeps.vetoEntries (own : Bool) (reason : Option VetoReason) (k : Option FrameKind) (h : Heard) (s : State) :
    (s.vetoEntries own reason k h).Keeps s := by
  have owned (s : State) : s.ownVetoed.Keeps s := by
    unfold State.ownVetoed
    split
    · exact .addFault _ s
    · exact .refl s
  unfold State.vetoEntries
  split
  · exact (owned _).trans (.addFault _ s)
  · exact .addFault _ s
  · exact owned s
  · exact .refl s

/-- The counts of a veto stay below their limits, or the station leaves (R84 to R86). -/
theorem State.Keeps.countVeto (own vetoer : Bool) (s : State) : (s.countVeto own vetoer).Keeps s := by
  unfold State.countVeto
  split
  · exact .refl s
  · exact .refl s
  · exact .refl s
  · split
    · split
      · exact .enterUnsynced _ _ s
      · next below =>
        exact ⟨⟨rfl, rfl, id, fun c => ⟨by simpa [Config.vetoLimit] using below, c.2.2⟩, id, id⟩, id⟩
    · exact .refl s
  · split
    · exact .enterUnsynced _ _ s
    · split
      · exact .enterUnsynced _ _ s
      · next below below' =>
        refine ⟨⟨rfl, rfl, id, fun c => ⟨?_, ?_, c.2.2.2⟩, id, id⟩, id⟩
        · show (if own then _ else _) ≤ 4
          split
          · next ho => simpa [ho, Config.vetoLimit] using below
          · exact c.1.1
        · show (if vetoer then _ else _) ≤ 3
          split
          · next hv => simpa [hv, Config.dissentLimit] using below'
          · exact c.1.2.1

theorem State.Keeps.vetoed (own : Bool) (reason : Option VetoReason) (k : Option FrameKind) (h : Heard) (s : State) :
    (s.vetoed own reason k h).Keeps s :=
  (State.Keeps.countVeto _ _ _).trans (.vetoEntries own reason k h s)

/-! ### An accepted frame -/

/-- A frame changes the array's contents by no acceptance: a burst moves in its own slots (R18, R22). -/
theorem ArrayDie.accept_mem (own : Bool) (data : Burst) (body : Body) (a : ArrayDie) :
    (a.accept own data body).mem = a.mem := by
  cases body <;> dsimp only [ArrayDie.accept, ArrayDie.burst, ArrayDie.setBank] <;> split <;> rfl

theorem State.Keeps.arrayTook (own : Bool) (f : Frame) (d : Burst) (s : State) : (s.arrayTook own f d).Keeps s :=
  .upd (.of_same rfl rfl rfl (ArrayDie.accept_mem _ _ _ _) rfl rfl)

theorem bankRefreshResult_range {balance : Int} (h : balance ≤ 60) :
    -48 ≤ bankRefreshResult balance ∧ bankRefreshResult balance ≤ 60 := by
  unfold bankRefreshResult Config.balanceFloor
  split <;> omega

theorem fullRefreshResult_range {balance : Int} (first : Bool) (h : -48 ≤ balance) (h' : balance ≤ 60) :
    -48 ≤ fullRefreshResult balance first ∧ fullRefreshResult balance first ≤ 60 := by
  unfold fullRefreshResult Config.balanceFloor Config.intervalWork
  split_ifs <;> omega

theorem markResult_range {balance : Int} (array : ArrayState) (h : -48 ≤ balance) (h' : balance ≤ 60) :
    -48 ≤ markResult balance array ∧ markResult balance array ≤ 60 := by
  unfold markResult Config.urgentLevel Config.intervalWork Config.balanceCeiling
  split_ifs <;> omega

/-- The bank that would complete the rotation set empties it (R54). -/
theorem rotationAfter_ne_allOnes (set : BankSet) (b : Bank) : rotationAfter set b ≠ BitVec.allOnes 12 := by
  unfold rotationAfter
  split
  · decide
  · assumption

/-- What a body does to the marks, the banks, the grants and the port of a synced station keeps the ranges. -/
theorem State.KeepsRanges.markTaken (x : Station) (index : BitVec 8) (s : State) :
    (s.markTaken x index).KeepsRanges s := by
  have credited : (s.upd (fun d => { d with
      account := d.account.marked d.mirror.array d.member.profile.interval index })).KeepsRanges s :=
    .upd ⟨fun a => ⟨(markResult_range _ a.1 a.2.1).1, (markResult_range _ a.1 a.2.1).2, a.2.2⟩, id, id⟩
  unfold State.markTaken
  dsimp only
  split
  · refine (State.Keeps.addFault _ _).toKeepsRanges.trans ((State.KeepsRanges.upd ?_).trans
      ⟨rfl, rfl, credited.account, credited.counts, credited.memory, id⟩)
    exact ⟨id, id, fun _ => Memory.wf_unassured _⟩
  · exact ⟨rfl, rfl, credited.account, credited.counts, credited.memory, id⟩

theorem Device.KeepsRanges.openTaken (own : Bool) (x : Station) (b : Bank) (row : Row) (d : Device) :
    (d.openTaken own x b row).KeepsRanges d := by
  unfold Device.openTaken
  dsimp only
  split <;> exact .of_same rfl rfl rfl rfl rfl

theorem Device.KeepsRanges.noticeTaken (own : Bool) (x : Station) (b : Bank) (d : Device) :
    (d.noticeTaken own x b).KeepsRanges d := by
  unfold Device.noticeTaken
  dsimp only
  split <;> exact .of_same rfl rfl rfl rfl rfl

theorem Device.KeepsRanges.withdrawTaken (own : Bool) (x : Station) (b : Bank) (d : Device) :
    (d.withdrawTaken own x b).KeepsRanges d := by
  unfold Device.withdrawTaken
  dsimp only
  split <;> exact .of_same rfl rfl rfl rfl rfl

theorem Device.Keeps.ownBurstTaken (row : Row) (w : Bool) (b : Bank) (column : Column) (d : Device) :
    (d.ownBurstTaken row w b column).Keeps d := by
  unfold Device.ownBurstTaken
  split
  · exact .refl d
  · exact .of_same rfl rfl rfl rfl rfl rfl

theorem State.Keeps.recordOwnBurst (own : Bool) (body : Body) (s : State) : (s.recordOwnBurst own body).Keeps s := by
  unfold State.recordOwnBurst
  split
  · split
    · exact .upd (.ownBurstTaken _ _ _ _ _)
    · exact .upd (.ownBurstTaken _ _ _ _ _)
    all_goals exact .refl s
  · exact .refl s

theorem State.KeepsRanges.closeTaken (x : Station) (b : Bank) (forced : Bool) (s : State) :
    (s.closeTaken x b forced).KeepsRanges s := by
  unfold State.closeTaken
  split
  · dsimp only
    split
    · exact (State.Keeps.addFault _ _).toKeepsRanges.trans (.upd (.of_same rfl rfl rfl rfl rfl))
    · exact .upd (.of_same rfl rfl rfl rfl rfl)
  · exact .upd (.of_same rfl rfl rfl rfl rfl)

theorem Device.KeepsRanges.bankRefreshTaken (b : Bank) (d : Device) : (d.bankRefreshTaken b).KeepsRanges d :=
  ⟨fun a => ⟨(bankRefreshResult_range a.2.1).1, (bankRefreshResult_range a.2.1).2, rotationAfter_ne_allOnes _ _⟩, id, id⟩

theorem Device.KeepsRanges.fullRefreshTaken (members : StationSet) (first : Bool) (d : Device) :
    (d.fullRefreshTaken members first).KeepsRanges d := by
  unfold Device.fullRefreshTaken
  dsimp only
  refine (Device.Keeps.of_port (Device.resumeOnVoteLeft_eq _)).toKeepsRanges.trans ⟨fun a => ?_, id, id⟩
  have r := fullRefreshResult_range first a.1 a.2.1
  exact ⟨r.1, r.2, (by decide : (0#12 : BankSet) ≠ BitVec.allOnes 12)⟩

theorem Device.KeepsRanges.retainTaken (d : Device) : d.retainTaken.KeepsRanges d := by
  have done (d : Device) : (if d.retention.ownVote then d.completeRetain .done else d).KeepsRanges d := by
    split
    · exact (Device.Keeps.completeRetain .done d).toKeepsRanges
    · exact .refl d
  unfold Device.retainTaken
  dsimp only
  refine Device.KeepsRanges.trans ?_ ((done { d with
    mirror := { d.mirror with array := .retaining }, retention := { d.retention with ageMark := some 0 } }).trans
    (.of_same rfl rfl rfl rfl rfl))
  split
  · split
    · exact .of_same rfl rfl rfl rfl rfl
    · exact .refl _
  · exact .refl _

theorem Device.KeepsRanges.wakeTaken (d : Device) : d.wakeTaken.KeepsRanges d := by
  unfold Device.wakeTaken
  dsimp only
  exact (Device.Keeps.of_port (Device.resumeOnVoteLeft_eq _)).toKeepsRanges.trans
    ((Device.Keeps.of_port (Device.resumeDone_eq _ _)).toKeepsRanges.trans (.of_same rfl rfl rfl rfl rfl))

theorem Device.Keeps.voteTaken (x : Station) (on : Bool) (d : Device) : (d.voteTaken x on).Keeps d := by
  unfold Device.voteTaken
  exact (Device.Keeps.of_port (Device.resumeOnVoteLeft_eq _)).trans (.of_same rfl rfl rfl rfl rfl rfl)

/-- The effect of an accepted frame at a synced station keeps the ranges. -/
theorem State.KeepsRanges.bodyTaken (own : Bool) (x : Station) (body : Body) (s : State) :
    (s.bodyTaken own x body).KeepsRanges s := by
  unfold State.bodyTaken
  have asked (c : Prop) [Decidable c] : (if c then s.upd (Device.syncAsked x) else s).KeepsRanges s := by
    split
    · exact .upd (.of_same rfl rfl rfl rfl rfl)
    · exact .refl s
  cases body with
  | mark index => exact .markTaken x index s
  | wake => exact .upd (.wakeTaken _)
  | fullRefresh _ members first _ => exact .upd (.fullRefreshTaken members first _)
  | bankRefresh b _ => exact (State.KeepsRanges.upd (.bankRefreshTaken b _)).trans (State.Keeps.lapseIfDue b s).toKeepsRanges
  | close b forced => exact .closeTaken x b forced s
  | openRow b row => exact .upd (.openTaken own x b row _)
  | read b c ca =>
    exact (State.KeepsRanges.upd (.of_same rfl rfl rfl rfl rfl)).trans (State.Keeps.recordOwnBurst _ _ s).toKeepsRanges
  | write b c ca =>
    exact (State.KeepsRanges.upd (.of_same rfl rfl rfl rfl rfl)).trans (State.Keeps.recordOwnBurst _ _ s).toKeepsRanges
  | retain => exact .upd (.retainTaken _)
  | syncRequest _ => exact asked _
  | rollCall _ _ => exact asked _
  | notice b => exact .upd (.noticeTaken own x b _)
  | withdraw b => exact .upd (.withdrawTaken own x b _)
  | vote on => exact .upd (Device.Keeps.voteTaken x on _).toKeepsRanges
  | presence => exact .refl s

theorem Device.KeepsRanges.acceptCommon (own : Bool) (x : Station) (k : FrameKind) (d : Device) :
    (d.acceptCommon own x k).KeepsRanges d :=
  ⟨id, fun c => ⟨by dsimp only [Device.acceptCommon]; split <;> [exact Nat.zero_le _; exact c.1], Nat.zero_le _, c.2.2⟩, id⟩

/-- A grant's order reads the mirror, the balance, the sync-pending set and the station state alone. -/
theorem State.inOrder_congr {t s : State} (now : t.now = s.now) (mirror : t.after.mirror = s.after.mirror)
    (account : t.after.account = s.after.account) (member : t.after.member = s.after.member) (o : s.inOrder) : t.inOrder := by
  refine ⟨?_, by rw [now, member]; exact o.2⟩
  have g := (Device.grantsOk_iff _).1 o.1
  refine (Device.grantsOk_iff _).2 fun b => ?_
  rw [Device.bank_of_mirror mirror]
  exact (Device.admits_congr (Device.freezing_congr (by rw [account]) (by rw [member]) (by rw [mirror]))
    (by rw [member])).2 (g b)

/-! The station state at an acceptance. -/

theorem State.lapse_member (b : Bank) (s : State) : (s.lapseIfDue b).after.member = s.after.member :=
  Device.member_of_rest (State.lapseIfDue_spec b s).rest

theorem State.recordOwnBurst_eq (own : Bool) (body : Body) (s : State) :
    s.recordOwnBurst own body = s.upd (fun d => { d with
      sched := (s.recordOwnBurst own body).after.sched, port := (s.recordOwnBurst own body).after.port }) := by
  have one (row : Row) (w : Bool) (b : Bank) (column : Column) (d : Device) : d.ownBurstTaken row w b column
      = { d with sched := (d.ownBurstTaken row w b column).sched, port := (d.ownBurstTaken row w b column).port } := by
    unfold Device.ownBurstTaken
    split <;> rfl
  unfold State.recordOwnBurst
  split
  · split
    · exact congrArg (fun d => ({ s with after := d } : State)) (one _ _ _ _ _)
    · exact congrArg (fun d => ({ s with after := d } : State)) (one _ _ _ _ _)
    all_goals rfl
  · rfl

/-- No body moves the station state of a synced station (R83, R91: only its own drop or a veto limit does). -/
theorem State.bodyTaken_state (own : Bool) (x : Station) (body : Body) (s : State) :
    (s.bodyTaken own x body).after.member.state = s.after.member.state := by
  unfold State.bodyTaken
  cases body with
  | mark index => unfold State.markTaken; dsimp only; split <;> rfl
  | wake =>
    simp only [State.upd_after, Device.wakeTaken]
    rw [Device.resumeOnVoteLeft_eq, Device.resumeDone_eq]
  | fullRefresh _ members first _ =>
    simp only [State.upd_after, Device.fullRefreshTaken]
    rw [Device.resumeOnVoteLeft_eq]
  | bankRefresh b _ => exact congrArg Membership.state (State.lapse_member b s)
  | close b forced =>
    unfold State.closeTaken; dsimp only
    split
    · split <;> rfl
    · rfl
  | openRow b row => simp only [State.upd_after, Device.openTaken]; split <;> rfl
  | read b c ca => dsimp only; rw [State.recordOwnBurst_eq]; rfl
  | write b c ca => dsimp only; rw [State.recordOwnBurst_eq]; rfl
  | retain =>
    simp only [State.upd_after, Device.retainTaken]
    split
    · split
      · rw [Device.resumeTo_member]; split <;> [rw [Device.completeRetain_eq]; rfl]
      · split <;> [rw [Device.completeRetain_eq]; rfl]
    · split <;> [rw [Device.completeRetain_eq]; rfl]
  | syncRequest _ => dsimp only; split <;> rfl
  | rollCall _ _ => dsimp only; split <;> rfl
  | notice b => simp only [State.upd_after, Device.noticeTaken]; split <;> rfl
  | withdraw b => simp only [State.upd_after, Device.withdrawTaken]; split <;> rfl
  | vote on => simp only [State.upd_after, Device.voteTaken]; rw [Device.resumeOnVoteLeft_eq]
  | presence => rfl

/-- The station state stands as at the slot's start: what holds until an event of the slot has moved it. -/
def State.stateStands (s : State) : Prop := s.after.member.state = s.now.member.state

/-- What an acceptance keeps: the ranges, and, where no event of the slot has moved the station state before it, grants in order. -/
structure State.Accepts (t s : State) : Prop extends State.KeepsRanges t s where
  order : s.stateStands → s.inOrder → t.inOrder

theorem State.Keeps.accepts {t s : State} (h : t.Keeps s) : t.Accepts s := ⟨h.toKeepsRanges, fun _ => h.order⟩

theorem State.Keeps.after_accepts {u t s : State} (h : u.Keeps t) (g : t.Accepts s) : u.Accepts s :=
  ⟨h.toKeepsRanges.trans g.toKeepsRanges, fun stands o => h.order (g.order stands o)⟩

theorem State.Accepts.after_keeps {u t s : State} (h : u.Accepts t) (g : t.Keeps s)
    (stands : t.after.member.state = s.after.member.state) : u.Accepts s :=
  ⟨h.toKeepsRanges.trans g.toKeepsRanges, fun st o =>
    h.order (by unfold State.stateStands at st ⊢; rw [stands, g.now]; exact st) (g.order o)⟩

/-- At a synced station the regrant that follows every acceptance leaves the grants in order (R41). -/
theorem State.Accepts.acceptSynced {s : State} (now : s.now.member.state = .synced) (own : Bool) (f : Frame) :
    (s.acceptSynced own f).Accepts s := by
  unfold State.acceptSynced
  split
  · exact ((State.Keeps.enterUnsynced _ _ _).trans (.recordOwnBurst _ _ s)).accepts
  · have body := State.KeepsRanges.bodyTaken own f.sender f.body s
    refine ⟨(State.KeepsRanges.regrant _).trans ((State.KeepsRanges.upd (.acceptCommon _ _ _ _)).trans body), ?_⟩
    intro stands _
    refine State.inOrder_regrant (fun h => absurd ?_ h) fun h => ?_
    · exact (State.bodyTaken_state own f.sender f.body s).trans (stands.trans now)
    · rw [State.upd_now, body.now, now] at h
      exact nomatch h

/-! ### Stations that are not synced -/

theorem State.Keeps.compareProfile (x : Station) (body : Body) (s : State) : (s.compareProfile x body).Keeps s := by
  unfold State.compareProfile
  split
  · exact .refl s
  · exact .addFault _ s

theorem State.Keeps.ownAccepted (own : Bool) (s : State) : (s.ownAccepted own).Keeps s := by
  unfold State.ownAccepted
  split
  · exact ⟨⟨rfl, rfl, id, fun c => ⟨Nat.zero_le _, c.2.2⟩, id, id⟩, State.inOrder_congr rfl rfl rfl rfl⟩
  · exact .refl s

/-- The balance-after that a FULL REFRESH carries lies in the range of the balance. -/
def Frame.balanceOk (f : Frame) : Prop :=
  ∀ ba members first digest, f.body = .fullRefresh ba members first digest → -48 ≤ ba ∧ ba ≤ 60

/-- A field decoded as a balance-after is one (R76, R180). -/
theorem balanceOf_range {v : BitVec 7} {ba : Int} (h : balanceOf v = some ba) : -48 ≤ ba ∧ ba ≤ 60 := by
  unfold balanceOf at h
  split at h
  · next hr => cases h; exact hr
  · exact nomatch h

theorem Frame.balanceOk_of_decode {k : FrameKind} {h : Heard} {f : Frame} (hf : decodeFrame k h = some f) :
    f.balanceOk := by
  intro ba members first digest hb
  unfold decodeFrame at hf
  split at hf
  · split at hf
    · next x body _ hd =>
      cases hf
      dsimp only at hb
      subst hb
      cases k <;> simp [decodeBody] at hd
      · exact balanceOf_range hd.1
      all_goals split at hd <;> simp at hd
    · exact nomatch hf
  · exact nomatch hf

/-- A station becomes synced only by a FULL REFRESH it heard in ROLL_CALL or UNSYNCED: every bank refreshing, with no waiter and
no grant (R16, R99, R111). -/
theorem State.Keeps.toSynced {s : State} (now : s.now.member.state ≠ .standby) (members : StationSet) (first : Bool) {ba : Int}
    (hb : -48 ≤ ba ∧ ba ≤ 60) : (s.upd (Device.toSynced members first ba)).Keeps s where
  now := rfl
  pending := rfl
  account _ := by
    rw [State.upd_after]
    unfold Device.toSynced
    rw [Device.resumeDone_eq]
    simp only [Device.accountOk, Account.reset]
    refine ⟨?_, ?_, by decide⟩ <;> split <;> omega
  counts c := by
    rw [State.upd_after]
    unfold Device.toSynced
    rw [Device.resumeDone_eq]
    exact ⟨c.2.1, Nat.zero_le _, c.2.2.2⟩
  memory h := by
    rw [State.upd_after]
    unfold Device.toSynced
    rw [Device.resumeDone_eq]
    exact h
  busy := id
  order _ := by
    refine ⟨(Device.grantsOk_iff _).2 fun b => ?_, fun h => absurd h now⟩
    have bank : ((s.upd (Device.toSynced members first ba)).after.bank b) = BankRec.fullRefreshed := by
      rw [State.upd_after]
      unfold Device.toSynced
      rw [Device.resumeDone_eq]
      simp [Device.bank]
    rw [bank]
    simp [Device.admits, BankRec.fullRefreshed]

/-- Entry into MISMATCH (R111, R161) finds a station that is not synced, with no waiter and no grant. -/
theorem State.Accepts.toMismatch {s : State} (now : s.now.member.state ≠ .synced) : (s.upd Device.toMismatch).Accepts s where
  toKeepsRanges := ⟨rfl, rfl, id, fun c => ⟨Nat.zero_le _, Nat.zero_le _, c.2.2.2⟩, id, id⟩
  order stands o := by
    refine ⟨(Device.grantsOk_iff _).2 fun b => ?_, fun _ h => nomatch h⟩
    have empty := o.1.2 (fun h => now (stands.symm.trans h)) b
    exact ⟨fun w h => (nomatch empty.2.symm.trans h), fun h => (nomatch empty.2.symm.trans h), fun _ => empty⟩

theorem State.Accepts.mismatch {s : State} (now : s.now.member.state ≠ .synced) (x : Station) :
    ((s.mismatchEntry x .fullRefresh).upd Device.toMismatch).Accepts s :=
  (State.Accepts.toMismatch (s := s.mismatchEntry x .fullRefresh) now).after_keeps (.addFault _ s) rfl

section
variable {s : State} {f : Frame} (hf : f.balanceOk) (own : Bool)
include hf

theorem State.Accepts.acceptInRollCall (now : s.now.member.state = .rollCall) : (s.acceptInRollCall own f).Accepts s := by
  have owned := State.Keeps.ownAccepted own s
  unfold State.acceptInRollCall
  split
  · unfold State.rollCallHeard
    dsimp only
    split
    · exact ((State.Keeps.upd (.setMember rfl rfl rfl)).trans owned).accepts
    · exact ((State.Keeps.upd (.setMember rfl rfl rfl)).trans owned).accepts
  · next ba members first digest hb =>
    have synced := State.Keeps.toSynced (s := s.ownAccepted own) (by rw [owned.now, now]; decide) members first
      (hf _ _ _ _ hb)
    unfold State.fullRefreshInRollCall
    split
    · split
      · dsimp only
        split
        · exact (synced.trans owned).accepts
        · exact ((State.Keeps.addFault _ _).trans (synced.trans owned)).accepts
      · split
        · exact (State.Keeps.enterUnsynced _ _ s).accepts
        · exact (State.Keeps.enterUnsynced _ _ s).accepts
    · exact .mismatch (by rw [now]; decide) _
  all_goals exact (State.Keeps.enterUnsynced _ _ s).accepts

theorem State.Accepts.acceptUnsynced (now : s.now.member.state = .unsynced) : (s.acceptUnsynced own f).Accepts s := by
  have heard : (s.upd (Device.heardUnsynced f.sender)).Keeps s := by
    refine .upd ?_
    unfold Device.heardUnsynced
    split
    · exact .setMember rfl rfl rfl
    · exact .refl _
  have stands : (s.upd (Device.heardUnsynced f.sender)).after.member.state = s.after.member.state := by
    rw [State.upd_after]
    unfold Device.heardUnsynced
    split <;> rfl
  unfold State.acceptUnsynced
  dsimp only
  refine State.Accepts.after_keeps ?_ heard stands
  generalize hu : s.upd (Device.heardUnsynced f.sender) = u
  have now : u.now.member.state = .unsynced := by rw [← hu]; exact now
  split
  · next ba members first digest hb =>
    have synced := State.Keeps.toSynced (s := u) (by rw [now]; decide) members first (hf _ _ _ _ hb)
    unfold State.fullRefreshUnsynced
    split
    · split
      · exact ((State.Keeps.addFault _ _).trans synced).accepts
      · exact (State.Keeps.upd (.setMember rfl rfl rfl)).accepts
    · exact .mismatch (by rw [now]; decide) _
  · split
    · exact (State.Keeps.upd (.setMember rfl rfl rfl)).accepts
    · exact (State.Keeps.refl u).accepts
  all_goals exact (State.Keeps.refl u).accepts

theorem State.Accepts.accepted (laneData : Burst) : (s.accepted own f laneData).Accepts s := by
  have array := State.Keeps.arrayTook own f laneData s
  have compared := (State.Keeps.compareProfile f.sender f.body (s.arrayTook own f laneData)).trans array
  have spec := State.compareProfile_spec f.sender f.body (s.arrayTook own f laneData)
  have stands := congrArg Membership.state spec.2.1
  unfold State.accepted
  dsimp only
  split
  · exact array.accepts
  · exact array.accepts
  · next now => exact (State.Accepts.acceptInRollCall hf own (spec.1 ▸ now)).after_keeps compared stands
  · next now => exact (State.Accepts.acceptUnsynced hf own (spec.1 ▸ now)).after_keeps compared stands
  · next now => exact (State.Accepts.acceptSynced (spec.1 ▸ now) own f).after_keeps compared stands

end

/-- A frame heard, vetoed or accepted. -/
theorem State.Accepts.heard (k : Option FrameKind) (h : Heard) (laneData : Burst) (s : State) :
    (State.heard k h laneData s).Accepts s.hearing := by
  unfold State.heard
  dsimp only
  split
  · exact (State.Keeps.refl _).accepts
  · split
    · exact (State.Keeps.vetoed _ _ _ _ _).accepts
    · split
      · next f hf =>
        obtain ⟨kind, rfl, hd⟩ := Option.bind_eq_some_iff.1 hf
        exact .accepted (Frame.balanceOk_of_decode hd) _ _
      · exact (State.Keeps.refl _).accepts

end Sys2Proof.Machine
end

