-- ==== Sys2Proof/Proofs/StepInvariants.lean ====
section
/-! What a command of the table comes to (`exec_follows`), and from it the statements that every command completes (O2), that every
step keeps the ranges (O57), the contents' form (O58) and the grants (O59), and what reset holds (O60). -/

namespace Sys2Proof.Machine

/-! ### The commands -/

/-- What a command makes of a state: an event of the slot in progress, a frame heard, an event of a slot's start, a START with its
straps, or a change of the reset inputs. -/
inductive State.Follows (s : State) : State → Prop where
  | event {t : State} : t.Event s → s.Follows t
  | frame (k : Option FrameKind) (h : Heard) (laneData : Burst) : s.Follows (State.heard k h laneData s.laneSlot)
  | arbitration (others : List (BitVec 12)) : s.Follows (State.arbitrate others s.startingSlot)
  | presence : s.Follows s.startingSlot.reachPresence
  | reservations : s.Follows s.startingSlot.reserveCompletions
  | start (number peers : BitVec 3) {t : State} : t.Event (s.updPins (Pins.strapped number peers)) → s.Follows t
  | laneReset : s.Follows s.resetLane
  | stationReset : s.Follows s.resetStation
  | release (pin : ResetPin) : s.Follows (s.releaseReset pin)

/-- The part has no stop (chapter 9): every command answers a next state. -/
theorem exec_follows (c : Instr) (s : State) : ∃ t, exec c s = .next t ∧ s.Follows t := by
  cases c with
  | openFrame h => exact ⟨_, rfl, .frame _ h _⟩
  | readFrame h => exact ⟨_, rfl, .frame _ h _⟩
  | writeFrame h data => exact ⟨_, rfl, .frame _ h data⟩
  | closeFrame h => exact ⟨_, rfl, .frame _ h _⟩
  | bankRefreshFrame h => exact ⟨_, rfl, .frame _ h _⟩
  | fullRefreshFrame h => exact ⟨_, rfl, .frame _ h _⟩
  | markFrame h => exact ⟨_, rfl, .frame _ h _⟩
  | retainFrame h => exact ⟨_, rfl, .frame _ h _⟩
  | wakeFrame h => exact ⟨_, rfl, .frame _ h _⟩
  | syncRequestFrame h => exact ⟨_, rfl, .frame _ h _⟩
  | rollCallFrame h => exact ⟨_, rfl, .frame _ h _⟩
  | noticeFrame h => exact ⟨_, rfl, .frame _ h _⟩
  | withdrawFrame h => exact ⟨_, rfl, .frame _ h _⟩
  | voteFrame h => exact ⟨_, rfl, .frame _ h _⟩
  | presenceFrame h => exact ⟨_, rfl, .frame _ h _⟩
  | kindCode15Frame h => exact ⟨_, rfl, .frame _ h _⟩
  | slotArbitration others => exact ⟨_, rfl, .arbitration others⟩
  | settleGuardExpiry b => exact ⟨_, rfl, .event (State.event_takeSettle b s)⟩
  | closeGuardExpiry b => exact ⟨_, rfl, .event (State.event_takeCloseGuard b s)⟩
  | rechargeExpiry b => exact ⟨_, rfl, .event (State.event_takeRecharge b s)⟩
  | refreshBusyExpiry b => exact ⟨_, rfl, .event (State.event_takeRefreshBusy b s)⟩
  | yieldBeforeExpiry b => exact ⟨_, rfl, .event (State.event_takeYieldBefore b s)⟩
  | yieldGraceExpiry b => exact ⟨_, rfl, .event (State.event_takeYieldGrace b s)⟩
  | grantWindowExpiry b => exact ⟨_, rfl, .event (State.event_takeGrantWindow b s)⟩
  | intervalCountdownExpiry => exact ⟨_, rfl, .event (State.event_takeInterval s)⟩
  | wakingGuardExpiry => exact ⟨_, rfl, .event (State.event_takeWakingGuard s)⟩
  | rollCallWindowExpiry => exact ⟨_, rfl, .event (State.event_takeRollCallWindow s)⟩
  | memberDrop m => exact ⟨_, rfl, .event (State.event_takeDrop m s)⟩
  | presenceAgeReached => exact ⟨_, rfl, .presence⟩
  | idleCloseTimerExpiry b => exact ⟨_, rfl, .event (State.event_takeIdle b s)⟩
  | dataLaneReservationFree => exact ⟨_, rfl, .event (State.event_takeReservationFree s)⟩
  | lastDataSlotClose => exact ⟨_, rfl, .event (State.event_takeDataSlots s)⟩
  | completionReservation => exact ⟨_, rfl, .reservations⟩
  | readRequest w0 w1 => exact ⟨_, rfl, .event (State.event_placeRequest _ s)⟩
  | writeRequest w0 w1 data => exact ⟨_, rfl, .event (State.event_placeRequest _ s)⟩
  | retainRequest w0 w1 => exact ⟨_, rfl, .event (State.event_placeRequest _ s)⟩
  | resumeRequest w0 w1 => exact ⟨_, rfl, .event (State.event_placeRequest _ s)⟩
  | cancel w0 w1 => exact ⟨_, rfl, .event (State.event_placeRequest _ s)⟩
  | completionRead => exact ⟨_, rfl, .event (State.event_readCompletion s)⟩
  | detachedCompletionPosted => exact ⟨_, rfl, .event (State.event_takeDetached s)⟩
  | start number peers => exact ⟨_, rfl, .start number peers (State.event_control (.startWith number peers) _)⟩
  | profileLoad => exact ⟨_, rfl, .event (State.event_control .loadProfile s)⟩
  | statusRead => exact ⟨_, rfl, .event (State.event_control .readStatus s)⟩
  | faultListRead => exact ⟨_, rfl, .event (State.event_control .readFault s)⟩
  | controlWordWrite address value => exact ⟨_, rfl, .event (State.event_writeControl address value s)⟩
  | laneReset => exact ⟨_, rfl, .laneReset⟩
  | stationReset => exact ⟨_, rfl, .stationReset⟩
  | ownAgeLimitUnsynced => exact ⟨_, rfl, .event (State.event_takeOwnAgeLimit s)⟩
  | resetInputRelease pin => exact ⟨_, rfl, .release pin⟩

/-! ### The slot of a command -/

/-- The slot a lane command falls in: the one in progress or the one that follows its close. -/
theorem State.laneSlot_cases (s : State) : s.begun ∧ s.laneSlot = s ∨ s.laneSlot = s.closeSlot := by
  unfold State.laneSlot State.begun
  cases s.slot.frameHeard <;> cases s.slot.closing <;> simp

theorem State.startingSlot_cases (s : State) : s.begun ∧ s.startingSlot = s ∨ s.startingSlot = s.closeSlot := by
  unfold State.startingSlot State.begun
  cases s.slot.arbitrated <;> cases s.slot.frameHeard <;> cases s.slot.closing <;> simp

theorem State.laneSlot_pending (s : State) : s.laneSlot.pending = s.pending := by
  rcases s.laneSlot_cases with ⟨_, h⟩ | h
  · rw [h]
  · rw [h, State.closeSlot_pending]

theorem State.startingSlot_pending (s : State) : s.startingSlot.pending = s.pending := by
  rcases s.startingSlot_cases with ⟨_, h⟩ | h
  · rw [h]
  · rw [h, State.closeSlot_pending]

/-- No command touches the queue of commands. -/
theorem State.Follows.pending {s t : State} (h : s.Follows t) : t.pending = s.pending := by
  cases h with
  | event h => exact h.keeps.pending
  | frame k h data => exact (State.Accepts.heard k h data _).pending.trans s.laneSlot_pending
  | arbitration others => exact s.startingSlot_pending
  | presence => exact s.startingSlot_pending
  | reservations => exact s.startingSlot_pending
  | start number peers h => exact h.keeps.pending
  | laneReset => rfl
  | stationReset => rfl
  | release pin => rfl

/-! ### Invariants of one picture -/

/-- A step is a command's state or the close of the slot, on the state with the queue's rest. -/
theorem step_cases {s t : State} (h : step s = .next t) :
    s.pending = [] ∧ t = s.closeSlot ∨ ∃ rest, ({ s with pending := rest } : State).Follows t := by
  unfold step at h
  split at h
  · next hp => exact .inl ⟨hp, (Host.Outcome.next.inj h).symm⟩
  · next c rest _ =>
    obtain ⟨u, hu, f⟩ := exec_follows c { s with pending := rest }
    rw [hu] at h
    exact .inr ⟨rest, Host.Outcome.next.inj h ▸ f⟩

section
variable {P : Device → Prop} (change : ∀ {d e : Device}, e.Keeps d → P d → P e)
  (within : ∀ {t s : State}, t.KeepsRanges s → s.both P → P t.after)
include change within

theorem State.both_closeSlot {s : State} (h : s.both P) : s.closeSlot.both P :=
  State.closeSlot_both change (within (State.Keeps.closed s).toKeepsRanges h)

omit change in
theorem State.both_event {s t : State} (e : t.Event s) (h : s.both P) : t.both P :=
  ⟨e.keeps.now ▸ h.1, within e.keeps.toKeepsRanges h⟩

/-- An invariant of one picture that changes within a slot keep and the two resets leave holds after every step. -/
theorem State.both_step (laneReset : ∀ {s : State}, s.both P → P s.resetLane.now)
    (stationReset : ∀ {s : State}, s.both P → s.resetStation.both P) {s t : State} (h : s.both P)
    (st : step s = .next t) : t.both P := by
  have lane {s : State} (h : s.both P) : s.laneSlot.both P := by
    rcases s.laneSlot_cases with ⟨_, e⟩ | e <;> rw [e]
    · exact h
    · exact State.both_closeSlot change within h
  have starting {s : State} (h : s.both P) : s.startingSlot.both P := by
    rcases s.startingSlot_cases with ⟨_, e⟩ | e <;> rw [e]
    · exact h
    · exact State.both_closeSlot change within h
  rcases step_cases st with ⟨_, rfl⟩ | ⟨rest, f⟩
  · exact State.both_closeSlot change within h
  · replace h : ({ s with pending := rest } : State).both P := h
    generalize ({ s with pending := rest } : State) = u at f h
    cases f with
    | event e => exact State.both_event within e h
    | frame k hd data =>
      have a := State.Accepts.heard k hd data u.laneSlot
      exact ⟨a.now ▸ (lane h).1, within a.toKeepsRanges (lane h)⟩
    | arbitration others => exact starting h
    | presence => exact ⟨change (.setMember rfl rfl rfl) (starting h).1, change (.setMember rfl rfl rfl) (starting h).2⟩
    | reservations =>
      exact ⟨change (.takeReservations _) (starting h).1,
        change (d := u.startingSlot.after) (.of_same rfl rfl rfl rfl rfl rfl) (starting h).2⟩
    | start number peers e =>
      refine State.both_event within e ⟨?_, ?_⟩
      · exact change (d := u.now) (.of_same rfl rfl rfl rfl rfl rfl) h.1
      · exact change (d := u.after) (.of_same rfl rfl rfl rfl rfl rfl) h.2
    | laneReset => exact ⟨laneReset h, laneReset h⟩
    | stationReset => exact stationReset h
    | release pin => exact ⟨h.1, change (d := u.after) (.of_same rfl rfl rfl rfl rfl rfl) h.2⟩

end

/-! ### The reset pictures -/

theorem Device.accountOk_stationReset (a : ArrayDie) (p : Pins) : (Device.stationReset a p).accountOk :=
  ⟨by simp [Device.stationReset, Account.reset], by simp [Device.stationReset, Account.reset],
    by simp [Device.stationReset, Account.reset]⟩

theorem Device.countsOk_stationReset (a : ArrayDie) (p : Pins) : (Device.stationReset a p).countsOk :=
  ⟨Nat.zero_le _, Nat.zero_le _, Nat.zero_le _⟩

theorem Device.grantsOk_stationReset (a : ArrayDie) (p : Pins) : (Device.stationReset a p).grantsOk := by
  refine (Device.grantsOk_iff _).2 fun b => ?_
  rw [Device.bank_of_reset (d := Device.stationReset a p) rfl]
  simp [Device.admits, BankRec.reset]

/-! ### The grants -/

theorem State.grantsOk_iff (s : State) : s.grantsOk ↔ s.now.grantsOk ∧ s.inOrder ∧ s.freshSlot := by
  unfold State.grantsOk State.inOrder State.both
  tauto

/-- In a slot that has just begun the station state is that at its start. -/
theorem State.stateStands_of_counted {s : State} (h : s.counted) : s.stateStands := by
  unfold State.stateStands
  rw [h.1]
  rfl

/-- The next slot's grants are in order, and nothing has happened in it. -/
theorem State.grantsOk_closeSlot {s : State} (o : s.inOrder) : s.closeSlot.grantsOk := by
  have both := State.closeSlot_both (P := Device.grantsOk) (fun k => k.grants) ((State.Keeps.closed s).order o).1
  have fresh := s.closeSlot_counted.2
  refine (State.grantsOk_iff _).2 ⟨both.1, ⟨both.2, fun h g => ?_⟩, fun _ => fresh⟩
  rw [State.stateStands_of_counted fresh, h] at g
  exact nomatch g

theorem State.freshSlot_of_busy {s : State} (h : ¬ s.begun) : s.freshSlot := fun b => absurd b h

theorem State.grantsOk_event {s t : State} (e : t.Event s) (h : s.grantsOk) : t.grantsOk := by
  rcases e with rfl | k
  · exact h
  · obtain ⟨now, order, _⟩ := (State.grantsOk_iff s).1 h
    exact (State.grantsOk_iff t).2 ⟨k.now ▸ now, k.order order, State.freshSlot_of_busy (k.busy s.begun_close)⟩

theorem State.grantsOk_laneSlot {s : State} (h : s.grantsOk) : s.laneSlot.grantsOk ∧ s.laneSlot.begun := by
  rcases s.laneSlot_cases with ⟨b, e⟩ | e <;> rw [e]
  · exact ⟨h, b⟩
  · exact ⟨State.grantsOk_closeSlot ((State.grantsOk_iff s).1 h).2.1, s.closeSlot_counted.1⟩

theorem State.grantsOk_startingSlot {s : State} (h : s.grantsOk) : s.startingSlot.grantsOk := by
  rcases s.startingSlot_cases with ⟨_, e⟩ | e <;> rw [e]
  · exact h
  · exact State.grantsOk_closeSlot ((State.grantsOk_iff s).1 h).2.1

/-- Both pictures changed alike, the slot as it was: counted before, counted after. -/
theorem State.grantsOk_both_changed {s t : State} (h : s.grantsOk) (now : t.now.Keeps s.now) (after : t.after.Keeps s.after)
    (standby : t.now.member.state = s.now.member.state) (begun : t.begun → s.begun)
    (counted : s.counted → t.counted) : t.grantsOk := by
  obtain ⟨g, order, fresh⟩ := (State.grantsOk_iff s).1 h
  exact (State.grantsOk_iff t).2 ⟨now.grants g, ⟨after.grants order.1, fun hs ht => order.2 (standby ▸ hs) (after.synced ht)⟩,
    fun b => counted (fresh (begun b))⟩

/-- A station reset leaves the bursts in flight counted as they were (R20). -/
theorem undriveOwn_map_left (n : Nat) (l : List ArrayBurst) :
    undriveOwn n (l.map (fun i => { i with left := i.left - 1 }))
      = ((undriveOwn n l).1, (undriveOwn n l).2.map (fun i => { i with left := i.left - 1 })) := by
  induction l generalizing n with
  | nil => rfl
  | cons i t ih =>
    simp only [List.map_cons, undriveOwn]
    split <;> simp [ih]

theorem State.counted_resetStation {s : State} (h : s.counted) : s.resetStation.counted := by
  refine ⟨?_, rfl, rfl, rfl, rfl⟩
  show Device.stationReset { s.after.array with inFlight := (undriveOwn s.free s.after.array.inFlight).2 } _ = _
  rw [h.1]
  show Device.stationReset { s.now.array with
    banks := _, waking := _, inFlight := (undriveOwn s.free (s.now.array.inFlight.map _)).2 } _ = _
  rw [undriveOwn_map_left]
  rfl

theorem State.grantsOk_resetLane (s : State) : s.resetLane.grantsOk := by
  refine (State.grantsOk_iff _).2 ⟨Device.grantsOk_stationReset _ _,
    ⟨Device.grantsOk_stationReset _ _, fun _ h => nomatch h⟩, fun _ => ⟨?_, rfl, rfl, rfl, rfl⟩⟩
  rfl

theorem State.grantsOk_resetStation {s : State} (h : s.grantsOk) : s.resetStation.grantsOk :=
  (State.grantsOk_iff _).2 ⟨Device.grantsOk_stationReset _ _,
    ⟨Device.grantsOk_stationReset _ _, fun _ h => nomatch h⟩,
    fun b => State.counted_resetStation (((State.grantsOk_iff s).1 h).2.2 b)⟩

/-- The presence offer and the reservations are taken in both pictures alike. -/
theorem State.counted_reserveCompletions {s : State} (h : s.counted) : s.reserveCompletions.counted := by
  obtain ⟨after, slot⟩ := h
  refine ⟨?_, slot⟩
  show s.after.setQueue s.now.takeReservations.port.queue
    = { s.now.takeReservations.countSlot with pins := s.after.pins }
  rw [after, Device.takeReservations_eq]
  rfl

theorem State.counted_reachPresence {s : State} (h : s.counted) : s.reachPresence.counted := by
  obtain ⟨after, slot⟩ := h
  refine ⟨?_, slot⟩
  unfold State.reachPresence
  dsimp only
  rw [after]
  rfl

theorem State.counted_updPins {s : State} (f : Pins → Pins) (h : s.counted) : (s.updPins f).counted := by
  obtain ⟨after, slot⟩ := h
  refine ⟨?_, slot⟩
  unfold State.updPins
  dsimp only
  rw [after]
  rfl

theorem State.counted_releaseReset {s : State} (pin : ResetPin) (h : s.counted) : (s.releaseReset pin).counted := by
  obtain ⟨after, slot⟩ := h
  refine ⟨?_, slot⟩
  unfold State.releaseReset
  rw [State.upd_after, State.upd_now, after]

/-- Every command keeps the grants in order. -/
theorem State.Follows.grantsOk {s t : State} (f : s.Follows t) (h : s.grantsOk) : t.grantsOk := by
  cases f with
  | event e => exact State.grantsOk_event e h
  | frame k hd data =>
    obtain ⟨lane, begun⟩ := State.grantsOk_laneSlot h
    obtain ⟨now, order, fresh⟩ := (State.grantsOk_iff _).1 lane
    have a := State.Accepts.heard k hd data s.laneSlot
    have busy : ¬ s.laneSlot.hearing.begun := fun b => nomatch b.1
    exact (State.grantsOk_iff _).2 ⟨a.now ▸ now, a.order (State.stateStands_of_counted (fresh begun)) order,
      State.freshSlot_of_busy (a.busy busy)⟩
  | arbitration others =>
    exact State.grantsOk_both_changed (State.grantsOk_startingSlot h) (.refl _) (.refl _) rfl id id
  | presence =>
    exact State.grantsOk_both_changed (State.grantsOk_startingSlot h) (.setMember rfl rfl rfl) (.setMember rfl rfl rfl) rfl id
      State.counted_reachPresence
  | reservations =>
    refine State.grantsOk_both_changed (State.grantsOk_startingSlot h) (.takeReservations _)
      (.of_same rfl rfl rfl rfl rfl rfl) ?_ id State.counted_reserveCompletions
    show s.startingSlot.now.takeReservations.member.state = _
    rw [Device.takeReservations_eq]
    rfl
  | start number peers e =>
    exact State.grantsOk_event e (State.grantsOk_both_changed (s := s) h (.of_same rfl rfl rfl rfl rfl rfl)
      (.of_same rfl rfl rfl rfl rfl rfl) rfl id (State.counted_updPins _))
  | laneReset => exact State.grantsOk_resetLane s
  | stationReset => exact State.grantsOk_resetStation h
  | release pin =>
    exact State.grantsOk_both_changed h (.refl _) (.of_same rfl rfl rfl rfl rfl rfl) rfl id
      (State.counted_releaseReset pin)

/-- The picture after a reset holds the reset values, whatever the array and the pins beside it (R2, R112, R130, R168, R182). -/
theorem Device.holdsResetValues_stationReset (a : ArrayDie) (p : Pins) : (Device.stationReset a p).holdsResetValues := by
  have profile : profileOf Control.reset.profile0 Control.reset.profile1 = ⟨160, 64, 12, 8, false⟩ := by decide
  have bank (b : Bank) : (Device.stationReset a p).bank b = ⟨.closed, [], none, none⟩ :=
    Device.bank_of_reset (d := Device.stationReset a p) rfl b
  have idle (b : Bank) : (Device.stationReset a p).sched.idle[b] = none := by simp [Device.stationReset, Scheduler.reset]
  exact ⟨rfl, bank, rfl, rfl, rfl, rfl, rfl, rfl, rfl, idle, rfl, rfl, rfl, rfl, rfl, profile, rfl, rfl, rfl, rfl, rfl, rfl, rfl⟩

/-- The array's banks after a lane reset are CLOSED (R24). -/
theorem ArrayDie.reset_banks (m : Memory) (b : Bank) : (ArrayDie.reset m).banks[b] = .closed := by
  simp [ArrayDie.reset]

theorem State.reset_counted : State.reset.counted := ⟨rfl, rfl, rfl, rfl, rfl⟩

theorem State.reset_both {P : Device → Prop} (h : ∀ a p, P (Device.stationReset a p)) : State.reset.both P :=
  ⟨h _ _, h _ _⟩

end Sys2Proof.Machine

section
open Sys2Proof Sys2Proof.Machine

/-- Settles O1: `step` takes the queue's front. -/
theorem stepRunsTheCommandAtTheFront : Obligations.StepRunsTheCommandAtTheFront := by
  intro c s rest h
  unfold step
  rw [h]

/-- Settles O2, by what each command of the table comes to. -/
theorem everyCommandCompletesAndKeepsTheQueue : Obligations.EveryCommandCompletesAndKeepsTheQueue := by
  intro c s
  obtain ⟨t, ht, f⟩ := exec_follows c s
  exact ⟨t, ht, f.pending⟩

/-- Settles O57: the ranges hold of one picture, and every event of a slot keeps them. -/
theorem everyStepKeepsBalanceRotationCountsAndFaultList :
    Obligations.EveryStepKeepsBalanceRotationCountsAndFaultList := by
  intro s t account counts st
  have h := State.both_step (P := fun d => d.accountOk ∧ d.countsOk) (fun k h => ⟨k.account h.1, k.counts h.2⟩)
    (fun k h => ⟨k.account h.2.1, k.counts ⟨h.1.2, h.2.2⟩⟩)
    (fun _ => ⟨Device.accountOk_stationReset _ _, Device.countsOk_stationReset _ _⟩)
    (fun _ => ⟨⟨Device.accountOk_stationReset _ _, Device.countsOk_stationReset _ _⟩,
      ⟨Device.accountOk_stationReset _ _, Device.countsOk_stationReset _ _⟩⟩)
    ⟨⟨account.1, counts.1⟩, ⟨account.2, counts.2⟩⟩ st
  exact ⟨⟨h.1.1, h.2.1⟩, ⟨h.1.2, h.2.2⟩⟩

/-- Settles O58: bytes are written in canonical form, by a slot's close and by a reset that cuts bursts short. -/
theorem everyStepKeepsTheArraysContentsCanonical : Obligations.EveryStepKeepsTheArraysContentsCanonical := by
  intro s t h st
  exact State.both_step (P := Device.memoryOk) (fun k => k.memory) (fun k h => k.memory h.2)
    (fun h => wf_cutWrites _ _ h.1) (fun h => h) h st

/-- Settles O59: events and acceptances keep the grants in order, the close starts a counted slot, and the resets find no grant. -/
theorem everyStepKeepsGrantsInLineWithTheFreeze : Obligations.EveryStepKeepsGrantsInLineWithTheFreeze := by
  intro s t h st
  rcases step_cases st with ⟨_, rfl⟩ | ⟨rest, f⟩
  · exact State.grantsOk_closeSlot ((State.grantsOk_iff s).1 h).2.1
  · exact f.grantsOk (s := { s with pending := rest }) h

/-- Settles O60: the state after reset is two reset pictures and a fresh slot. -/
theorem resetHoldsEveryInvariant : Obligations.ResetHoldsEveryInvariant := by
  have fresh : State.reset.freshSlot := fun _ => State.reset_counted
  refine ⟨⟨Device.holdsResetValues_stationReset _ _, rfl, rfl⟩, ⟨rfl, rfl, rfl, ArrayDie.reset_banks _⟩, ?_⟩
  exact ⟨State.reset_both Device.accountOk_stationReset, State.reset_both Device.countsOk_stationReset, ⟨rfl, rfl⟩,
    ⟨State.reset_both Device.grantsOk_stationReset, fun _ h => (nomatch h), fresh⟩, fresh⟩

end
end

