-- ==== Sys2Proof/Proofs/FrameVerdicts.lean ====
section
/-! The verdicts on READ, WRITE, CLOSE, FULL REFRESH, RETAIN, WAKE and VOTE (chapters 1 to 6): what each block asks of the frame, and the
statements of R8, R11, R15, R115, R117 and R120. -/

namespace Sys2Proof.Machine

variable (d : Device) (x : Station) (b : Bank)

/-! ### READ and WRITE (R8, R33) -/

/-- What the bank mirror asks of a burst: its sender the holder of an OPEN bank, the settle guard 0, the lane free for it. -/
theorem burstLegal_iff (isWrite : Bool) : burstLegal d x b isWrite = true ↔
    (∃ row age guard, (d.bank b).st = .opened row x age 0 guard) ∧ reservationAdmits d.mirror.reservation isWrite = true := by
  unfold burstLegal
  cases (d.bank b).st <;> simp [and_assoc]

/-- The body of a READ or WRITE. -/
def burstBody (b : Bank) (column : Column) (closeAfter isWrite : Bool) : Body :=
  if isWrite then .write b column closeAfter else .read b column closeAfter

/-- The bank mirror, the waiter lists and the membership unit judge a burst; the column and the close-after flag do not enter. -/
theorem ruleLegal_burst_iff (column : Column) (closeAfter isWrite : Bool) :
    ruleLegal d x (burstBody b column closeAfter isWrite) = true ↔
      (∃ row age guard, (d.bank b).st = .opened row x age 0 guard) ∧ reservationAdmits d.mirror.reservation isWrite = true
        ∧ (d.bank b).yield ≠ some .barred ∧ d.member.members.has x = true := by
  rw [ruleLegal_iff]
  cases isWrite <;>
    simp [burstBody, bankMirrorLegal, waiterListsLegal, accountLegal, membershipLegal, anySender, retentionLegal,
      burstLegal_iff, and_assoc]

theorem stampOk_burst (column : Column) (closeAfter isWrite : Bool) :
    accountStampOk d (burstBody b column closeAfter isWrite) = true
      ∧ membershipStampOk d (burstBody b column closeAfter isWrite) = true := by
  cases isWrite <;> exact ⟨rfl, rfl⟩

/-! ### CLOSE (R11, R42) -/

theorem Device.urgent_iff : d.urgent = true ↔ 48 ≤ d.account.balance := by
  rw [Device.urgent, decide_eq_true_iff, Config.urgentLevel]

/-- The four cases of a forced CLOSE on an OPEN bank (R42). -/
theorem forcedCase_opened_iff {row : Row} {holder : Station} {age settle guard : Nat}
    (h : (d.bank b).st = .opened row holder age settle guard) : forcedCase d b x = true ↔
      d.member.members.has holder = false ∨ d.member.syncPending.has holder = true
        ∨ ((d.bank b).waiters.head? = some x ∧ (d.bank b).yield = some .barred)
        ∨ (48 ≤ d.account.balance ∧ d.member.profile.holdLimit ≤ age) := by
  simp [forcedCase, forcedCaseA, forcedCaseB, forcedCaseC, forcedCaseD, h, BankState.holder?, BankState.holdAge?,
    Device.urgent_iff, or_assoc]

theorem ruleLegal_close_iff (forced : Bool) : ruleLegal d x (.close b forced) = true ↔
    d.member.members.has x = true ∧ ∃ row holder age settle, (d.bank b).st = .opened row holder age settle 0
      ∧ ((forced = false ∧ holder = x)
        ∨ (forced = true ∧ holder ≠ x
            ∧ (d.member.members.has holder = false ∨ d.member.syncPending.has holder = true
              ∨ ((d.bank b).waiters.head? = some x ∧ (d.bank b).yield = some .barred)
              ∨ (48 ≤ d.account.balance ∧ d.member.profile.holdLimit ≤ age)))) := by
  have member : membershipLegal d x (.close b forced) = true ↔ d.member.members.has x = true := by
    simp [membershipLegal, anySender]
  rw [ruleLegal_iff, member]
  simp only [bankMirrorLegal, waiterListsLegal, accountLegal, retentionLegal, closeLegal]
  cases hst : (d.bank b).st with
  | opened row holder age settle guard =>
    have forcing := forcedCase_opened_iff d x b hst
    cases forced with
    | false => simp; aesop
    | true => simp [forcing]; aesop
  | closed => simp
  | closePending _ _ _ _ => simp
  | recharging _ => simp
  | refreshing _ _ => simp

/-! ### FULL REFRESH (R15, R52, R109) -/

section
variable (ba : Int) (members : StationSet) (first : Bool) (digest : BitVec 16)

theorem ruleLegal_fullRefresh_iff : ruleLegal d x (.fullRefresh ba members first digest) = true ↔
    (∀ b, (d.bank b).st = .closed) ∧ (d.mirror.array = .active ∨ d.mirror.array = .uninit) ∧ first = false
      ∧ d.member.digest = some digest ∧ d.member.members.has x = true := by
  rw [ruleLegal_iff]
  simp only [bankMirrorLegal, waiterListsLegal, accountLegal, membershipLegal, anySender, retentionLegal]
  simp [Device.allClosed_iff]
  tauto

/-- The balance after a FULL REFRESH with the first flag clear: an interval's work less, but not below the floor (R51, R52). -/
theorem fullRefreshResult_false (balance : Int) : fullRefreshResult balance false = max (balance - 12) (-48) := by
  rw [fullRefreshResult, if_neg (by decide), Config.balanceFloor, Config.intervalWork]
  rcases le_or_gt (-48) (balance - 12) with h | h
  · rw [if_pos h, max_eq_left h]
  · rw [if_neg h.not_ge, max_eq_right h.le]

/-- The refresh account and the membership unit share the stamp of a FULL REFRESH. -/
theorem stampOk_fullRefresh_iff :
    accountStampOk d (.fullRefresh ba members false digest) = true
        ∧ membershipStampOk d (.fullRefresh ba members false digest) = true ↔
      ba = max (d.account.balance - 12) (-48) ∧ members = (d.member.members ||| d.member.syncPending) := by
  simp [accountStampOk, membershipStampOk, fullRefreshResult_false, Device.union]

end

theorem judge_of_ruleLegal_of_not_stampOk {d : Device} {f : Frame} (h : ruleLegal d f.sender f.body = true)
    (hs : ¬ (accountStampOk d f.body = true ∧ membershipStampOk d f.body = true)) : judge d f = some .stamp := by
  simp [judge, h, hs]

/-! ### RETAIN, WAKE and VOTE (R115, R117, R120) -/

theorem ruleLegal_retain_iff : ruleLegal d x .retain = true ↔
    d.member.members.has x = true ∧ d.retention.votes = d.member.members ∧ (∀ b, (d.bank b).st = .closed)
      ∧ d.mirror.array = .active ∧ (∀ b, (d.bank b).waiters = []) ∧ d.member.syncPending = 0#6
      ∧ d.account.balance < 48 ∧ d.account.wakeRefresh = 0 := by
  rw [ruleLegal_iff]
  simp only [bankMirrorLegal, waiterListsLegal, accountLegal, membershipLegal, anySender, retentionLegal]
  simp [Device.allClosed_iff, Device.noWaiters_iff, Device.urgent_eq_false_iff]
  tauto

theorem ruleLegal_wake_iff : ruleLegal d x .wake = true ↔
    d.member.members.has x = true ∧ d.mirror.array = .retaining ∧ d.retention.ageMark = some 6 := by
  rw [ruleLegal_iff]
  simp [bankMirrorLegal, waiterListsLegal, accountLegal, membershipLegal, anySender, retentionLegal, Config.retentionAge]

/-- A station votes for what it has not voted for yet. -/
theorem ruleLegal_vote_iff (on : Bool) : ruleLegal d x (.vote on) = true ↔
    d.member.members.has x = true ∧ d.retention.votes.has x = !on := by
  rw [ruleLegal_iff]
  cases on <;> simp [bankMirrorLegal, waiterListsLegal, accountLegal, membershipLegal, anySender, retentionLegal]

/-- A frame with no stamp is legal or vetoed for reason rule. -/
theorem judge_of_no_stamp {d : Device} {f : Frame} (account : accountStampOk d f.body = true)
    (member : membershipStampOk d f.body = true) {p : Prop} (h : ruleLegal d f.sender f.body = true ↔ p) :
    (p → judge d f = none) ∧ (¬ p → judge d f = some .rule) :=
  ⟨fun hp => judge_of_ruleLegal_of_stampOk (h.2 hp) account member, fun hp => judge_of_not_ruleLegal (mt h.1 hp)⟩

end Sys2Proof.Machine

section
open Sys2Proof Sys2Proof.Machine

/-- Settles O5: a burst has no stamp, and its rule conditions are `ruleLegal_burst_iff`. -/
theorem burstIsLegalExactlyForTheUnbarredHolder : Obligations.BurstIsLegalExactlyForTheUnbarredHolder := by
  intro d cls tie x b column closeAfter isWrite body legalNow
  have stamp := stampOk_burst d b column closeAfter isWrite
  exact judge_of_no_stamp (f := ⟨cls, tie, x, body⟩) stamp.1 stamp.2 (ruleLegal_burst_iff d x b column closeAfter isWrite)

/-- Settles O6, by the bank's state. -/
theorem closeIsLegalForTheHolderOrInAForcedCase : Obligations.CloseIsLegalForTheHolderOrInAForcedCase := by
  intro d cls tie x b forced legalNow
  exact judge_of_no_stamp (f := ⟨cls, tie, x, .close b forced⟩) rfl rfl (ruleLegal_close_iff d x b forced)

/-- Settles O10: five conditions for reason rule, among them the first flag clear, and two for reason stamp. -/
theorem fullRefreshIsJudgedByBanksDigestBalanceAndUnion :
    Obligations.FullRefreshIsJudgedByBanksDigestBalanceAndUnion := by
  intro d cls tie x ba members first digest legalNow stamped
  have rule : ruleLegal d x (.fullRefresh ba members first digest) = true ↔ legalNow :=
    ruleLegal_fullRefresh_iff d x ba members first digest
  have stamp (h : legalNow) : accountStampOk d (.fullRefresh ba members first digest) = true
      ∧ membershipStampOk d (.fullRefresh ba members first digest) = true ↔ stamped := by
    obtain ⟨_, _, rfl, _⟩ := h
    exact stampOk_fullRefresh_iff d ba members digest
  refine ⟨?legal, ?rule, ?stamp⟩
  case legal =>
    rintro ⟨h, hs⟩
    obtain ⟨account, member⟩ := (stamp h).2 hs
    exact judge_of_ruleLegal_of_stampOk (rule.2 h) account member
  case rule =>
    intro h
    exact judge_of_not_ruleLegal (mt rule.1 h)
  case stamp =>
    rintro ⟨h, hs⟩
    exact judge_of_ruleLegal_of_not_stampOk (rule.2 h) (mt (stamp h).1 hs)

/-- Settles O12: none of the three has a stamp. -/
theorem retentionFramesAreLegalExactlyUnderTheirConditions :
    Obligations.RetentionFramesAreLegalExactlyUnderTheirConditions := by
  intro d cls tie x retain wake vote verdict
  exact ⟨judge_of_no_stamp (f := ⟨cls, tie, x, .retain⟩) rfl rfl (ruleLegal_retain_iff d x),
    judge_of_no_stamp (f := ⟨cls, tie, x, .wake⟩) rfl rfl (ruleLegal_wake_iff d x),
    fun on => judge_of_no_stamp (f := ⟨cls, tie, x, .vote on⟩) rfl rfl (ruleLegal_vote_iff d x on)⟩

end
end

