-- ==== Sys2Proof/Proofs/Regrant.lean ====
section
/-! The regrant in full (R38, R39, R41): where no grant runs against the freeze it thaws the FROZEN grants at most (`regrant_eq_thaw`);
where a freeze begins it freezes the RUNNING ones, those due lapsing first (`regrant_chills`). -/

namespace Sys2Proof.Machine

/-! ### All the records of a picture -/

theorem Device.ext_bank {d e : Device} (banks : ∀ b, d.bank b = e.bank b)
    (rest : d = { e with mirror := { e.mirror with banks := d.mirror.banks } }) : d = e := by
  have h : d.mirror.banks = e.mirror.banks := Vector.ext fun i hi => banks ⟨i, hi⟩
  rw [rest, h]

theorem Device.setBank_bank_self (d : Device) (b : Bank) : d.setBank b (d.bank b) = d := by
  refine Device.ext_bank (fun c => ?_) rfl
  rw [Device.bank_setBank]
  split
  · next h => rw [h]
  · rfl

theorem Device.mapBanks_of_fixed {g : BankRec → BankRec} {d : Device} (h : ∀ b, g (d.bank b) = d.bank b) :
    d.mapBanks g = d :=
  Device.ext_bank (fun b => (Device.bank_mapBanks g d b).trans (h b)) rfl

/-- The records of the banks of a list changed one after another. -/
def Device.changeBanks (g : BankRec → BankRec) (l : List Bank) (d : Device) : Device :=
  l.foldl (fun d b => d.setBank b (g (d.bank b))) d

theorem Device.changeBanks_rest (g : BankRec → BankRec) (l : List Bank) (d : Device) :
    d.changeBanks g l = { d with mirror := { d.mirror with banks := (d.changeBanks g l).mirror.banks } } := by
  unfold Device.changeBanks
  induction l generalizing d with
  | nil => rfl
  | cons b t ih => rw [List.foldl_cons, ih]; rfl

theorem Device.bank_changeBanks (g : BankRec → BankRec) {l : List Bank} (nodup : l.Nodup) (d : Device) (c : Bank) :
    (d.changeBanks g l).bank c = if c ∈ l then g (d.bank c) else d.bank c := by
  unfold Device.changeBanks
  induction l generalizing d with
  | nil => simp
  | cons b t ih =>
    obtain ⟨hb, ht⟩ := List.nodup_cons.1 nodup
    rw [List.foldl_cons, ih ht, Device.bank_setBank]
    by_cases hc : c = b
    · subst hc; simp [hb]
    · simp [hc]

theorem allBanks_nodup : allBanks.Nodup := by decide

theorem Device.changeBanks_all (g : BankRec → BankRec) (d : Device) : d.changeBanks g allBanks = d.mapBanks g := by
  refine Device.ext_bank (fun c => ?_) ?_
  · rw [Device.bank_changeBanks g allBanks_nodup, if_pos (mem_allBanks c), Device.bank_mapBanks]
  · rw [Device.changeBanks_rest]; rfl

/-! ### Thawing (R41) -/

/-- A FROZEN grant runs again with a full window where no freezing condition holds. -/
def BankRec.thaw (freezing : Bool) (window : Nat) (r : BankRec) : BankRec :=
  if r.grant = some .frozen ∧ freezing = false then { r with grant := some (.running window) } else r

theorem State.regrantBank_of_not_freezing {s : State} (h : s.after.freezing = false) (b : Bank) :
    s.regrantBank b
      = s.upd (fun d => d.setBank b ((d.bank b).thaw false s.after.member.profile.grantWindow)) := by
  have same (e : (s.after.bank b).thaw false s.after.member.profile.grantWindow = s.after.bank b) :
      s = s.upd (fun d => d.setBank b ((d.bank b).thaw false s.after.member.profile.grantWindow)) := by
    unfold State.upd
    dsimp only
    rw [e, Device.setBank_bank_self]
  unfold State.regrantBank
  split
  · next w hg => simpa [h] using same (by simp [BankRec.thaw, hg])
  · next hg =>
    rw [if_neg (by simp [h])]
    unfold State.upd BankRec.thaw
    simp [hg]
  · next hg => exact same (by simp [BankRec.thaw, hg])
  · next hg => exact same (by simp [BankRec.thaw, hg])

theorem State.regrant_of_not_freezing {s : State} (h : s.after.freezing = false) :
    s.regrant = s.upd (Device.mapBanks (BankRec.thaw false s.after.member.profile.grantWindow)) := by
  have fold (l : List Bank) (u : State) (hf : u.after.freezing = false)
      (hw : u.after.member.profile.grantWindow = s.after.member.profile.grantWindow) :
      l.foldl State.regrantBank u
        = u.upd (Device.changeBanks (BankRec.thaw false s.after.member.profile.grantWindow) l) := by
    induction l generalizing u with
    | nil => rfl
    | cons b t ih =>
      rw [List.foldl_cons, State.regrantBank_of_not_freezing hf, hw, ih]
      · rfl
      · exact hf
      · exact hw
  unfold State.regrant
  rw [fold allBanks s h rfl]
  unfold State.upd
  rw [Device.changeBanks_all]

/-- Where no grant runs against a freezing condition the regrant thaws, and does nothing else. -/
theorem State.regrant_eq_thaw {s : State}
    (h : ∀ b w, (s.after.bank b).grant = some (.running w) → s.after.freezing = false) :
    s.regrant = s.upd (Device.mapBanks (BankRec.thaw s.after.freezing s.after.member.profile.grantWindow)) := by
  cases hf : s.after.freezing with
  | false => exact State.regrant_of_not_freezing hf
  | true =>
    have settled : s.after.grantsSettled := fun b => ⟨fun w hw => h b w hw, fun _ => hf⟩
    rw [State.regrant_of_settled settled]
    unfold State.upd
    rw [Device.mapBanks_of_fixed fun b => by simp [BankRec.thaw]]

/-! ### A lapse (R38, R39) -/

/-- A record whose head has lapsed: the next station takes the grant, an emptied list loses grant and yield point. -/
def BankRec.lapse (window : Nat) (r : BankRec) : BankRec :=
  { r with
    waiters := r.waiters.drop 1
    yield := if r.waiters.length = 1 then none else r.yield
    grant := if r.waiters.drop 1 = [] then none else passGrant window r.grant }

theorem BankRec.leave_head {r : BankRec} {x : Station} {ws : List Station} (h : r.waiters = x :: ws) (window : Nat) :
    r.leave window x = r.lapse window := by
  unfold BankRec.leave BankRec.lapse
  cases ws <;> simp [h]

/-- Is this station the head of the bank's list? -/
def Device.ownHead (d : Device) (b : Bank) : Bool := d.ownNumber.isSome && (d.bank b).waiters.head? == d.ownNumber

/-- The entry of an own lapse at bank `b` (R38). -/
def State.lapseEntry (s : State) (b : Bank) : FaultEntry := ⟨.grantLapsed, s.entryIndex, none, some b, none, none⟩

/-- An access WAITING again (R134). -/
def Access.waitingAgain (a : Access) : Access := { a with progress := .waiting }

/-- The fault list at the slot's start less the entry read in it: what this close's entries join (R174). -/
def State.faultBase (s : State) : List FaultEntry := if s.slot.faultRead then s.now.faults.drop 1 else s.now.faults

/-- What the own lapses at the banks of a list leave, beside the banks' records: the entries, the requests and the fault list. -/
structure State.Lapsed (t s : State) (l : List Bank) : Prop where
  now : t.now = s.now
  slot : t.slot = { s.slot with entries := l.foldl (fun es c => insertEntry (s.lapseEntry c) es) s.slot.entries }
  queue : t.after.port.queue = l.foldl (mapHead Access.waitingAgain) s.after.port.queue
  faults : t.after.faults = if l = [] then s.after.faults else joinFaults s.faultBase t.slot.entries
  rest : t.after.restAgrees s.after

theorem State.Lapsed.refl (s : State) : s.Lapsed s [] := ⟨rfl, rfl, rfl, rfl, Device.restAgrees_refl _⟩

theorem State.Lapsed.trans {u t s : State} {l k : List Bank} (h : u.Lapsed t k) (g : t.Lapsed s l) : u.Lapsed s (l ++ k) where
  now := h.now.trans g.now
  slot := by
    have entry : t.lapseEntry = s.lapseEntry := by
      funext c
      simp [State.lapseEntry, State.entryIndex, g.now, g.slot]
    rw [h.slot, g.slot, entry, List.foldl_append]
  queue := by rw [h.queue, g.queue, List.foldl_append]
  faults := by
    have base : t.faultBase = s.faultBase := by simp [State.faultBase, g.now, g.slot]
    rw [h.faults, g.faults, base]
    cases k with
    | nil => simp [h.slot]
    | cons c k => simp
  rest := Device.restAgrees_trans h.rest g.rest

/-- A record set and nothing else. -/
theorem State.Lapsed.setBank (b : Bank) (r : Device → BankRec) (s : State) :
    (s.upd (fun d => d.setBank b (r d))).Lapsed s [] :=
  ⟨rfl, rfl, rfl, rfl, (State.regrantsOnly_setBank b (fun d => { r d with st := (d.bank b).st }) s rfl).rest⟩

theorem State.Lapsed.freeze (b : Bank) (s : State) : (s.freeze b).Lapsed s [] :=
  .setBank b (fun d => { d.bank b with grant := (d.bank b).grant.map (fun _ => .frozen) }) s

theorem State.bank_lapsedAt (b c : Bank) (x : Station) (s : State) : (s.lapsedAt b x).after.bank c = s.after.bank c := by
  unfold State.lapsedAt
  split <;> rfl

theorem State.lapsed_lapsedAt (b : Bank) (x : Station) (s : State) :
    (s.lapsedAt b x).Lapsed s (if s.after.isOwn x then [b] else []) := by
  unfold State.lapsedAt
  split
  · exact ⟨rfl, rfl, rfl, rfl, by simp [Device.restAgrees]⟩
  · exact State.Lapsed.refl s

/-- A lapse at a bank: its head leaves, and where the head is this station its request waits again and an entry is made. -/
theorem State.lapse_lapsed (b : Bank) (s : State) :
    (s.lapse b).after.bank b = (s.after.bank b).lapse s.after.member.profile.grantWindow
      ∧ (s.lapse b).Lapsed s (if s.after.ownHead b then [b] else []) := by
  unfold State.lapse
  split
  · next hw =>
    refine ⟨by simp [BankRec.lapse, hw], ?_⟩
    have other : s.after.ownHead b = false := by
      unfold Device.ownHead
      cases hn : s.after.ownNumber <;> simp [hw]
    rw [other]
    exact .setBank b (fun d => { d.bank b with grant := none }) s
  · next x ws hw =>
    have own : s.after.ownHead b = s.after.isOwn x := by
      unfold Device.ownHead Device.isOwn
      rw [hw]
      cases hn : s.after.ownNumber <;> simp [eq_comm]
    refine ⟨?_, ?_⟩
    · rw [State.bank_lapsedAt]
      simp [State.leaveList, BankRec.leave_head hw]
    · rw [own]
      exact (State.lapsed_lapsedAt b x (s.leaveList b x)).trans (.setBank b _ s)

/-! ### A freeze that begins (R38, R39, R41) -/

/-- A record when a freeze begins: a RUNNING grant is FROZEN; where its window is due its head leaves first, and an emptied list
loses grant and yield point. -/
def BankRec.chill (due : Bool) (r : BankRec) : BankRec :=
  match r.grant with
  | some (.running _) =>
    if due then
      { r with
        waiters := r.waiters.drop 1
        yield := if r.waiters.length = 1 then none else r.yield
        grant := if r.waiters.drop 1 = [] then none else some .frozen }
    else { r with grant := some .frozen }
  | some .paused | some .frozen | none => r

/-- Does this station's own grant at bank `b` lapse at this close? -/
def State.lapsesOwn (s : State) (b : Bank) : Bool := s.grantDue b && s.after.ownHead b

theorem State.grantDue_running {s : State} {b : Bank} (h : s.grantDue b = true) :
    (s.after.bank b).grant = some (.running 1) := by
  simp only [State.grantDue, BankRec.window?, Bool.and_eq_true, beq_iff_eq] at h
  obtain ⟨-, h⟩ := h
  split at h <;> simp_all

/-- The regrant of one bank under a freeze. -/
theorem State.regrantBank_chills {s : State} (h : s.after.freezing = true) (b : Bank) :
    (s.regrantBank b).after.bank b = (s.after.bank b).chill (s.grantDue b)
      ∧ (s.regrantBank b).Lapsed s (if s.lapsesOwn b then [b] else []) := by
  have still (hg : ∀ w, (s.after.bank b).grant ≠ some (.running w)) :
      s.after.bank b = (s.after.bank b).chill (s.grantDue b) ∧ s.Lapsed s (if s.lapsesOwn b then [b] else []) := by
    have notDue : s.lapsesOwn b = false := by
      unfold State.lapsesOwn
      cases hd : s.grantDue b with
      | false => rfl
      | true => exact absurd (State.grantDue_running hd) (hg 1)
    rw [notDue]
    refine ⟨?_, .refl s⟩
    unfold BankRec.chill
    split
    · next w hw => exact absurd hw (hg w)
    all_goals rfl
  unfold State.regrantBank
  split
  · next w hg =>
    rw [if_pos h]
    unfold State.lapseIfDue State.lapsesOwn
    cases hd : s.grantDue b with
    | true =>
      obtain ⟨bank, lapsed⟩ := State.lapse_lapsed b s
      refine ⟨?_, ?_⟩
      · simp only [if_true, State.freeze, State.upd_after, Device.bank_setBank_self, bank]
        simp [BankRec.chill, BankRec.lapse, hg, passGrant, apply_ite (Option.map fun _ => Grant.frozen)]
      · simpa using (State.Lapsed.freeze b _).trans lapsed
    | false =>
      refine ⟨by simp [State.freeze, BankRec.chill, hg], ?_⟩
      simpa using State.Lapsed.freeze b s
  · next hg => rw [if_pos h]; exact still (by simp [hg])
  · next hg => exact still (by simp [hg])
  · next hg => exact still (by simp [hg])

/-- Where a freezing condition holds, the regrant chills every record, with the own lapses in the order of the banks. -/
theorem State.regrant_chills {s : State} (h : s.after.freezing = true) :
    (∀ c, s.regrant.after.bank c = (s.after.bank c).chill (s.grantDue c))
      ∧ s.regrant.Lapsed s (allBanks.filter s.lapsesOwn) := by
  have fold (l : List Bank) (nodup : l.Nodup) (s : State) (h : s.after.freezing = true) :
      (∀ c, (l.foldl State.regrantBank s).after.bank c
        = if c ∈ l then (s.after.bank c).chill (s.grantDue c) else s.after.bank c)
        ∧ (l.foldl State.regrantBank s).Lapsed s (l.filter s.lapsesOwn) := by
    induction l generalizing s with
    | nil => exact ⟨fun c => by simp, .refl s⟩
    | cons b t ih =>
      obtain ⟨hb, ht⟩ := List.nodup_cons.1 nodup
      have spec := s.regrantBank_spec b
      obtain ⟨bank, lapsed⟩ := State.regrantBank_chills h b
      obtain ⟨banks, lapses⟩ := ih ht (s.regrantBank b) ((Device.freezing_of_rest spec.rest).trans h)
      have due {c : Bank} (hc : c ≠ b) : (s.regrantBank b).grantDue c = s.grantDue c := by
        simp [State.grantDue, spec.now, spec.others c hc]
      have number : (s.regrantBank b).after.ownNumber = s.after.ownNumber := by
        simp [Device.ownNumber, Device.member_of_rest spec.rest]
      have filters : t.filter (s.regrantBank b).lapsesOwn = t.filter s.lapsesOwn := by
        refine List.filter_congr fun c hc => ?_
        have hcb : c ≠ b := fun e => hb (e ▸ hc)
        simp [State.lapsesOwn, Device.ownHead, due hcb, number, spec.others c hcb]
      refine ⟨fun c => ?_, ?_⟩
      · rw [List.foldl_cons, banks c]
        by_cases hc : c = b
        · subst hc; simp [hb, bank]
        · simp [hc, due hc, spec.others c hc]
      · rw [List.foldl_cons]
        have all := lapses.trans lapsed
        rw [filters] at all
        rw [List.filter_cons]
        split <;> simp_all
  obtain ⟨banks, lapses⟩ := fold allBanks allBanks_nodup s h
  exact ⟨fun c => (banks c).trans (if_pos (mem_allBanks c)), lapses⟩

end Sys2Proof.Machine
end

