-- ==== Sys2Proof/Proofs/AcceptedFrames.lean ====
section
/-! An accepted frame at a synced station, part one: the frames that leave the freezing conditions alone (OPEN, READ, WRITE, CLOSE,
NOTICE, WITHDRAW, VOTE, PRESENCE), for which the regrant does nothing. -/

namespace Sys2Proof.Machine

/-! ### A counted slot, block by block -/

section
variable {s : State} (c : s.counted)
include c

theorem State.counted.lane : s.after.lane = s.now.lane := by rw [c.1]; rfl
theorem State.counted.port : s.after.port = s.now.port := by rw [c.1]; rfl
theorem State.counted.faults : s.after.faults = s.now.faults := by rw [c.1]; rfl
theorem State.counted.array : s.after.array = s.now.countSlot.array := by rw [c.1]
theorem State.counted.mirrorArray : s.after.mirror.array = s.now.mirror.array := by rw [c.1]; rfl
theorem State.counted.member :
    s.after.member = { s.now.member with window := s.now.member.window.map countDown } := by rw [c.1]; rfl
theorem State.counted.account :
    s.after.account = { s.now.account with countdown := s.now.account.countdown.map countDown } := by rw [c.1]; rfl
theorem State.counted.retention :
    s.after.retention = { s.now.retention with wakingGuard := s.now.retention.wakingGuard.map countDown } := by
  rw [c.1]; rfl
theorem State.counted.resume : s.after.retention.resume = s.now.retention.resume := by rw [c.retention]
theorem State.counted.votes : s.after.retention.votes = s.now.retention.votes := by rw [c.retention]
theorem State.counted.ages : s.after.member.ages = s.now.member.ages := by rw [c.member]
theorem State.counted.peers : s.after.peers = s.now.peers := by simp [Device.peers, c.member]
theorem State.counted.profile : s.after.member.profile = s.now.member.profile := by rw [c.member]
theorem State.counted.balance : s.after.account.balance = s.now.account.balance := by rw [c.account]
theorem State.counted.entryIndex : s.entryIndex = s.now.account.index := by simp [State.entryIndex, c.2.2.1]
theorem State.counted.faultBase : s.faultBase = s.now.faults := by simp [State.faultBase, c.2.2.2.1]
theorem State.counted.ownNumber : s.after.ownNumber = s.now.ownNumber := by simp [Device.ownNumber, c.member]
theorem State.counted.freezing : s.after.freezing = s.now.freezing :=
  Device.freezing_congr (by rw [c.account]) (by rw [c.member]) c.mirrorArray

theorem State.counted.arrayBank (b : Bank) : s.after.array.banks[b] = s.now.array.banks[b].count := by
  rw [c.array]
  exact mapVec_getElem ArrayBank.count _ b

end

@[simp] theorem BankRec.count_waiters (r : BankRec) : r.count.waiters = r.waiters := rfl

theorem Device.holdsOpen_countSlot {d e : Device} {b : Bank} (bank : d.bank b = (e.bank b).count)
    (number : d.ownNumber = e.ownNumber) : d.holdsOpen b = e.holdsOpen b := by
  unfold Device.holdsOpen Device.isOwn
  rw [bank, number]
  generalize e.bank b = r
  obtain ⟨st, ws, y, g⟩ := r
  cases st <;> rfl

/-- A synced picture that differs from one with its grants in order in bank `b` alone, as far as grants go. -/
theorem Device.grantsOk_of_record {e d : Device} (g : d.grantsOk) (synced : e.member.state = .synced)
    (freezing : e.freezing = d.freezing) (b : Bank) (others : ∀ c, c ≠ b → e.bank c = d.bank c)
    (running : ∀ w, (e.bank b).grant = some (.running w) → d.freezing = false)
    (frozen : (e.bank b).grant = some .frozen → d.freezing = true) : e.grantsOk := by
  refine ⟨fun c => ?_, fun h => absurd synced h⟩
  rw [freezing]
  by_cases hc : c = b
  · subst hc; exact ⟨running, frozen⟩
  · rw [others c hc]; exact g.1 c

theorem Device.grantsOk_of_grant {e d : Device} (g : d.grantsOk) (synced : e.member.state = .synced)
    (freezing : e.freezing = d.freezing) (b : Bank) (others : ∀ c, c ≠ b → e.bank c = d.bank c)
    (grant : (e.bank b).grant = (d.bank b).grant ∨ (e.bank b).grant = none) : e.grantsOk := by
  obtain ⟨running, frozen⟩ := g.1 b
  refine Device.grantsOk_of_record g synced freezing b others ?_ ?_ <;> rcases grant with grant | grant <;> rw [grant]
  · exact running
  · simp
  · exact frozen
  · simp

theorem Device.grantsOk_of_none {d : Device} (synced : d.member.state = .synced) (h : ∀ c, (d.bank c).grant = none) :
    d.grantsOk :=
  ⟨fun c => by simp [h c], fun hs => absurd synced hs⟩

/-! ### The acceptance with nothing to regrant -/

theorem judge_eq_none_iff {d : Device} {f : Frame} : judge d f = none ↔ ruleLegal d f.sender f.body = true
    ∧ accountStampOk d f.body = true ∧ membershipStampOk d f.body = true := by
  unfold judge
  cases ruleLegal d f.sender f.body <;> cases accountStampOk d f.body <;> cases membershipStampOk d f.body <;> simp

/-- The state in which a frame's body takes effect: heard, and applied by the array. -/
def State.applying (f : Frame) (data : Burst) (s : State) : State := s.hearing.arrayTook s.slot.won f data

/-- The state after the body's effect and what every acceptance does, before the regrant. -/
def State.taken (f : Frame) (data : Burst) (s : State) : State :=
  ((s.applying f data).bodyTaken s.slot.won f.sender f.body).upd (Device.acceptCommon s.slot.won f.sender f.body.kind)

section
variable {h : Heard} {f : Frame} {s : State} (a : Accepted h f s)
include a

theorem Accepted.rule : ruleLegal s.now f.sender f.body = true := (judge_eq_none_iff.1 a.legal).1

theorem Accepted.afterSynced : s.after.member.state = .synced := by rw [a.counted.member]; exact a.synced

/-- The grants are in order while the body takes effect. -/
theorem Accepted.grantsOk (data : Burst) : (s.applying f data).after.grantsOk := by
  refine (Device.Keeps.of_same (e := (s.applying f data).after) (d := s.after) rfl rfl rfl
    (ArrayDie.accept_mem _ _ _ _) rfl rfl).grants ?_
  exact ⟨State.grantsSettled_of_counted a.counted a.settled, fun h => absurd a.afterSynced h⟩

/-- An accepted frame that names no profile. -/
theorem exec_accepted_agreeing (agrees : ∀ d : Device, d.profileAgrees f.sender f.body = true) (data : Burst) :
    exec (frameCommand (some f.body.kind) h data) s = .next (s.taken f (frameData f.body.kind data)).regrant := by
  rw [exec_accepted a, State.compareProfile_of_agrees (agrees _)]
  rfl

theorem State.taken_state (data : Burst) : (s.taken f data).after.member.state = .synced :=
  (State.bodyTaken_state s.slot.won f.sender f.body _).trans a.afterSynced

/-- An accepted frame whose effect leaves the grants in line: there is nothing to regrant. -/
theorem exec_accepted_settled {body : Body} (hb : f.body = body) (agrees : ∀ d : Device, d.profileAgrees f.sender body = true)
    (data : Burst) {d : Device}
    (effect : ((s.applying f (frameData body.kind data)).bodyTaken s.slot.won f.sender body).after = d) (ok : d.grantsOk) :
    ∃ t, exec (frameCommand (some body.kind) h data) s = .next t ∧ t.after = d.acceptCommon s.slot.won f.sender body.kind := by
  subst hb
  refine ⟨_, exec_accepted_agreeing a agrees data, ?_⟩
  rw [State.regrant_of_settled]
  · exact congrArg (Device.acceptCommon _ _ _) effect
  · rw [← effect] at ok
    exact ok.1

end

/-! ### What each body's effect comes to -/

section
variable {h : Heard} {s : State}

theorem Device.updHead_if (own : Bool) (b : Bank) (g : Access → Access) (d : Device) :
    (if own then d.updHead b g else d)
      = { d with port := { d.port with queue := if own then mapHead g d.port.queue b else d.port.queue } } := by
  cases own <;> rfl

theorem Device.openTaken_eq (own : Bool) (x : Station) (b : Bank) (row : Row) (d : Device) : d.openTaken own x b row
    = { ({ d with mirror := { d.mirror with lastOpen := some 0 } } : Device).setBank b
          ⟨.opened row x 0 2 6, (d.bank b).waiters.erase x,
            if (d.bank b).waiters.erase x = [] then none else some (.before d.member.profile.holdLimit), none⟩ with
        port := { d.port with
          queue := if own then mapHead (fun a => { a with progress := .held }) d.port.queue b else d.port.queue } } := by
  unfold Device.openTaken
  simp only [Device.updHead_if, List.isEmpty_iff]
  rfl

theorem mapHead_of_headOf_none (g : Access → Access) {b : Bank} : ∀ {q : List Entry}, headOf q b = none → mapHead g q b = q
  | [], _ => rfl
  | .access a :: q, empty => by
    unfold headOf at empty
    unfold mapHead
    split_ifs at empty with ha
    rw [if_neg ha, mapHead_of_headOf_none g empty]
  | .retain t n :: q, empty => by
    unfold headOf at empty
    unfold mapHead
    rw [mapHead_of_headOf_none g empty]

/-- An own burst is counted for the head request, where there is one, and recorded for it. -/
theorem Device.ownBurstTaken_eq (row : Row) (isWrite : Bool) (b : Bank) (column : Column) (d : Device) :
    d.ownBurstTaken row isWrite b column
      = { d with
          port := { d.port with queue := mapHead Access.burstAccepted d.port.queue b }
          sched := { d.sched with ownBursts := d.sched.ownBursts
            ++ ((headOf d.port.queue b).map (fun a => ⟨a.tag, isWrite, b, row, column, dataSlots isWrite, none⟩)).toList } } := by
  unfold Device.ownBurstTaken
  split
  · next none => rw [mapHead_of_headOf_none _ none, none]; simp
  · next a some => rw [some]; rfl

/-- The picture after an accepted burst of the station's own or of another's. -/
theorem State.bodyTaken_burst (own : Bool) (x : Station) (b : Bank) (column : Column) (closeAfter isWrite : Bool) (u : State) :
    (u.bodyTaken own x (burstBody b column closeAfter isWrite)).after
      = { u.after.burstTaken x isWrite b closeAfter with
          port := { u.after.port with
            queue := if own then mapHead Access.burstAccepted u.after.port.queue b else u.after.port.queue }
          sched := { u.after.sched with ownBursts := u.after.sched.ownBursts
            ++ (if own then ((headOf u.after.port.queue b).map (fun a =>
                  ⟨a.tag, isWrite, b, u.burstRow b, column, dataSlots isWrite, none⟩)).toList else []) } } := by
  cases own
  · cases isWrite <;> simp [burstBody, State.bodyTaken, State.recordOwnBurst] <;> rfl
  · cases isWrite <;>
      simp [burstBody, State.bodyTaken, State.recordOwnBurst, Device.ownBurstTaken_eq, Device.burstTaken] <;> rfl

theorem BankRec.burstTaken_opened {r : BankRec} {row : Row} {x : Station} {age settle guard : Nat}
    (h : r.st = .opened row x age settle guard) (isWrite closeAfter : Bool) : r.burstTaken isWrite closeAfter
      = { r with
          st := if closeAfter then .closePending row x age (max guard (if isWrite then 4 else 2))
            else .opened row x age settle (max guard (if isWrite then 4 else 2))
          yield := if closeAfter then none else r.yield } := by
  unfold BankRec.burstTaken
  rw [h]
  cases closeAfter <;> rfl

theorem BankRec.burstTaken_grant (r : BankRec) (isWrite closeAfter : Bool) :
    (r.burstTaken isWrite closeAfter).grant = r.grant := by
  unfold BankRec.burstTaken
  cases closeAfter <;> split <;> rfl

/-- A CLOSE closes the bank; at its holder the request waits again, and a forced one makes an entry. -/
theorem State.closeTaken_after (x : Station) (b : Bank) (forced : Bool) (u : State) : (u.closeTaken x b forced).after
    = { u.after.setBank b { u.after.bank b with st := .recharging 3, yield := none } with
        port := { u.after.port with
          queue := if u.after.holdsOpen b then mapHead (fun a => { a with progress := .waiting }) u.after.port.queue b
            else u.after.port.queue }
        faults := if u.after.holdsOpen b = true ∧ forced = true then joinFaults u.faultBase (insertEntry
            ⟨.forcedClose, u.entryIndex, some (BitVec.ofNat 3 x.val), some b, some .close, none⟩ u.slot.entries)
          else u.after.faults } := by
  unfold State.closeTaken
  cases u.after.holdsOpen b
  · rfl
  · cases forced <;> rfl

theorem Device.noticeTaken_eq (own : Bool) (x : Station) (b : Bank) (d : Device) : d.noticeTaken own x b
    = { d.setBank b ((d.bank b).noticed d.member.profile.holdLimit d.freshGrant x) with
        port := { d.port with
          queue := if own then mapHead (fun a => { a with progress := .noticed }) d.port.queue b else d.port.queue } } := by
  unfold Device.noticeTaken
  rw [Device.updHead_if]
  rfl

theorem BankRec.noticed_eq (holdLimit : Nat) (fresh : Grant) (x : Station) (r : BankRec) : r.noticed holdLimit fresh x
    = { r with
        waiters := r.waiters ++ [x]
        yield := if r.st.isOpened = true ∧ r.waiters = [] then
            some (if r.st.holdAge?.getD 0 < holdLimit then .before (holdLimit - r.st.holdAge?.getD 0) else .grace 32)
          else r.yield
        grant := if r.st = .closed ∧ r.grant = none then some fresh else r.grant } := by
  unfold BankRec.noticed
  split
  · next row y age settle guard hs =>
    cases r.waiters <;> simp [hs, BankState.isOpened, BankState.holdAge?, Config.grace]
  · next hs => cases r.grant <;> simp [hs, BankState.isOpened]
  all_goals next hs => simp [hs, BankState.isOpened]

theorem Device.withdrawTaken_eq (own : Bool) (x : Station) (b : Bank) (d : Device) : d.withdrawTaken own x b
    = { d.setBank b ((d.bank b).leave d.member.profile.grantWindow x) with
        port := { d.port with
          queue := if own then mapHead (fun a => { a with progress := .waiting }) d.port.queue b else d.port.queue } } := by
  unfold Device.withdrawTaken
  rw [Device.updHead_if]
  rfl

/-- A waiting station out of its list. -/
theorem BankRec.leave_of_mem {r : BankRec} {x : Station} (h : x ∈ r.waiters) (window : Nat) : r.leave window x
    = { r with
        waiters := r.waiters.erase x
        yield := if r.waiters.erase x = [] then none else r.yield
        grant := if r.waiters.erase x = [] then none
          else if r.waiters.head? = some x then passGrant window r.grant else r.grant } := by
  unfold BankRec.leave
  rw [if_pos (List.contains_iff_mem.2 h)]
  by_cases e : r.waiters.erase x = [] <;> simp [e]

/-- A RESUME on path `p` answered. -/
theorem Device.resumeDone_spec (p : ResumePath) (d : Device) : d.resumeDone p
    = { d with
        retention := { d.retention with
          resume := if d.retention.resume.map PendingResume.path == some p then none else d.retention.resume }
        port := { d.port with completions := d.port.completions
          ++ (if d.retention.resume.map PendingResume.path == some p then
                (d.retention.resume.map (fun r => ⟨r.tag, .done, 0, []⟩)).toList else []) } } := by
  unfold Device.resumeDone
  split
  · next r hr =>
    by_cases hp : r.path = p
    · rw [if_pos hp]
      simp [Device.completeResume, hr, hp, Device.post, plainCompletion]
    · have other : (d.retention.resume.map PendingResume.path == some p) = false := by simp [hr, hp]
      rw [if_neg hp, other]
      simp
  · next hr =>
    have other : (d.retention.resume.map PendingResume.path == some p) = false := by simp [hr]
    rw [other]
    simp

/-- A RESUME on the vote path answered where the own number is out of the vote set. -/
theorem Device.resumeOnVoteLeft_spec (d : Device) : d.resumeOnVoteLeft
    = { d with
        retention := { d.retention with
          resume := if d.retention.resume.map PendingResume.path == some .vote && !d.ownVoted then none else d.retention.resume }
        port := { d.port with completions := d.port.completions
          ++ (if d.retention.resume.map PendingResume.path == some .vote && !d.ownVoted then
                (d.retention.resume.map (fun r => ⟨r.tag, .done, 0, []⟩)).toList else []) } } := by
  unfold Device.resumeOnVoteLeft
  cases d.ownVoted
  · simp [Device.resumeDone_spec]
  · simp

theorem BankRec.noticed_grant (holdLimit : Nat) (fresh : Grant) (x : Station) (r : BankRec) :
    (r.noticed holdLimit fresh x).grant = r.grant ∨ (r.noticed holdLimit fresh x).grant = some fresh := by
  rw [BankRec.noticed_eq]
  dsimp only
  split
  · exact .inr rfl
  · exact .inl rfl

/-- The grant a NOTICE gives is in line with the freezing conditions. -/
theorem Device.admits_noticed {d : Device} {r : BankRec} (h : d.admits r) (synced : d.member.state = .synced) (holdLimit : Nat)
    (x : Station) : d.admits (r.noticed holdLimit d.freshGrant x) := by
  obtain ⟨running, frozen, -⟩ := h
  unfold Device.admits
  rcases r.noticed_grant holdLimit d.freshGrant x with e | e <;> rw [e]
  · exact ⟨running, frozen, fun h => absurd synced h⟩
  · refine ⟨?_, ?_, fun h => absurd synced h⟩ <;> unfold Device.freshGrant <;> cases d.freezing <;> simp

theorem Device.ownVoted_of_votes {d : Device} (h : d.retention.votes = 0#6) : d.ownVoted = false := by
  unfold Device.ownVoted
  rw [h]
  split
  · next x _ => simp [StationSet.has]
  · rfl

/-- An accepted WAKE: the votes are gone, so a RESUME on the wake path or the vote path is answered. -/
theorem Device.wakeTaken_eq (d : Device) : d.wakeTaken
    = { d with
        mirror := { d.mirror with array := .waking }
        account := { d.account with wakeRefresh := 12 }
        retention := { d.retention with
          votes := 0#6, ageMark := none, wakingGuard := some 10
          resume := if d.retention.resume.map PendingResume.path == some .wake
            || d.retention.resume.map PendingResume.path == some .vote then none else d.retention.resume }
        port := { d.port with completions := d.port.completions
          ++ (if d.retention.resume.map PendingResume.path == some .wake
            || d.retention.resume.map PendingResume.path == some .vote then
                (d.retention.resume.map (fun r => ⟨r.tag, .done, 0, []⟩)).toList else []) } } := by
  unfold Device.wakeTaken
  rw [Device.resumeOnVoteLeft_spec, Device.ownVoted_of_votes (by rw [Device.resumeDone_spec]), Device.resumeDone_spec]
  rcases d.retention.resume with _ | ⟨tag, _ | _ | _, stamp⟩ <;> simp [Config.wakeRefreshRound, Config.wakingGuard]

/-- An accepted FULL REFRESH at a synced station: the votes are gone, so a RESUME on the vote path is answered. -/
theorem Device.fullRefreshTaken_eq (members : StationSet) (first : Bool) (d : Device) : d.fullRefreshTaken members first
    = { d with
        mirror := { d.mirror with
          banks := mapVec (fun _ => BankRec.fullRefreshed) d.mirror.banks
          array := if d.mirror.array = .uninit then .active else d.mirror.array }
        account := { d.account with balance := fullRefreshResult d.account.balance first, rotation := 0#12, wakeRefresh := 0 }
        member := { d.member with members := members, syncPending := 0#6, ages := Vector.replicate 6 0 }
        retention := { d.retention with
          votes := 0#6
          resume := if d.retention.resume.map PendingResume.path == some .vote then none else d.retention.resume }
        port := { d.port with
          queue := mapAccess Access.unnoticed d.port.queue
          completions := d.port.completions ++ (if d.retention.resume.map PendingResume.path == some .vote then
            (d.retention.resume.map (fun r => ⟨r.tag, .done, 0, []⟩)).toList else []) } } := by
  unfold Device.fullRefreshTaken
  rw [Device.resumeOnVoteLeft_spec, Device.ownVoted_of_votes rfl]
  simp only [Bool.not_false, Bool.and_true]
  rfl

/-! ### The array at an accepted frame -/

theorem ArrayDie.accept_fullRefresh {a : ArrayDie} {balanceAfter : Int} {members : StationSet} {first : Bool} {digest : BitVec 16}
    (awake : (a.state == .retaining || a.state == .waking) = false) (own : Bool) (data : Burst) :
    a.accept own data (.fullRefresh balanceAfter members first digest)
      = { a with banks := Vector.replicate 12 (.refreshing 14), state := .active } := by
  have active : (if a.state = .uninit then ArrayState.active else a.state) = .active := by
    cases hs : a.state <;> simp_all
  unfold ArrayDie.accept
  rw [active]
  rfl

/-- A frame of which the array does nothing. -/
theorem State.applying_of_idle {f : Frame} {s : State} {body : Body} (hb : f.body = body)
    (idle : ∀ own data a, ArrayDie.accept own data body a = a) (data : Burst) : (s.applying f data).after = s.after := by
  show s.after.updArray (ArrayDie.accept _ _ f.body) = s.after
  rw [hb, Device.updArray, idle]

theorem ArrayDie.accept_openRow {a : ArrayDie} {b : Bank} (closed : a.banks[b] = .closed) (own : Bool) (data : Burst) (row : Row) :
    a.accept own data (.openRow b row) = { a with banks := a.banks.set b (.opened row 6) } := by
  simp only [ArrayDie.accept, closed]
  rfl

theorem ArrayDie.accept_burst {a : ArrayDie} {b : Bank} {row : Row} {guard : Nat} (opened : a.banks[b] = .opened row guard)
    (own : Bool) (data : Burst) (column : Column) (closeAfter isWrite : Bool) :
    a.accept own data (burstBody b column closeAfter isWrite) = { a with
      banks := a.banks.set b (if closeAfter then .closePending (max guard (if isWrite then 4 else 2))
        else .opened row (max guard (if isWrite then 4 else 2)))
      inFlight := a.inFlight ++ [⟨isWrite, b, row, column, own, data, if isWrite then 3 else 4, false⟩] } := by
  have burst : a.accept own data (burstBody b column closeAfter isWrite) = a.burst isWrite b column closeAfter own data := by
    cases isWrite <;> rfl
  rw [burst]
  unfold ArrayDie.burst
  rw [opened]
  rfl

theorem ArrayDie.set_self (a : ArrayDie) (b : Bank) : { a with banks := a.banks.set b a.banks[b] } = a := by
  simp

theorem ArrayDie.accept_close (own : Bool) (data : Burst) (b : Bank) (forced : Bool) (a : ArrayDie) :
    a.accept own data (.close b forced)
      = { a with banks := a.banks.set b (match a.banks[b] with | .opened _ _ => .recharging 3 | r => r) } := by
  have same := ArrayDie.set_self a b
  simp only [ArrayDie.accept]
  cases hb : a.banks[b] <;> rw [hb] at same <;> first | exact same.symm | rfl

end

end Sys2Proof.Machine

section

open Sys2Proof Sys2Proof.Machine

/-- Settles O13: the body's effect as one picture (`Device.openTaken_eq`); it takes a grant away and starts none, so there is
nothing to regrant. -/
theorem acceptedOpenOpensTheBank : Obligations.AcceptedOpenOpensTheBank := by
  intro s h f b row a hb rest
  have legal := a.rule
  have vetoes := a.carried.array
  rw [hb] at legal vetoes
  obtain ⟨closed, active, -⟩ := (ruleLegal_openRow_iff ..).1 legal
  have arrayClosed : s.now.array.banks[b] = .closed := by
    simp only [arrayVetoes, Bool.or_eq_false_iff, bne_eq_false_iff_eq] at vetoes
    exact vetoes.2
  have arrayStays : s.after.array.banks[b] = .closed := by rw [a.counted.arrayBank, arrayClosed]; rfl
  have waiters : (s.after.bank b).waiters = (s.now.bank b).waiters := by rw [State.bank_of_counted a.counted]; rfl
  have profile := a.counted.profile
  obtain ⟨t, e, after⟩ := exec_accepted_settled a hb (fun _ => rfl) 0#512 (Device.openTaken_eq ..)
    (Device.grantsOk_of_grant (a.grantsOk 0#512) a.afterSynced rfl b (fun c hc => Device.bank_setBank_ne hc _ _)
      (.inr (congrArg BankRec.grant (Device.bank_setBank_self ..))))
  refine ⟨t, e, ?_⟩
  rw [after]
  refine ⟨?_, fun c hc => Device.bank_setBank_ne hc _ _, rfl, rfl, rfl, a.counted.mirrorArray.trans active, rfl, rfl, rfl, rfl, rfl, ?_⟩
  · refine (Device.bank_setBank_self _ _ _).trans ?_
    show BankRec.mk _ ((s.after.bank b).waiters.erase f.sender) (if (s.after.bank b).waiters.erase f.sender = [] then _ else
      some (.before s.after.member.profile.holdLimit)) _ = _
    rw [waiters, profile]
  · show ArrayDie.accept _ _ f.body s.after.array = _
    rw [hb, ArrayDie.accept_openRow arrayStays]

/-- Settles O14: the body's effect as one picture (`State.bodyTaken_burst`); the grants stand as they are. -/
theorem acceptedBurstRaisesTheGuardAndReservesTheLane : Obligations.AcceptedBurstRaisesTheGuardAndReservesTheLane := by
  intro s h f b column closeAfter isWrite data row arrayRow age guard arrayGuard a hb opened arrayOpened release raised slots
  replace hb : f.body = burstBody b column closeAfter isWrite := hb
  have bank : (s.after.bank b).st = .opened row f.sender age 0 (countDown guard) := by
    rw [State.bank_of_counted a.counted]
    simp [BankRec.count, opened, countDown]
  have arrayBank : s.after.array.banks[b] = .opened arrayRow (countDown arrayGuard) := by
    rw [a.counted.arrayBank, arrayOpened]; rfl
  have burstRow (d : Burst) : (s.applying f d).burstRow b = arrayRow := by
    show (s.now.array.openRow? b).getD _ = _
    rw [ArrayDie.openRow?, arrayOpened]
    rfl
  have slots_eq : dataSlots isWrite = slots := by cases isWrite <;> rfl
  have frameData_eq : frameData (burstBody b column closeAfter isWrite).kind data = if isWrite then data else 0#512 := by
    cases isWrite <;> rfl
  obtain ⟨t, e, after⟩ := exec_accepted_settled a hb (by cases isWrite <;> exact fun _ => rfl) data
    (State.bodyTaken_burst ..)
    (Device.grantsOk_of_grant (a.grantsOk 0#512) a.afterSynced rfl b (fun c hc => Device.bank_setBank_ne hc _ _)
      (.inl ((congrArg BankRec.grant (Device.bank_setBank_self ..)).trans (BankRec.burstTaken_grant ..))))
  refine ⟨t, ?_, ?_⟩
  · rw [← e]
    cases isWrite <;> rfl
  rw [after, frameData_eq, burstRow, slots_eq]
  refine ⟨?_, fun c hc => Device.bank_setBank_ne hc _ _, rfl, rfl, ?_, rfl, rfl, rfl, rfl, rfl, ?_, ?_⟩
  · exact (Device.bank_setBank_self ..).trans (BankRec.burstTaken_opened bank isWrite closeAfter)
  · cases isWrite <;> rfl
  · rw [← a.counted.port]; rfl
  · show ArrayDie.accept _ _ f.body s.after.array = _
    rw [hb, ArrayDie.accept_burst arrayBank]
    rfl

/-- Settles O15: the body's effect as one picture (`State.closeTaken_after`); the grants stand as they are. -/
theorem acceptedCloseRechargesTheBank : Obligations.AcceptedCloseRechargesTheBank := by
  intro s h f b forced a hb
  have holds (d : Burst) : (s.applying f d).after.holdsOpen b = s.now.holdsOpen b :=
    Device.holdsOpen_countSlot (State.bank_of_counted a.counted b) a.counted.ownNumber
  have entry (d : Burst) : (s.applying f d).entryIndex = s.now.account.index := a.counted.entryIndex
  have base (d : Burst) : (s.applying f d).faultBase = s.now.faults := a.counted.faultBase
  have entries (d : Burst) : (s.applying f d).slot.entries = [] := a.counted.2.1
  obtain ⟨t, e, after⟩ := exec_accepted_settled a hb (fun _ => rfl) 0#512 (State.closeTaken_after ..)
    (Device.grantsOk_of_grant (a.grantsOk 0#512) a.afterSynced rfl b (fun c hc => Device.bank_setBank_ne hc _ _)
      (.inl ((congrArg BankRec.grant (Device.bank_setBank_self ..)).trans rfl)))
  refine ⟨t, e, ?_⟩
  rw [after, holds, entry, base, entries]
  refine ⟨Device.bank_setBank_self .., fun c hc => Device.bank_setBank_ne hc _ _, rfl, rfl, rfl, rfl, rfl, rfl, rfl, rfl, rfl, ?_⟩
  show ArrayDie.accept _ _ f.body s.after.array = _
  rw [hb]
  exact ArrayDie.accept_close ..

/-- Settles O22: the body's effect as one picture (`Device.noticeTaken_eq`, `BankRec.noticed_eq`); a grant it gives is given by the
freezing conditions (`Device.admits_noticed`). -/
theorem acceptedNoticeJoinsTheList : Obligations.AcceptedNoticeJoinsTheList := by
  intro s h f b a hb age limit
  have bank : s.after.bank b = (s.now.bank b).count := State.bank_of_counted a.counted b
  have admits := (Device.grantsOk_iff _).1 (a.grantsOk 0#512) b
  have st : ((s.after.bank b).st.isOpened = (s.now.bank b).st.isOpened ∧ (s.after.bank b).st.holdAge? = (s.now.bank b).st.holdAge?)
      ∧ ((s.after.bank b).st = .closed ↔ (s.now.bank b).st = .closed) := by
    rw [bank]
    unfold BankRec.count
    cases (s.now.bank b).st <;> simp [BankState.isOpened, BankState.holdAge?]
  have grant : (s.after.bank b).grant = none ↔ (s.now.bank b).grant = none := by
    rw [bank]
    unfold BankRec.count
    rcases (s.now.bank b).grant with _ | ⟨_⟩ | _ | _ <;> simp
  obtain ⟨⟨isOpened, holdAge⟩, closed⟩ := st
  have waiters : (s.after.bank b).waiters = (s.now.bank b).waiters := by rw [bank]; rfl
  have profile := a.counted.profile
  obtain ⟨t, e, after⟩ := exec_accepted_settled a hb (fun _ => rfl) 0#512 (Device.noticeTaken_eq ..)
    ((Device.Keeps.of_port rfl).grants (Device.grantsOk_setBank (a.grantsOk 0#512) b (Device.admits_noticed admits a.afterSynced _ _)))
  refine ⟨t, e, ?_⟩
  rw [after]
  refine ⟨(Device.bank_setBank_self ..).trans ?_, fun c hc => Device.bank_setBank_ne hc _ _, rfl, rfl, rfl, rfl, rfl, rfl, rfl, rfl,
    rfl, ?_⟩
  · rw [BankRec.noticed_eq]
    show BankRec.mk _ ((s.after.bank b).waiters ++ _) (if (s.after.bank b).st.isOpened = true ∧ (s.after.bank b).waiters = [] then
      some (if (s.after.bank b).st.holdAge?.getD 0 < s.after.member.profile.holdLimit then
        .before (s.after.member.profile.holdLimit - (s.after.bank b).st.holdAge?.getD 0) else .grace 32) else _)
      (if (s.after.bank b).st = .closed ∧ (s.after.bank b).grant = none then
        some (if s.after.freezing then .frozen else .running s.after.member.profile.grantWindow) else _) = _
    rw [waiters, isOpened, holdAge, profile, a.counted.freezing]
    simp only [closed, grant]
    rfl
  · show ArrayDie.accept _ _ f.body s.after.array = _
    rw [hb]
    rfl

/-- Settles O23: the sender is in the list (its WITHDRAW is legal), so the record is the one of `BankRec.leave_of_mem`. -/
theorem acceptedWithdrawLeavesTheList : Obligations.AcceptedWithdrawLeavesTheList := by
  intro s h f b a hb rest
  have legal := a.rule
  rw [hb, ruleLegal_iff] at legal
  obtain ⟨-, listed, -⟩ := legal
  have bank : s.after.bank b = (s.now.bank b).count := State.bank_of_counted a.counted b
  have waiters : (s.after.bank b).waiters = (s.now.bank b).waiters := by rw [bank]; rfl
  have member : f.sender ∈ (s.after.bank b).waiters := by
    rw [waiters]
    exact List.contains_iff_mem.1 listed
  have profile := a.counted.profile
  have passed : passGrant s.now.member.profile.grantWindow (s.after.bank b).grant
      = (s.now.bank b).grant.map (fun g => match g with
        | .running _ => .running s.now.member.profile.grantWindow | .paused => .paused | .frozen => .frozen) := by
    rw [bank]
    unfold BankRec.count
    rcases (s.now.bank b).grant with _ | ⟨_⟩ | _ | _ <;> rfl
  have admits := (Device.grantsOk_iff _).1 (a.grantsOk 0#512) b
  obtain ⟨t, e, after⟩ := exec_accepted_settled a hb (fun _ => rfl) 0#512 (Device.withdrawTaken_eq ..)
    ((Device.Keeps.of_port rfl).grants (Device.grantsOk_setBank (a.grantsOk 0#512) b (Device.admits_leave admits _ _)))
  refine ⟨t, e, ?_⟩
  rw [after]
  refine ⟨(Device.bank_setBank_self ..).trans ?_, fun c hc => Device.bank_setBank_ne hc _ _, rfl, rfl, rfl, rfl, rfl, rfl, rfl, rfl,
    rfl, ?_⟩
  · refine (BankRec.leave_of_mem member _).trans ?_
    show BankRec.mk _ ((s.after.bank b).waiters.erase _) (if (s.after.bank b).waiters.erase _ = [] then _ else _)
      (if (s.after.bank b).waiters.erase _ = [] then _ else if (s.after.bank b).waiters.head? = _ then
        passGrant s.after.member.profile.grantWindow (s.after.bank b).grant else _) = _
    rw [profile, passed, waiters] <;> rfl
  · show ArrayDie.accept _ _ f.body s.after.array = _
    rw [hb]
    rfl

/-- Settles O24: a VOTE moves the vote set and answers by `Device.resumeOnVoteLeft_spec`; a PRESENCE leaves the common effects
(`Device.acceptCommon`) alone. -/
theorem acceptedVoteMovesTheVoteSetAndPresenceNothing : Obligations.AcceptedVoteMovesTheVoteSetAndPresenceNothing := by
  intro s h f on votes answered a
  have votes_eq : votes = if on then s.after.retention.votes.add f.sender else s.after.retention.votes.drop f.sender := by
    rw [a.counted.votes]
  have answered_eq : answered = (s.after.retention.resume.map PendingResume.path == some .vote
      && !({ s.after with retention := { s.after.retention with votes := votes } } : Device).ownVoted) := by
    have number : ({ s.after with retention := { s.after.retention with votes := votes } } : Device).ownNumber
      = s.now.ownNumber := a.counted.ownNumber
    rw [Device.ownVoted, number, a.counted.resume] <;> rfl
  refine ⟨fun hb => ?_, fun hb => ?_⟩
  · obtain ⟨t, e, after⟩ := exec_accepted_settled a hb (fun _ => rfl) 0#512 (Device.resumeOnVoteLeft_spec ..)
      ((Device.Keeps.of_port rfl).grants (a.grantsOk 0#512))
    refine ⟨t, e, ?_⟩
    rw [after, answered_eq, votes_eq, ← a.counted.resume, State.applying_of_idle hb (fun _ _ _ => rfl)]
    exact ⟨rfl, rfl, rfl, rfl, rfl, rfl, rfl⟩
  · obtain ⟨t, e, after⟩ := exec_accepted_settled a hb (fun _ => rfl) 0#512 rfl (a.grantsOk _)
    refine ⟨t, e, ?_⟩
    rw [after, ← a.counted.lane, ← a.counted.peers, ← a.counted.ages]
    show Device.acceptCommon _ _ _ (s.applying f _).after = _
    rw [State.applying_of_idle hb (fun _ _ _ => rfl)]
    rfl

/-- Settles O20: the array state was RETAINING and is WAKING, so the freeze stands. -/
theorem acceptedWakeStartsTheWakingGuard : Obligations.AcceptedWakeStartsTheWakingGuard := by
  intro s h f a hb answered
  have legal := a.rule
  rw [hb] at legal
  obtain ⟨-, retaining, -⟩ := (ruleLegal_wake_iff ..).1 legal
  have frozen : s.after.freezing = true := by
    rw [a.counted.freezing]
    simp [Device.freezing, retaining]
  obtain ⟨t, e, after⟩ := exec_accepted_settled a hb (fun _ => rfl) 0#512 (Device.wakeTaken_eq ..)
    (Device.grantsOk_of_grant (a.grantsOk 0#512) a.afterSynced (by
      refine Eq.trans ?_ frozen.symm
      simp [Device.freezing]) 0 (fun _ _ => rfl) (.inl rfl))
  refine ⟨t, e, ?_⟩
  have answered_eq : answered = (s.after.retention.resume.map PendingResume.path == some .wake
      || s.after.retention.resume.map PendingResume.path == some .vote) := by rw [a.counted.resume]
  rw [after, answered_eq, ← a.counted.resume]
  refine ⟨rfl, rfl, rfl, rfl, rfl, rfl, ?_⟩
  have state : s.after.array.state = s.now.array.state := by rw [a.counted.array]; rfl
  show ArrayDie.accept _ _ f.body s.after.array = _
  rw [hb, ← state]
  unfold ArrayDie.accept
  cases s.after.array.state <;> rfl

/-- Settles O17: no bank has a grant afterwards. -/
theorem acceptedFullRefreshSweepsEveryBank : Obligations.AcceptedFullRefreshSweepsEveryBank := by
  intro s h f balanceAfter members first digest a hb votePath
  have legal := a.rule
  rw [hb] at legal
  obtain ⟨-, states, first, -⟩ := (ruleLegal_fullRefresh_iff ..).1 legal
  subst first
  have bank (d : Device) (c : Bank) : (mapVec (fun _ => BankRec.fullRefreshed) d.mirror.banks)[c] = BankRec.fullRefreshed :=
    mapVec_getElem _ _ c
  obtain ⟨t, e, after⟩ := exec_accepted_settled a hb (fun _ => rfl) 0#512 (Device.fullRefreshTaken_eq ..)
    (Device.grantsOk_of_none a.afterSynced fun c => congrArg BankRec.grant (bank _ c))
  refine ⟨t, e, ?_⟩
  rw [after]
  have votePath_eq : votePath = (s.after.retention.resume.map PendingResume.path == some .vote) := by rw [a.counted.resume]
  rw [votePath_eq, ← a.counted.balance, ← fullRefreshResult_false]
  refine ⟨fun c => bank s.after c, rfl, rfl, rfl, ?_, rfl, ?_, rfl, ?_, rfl, rfl, ?_⟩
  · show (if s.after.mirror.array = .uninit then .active else s.after.mirror.array) = ArrayState.active
    rw [a.counted.mirrorArray]
    rcases states with h | h <;> simp [h]
  · show ({ s.after.member with
      members := members, syncPending := 0#6, ages := (Vector.replicate 6 0).set f.sender 0 } : Membership) = _
    rw [Vector.set_replicate_self]
  · rw [← a.counted.resume]
    rfl
  · have vetoes := a.carried.array
    rw [hb] at vetoes
    have state : s.after.array.state = s.now.array.state := by rw [a.counted.array]; rfl
    show ArrayDie.accept _ _ f.body s.after.array = _
    rw [hb, ArrayDie.accept_fullRefresh (state.symm ▸ vetoes)]

end
end

