-- ==== Sys2Proof/Proofs/SlotExpiries.lean ====
section
/-! The expiries at a slot's close, one by one: not due they change nothing (log entry 4); due they move what they are to move. -/

namespace Sys2Proof.Machine

theorem Device.freezing_iff (d : Device) : d.freezing = true ↔
    48 ≤ d.account.balance ∨ d.member.syncPending ≠ 0#6 ∨ d.mirror.array ≠ .active := by
  simp [Device.freezing, Device.urgent_iff, or_assoc]

/-! ### Due or not -/

theorem dueAt_of_eq {before after : Option Nat} (h : before = some 1) (h' : after = some 1) : dueAt before after = true := by
  simp [dueAt, h, h']

theorem not_dueAt {before after : Option Nat} (h : before ≠ some 1) : ¬ dueAt before after = true := by
  simp [dueAt, h]

theorem State.grantDue_of_eq {s : State} {b : Bank} (h : (s.now.bank b).grant = some (.running 1))
    (h' : (s.after.bank b).grant = some (.running 1)) : s.grantDue b = true := by
  simp [State.grantDue, BankRec.window?, h, h']

section
variable (s : State) (b : Bank)

theorem State.takeSettle_of_not (h : (s.now.bank b).st.settle? ≠ some 1) : s.takeSettle b = s := if_neg (not_dueAt h)
theorem State.takeCloseGuard_of_not (h : (s.now.bank b).st.closeGuard? ≠ some 1) : s.takeCloseGuard b = s := if_neg (not_dueAt h)
theorem State.takeRecharge_of_not (h : (s.now.bank b).st.recharge? ≠ some 1) : s.takeRecharge b = s := if_neg (not_dueAt h)
theorem State.takeRefreshBusy_of_not (h : (s.now.bank b).st.refresh? ≠ some 1) : s.takeRefreshBusy b = s := if_neg (not_dueAt h)
theorem State.takeYieldBefore_of_not (h : (s.now.bank b).before? ≠ some 1) : s.takeYieldBefore b = s := if_neg (not_dueAt h)
theorem State.takeYieldGrace_of_not (h : (s.now.bank b).grace? ≠ some 1) : s.takeYieldGrace b = s := if_neg (not_dueAt h)
theorem State.takeGrantWindow_of_not (h : (s.now.bank b).window? ≠ some 1) : s.takeGrantWindow b = s :=
  if_neg (by simp [State.grantDue, h])
theorem State.takeInterval_of_not (h : s.now.account.countdown ≠ some 1) : s.takeInterval = s := if_neg (not_dueAt h)
theorem State.takeWakingGuard_of_not (h : s.now.retention.wakingGuard ≠ some 1) : s.takeWakingGuard = s := if_neg (not_dueAt h)
theorem State.takeRollCallWindow_of_not (h : s.now.member.window ≠ some 1) : s.takeRollCallWindow = s := if_neg (not_dueAt h)
theorem State.takeIdle_of_not (h : s.now.sched.idle[b] ≠ some 1) : s.takeIdle b = s := if_neg (not_dueAt h)
theorem State.takeReservationFree_of_not (h : s.now.mirror.reservation.map Reservation.count ≠ some 1) :
    s.takeReservationFree = s := if_neg (not_dueAt h)

theorem State.dropDue_of_not {m : Station} (h : s.now.member.state ≠ .synced ∨ s.now.member.ages[m] ≠ 12287) :
    s.dropDue m = false := by
  unfold State.dropDue Device.synced
  rcases h with h | h
  · simp [h]
  · have age : (s.now.member.ages[m] == Config.dropAge - 1) = false := beq_eq_false_iff_ne.2 h
    rw [age, Bool.and_false, Bool.false_and]

theorem State.takeDataSlots_of_not (h : ∀ o ∈ s.after.sched.ownBursts, o.left ≠ 0) : s.takeDataSlots = s := by
  have none : s.after.sched.ownBursts.filter OwnBurst.due = [] :=
    List.filter_eq_nil_iff.2 fun o ho => by simp [OwnBurst.due, h o ho]
  unfold State.takeDataSlots
  rw [none]
  rfl

theorem State.takeDetached_of_not (h : s.now.member.state ≠ .mismatch ∨ 16 ≤ s.now.roomTaken) : s.takeDetached = s := by
  have off : (s.now.detachedWaits && s.now.hasRoom && s.after.port.queue == s.now.port.queue) = false := by
    rcases h with h | h
    · simp [Device.detachedWaits, h]
    · have room : s.now.hasRoom = false := decide_eq_false (Nat.not_lt.2 h)
      rw [room, Bool.and_false, Bool.false_and]
  unfold State.takeDetached
  rw [off]
  rfl

theorem State.takeOwnAgeLimit_of_not (h : s.now.member.state ≠ .unsynced ∨ s.now.ownAge ≠ 12287) : s.takeOwnAgeLimit = s :=
  if_neg (by rintro ⟨state, -, age, -⟩; exact h.elim (· state) (· age))

end

/-- The own bursts of a counted slot. -/
theorem State.counted.ownBursts {s : State} (c : s.counted) :
    s.after.sched.ownBursts = s.now.sched.ownBursts.map (fun o => { o with left := o.left - 1 }) := by
  rw [c.1]; rfl

/-- The picture once the WAKING guard has expired (R122), before the regrant. -/
def Device.wakingOver (d : Device) : Device :=
  { d with mirror := { d.mirror with array := .active }, retention := { d.retention with wakingGuard := none } }

theorem State.takeWakingGuard_of_due {s : State} (h : s.now.retention.wakingGuard = some 1)
    (h' : s.after.retention.wakingGuard = some 1) : s.takeWakingGuard = (s.close.upd Device.wakingOver).regrant :=
  if_pos (dueAt_of_eq h h')

theorem Device.freezing_wakingOver (d : Device) : d.wakingOver.freezing = true ↔
    48 ≤ d.account.balance ∨ d.member.syncPending ≠ 0#6 := by
  rw [Device.freezing_iff]
  simp [Device.wakingOver]

theorem BankRec.thaw_eq (freezing : Bool) (window : Nat) (r : BankRec) : r.thaw freezing window
    = { r with grant := if r.grant = some .frozen ∧ freezing = false then some (.running window) else r.grant } := by
  unfold BankRec.thaw
  split <;> rfl

/-! ### The start of a slot -/

theorem State.startingSlot_of_begun {s : State} (h : s.begun) (h' : s.slot.arbitrated = false) : s.startingSlot = s := by
  unfold State.startingSlot
  rw [h', h.1, h.2]
  rfl

/-! ### Leaving a list -/

/-- A station out of a list in which it may not be. -/
theorem BankRec.leave_eq (r : BankRec) (x : Station) (window : Nat) : r.leave window x
    = { r with
        waiters := r.waiters.erase x
        yield := if x ∈ r.waiters ∧ r.waiters.erase x = [] then none else r.yield
        grant := if x ∈ r.waiters ∧ r.waiters.erase x = [] then none
          else if r.waiters.head? = some x then passGrant window r.grant else r.grant } := by
  by_cases h : x ∈ r.waiters
  · simp [BankRec.leave_of_mem h, h]
  · have head : r.waiters.head? ≠ some x := fun e => h (List.mem_of_head? e)
    have out : r.waiters.contains x = false := by simpa using h
    unfold BankRec.leave
    rw [out, List.erase_of_not_mem h]
    simp [h, head]

theorem BankRec.leave_running {r : BankRec} {x : Station} {window w : Nat} (h : (r.leave window x).grant = some (.running w)) :
    ∃ w', r.grant = some (.running w') := by
  rw [BankRec.leave_eq] at h
  dsimp only at h
  split_ifs at h
  · rcases hg : r.grant with _ | ⟨_⟩ | _ | _ <;> simp_all [passGrant]
  · exact ⟨w, h⟩

theorem Device.bank_dropMember (m : Station) (d : Device) (c : Bank) :
    (d.dropMember m).bank c = (d.bank c).leave d.member.profile.grantWindow m :=
  Device.bank_mapBanks _ _ c

/-- The drop of a member ends a freezing condition at most. -/
theorem Device.freezing_dropMember {m : Station} {d : Device} (h : d.freezing = false) : (d.dropMember m).freezing = false := by
  rw [← Bool.not_eq_true, Device.freezing_iff] at h ⊢
  push Not at h ⊢
  obtain ⟨balance, pending, array⟩ := h
  refine ⟨balance, ?_, array⟩
  show d.member.syncPending.drop m = 0#6
  rw [pending]
  simp [StationSet.drop]

end Sys2Proof.Machine

section

open Sys2Proof Sys2Proof.Machine

/-- Settles O41. -/
theorem expiriesNotDueChangeNothing : Obligations.ExpiriesNotDueChangeNothing := by
  intro s b m
  refine ⟨fun h => ?_, fun h => ?_, fun h => ?_, fun h => ?_, fun h => ?_, fun h => ?_, fun h => ?_, fun h => ?_, fun h => ?_,
    fun h => ?_, fun h => ?_, fun h => ?_, fun h => ?_, fun h => ?_, fun h => ?_, fun h => ?_, fun h => ?_⟩ <;>
    refine congrArg Host.Outcome.next ?_
  · exact s.takeSettle_of_not b h
  · exact s.takeCloseGuard_of_not b h
  · exact s.takeRecharge_of_not b h
  · exact s.takeRefreshBusy_of_not b h
  · exact s.takeYieldBefore_of_not b h
  · exact s.takeYieldGrace_of_not b h
  · exact s.takeGrantWindow_of_not b h
  · exact s.takeInterval_of_not h
  · exact s.takeWakingGuard_of_not h
  · exact s.takeRollCallWindow_of_not h
  · exact State.takeDrop_of_not_due (s.dropDue_of_not h)
  · exact s.takeIdle_of_not b h
  · exact s.takeReservationFree_of_not h
  · exact s.takeDataSlots_of_not h
  · obtain ⟨counted, far⟩ := h
    refine s.takeDataSlots_of_not ?_
    rw [counted.ownBursts]
    rintro o ho
    obtain ⟨p, hp, rfl⟩ := List.mem_map.1 ho
    have := far p hp
    dsimp only
    omega
  · exact s.takeDetached_of_not h
  · exact s.takeOwnAgeLimit_of_not h

/-- Settles O31. -/
theorem expiriesOfGuardsYieldPointsAndCountersMoveThemAlone : Obligations.ExpiriesOfGuardsYieldPointsAndCountersMoveThemAlone := by
  intro s b row x age settle guard r r' put closed
  refine ⟨?_, ?_, ?_, ?_, ?_, ?_, ?_, ?_, ?_⟩ <;> rintro ⟨now, after⟩ <;> refine congrArg Host.Outcome.next ?_
  · refine (if_pos (dueAt_of_eq now (by rw [after]; rfl))).trans ?_
    rw [after]; rfl
  · refine (if_pos (dueAt_of_eq now (by rw [after]; rfl))).trans ?_
    rw [after]; rfl
  · refine (if_pos (dueAt_of_eq now (by rw [after]; rfl))).trans ?_
    rw [after]; rfl
  · exact if_pos (dueAt_of_eq now after)
  · exact if_pos (dueAt_of_eq now after)
  · exact if_pos (dueAt_of_eq now after)
  · obtain ⟨after, count, count'⟩ := after
    exact if_pos (dueAt_of_eq (by rw [now]; exact congrArg some count) (by rw [after]; exact congrArg some count'))
  · exact if_pos (dueAt_of_eq now after)
  · obtain ⟨after, age, age'⟩ := after
    exact if_pos ⟨now, after, age, age'⟩

/-- Settles O32. -/
theorem busyExpiriesCloseTheBankAndStartAGrant : Obligations.BusyExpiriesCloseTheBankAndStartAGrant := by
  intro s b kind frozen done
  have closes : s.close.upd (Device.becomeClosed b) = done := by
    have grant : (if (s.after.bank b).waiters.isEmpty then none else some s.after.freshGrant)
        = if (s.after.bank b).waiters = [] then none
          else some (if frozen then .frozen else .running s.after.member.profile.grantWindow) := by
      simp only [Device.freshGrant, Device.freezing_iff, List.isEmpty_iff]
      rfl
    unfold State.upd Device.becomeClosed
    dsimp only
    rw [State.close_after, grant]
    rfl
  refine ⟨fun ⟨now, after⟩ => ?_, fun ⟨now, after⟩ => ?_⟩ <;> rw [← closes] <;>
    exact congrArg Host.Outcome.next (if_pos (dueAt_of_eq (by rw [now]; rfl) (by rw [after]; rfl)))

/-- Settles O33: the head leaves by `BankRec.leave_head`; the next station's grant has a full window. -/
theorem grantWindowExpiryLapsesTheHead : Obligations.GrantWindowExpiryLapsesTheHead := by
  intro s b x rest now after waiters own base index
  have lapses : s.takeGrantWindow b = State.lapse b s.close := if_pos (State.grantDue_of_eq now after)
  have record : (s.after.bank b).leave s.after.member.profile.grantWindow x
      = { s.after.bank b with
          waiters := rest,
          yield := if rest = [] then none else (s.after.bank b).yield,
          grant := if rest = [] then none else some (.running s.after.member.profile.grantWindow) } := by
    rw [BankRec.leave_head waiters, BankRec.lapse, waiters, after]
    simp [passGrant]
  have lapsed : State.lapse b s.close = State.lapsedAt b x (s.close.leaveList b x) := by
    unfold State.lapse
    rw [State.close_after, waiters]
  refine ⟨s.takeGrantWindow b, rfl, ?_⟩
  rw [lapses, lapsed, ← record]
  unfold State.lapsedAt
  cases ho : own with
  | true => rw [if_pos (show (s.close.leaveList b x).after.isOwn x = true from ho)]; exact ⟨rfl, rfl, rfl, rfl, rfl, rfl⟩
  | false =>
    rw [if_neg (show ¬ (s.close.leaveList b x).after.isOwn x = true from fun e => absurd (ho.symm.trans e) (by decide))]
    exact ⟨rfl, rfl, rfl, rfl, rfl, rfl⟩

/-- Settles O34: no grant runs while the array is WAKING, so the regrant only thaws. -/
theorem wakingGuardExpiryActivatesTheArrayState : Obligations.WakingGuardExpiryActivatesTheArrayState := by
  intro s now after waking settled still
  have frozen : s.after.freezing = true := (Device.freezing_iff _).2 (.inr (.inr (by rw [waking]; decide)))
  have thaws := State.regrant_eq_thaw (s := s.close.upd Device.wakingOver) fun b w hw =>
    absurd (frozen.symm.trans ((settled b).1 w hw)) (by decide)
  have stays : s.after.wakingOver.freezing = false ↔ ¬ still := by
    rw [← Bool.not_eq_true, Device.freezing_wakingOver]
  refine ⟨s.takeWakingGuard, rfl, ?_⟩
  rw [State.takeWakingGuard_of_due now after, thaws]
  refine ⟨rfl, rfl, fun c => ?_, rfl, rfl, rfl, rfl, rfl, rfl, rfl, rfl, rfl, rfl, rfl, rfl⟩
  refine (Device.bank_mapBanks _ _ c).trans ?_
  rw [BankRec.thaw_eq]
  simp only [State.upd_after, State.close_after, stays]
  rfl

/-- Settles O35. -/
theorem rollCallWindowExpiryEndsRollCall : Obligations.RollCallWindowExpiryEndsRollCall := by
  intro s now after base index kept left
  have due : s.takeRollCallWindow = _ := if_pos (dueAt_of_eq now after)
  refine ⟨fun inSet => ?_, fun out => ⟨s.takeRollCallWindow, rfl, ?_⟩⟩
  · rw [if_pos inSet] at due
    exact congrArg Host.Outcome.next due
  · rw [if_neg (by rw [out]; decide)] at due
    rw [due]
    refine ⟨rfl, rfl, rfl, rfl, rfl, rfl, rfl, rfl, rfl, fun none => ?_⟩
    show (joinFaults base (insertEntry left kept)).getLast? = some left
    rw [insertEntry_leftSync rfl fun e he => none e (List.mem_of_mem_filter he), joinFaults_concat_getLast?]

/-- Settles O36: another member's drop ends a freeze at most, so the regrant only thaws; the own drop leaves for UNSYNCED. -/
theorem memberDropRemovesTheMember : Obligations.MemberDropRemovesTheMember := by
  intro s m now after member age age' base index kept left full passed
  have due : s.dropDue m = true := by
    simp only [State.dropDue, Device.synced, now, after, member, age, age', Config.dropAge]
    rfl
  have drops : s.takeDrop m = _ := if_pos due
  refine ⟨fun ⟨other, settled⟩ => ⟨s.takeDrop m, rfl, ?_⟩, fun own => ⟨s.takeDrop m, rfl, ?_⟩⟩
  · rw [if_neg (by simpa [Device.isOwn] using other)] at drops
    have running (b : Bank) (w : Nat) (hw : ((s.after.dropMember m).bank b).grant = some (.running w)) :
        (s.after.dropMember m).freezing = false := by
      rw [Device.bank_dropMember] at hw
      obtain ⟨w', hw'⟩ := BankRec.leave_running hw
      exact Device.freezing_dropMember ((settled b).1 w' hw')
    rw [drops]
    refine ⟨?_, ?_, fun c => ?_, State.grantsSettled_regrant _, ?_⟩ <;> rw [State.regrant_eq_thaw running]
    · rfl
    · rfl
    · have bank := (Device.bank_mapBanks (BankRec.thaw (s.after.dropMember m).freezing full) (s.after.dropMember m) c).trans
        (congrArg (BankRec.thaw (s.after.dropMember m).freezing full) (Device.bank_dropMember m s.after c))
      rw [BankRec.leave_eq, BankRec.thaw_eq] at bank
      exact ⟨(congrArg BankRec.st bank).trans rfl, (congrArg BankRec.waiters bank).trans rfl,
        (congrArg BankRec.yield bank).trans rfl, (congrArg BankRec.grant bank).trans rfl⟩
    · exact ⟨rfl, rfl, rfl, rfl, rfl, rfl, rfl, rfl⟩
  · rw [if_pos (by simp [Device.isOwn, own])] at drops
    rw [drops]
    refine ⟨rfl, rfl, rfl, rfl, rfl, rfl, rfl, rfl, rfl, fun none => ?_⟩
    show (joinFaults base (insertEntry left kept)).getLast? = some left
    rw [insertEntry_leftSync rfl fun e he => none e (List.mem_of_mem_filter he), joinFaults_concat_getLast?]

/-- Settles O37. -/
theorem presenceIsOfferedByTheOwnAge : Obligations.PresenceIsOfferedByTheOwnAge := by
  intro s age offering begun fresh
  have starts : exec .presenceAgeReached s = .next s.reachPresence := by
    show Host.Outcome.next s.startingSlot.reachPresence = _
    rw [State.startingSlot_of_begun begun fresh]
  have offers : s.reachPresence = offering s.now.presenceReached.member.presence := rfl
  rw [starts, offers]
  refine ⟨fun ⟨own, state⟩ => ?_, fun ⟨synced, unsynced⟩ => ?_⟩
  · have offer : s.now.presenceReached.member.presence = presenceClass s.now.ownAge := by
      rcases state with h | h <;> simp [Device.presenceReached, h]
    rw [offer, own]
    rfl
  · have offer : s.now.presenceReached.member.presence = none := by
      simp only [Device.presenceReached]
      cases h : s.now.member.state <;> simp_all
    rw [offer]

/-- Settles O40. -/
theorem detachedRequestsPostWhenRoomExists : Obligations.DetachedRequestsPostWhenRoomExists := by
  intro s a tag stamp rest posting mismatch room same
  have due (e : Entry) (h : s.now.port.queue = e :: rest) :
      (s.now.detachedWaits && s.now.hasRoom && s.after.port.queue == s.now.port.queue) = true := by
    simp [Device.detachedWaits, Device.hasRoom, Config.completionMax, mismatch, room, same, h]
  have posts (e : Entry) (h : s.now.port.queue = e :: rest) : s.takeDetached = _ := if_pos (due e h)
  refine ⟨fun ⟨queue, others⟩ => ?_, fun queue => ?_⟩ <;> refine congrArg Host.Outcome.next ?_
  · have gone : dropTag a.tag (.access a :: rest) = rest := by
      have kept : rest.filter (fun e => e.tag != a.tag) = rest := List.filter_eq_self.2 fun e he => by simpa using others e he
      rw [dropTag, List.filter_cons, kept]
      simp [Entry.tag]
    rw [posts _ queue, same, queue]
    show s.close.upd (Device.completeAccess a .detached) = _
    unfold State.upd Device.completeAccess
    rw [State.close_after, same, queue, gone]
    rfl
  · rw [posts _ queue, same, queue]
    rfl

end
end

