-- ==== Sys2Proof/Proofs/ControlAndResets.lean ====
section
/-! The completion window, the control window and the reset inputs (chapter 8, sections 11.2 and 11.3, R89, R184). -/

namespace Sys2Proof.Machine

/-! ### An operation of the control window -/

/-- The slot with its control operation placed. -/
def State.operating (s : State) : State := { s.close with slot := { s.close.slot with controlPlaced := true } }

section
variable {s : State} (act : State → State)

theorem State.control_of_free (h : s.after.outOfReset = true) (h' : s.slot.controlPlaced = false) :
    s.control act = act s.operating := by
  unfold State.control
  rw [if_neg (by rw [h]; decide), if_neg (by rw [h']; decide)]
  rfl

theorem State.control_of_placed (h : s.after.outOfReset = true) (h' : s.slot.controlPlaced = true) : s.control act = s.close := by
  unfold State.control
  rw [if_neg (by rw [h]; decide), if_pos h']

theorem State.control_of_reset (h : s.after.outOfReset = false) : s.control act = s := if_pos h

end

/-! ### START and PROFILE load -/

theorem stationOf_ofNat (x : Station) : stationOf (BitVec.ofNat 3 x.val) = some x := by
  revert x; decide

theorem strapsOf_of_valid {x : Station} {number peers : BitVec 3} (h : number = BitVec.ofNat 3 x.val) (low : 2 ≤ peers.toNat)
    (high : peers.toNat ≤ 6) (below : x.val < peers.toNat) : strapsOf number peers = some ⟨x, peers.toNat⟩ := by
  rw [strapsOf, h, stationOf_ofNat]
  exact if_pos ⟨low, high, below⟩

theorem strapsOf_of_invalid {number peers : BitVec 3}
    (h : 6 ≤ number.toNat ∨ peers.toNat < 2 ∨ 6 < peers.toNat ∨ peers.toNat ≤ number.toNat) : strapsOf number peers = none := by
  unfold strapsOf stationOf
  by_cases hn : number.toNat < 6
  · rw [dif_pos hn]
    refine if_neg ?_
    dsimp only
    omega
  · rw [dif_neg hn]

theorem Profile.inRange_iff (p : Profile) : p.inRange = true ↔ 96 ≤ p.interval ∧ p.interval ≤ 1023 ∧ 16 ≤ p.holdLimit
    ∧ p.holdLimit ≤ 1024 ∧ 4 ≤ p.grantWindow ∧ p.grantWindow ≤ 64 ∧ p.idleDelay ≤ 255 := by
  simp [Profile.inRange, and_assoc]

/-- The idle close delay, of eight bits, is in range whatever the words spell. -/
theorem profileOf_inRange_iff (w0 w1 : Word) : (profileOf w0 w1).inRange = true ↔
    96 ≤ (w0.extractLsb' 22 10).toNat ∧ (w0.extractLsb' 22 10).toNat ≤ 1023 ∧ 16 ≤ (w0.extractLsb' 11 11).toNat
      ∧ (w0.extractLsb' 11 11).toNat ≤ 1024 ∧ 4 ≤ (w0.extractLsb' 4 7).toNat ∧ (w0.extractLsb' 4 7).toNat ≤ 64 := by
  have delay : (profileOf w0 w1).idleDelay ≤ 255 := Nat.le_of_lt_succ (w1.extractLsb' 24 8).isLt
  rw [Profile.inRange_iff]
  simp only [delay, and_true]
  rfl

/-! ### The status words -/

section
variable (d : Device)

/-- The fields of a word laid out as status word A. -/
theorem statusWordA_fields (state number peers : BitVec 3) (aligned overflow : Bool) (array : BitVec 2) (balance : BitVec 7)
    (index : BitVec 8) (wake : BitVec 4) (w : Word)
    (h : w = state ++ BitVec.ofBool aligned ++ number ++ peers ++ array ++ balance ++ index ++ wake ++ BitVec.ofBool overflow) :
    w.extractLsb' 29 3 = state ∧ w.getLsbD 28 = aligned ∧ w.extractLsb' 25 3 = number ∧ w.extractLsb' 22 3 = peers
      ∧ w.extractLsb' 20 2 = array ∧ w.extractLsb' 13 7 = balance ∧ w.extractLsb' 5 8 = index ∧ w.extractLsb' 1 4 = wake
      ∧ w.getLsbD 0 = overflow := by
  subst h
  simp (disch := decide) only [BitVec.extractLsb'_append_eq_of_le, BitVec.extractLsb'_append_eq_of_add_le, Nat.reduceSub,
    BitVec.extractLsb'_eq_self, BitVec.getLsbD_append, Nat.reduceLT, if_true, if_false, BitVec.getLsbD_ofBool, decide_true,
    Bool.true_and, and_self]

theorem Device.statusA_fields : d.statusA.extractLsb' 29 3 = stationStateCode d.member.state
    ∧ d.statusA.getLsbD 28 = d.account.aligned
    ∧ d.statusA.extractLsb' 25 3 = (match d.ownNumber with | some x => BitVec.ofNat 3 x.val | none => 7#3)
    ∧ d.statusA.extractLsb' 22 3 = BitVec.ofNat 3 d.peers ∧ d.statusA.extractLsb' 20 2 = arrayStateCode d.mirror.array
    ∧ d.statusA.extractLsb' 13 7 = BitVec.ofInt 7 d.account.balance ∧ d.statusA.extractLsb' 5 8 = d.account.index
    ∧ d.statusA.extractLsb' 1 4 = BitVec.ofNat 4 d.account.wakeRefresh ∧ d.statusA.getLsbD 0 = d.port.overflow := by
  have number : d.ownNumber = d.member.straps.map Straps.number := rfl
  cases h : d.member.straps <;> rw [number, h] <;>
    exact statusWordA_fields _ _ _ _ _ _ _ _ _ _ (by unfold Device.statusA; rw [h]; rfl)

theorem Device.statusB_fields : d.statusB.extractLsb' 24 6 = d.member.members ∧ d.statusB.extractLsb' 16 6 = d.member.syncPending
    ∧ d.statusB.extractLsb' 8 6 = d.retention.votes := by
  unfold Device.statusB
  simp (disch := decide) only [BitVec.extractLsb'_append_eq_of_le, BitVec.extractLsb'_append_eq_of_add_le, Nat.reduceSub,
    BitVec.extractLsb'_eq_self, and_self]

theorem Device.statusC_fields : d.statusC.extractLsb' 24 5 = BitVec.ofNat 5 d.port.queue.length
    ∧ d.statusC.extractLsb' 16 5 = BitVec.ofNat 5 d.port.completions.length
    ∧ d.statusC.extractLsb' 8 5 = BitVec.ofNat 5 d.reservations ∧ d.statusC.extractLsb' 0 4 = BitVec.ofNat 4 d.faults.length := by
  unfold Device.statusC
  simp (disch := decide) only [BitVec.extractLsb'_append_eq_of_le, BitVec.extractLsb'_append_eq_of_add_le, Nat.reduceSub,
    BitVec.extractLsb'_eq_self, and_self]

end

/-! ### The reset inputs -/

/-- The bursts in flight after a station reset: where and when they move as before, none of them this station's, and a WRITE of this
station's cut (R20). -/
theorem undriveOwn_spec (n : Nat) (l : List ArrayBurst) :
    (undriveOwn n l).2.map (fun i => (i.isWrite, i.bank, i.row, i.column, i.left))
        = l.map (fun i => (i.isWrite, i.bank, i.row, i.column, i.left))
      ∧ (undriveOwn n l).2.all (fun i => !i.own) = true
      ∧ ∀ q ∈ (undriveOwn n l).2.zip l, (q.2.isWrite = true ∧ q.2.own = true → q.1.cut = true)
        ∧ (q.2.isWrite = false ∨ q.2.own = false → q.1.data = q.2.data ∧ q.1.cut = q.2.cut) := by
  induction l generalizing n with
  | nil => exact ⟨rfl, rfl, fun q hq => by simp at hq⟩
  | cons i t ih =>
    unfold undriveOwn
    split
    · next own =>
      obtain ⟨same, foreign, cut⟩ := ih (n + 1)
      rw [Bool.and_eq_true] at own
      refine ⟨by simp [same], by simpa using foreign, fun q hq => ?_⟩
      rcases List.mem_cons.1 hq with rfl | hq
      · exact ⟨fun _ => rfl, fun h => by simp [own] at h⟩
      · exact cut q hq
    · next other =>
      obtain ⟨same, foreign, cut⟩ := ih n
      rw [Bool.and_eq_true] at other
      refine ⟨by simp [same], by simpa using foreign, fun q hq => ?_⟩
      rcases List.mem_cons.1 hq with rfl | hq
      · exact ⟨fun h => absurd h other, fun _ => ⟨rfl, rfl⟩⟩
      · exact cut q hq

/-! ### A write of a control word -/

section
variable (s : State)

theorem State.writeControl_of_reset {s : State} (h : s.after.outOfReset = false) (address : BitVec 3) (value : Word) :
    s.writeControl address value = s := if_pos h

/-- A write of word 0 is the operation it names: while a reset input is low that changes nothing either. -/
theorem State.writeControl_operation {value : Word} {act : State → State} (h : s.writeOperation value = s.control act) :
    s.writeControl 0#3 value = s.control act := by
  unfold State.writeControl
  cases out : s.after.outOfReset with
  | false => rw [if_pos rfl, State.control_of_reset _ out]
  | true => rw [if_neg (by decide), if_pos rfl, h]

theorem State.writeControl_profile0 {s : State} (h : s.after.outOfReset = true) (value : Word) :
    s.writeControl 1#3 value = s.close.updControl (fun c => { c with profile0 := value }) := by
  unfold State.writeControl
  rw [if_neg (by rw [h]; decide), if_neg (by decide), if_pos rfl]

theorem State.writeControl_profile1 {s : State} (h : s.after.outOfReset = true) (value : Word) :
    s.writeControl 2#3 value = s.close.updControl (fun c => { c with profile1 := value }) := by
  unfold State.writeControl
  rw [if_neg (by rw [h]; decide), if_neg (by decide), if_neg (by decide), if_pos rfl]

/-- A code that names no operation changes nothing (log entry 12). -/
theorem State.writeOperation_of_none {value : Word} (h : value = 0#32 ∨ 4 < value.toNat) : s.writeOperation value = s := by
  have other {k : Word} (hk : 1 ≤ k.toNat ∧ k.toNat ≤ 4) : value ≠ k := by
    rintro rfl
    rcases h with rfl | h
    · simp at hk
    · omega
  unfold State.writeOperation
  rw [if_neg (other (by decide)), if_neg (other (by decide)), if_neg (other (by decide)), if_neg (other (by decide))]

theorem State.writeControl_of_none {address : BitVec 3} {value : Word}
    (h : 3 ≤ address.toNat ∨ (address = 0#3 ∧ (value = 0#32 ∨ 4 < value.toNat))) : s.writeControl address value = s := by
  unfold State.writeControl
  split
  · rfl
  · rcases h with h | ⟨rfl, h⟩
    · have other {k : BitVec 3} (hk : k.toNat < 3) : address ≠ k := by rintro rfl; omega
      rw [if_neg (other (by decide)), if_neg (other (by decide)), if_neg (other (by decide))]
    · rw [if_pos rfl, State.writeOperation_of_none s h]

theorem State.updPins_strapped_self {s : State} (station : s.after.pins.stationStrap = s.now.pins.stationStrap)
    (peer : s.after.pins.peerStrap = s.now.pins.peerStrap) :
    s.updPins (Pins.strapped s.now.pins.stationStrap s.now.pins.peerStrap) = s := by
  have same : Pins.strapped s.now.pins.stationStrap s.now.pins.peerStrap s.after.pins = s.after.pins := by
    rw [← station, ← peer]; rfl
  unfold State.updPins
  rw [same]
  rfl

end

end Sys2Proof.Machine

section

open Sys2Proof Sys2Proof.Machine

/-- Settles O46. -/
theorem completionReadReturnsTheOldestEntry : Obligations.CompletionReadReturnsTheOldestEntry := by
  intro s
  refine ⟨fun first => ?_, fun again => congrArg Host.Outcome.next (if_pos again)⟩
  have reads : s.readCompletion = _ := if_neg (by rw [first]; decide)
  show Host.Outcome.next s.readCompletion = _
  rw [reads]
  unfold Device.completionWords Completion.words
  cases h : s.now.port.completions <;> simp [h, State.upd, State.close]

/-- Settles O47. -/
theorem startEntersRollCallOrIsRefused : Obligations.StartEntersRollCallOrIsRefused := by
  intro s number peers x answered out free
  have starts : exec (.start number peers) s
      = .next (State.startWith number peers (s.updPins (Pins.strapped number peers)).operating) :=
    congrArg Host.Outcome.next (State.control_of_free _ out free)
  rw [starts]
  refine ⟨fun ⟨standby, valid, low, high, below⟩ => ?_, fun ⟨standby, invalid⟩ => ?_, fun other => ?_⟩ <;>
    refine congrArg Host.Outcome.next ?_
  · refine (if_pos standby).trans ?_
    rw [strapsOf_of_valid valid low high below]
    rfl
  · refine (if_pos standby).trans ?_
    rw [strapsOf_of_invalid invalid]
    rfl
  · exact if_neg other

/-- Settles O48. -/
theorem profileLoadReplacesTheProfileOrIsRefused : Obligations.ProfileLoadReplacesTheProfileOrIsRefused := by
  intro s w0 w1 interval hold window inside answered out free
  have loads : exec .profileLoad s = .next s.operating.loadProfile := congrArg Host.Outcome.next (State.control_of_free _ out free)
  have ranges := profileOf_inRange_iff w0 w1
  rw [loads]
  refine ⟨fun ⟨standby, inside⟩ => ?_, fun ⟨standby, outside⟩ => ?_, fun other => ?_⟩ <;> refine congrArg Host.Outcome.next ?_
  · exact (if_pos standby).trans (if_pos (ranges.2 inside))
  · exact (if_pos standby).trans (if_neg fun h => outside (ranges.1 h))
  · exact if_neg other

/-- Settles O49. -/
theorem controlWindowReadsAndWrites : Obligations.ControlWindowReadsAndWrites := by
  intro s address number peers value a b c idle strapped
  have next {f g : State} (h : f = g) : (Host.Outcome.next f : Host.Outcome State Fault Refusal) = .next g := congrArg _ h
  refine ⟨fun ⟨out, free⟩ => ⟨_, next (State.control_of_free _ out free), rfl, rfl, rfl, rfl, rfl, rfl, rfl, rfl, rfl⟩, ?_,
    fun ⟨out, free⟩ => ⟨_, next (State.control_of_free _ out free), rfl, rfl, rfl, rfl, rfl, rfl, rfl, rfl, rfl, rfl⟩,
    fun ⟨out, placed⟩ => next (State.control_of_placed _ out placed),
    fun ⟨out, placed⟩ => next (State.control_of_placed _ out placed),
    fun ⟨out, placed⟩ => next (State.control_of_placed _ out placed),
    fun ⟨out, placed⟩ => next (State.control_of_placed (s := s.updPins (Pins.strapped number peers)) _ out placed),
    fun reset => next (State.control_of_reset (s := s.updPins (Pins.strapped number peers)) _ reset), ?_, ?_, ?_, ?_, ?_⟩
  · obtain ⟨b1, b2, b3⟩ := s.now.statusB_fields
    obtain ⟨a1, a2, a3, a4, a5, a6, a7, a8, a9⟩ := s.now.statusA_fields
    exact ⟨a1, a2, a3, a4, a5, a6, a7, a8, a9, b1, b2, b3, s.now.statusC_fields⟩
  · intro reset c mem
    simp only [List.mem_cons, List.not_mem_nil, or_false] at mem
    rcases mem with rfl | rfl | rfl | rfl
    · exact next (State.control_of_reset _ reset)
    · exact next (State.control_of_reset _ reset)
    · exact next (State.control_of_reset _ reset)
    · exact next (State.writeControl_of_reset reset _ _)
  · rintro ⟨out, rfl⟩
    exact next (State.writeControl_profile0 out value)
  · rintro ⟨out, rfl⟩
    exact next (State.writeControl_profile1 out value)
  · exact fun none => next (s.writeControl_of_none none)
  · refine ⟨next (s.writeControl_operation rfl), next (s.writeControl_operation rfl), next (s.writeControl_operation rfl),
      fun ⟨station, peer⟩ => ?_⟩
    refine (next (s.writeControl_operation rfl)).trans (congrArg Host.Outcome.next ?_)
    rw [State.updPins_strapped_self station peer]

/-- Settles O50. -/
theorem laneResetSetsEveryResetValue : Obligations.LaneResetSetsEveryResetValue := by
  intro s
  refine ⟨s.resetLane, rfl, Device.holdsResetValues_stationReset _ _, rfl, rfl, rfl, ⟨rfl, rfl, rfl, ArrayDie.reset_banks _⟩, rfl, rfl,
    fun address outside => readByte_cutWrites s.free s.now.array.inFlight s.now.array.mem outside⟩

/-- Settles O51. -/
theorem stationResetSetsTheStationAlone : Obligations.StationResetSetsTheStationAlone := by
  intro s pin
  refine ⟨⟨s.resetStation, rfl, ⟨Device.holdsResetValues_stationReset _ _, Device.holdsResetValues_stationReset _ _⟩, ⟨rfl, rfl⟩,
    ⟨rfl, rfl⟩, ?_, rfl, rfl, rfl⟩, ?_, ?_⟩
  · intro p mem
    rcases List.mem_cons.1 mem with rfl | mem
    · exact undriveOwn_spec s.free s.now.array.inFlight
    · rw [List.mem_singleton.1 mem]
      exact undriveOwn_spec s.free s.after.array.inFlight
  · rintro rfl; rfl
  · rintro rfl; rfl

end
end

