-- ==== Sys2Proof/Proofs/VetoedFrames.lean ====
section
/-! A frame vetoed (R77, R79, R84 to R86): its entries and counts, and the two limits; and the slots in which nobody acts on a frame. -/

namespace Sys2Proof.Machine

/-! ### Entries and leaving SYNCED -/

/-- The state with exactly these entries made at this close. -/
def State.noted (es : List FaultEntry) (s : State) : State :=
  { s with
    slot := { s.slot with entries := es }
    after := { s.after with faults := (if es = [] then s.after.faults else joinFaults s.faultBase es) } }

theorem State.noted_nil {s : State} (h : s.slot.entries = []) : s.noted [] = s := by
  show ({ s with slot := { s.slot with entries := [] } } : State) = s
  rw [← h]

theorem insertEntry_ne_nil (e : FaultEntry) (es : List FaultEntry) : insertEntry e es ≠ [] := by
  cases es with
  | nil => simp [insertEntry]
  | cons f t => unfold insertEntry; split <;> simp

theorem State.addFault_noted (e : FaultEntry) (es : List FaultEntry) (s : State) :
    (s.noted es).addFault e = s.noted (insertEntry e es) := by
  show _ = ({ s with
    slot := { s.slot with entries := insertEntry e es }
    after := { s.after with faults := (if insertEntry e es = [] then s.after.faults else joinFaults s.faultBase (insertEntry e es)) } } : State)
  rw [if_neg (insertEntry_ne_nil e es)]
  rfl

/-- The LEFT_SYNC entry of a close that has none yet comes last (R174). -/
theorem State.enterUnsynced_getLast? {s : State} (h : ∀ e ∈ s.slot.entries, e.kind ≠ .leftSync) (r : LeftReason) (q : Bool) :
    (s.enterUnsynced r q).after.faults.getLast? = some ⟨.leftSync, s.entryIndex, none, none, none, some r⟩ := by
  rw [State.enterUnsynced_after_faults, insertEntry_leftSync rfl fun e he => h e (List.mem_of_mem_filter he),
    joinFaults_concat_getLast?]

/-! ### The entries of a vetoed frame -/

section
variable (own : Bool) (reason : Option VetoReason) (k : Option FrameKind) (h : Heard)

/-- The entries a vetoed frame makes in a slot that has made none: the vetoer's, and the sender's (R77, R79). -/
def State.entriesOfVeto (s : State) : List FaultEntry :=
  (reason.map (fun r => (⟨r.entryKind, s.now.account.index, some h.sender, bankHeard k h, k, none⟩ : FaultEntry))).toList
    ++ (if own then (s.slot.candidate.map (fun f =>
      (⟨.ownVetoed, s.now.account.index, none, f.body.bank?, some f.body.kind, none⟩ : FaultEntry))).toList else [])

theorem State.entriesOfVeto_ne_leftSync (s : State) : ∀ e ∈ s.entriesOfVeto own reason k h, e.kind ≠ .leftSync := by
  intro e he
  unfold State.entriesOfVeto at he
  rcases List.mem_append.1 he with he | he
  · obtain ⟨r, -, rfl⟩ := Option.mem_map.1 (Option.mem_toList.1 he)
    cases r <;> exact fun e => nomatch e
  · split at he
    · obtain ⟨f, -, rfl⟩ := Option.mem_map.1 (Option.mem_toList.1 he)
      exact fun e => nomatch e
    · simp at he

/-- The sender's entry stands behind the vetoer's (R174). -/
theorem insertEntry_ownVetoed (r : VetoReason) (e f : FaultEntry) (he : e.kind = .ownVetoed) (hf : f.kind = r.entryKind) :
    insertEntry e [f] = [f, e] := by
  have after : e.before f = false := by
    rw [FaultEntry.before, he, hf]
    cases r <;> rfl
  rw [insertEntry, after]
  rfl

theorem State.vetoEntries_of_counted {s : State} (c : s.counted) :
    s.hearing.vetoEntries own reason k h = s.hearing.noted (s.entriesOfVeto own reason k h) := by
  have index (es : List FaultEntry) : (s.hearing.noted es).entryIndex = s.now.account.index := c.entryIndex
  have nothing : s.hearing.noted [] = s.hearing := State.noted_nil c.2.1
  have vetoer (r : VetoReason) (es : List FaultEntry) : (s.hearing.noted es).vetoEntry r k h
      = s.hearing.noted (insertEntry ⟨r.entryKind, s.now.account.index, some h.sender, bankHeard k h, k, none⟩ es) := by
    unfold State.vetoEntry State.entry
    rw [index, State.addFault_noted]
  have sender (es : List FaultEntry) : (s.hearing.noted es).ownVetoed = match s.slot.candidate with
      | some f => s.hearing.noted (insertEntry ⟨.ownVetoed, s.now.account.index, none, f.body.bank?, some f.body.kind, none⟩ es)
      | none => s.hearing.noted es := by
    have same : (s.hearing.noted es).slot.candidate = s.slot.candidate := rfl
    unfold State.ownVetoed State.entry
    rw [same, index]
    cases s.slot.candidate with
    | none => rfl
    | some f => exact State.addFault_noted _ es s.hearing
  rw [← nothing]
  unfold State.vetoEntries State.entriesOfVeto
  rcases reason with _ | r <;> cases own
  · rfl
  · rw [sender]
    cases s.slot.candidate <;> rfl
  · exact vetoer r []
  · dsimp only
    rw [vetoer, sender]
    cases s.slot.candidate with
    | none => rfl
    | some f =>
      show s.hearing.noted (insertEntry _ [_]) = _
      rw [insertEntry_ownVetoed r _ _ rfl rfl]
      rfl

/-! ### The counts and the limits -/

variable {own reason k h} {s : State} (vetoer : Bool)

/-- Does the own consecutive-veto count reach its limit at this veto (R84)? -/
def State.overVeto (own : Bool) (s : State) : Prop :=
  own = true ∧ (s.now.member.state = .synced ∨ s.now.member.state = .rollCall) ∧ 4 ≤ s.now.lane.vetoCount

/-- Does the dissent count reach its limit at this veto (R85)? -/
def State.overDissent (vetoer : Bool) (s : State) : Prop :=
  vetoer = true ∧ s.now.member.state = .synced ∧ 3 ≤ s.now.lane.dissent

theorem State.countVeto_of_overVeto (h : s.overVeto own) : s.countVeto own vetoer = s.enterUnsynced .vetoLimit false := by
  obtain ⟨rfl, state, four⟩ := h
  have limit : Config.vetoLimit ≤ s.now.lane.vetoCount + 1 := Nat.succ_le_succ four
  unfold State.countVeto
  rcases state with state | state <;> rw [state] <;> dsimp only
  · exact if_pos ⟨rfl, limit⟩
  · exact if_pos limit

theorem State.countVeto_of_overDissent (h : ¬ s.overVeto own) (h' : s.overDissent vetoer) :
    s.countVeto own vetoer = s.enterUnsynced .dissentLimit false := by
  obtain ⟨rfl, state, three⟩ := h'
  unfold State.countVeto
  rw [state]
  dsimp only
  have below : ¬ (own = true ∧ Config.vetoLimit ≤ s.now.lane.vetoCount + 1) :=
    fun ⟨own, four⟩ => h ⟨own, .inl state, Nat.le_of_succ_le_succ four⟩
  have limit : Config.dissentLimit ≤ s.now.lane.dissent + 1 := Nat.succ_le_succ three
  rw [if_neg below, if_pos ⟨rfl, limit⟩]

/-- Short of a limit a veto moves the two counts alone: the sender's in ROLL_CALL and SYNCED, the vetoer's in SYNCED. -/
theorem State.countVeto_of_below (h : ¬ s.overVeto own) (h' : ¬ s.overDissent vetoer)
    (lane : s.after.lane = s.now.lane) : s.countVeto own vetoer = s.upd (fun d => { d with lane :=
      ⟨if own && (s.now.member.state == .synced || s.now.member.state == .rollCall) then s.now.lane.vetoCount + 1
        else s.now.lane.vetoCount,
       if vetoer && s.now.synced then s.now.lane.dissent + 1 else s.now.lane.dissent, s.now.lane.turn⟩ }) := by
  have still : s = s.upd (fun d => { d with lane := ⟨s.now.lane.vetoCount, s.now.lane.dissent, s.now.lane.turn⟩ }) := by
    show s = { s with after := { s.after with lane := s.now.lane } }
    rw [← lane]
  unfold State.countVeto Device.synced
  cases state : s.now.member.state <;> dsimp only
  · simpa using still
  · cases own
    · simpa using still
    · have below : ¬ Config.vetoLimit ≤ s.now.lane.vetoCount + 1 :=
        fun four => h ⟨rfl, .inr state, Nat.le_of_succ_le_succ four⟩
      rw [if_pos rfl, if_neg below]
      simp [State.upd, lane]
  · simpa using still
  · have below : ¬ (own = true ∧ Config.vetoLimit ≤ s.now.lane.vetoCount + 1) :=
      fun ⟨own, four⟩ => h ⟨own, .inl state, Nat.le_of_succ_le_succ four⟩
    have below' : ¬ (vetoer = true ∧ Config.dissentLimit ≤ s.now.lane.dissent + 1) :=
      fun ⟨v, three⟩ => h' ⟨v, state, Nat.le_of_succ_le_succ three⟩
    rw [if_neg below, if_neg below']
    simp [State.upd, lane]
  · simpa using still

/-- A vetoed frame in a slot in which nothing has happened. -/
theorem exec_vetoed (begun : s.begun) (c : s.counted) (high : s.now.pins.lrstN = true) (v : s.vetoes k h) (data : Burst) :
    exec (frameCommand k h data) s
      = .next ((s.hearing.noted (s.entriesOfVeto s.slot.won (stationVerdict s.now k h (s.readBackBad k h)) k h)).countVeto
          s.slot.won (stationVerdict s.now k h (s.readBackBad k h)).isSome) := by
  rw [exec_frameCommand begun, State.heard_of_vetoed high _ v, State.vetoed, State.vetoEntries_of_counted _ _ _ _ c]

/-- An arbitration field of all ones carries no frame (R69). -/
theorem State.laneEmpty_of_ones (cls : h.cls = 3#2) (tie : h.tie = 7#3) (sender : h.sender = 7#3) (s : State)
    (won : s.slot.won = false) : s.laneEmpty none h = true := by
  unfold State.laneEmpty fieldHeard codeHeard
  rw [cls, tie, sender, won]
  decide

/-- While LRST_N is low nobody acts on a frame (R89, R184). -/
theorem State.heard_of_low (low : s.now.pins.lrstN = false) (data : Burst) : State.heard k h data s = s.hearing := by
  unfold State.heard
  exact if_pos (.inl low)

end

end Sys2Proof.Machine

section

open Sys2Proof Sys2Proof.Machine

/-- Settles O26: the entries by `State.vetoEntries_of_counted`, the counts by `State.countVeto_of_below`. -/
theorem vetoedFrameChangesOnlyCountsAndEntries : Obligations.VetoedFrameChangesOnlyCountsAndEntries := by
  intro s h k data own verdict counting entries begun
  refine ⟨fun ⟨counted, high, vetoes, below, below'⟩ => ?_, fun nobody => ?_⟩
  · have e := exec_vetoed begun counted high vetoes data
    rw [State.countVeto_of_below] at e
    · refine ⟨_, e, ?_, rfl, rfl⟩
      rw [← counted.faultBase]
      rfl
    · rintro ⟨won, state, four⟩
      refine below ⟨won, ?_, four⟩
      rcases state with state | state <;>
        simp only [counting, show s.now.member.state = _ from state] <;> rfl
    · exact below'
    · exact counted.lane
  · rw [exec_frameCommand begun]
    rcases nobody with low | ⟨rfl, cls, tie, sender, won⟩
    · rw [State.heard_of_low low]; rfl
    · rw [State.heard_of_empty (State.laneEmpty_of_ones cls tie sender s won)]; rfl

/-- Settles O27: the veto limit first (`State.countVeto_of_overVeto`), then the dissent limit. -/
theorem vetoLimitsLeaveForUnsynced : Obligations.VetoLimitsLeaveForUnsynced := by
  intro s h k data overVeto overDissent begun counted high vetoes limit
  have e := exec_vetoed begun counted high vetoes data
  have leaves : (s.hearing.noted (s.entriesOfVeto s.slot.won (stationVerdict s.now k h (s.readBackBad k h)) k h)).countVeto
      s.slot.won (stationVerdict s.now k h (s.readBackBad k h)).isSome
      = (s.hearing.noted (s.entriesOfVeto s.slot.won (stationVerdict s.now k h (s.readBackBad k h)) k h)).enterUnsynced
        (if overVeto then .vetoLimit else .dissentLimit) false := by
    by_cases veto : overVeto
    · rw [if_pos veto, State.countVeto_of_overVeto]
      exact veto
    · rw [if_neg veto, State.countVeto_of_overDissent]
      · exact veto
      · exact limit.resolve_left veto
  rw [leaves] at e
  refine ⟨_, e, rfl, rfl, rfl, rfl, rfl, rfl, rfl, rfl, rfl, rfl, ?_, rfl, rfl, rfl, ?_, ?_, rfl, rfl, rfl, rfl, rfl, ?_⟩
  · exact (congrArg Membership.straps counted.member).trans rfl
  · exact (congrArg Retention.ownVote counted.retention).trans rfl
  · rw [← counted.resume]; rfl
  · rw [State.enterUnsynced_getLast? (State.entriesOfVeto_ne_leftSync _ _ _ _ s), ← counted.entryIndex]
    rfl

end
end

