-- ==== Sys2Proof/Proofs/StationsAway.lean ====
section
/-! A frame nobody vetoes at a station that is not synced, or leaves SYNCED at this close (R83, R91 to R111). -/

namespace Sys2Proof.Machine

section
variable {h : Heard} {f : Frame} {s : State}

/-! ### The acceptance by station state -/

theorem stationVerdict_of_judge (c : Carried h f s) (synced : s.now.member.state = .synced) (legal : judge s.now f = none) :
    stationVerdict s.now (some f.body.kind) h (s.readBackBad (some f.body.kind) h) = none := by
  unfold stationVerdict
  rw [c.back, synced]
  simp [c.check, c.form, legal]

theorem exec_carried (c : Carried h f s) (data : Burst)
    (v : stationVerdict s.now (some f.body.kind) h (s.readBackBad (some f.body.kind) h) = none) :
    exec (frameCommand (some f.body.kind) h data) s = .next (s.hearing.accepted s.slot.won f (frameData f.body.kind data)) := by
  rw [exec_frame c.begun, State.heard_of_carried c v]

section
variable (data : Burst)

theorem State.accepted_of_idle (h : s.now.member.state = .standby ∨ s.now.member.state = .mismatch) :
    s.hearing.accepted s.slot.won f data = s.applying f data := by
  have same : s.hearing.now.member.state = s.now.member.state := rfl
  unfold State.accepted
  simp only [State.upd_now, same]
  rcases h with h | h <;> rw [h] <;> rfl

theorem State.accepted_of_rollCall (h : s.now.member.state = .rollCall) : s.hearing.accepted s.slot.won f data
    = ((s.applying f data).compareProfile f.sender f.body).acceptInRollCall s.slot.won f := by
  have same : s.hearing.now.member.state = s.now.member.state := rfl
  unfold State.accepted
  simp only [State.upd_now, same, h]
  rfl

theorem State.accepted_of_unsynced (h : s.now.member.state = .unsynced) : s.hearing.accepted s.slot.won f data
    = ((s.applying f data).compareProfile f.sender f.body).acceptUnsynced s.slot.won f := by
  have same : s.hearing.now.member.state = s.now.member.state := rfl
  unfold State.accepted
  simp only [State.upd_now, same, h]
  rfl

theorem State.accepted_of_synced (h : s.now.member.state = .synced) : s.hearing.accepted s.slot.won f data
    = ((s.applying f data).compareProfile f.sender f.body).acceptSynced s.slot.won f := by
  have same : s.hearing.now.member.state = s.now.member.state := rfl
  unfold State.accepted
  simp only [State.upd_now, same, h]
  rfl

/-! ### The comparison of the profile -/

/-- The entry of a ROLL CALL or SYNC REQUEST that does not agree (R94). -/
def State.mismatchEntries (f : Frame) (s : State) : List FaultEntry :=
  if s.now.profileAgrees f.sender f.body then []
  else [⟨.profileMismatch, s.now.account.index, some (BitVec.ofNat 3 f.sender.val), none, some f.body.kind, none⟩]

/-- The state in which the station takes an accepted frame: the array has applied it and the comparison is made. -/
def State.compared (f : Frame) (data : Burst) (s : State) : State := (s.applying f data).noted (s.mismatchEntries f)

theorem State.compareProfile_of_counted (c : s.counted) :
    (s.applying f data).compareProfile f.sender f.body = s.compared f data := by
  have nothing : (s.applying f data).noted [] = s.applying f data := State.noted_nil c.2.1
  have index : (s.applying f data).entryIndex = s.now.account.index := c.entryIndex
  have same : (s.applying f data).now = s.now := rfl
  unfold State.compareProfile State.compared State.mismatchEntries
  rw [same]
  split
  · exact nothing.symm
  · unfold State.mismatchEntry State.entry
    rw [index]
    conv_lhs => rw [← nothing]
    exact State.addFault_noted _ [] _

theorem State.compared_faults (c : s.counted) : (s.compared f data).after.faults
    = if s.now.profileAgrees f.sender f.body then s.after.faults else joinFaults s.now.faults
        [⟨.profileMismatch, s.now.account.index, some (BitVec.ofNat 3 f.sender.val), none, some f.body.kind, none⟩] := by
  have base : (s.applying f data).faultBase = s.now.faults := c.faultBase
  show (if s.mismatchEntries f = [] then s.after.faults else joinFaults (s.applying f data).faultBase (s.mismatchEntries f)) = _
  rw [base]
  unfold State.mismatchEntries
  split <;> simp

theorem State.compared_of_agrees (c : s.counted) (agrees : s.now.profileAgrees f.sender f.body = true) :
    s.compared f data = s.applying f data := by
  rw [← State.compareProfile_of_counted data c]
  exact State.compareProfile_of_agrees agrees

theorem State.mismatchEntries_ne_leftSync (s : State) : ∀ e ∈ s.mismatchEntries f, e.kind ≠ .leftSync := by
  intro e he
  unfold State.mismatchEntries at he
  split at he
  · simp at he
  · rw [List.mem_singleton.1 he]
    exact fun e => nomatch e

/-- Leaving for UNSYNCED from a slot that has made the comparison's entry at most. -/
theorem State.enterUnsynced_compared (c : s.counted) (g : Device → Device) (r : LeftReason) (q : Bool) :
    (((s.compared f data).upd g).enterUnsynced r q).after.faults.getLast?
      = some ⟨.leftSync, s.now.account.index, none, none, none, some r⟩ := by
  rw [State.enterUnsynced_getLast? (State.mismatchEntries_ne_leftSync s), ← c.entryIndex]
  rfl

end

/-! ### UNSYNCED -/

theorem Device.heardUnsynced_eq (x : Station) (d : Device) : d.heardUnsynced x = { d with member := { d.member with
    ages := if d.isOwn x then d.member.ages.set x 0 else d.member.ages } } := by
  unfold Device.heardUnsynced
  split <;> rfl

theorem State.upd_heardUnsynced (x : Station) (u : State) : u.upd (Device.heardUnsynced x)
    = u.upd (fun d => { d with member := { d.member with
        ages := if d.isOwn x then d.member.ages.set x 0 else d.member.ages } }) := by
  unfold State.upd
  rw [Device.heardUnsynced_eq]

theorem State.acceptUnsynced_eq (other : f.body.kind ≠ .fullRefresh) (own : Bool) (u : State) : u.acceptUnsynced own f
    = u.upd (fun d => { d with member := { d.member with
        requestMade := d.member.requestMade || (own && f.body.kind == .syncRequest)
        ages := if d.isOwn f.sender then d.member.ages.set f.sender 0 else d.member.ages } }) := by
  unfold State.acceptUnsynced
  cases hb : f.body
  case fullRefresh => exact absurd (by rw [hb]; rfl) other
  case syncRequest =>
    cases own <;> simp [State.upd, Device.heardUnsynced_eq, Body.kind]
  all_goals simp [State.upd, Device.heardUnsynced_eq, Body.kind]

/-! ### ROLL_CALL -/

theorem State.ownAccepted_eq (own : Bool) (u : State) : u.ownAccepted own
    = u.upd (fun d => { d with lane := { d.lane with vetoCount := if own then 0 else d.lane.vetoCount } }) := by
  cases own <;> rfl

theorem State.acceptInRollCall_of_other (roll : f.body.kind ≠ .rollCall) (full : f.body.kind ≠ .fullRefresh) (own : Bool)
    (u : State) : u.acceptInRollCall own f = u.enterUnsynced .laneRunning u.after.member.rollCallAccepted := by
  unfold State.acceptInRollCall
  cases hb : f.body
  case fullRefresh => exact absurd (by rw [hb]; rfl) full
  case rollCall => exact absurd (by rw [hb]; rfl) roll
  all_goals rfl

theorem Device.profileAgrees_rollCall_iff (d : Device) (x : Station) (digest : BitVec 16) (peers : BitVec 3) :
    d.profileAgrees x (.rollCall digest peers) = true
      ↔ d.member.digest = some digest ∧ peers.toNat = d.peers ∧ x.val < d.peers := by
  simp [Device.profileAgrees, and_assoc]

/-- An accepted ROLL CALL in ROLL_CALL: an agreeing sender joins the set, and with N stations in it roll call ends (R96, R97). -/
def Device.rollCallTaken (own agrees : Bool) (x : Station) (d : Device) : Device :=
  let set := if agrees then d.member.rollCall.add x else d.member.rollCall
  let full := agrees && decide (d.peers ≤ (allStations.filter (fun y => set.has y)).length)
  { d with
    lane := { d.lane with vetoCount := if own then 0 else d.lane.vetoCount }
    member := { d.member with
      rollCall := set, rollCallAccepted := d.member.rollCallAccepted || own, rollCallEnded := d.member.rollCallEnded || full
      window := if full then none else d.member.window } }

theorem State.rollCallHeard_eq (own : Bool) (x : Station) (body : Body) (u : State) :
    u.rollCallHeard own x body = u.upd (Device.rollCallTaken own (u.now.profileAgrees x body) x) := by
  unfold State.rollCallHeard
  rw [State.ownAccepted_eq]
  show (if u.now.profileAgrees x body then _ else _) = _
  cases u.now.profileAgrees x body with
  | true => rfl
  | false => simp [State.upd, Device.rollCallTaken]

/-- Does the roll-call window read 1 with the own number not in the roll-call set (R97)? -/
def Device.rollCallDue (d : Device) : Bool :=
  d.member.window == some 1 && !(match d.ownNumber with | some x => d.member.rollCall.has x | none => false)

theorem State.rollCallLapses_of_counted (c : s.counted) : s.rollCallLapses = s.now.rollCallDue := by
  have window : dueAt s.now.member.window (s.now.member.window.map countDown) = (s.now.member.window == some 1) := by
    unfold dueAt
    by_cases h : s.now.member.window = some 1 <;> simp [h, countDown]
  unfold State.rollCallLapses Device.rollCallDue Device.ownInRollCall
  rw [c.ownNumber, c.member, window] <;> rfl

/-! ### FULL REFRESH at a waiting station -/

section
variable {u : State} {own first : Bool} {x : Station} {balanceAfter : Int} {members : StationSet} {digest : BitVec 16}

theorem State.fullRefreshInRollCall_of_named (equal : u.now.member.digest = some digest) (named : u.now.namedIn members = true) :
    u.fullRefreshInRollCall own x balanceAfter members first digest
      = (if first then (u.ownAccepted own).upd (Device.toSynced members first balanceAfter)
        else ((u.ownAccepted own).upd (Device.toSynced members first balanceAfter)).resyncedEntry x) :=
  (if_pos equal).trans (if_pos named)

theorem State.fullRefreshInRollCall_of_unnamed (equal : u.now.member.digest = some digest) (unnamed : u.now.namedIn members = false) :
    u.fullRefreshInRollCall own x balanceAfter members first digest
      = u.enterUnsynced (if u.rollCallLapses then .laneRunning else .leftOut) (u.rollCallLapses && u.after.member.rollCallAccepted) := by
  refine (if_pos equal).trans ((if_neg (by rw [unnamed]; decide)).trans ?_)
  cases u.rollCallLapses <;> rfl

theorem State.fullRefreshInRollCall_of_unequal (unequal : u.now.member.digest ≠ some digest) :
    u.fullRefreshInRollCall own x balanceAfter members first digest = (u.mismatchEntry x .fullRefresh).upd Device.toMismatch :=
  if_neg unequal

theorem State.fullRefreshUnsynced_of_named (equal : u.now.member.digest = some digest) (named : u.now.namedIn members = true) :
    u.fullRefreshUnsynced x balanceAfter members first digest
      = (u.upd (Device.toSynced members first balanceAfter)).resyncedEntry x :=
  (if_pos equal).trans (if_pos named)

theorem State.fullRefreshUnsynced_of_unnamed (equal : u.now.member.digest = some digest) (unnamed : u.now.namedIn members = false) :
    u.fullRefreshUnsynced x balanceAfter members first digest
      = u.upd (fun d => { d with member := { d.member with requestMade := false } }) :=
  (if_pos equal).trans (if_neg (by rw [unnamed]; decide))

theorem State.fullRefreshUnsynced_of_unequal (unequal : u.now.member.digest ≠ some digest) :
    u.fullRefreshUnsynced x balanceAfter members first digest = (u.mismatchEntry x .fullRefresh).upd Device.toMismatch :=
  if_neg unequal

end

/-- A picture made synced, in one piece (R16, R67, R99, R111, R127). -/
theorem Device.toSynced_eq (members : StationSet) (first : Bool) (balanceAfter : Int) (d : Device) :
    d.toSynced members first balanceAfter = { d with
      lane := { d.lane with dissent := 0, turn := 0 }
      mirror := ⟨Vector.replicate 12 ⟨.refreshing 14 .full, [], none, none⟩, none, none, none, .active⟩
      account := ⟨if first then 0 else balanceAfter, 0#12, 0#8, first, some d.member.profile.interval,
        if first then some 0 else none, false, 0⟩
      member := { d.member with
        state := .synced, members := members &&& BitVec.ofNat 6 (2 ^ d.peers - 1), syncPending := 0#6, rollCall := 0#6
        ages := Vector.replicate 6 0, window := none, rollCallEnded := false, rollCallAccepted := false, presence := none }
      retention := { d.retention with
        votes := 0#6, ageMark := none, wakingGuard := none
        resume := if d.retention.resume.map PendingResume.path == some .resync then none else d.retention.resume }
      port := { d.port with completions := d.port.completions
        ++ (if d.retention.resume.map PendingResume.path == some .resync then
              (d.retention.resume.map (fun r => ⟨r.tag, .done, 0, []⟩)).toList else []) } } := by
  unfold Device.toSynced
  rw [Device.resumeDone_spec]
  rfl

/-- What a FULL REFRESH reads of a waiting station: these items stand as at the slot's start, and the port as it would stand. -/
structure Device.WaitsAs (d : Device) (s : State) : Prop where
  peers : d.peers = s.now.peers
  profile : d.member.profile = s.now.member.profile
  resume : d.retention.resume = s.now.retention.resume
  ownVote : d.retention.ownVote = s.now.retention.ownVote
  port : d.port = s.after.port

theorem State.counted.waitsAs (c : s.counted) (own : Bool) (data : Burst) : ((s.applying f data).ownAccepted own).after.WaitsAs s := by
  rw [State.ownAccepted_eq]
  exact ⟨c.peers, c.profile, c.resume, (congrArg Retention.ownVote c.retention).trans rfl, rfl⟩

theorem State.counted.waitsAs_heard (c : s.counted) (x : Station) (data : Burst) :
    ((s.applying f data).upd (Device.heardUnsynced x)).after.WaitsAs s := by
  rw [State.upd_after, Device.heardUnsynced_eq]
  exact ⟨c.peers, c.profile, c.resume, (congrArg Retention.ownVote c.retention).trans rfl, rfl⟩

/-- The picture of a waiting station made synced, item by item. -/
theorem Device.WaitsAs.toSynced {d : Device} (w : d.WaitsAs s) (members : StationSet) (first : Bool) (balanceAfter : Int) :
    let e := d.toSynced members first balanceAfter
    let resync := s.now.retention.resume.map PendingResume.path == some .resync
    e.member.state = .synced ∧ e.member.members = (members &&& BitVec.ofNat 6 (2 ^ s.now.peers - 1))
      ∧ e.member.syncPending = 0#6 ∧ e.member.ages = Vector.replicate 6 0 ∧ e.lane.turn = 0
      ∧ (∀ c, e.bank c = ⟨.refreshing 14 .full, [], none, none⟩) ∧ e.mirror.array = .active
      ∧ e.mirror.lastOpen = none ∧ e.mirror.lastBankRefresh = none ∧ e.mirror.reservation = none
      ∧ e.account = ⟨if first then 0 else balanceAfter, 0#12, 0#8, first, some s.now.member.profile.interval,
          if first then some 0 else none, false, 0⟩
      ∧ e.retention.votes = 0#6 ∧ e.retention.ownVote = s.now.retention.ownVote
      ∧ e.retention.resume = (if resync then none else s.now.retention.resume)
      ∧ e.port = { s.after.port with completions := s.after.port.completions ++ (if resync then
          (s.now.retention.resume.map (fun r => ⟨r.tag, .done, 0, []⟩)).toList else []) } := by
  dsimp only
  rw [Device.toSynced_eq, w.peers, w.profile, w.resume, w.port]
  refine ⟨rfl, rfl, rfl, rfl, rfl, fun c => ?_, rfl, rfl, rfl, rfl, rfl, rfl, w.ownVote, rfl, rfl⟩
  simp [Device.bank]

/-- The first entry of a close that has made none, naming a station and a frame kind. -/
theorem State.addFault_first (c : s.counted) (x : Station) (kind : FaultKind) (k : FrameKind) {v : State} (now : v.now = s.now)
    (slot : v.slot = s.hearing.slot) :
    (v.addFault { v.entry kind with station := some (BitVec.ofNat 3 x.val), frame := some k }).after.faults
      = joinFaults s.now.faults [⟨kind, s.now.account.index, some (BitVec.ofNat 3 x.val), none, some k, none⟩] := by
  have base : v.faultBase = s.now.faults := by
    rw [← c.faultBase]
    simp only [State.faultBase, now, slot]
    rfl
  have index : v.entryIndex = s.now.account.index := by
    rw [← c.entryIndex]
    simp only [State.entryIndex, now, slot]
    rfl
  have none_yet : v.slot.entries = [] := by rw [slot]; exact c.2.1
  show joinFaults v.faultBase (insertEntry ⟨_, v.entryIndex, _, _, _, _⟩ v.slot.entries) = _
  rw [base, index, none_yet]
  rfl

end

end Sys2Proof.Machine

section

open Sys2Proof Sys2Proof.Machine

/-- Settles O28. -/
theorem stationsNotSyncedOrLeavingApplyNoFrame : Obligations.StationsNotSyncedOrLeavingApplyNoFrame := by
  intro s h f data carried counted
  refine ⟨fun idle => ?_, fun ⟨unsynced, other⟩ => ?_, fun ⟨synced, legal, drops⟩ => ?_⟩
  · have e := exec_carried carried data (stationVerdict_of_carried carried (by rcases idle with h | h <;> rw [h] <;> decide))
    rw [State.accepted_of_idle _ idle] at e
    exact ⟨_, e, rfl, rfl⟩
  · have e := exec_carried carried data (stationVerdict_of_carried carried (by rw [unsynced]; decide))
    rw [State.accepted_of_unsynced _ unsynced, State.compareProfile_of_counted _ counted, State.acceptUnsynced_eq other] at e
    refine ⟨_, e, ?_, rfl, rfl, rfl, rfl, rfl, rfl, State.compared_faults _ counted⟩
    have own : s.now.isOwn f.sender = s.after.isOwn f.sender := by
      unfold Device.isOwn
      rw [counted.ownNumber]
    have made : s.now.member.requestMade = s.after.member.requestMade := by rw [counted.member]
    rw [own, made, ← counted.ages]
    rfl
  · have e := exec_carried carried data (stationVerdict_of_judge carried synced legal)
    rw [State.accepted_of_synced _ synced, State.compareProfile_of_counted _ counted] at e
    have leaves : (s.compared f (frameData f.body.kind data)).acceptSynced s.slot.won f
        = ((s.compared f (frameData f.body.kind data)).recordOwnBurst s.slot.won f.body).enterUnsynced .selfDropped false :=
      if_pos ((State.dropsSelf_of_same f rfl rfl).trans drops)
    rw [leaves, State.recordOwnBurst_eq] at e
    refine ⟨_, e, rfl, rfl, rfl, rfl, rfl, rfl, rfl, ?_⟩
    exact State.enterUnsynced_compared _ counted _ _ _

/-- Settles O29. -/
theorem rollCallHearsRollCallsAndARunningLane : Obligations.RollCallHearsRollCallsAndARunningLane := by
  intro s h f digest peers data agrees set full carried counted rollCall
  have e := exec_carried carried data (stationVerdict_of_carried carried (by rw [rollCall]; decide))
  rw [State.accepted_of_rollCall _ rollCall, State.compareProfile_of_counted _ counted] at e
  refine ⟨fun hb => ?_, fun ⟨roll, other⟩ => ?_⟩
  · have agrees_eq : s.now.profileAgrees f.sender f.body = decide agrees := by
      rw [Bool.eq_iff_iff, decide_eq_true_iff, hb]
      exact s.now.profileAgrees_rollCall_iff f.sender digest peers
    have heard (u : State) : u.acceptInRollCall s.slot.won f = u.rollCallHeard s.slot.won f.sender f.body := by
      unfold State.acceptInRollCall
      rw [hb]
    have same : (s.compared f (frameData f.body.kind data)).now = s.now := rfl
    have command : exec (frameCommand (some f.body.kind) h data) s = exec (.rollCallFrame h) s := by rw [hb]; rfl
    rw [heard, State.rollCallHeard_eq, same, agrees_eq, command] at e
    have set_eq : set = if decide agrees then s.after.member.rollCall.add f.sender else s.after.member.rollCall := by
      rw [counted.member]
      simp [set]
    have accepted_eq : s.now.member.rollCallAccepted = s.after.member.rollCallAccepted := by rw [counted.member]
    have ended_eq : s.now.member.rollCallEnded = s.after.member.rollCallEnded := by rw [counted.member]
    have full_eq : full = (decide agrees && decide (s.after.peers ≤ (allStations.filter (fun y => set.has y)).length)) := by
      rw [counted.peers]
    refine ⟨_, e, ?_, ?_, rfl, rfl, rfl, rfl, ?_, ?_⟩
    · rw [full_eq, accepted_eq, ended_eq, set_eq]; rfl
    · rw [← counted.lane]; rfl
    · have idle := State.applying_of_idle (s := s) hb (fun _ _ _ => rfl) (frameData f.body.kind data)
      exact (congrArg Device.array idle).trans rfl
    · refine (State.compared_faults _ counted).trans ?_
      rw [agrees_eq, hb]
      simp only [decide_eq_true_eq]
      rfl
  · rw [State.acceptInRollCall_of_other roll other] at e
    refine ⟨_, e, rfl, ?_, rfl, rfl, ?_, rfl, rfl, rfl, ?_⟩
    · exact (congrArg Membership.rollCallAccepted counted.member).trans rfl
    · exact (congrArg Membership.digest counted.member).trans rfl
    · exact State.enterUnsynced_compared _ counted id _ _

/-- Settles O30. -/
theorem fullRefreshSettlesWaitingStations : Obligations.FullRefreshSettlesWaitingStations := by
  intro s h f balanceAfter members first digest carried counted state hb equal named resync lapses
  have agrees : s.now.profileAgrees f.sender f.body = true := by rw [hb]; rfl
  have notSynced : s.now.member.state ≠ .synced := by rcases state with h | h <;> rw [h] <;> decide
  have e := exec_carried carried 0#512 (stationVerdict_of_carried carried notSynced)
  have command : exec (frameCommand (some f.body.kind) h 0#512) s = exec (.fullRefreshFrame h) s := by rw [hb]; rfl
  have digest_iff : equal = true ↔ s.now.member.digest = some digest := beq_iff_eq
  rcases state with rollCall | unsynced
  · have heard (u : State) : u.acceptInRollCall s.slot.won f
        = u.fullRefreshInRollCall s.slot.won f.sender balanceAfter members first digest := by
      unfold State.acceptInRollCall
      rw [hb]
    rw [command, State.accepted_of_rollCall _ rollCall, State.compareProfile_of_agrees (s := s.applying f _) agrees, heard] at e
    refine ⟨_, e, fun ⟨eq, isNamed⟩ => ?_, fun ⟨eq, notNamed, _⟩ => ?_,
      fun ⟨_, _, unsynced⟩ => absurd (rollCall.symm.trans unsynced) (by decide), fun ne => ?_⟩
    · obtain ⟨f1, f2, f3, f4, f5, f6, f7, f8, f9, f10, f11, f12, f13, f14, f15⟩ :=
        (counted.waitsAs s.slot.won (frameData f.body.kind 0#512)).toSynced members first balanceAfter
      rw [State.fullRefreshInRollCall_of_named (u := s.applying f _) (digest_iff.1 eq) isNamed]
      rw [State.ownAccepted_eq] at f1 f2 f3 f4 f5 f6 f7 f8 f9 f10 f11 f12 f13 f14 f15 ⊢
      cases first with
      | true =>
        refine ⟨f1, f2, f3, f4, f5, f6, f7, f8, f9, f10, f11, f12, f13, f14, f15, Eq.trans ?_ (if_pos ⟨rfl, rollCall⟩).symm⟩
        show (Device.toSynced members true balanceAfter _).faults = _
        rw [Device.toSynced_eq]
        rfl
      | false =>
        refine ⟨f1, f2, f3, f4, f5, f6, f7, f8, f9, f10, f11, f12, f13, f14, f15, Eq.trans ?_ (if_neg (by simp)).symm⟩
        exact State.addFault_first counted f.sender .resynced .fullRefresh rfl rfl
    · have due (d : Burst) : (s.applying f d).rollCallLapses = lapses :=
        (show (s.applying f d).rollCallLapses = s.rollCallLapses from rfl).trans (State.rollCallLapses_of_counted counted)
      rw [State.fullRefreshInRollCall_of_unnamed (u := s.applying f _) (digest_iff.1 eq) notNamed, due]
      refine ⟨rfl, rfl, ?_, ?_⟩
      · exact congrArg (lapses && ·) ((congrArg Membership.rollCallAccepted counted.member).trans rfl)
      · rw [State.enterUnsynced_getLast?, ← counted.entryIndex]
        · rfl
        · rw [show (s.applying f (frameData f.body.kind 0#512)).slot.entries = [] from counted.2.1]
          simp
    · rw [State.fullRefreshInRollCall_of_unequal (u := s.applying f _) fun eq => absurd ((digest_iff.2 eq).symm.trans ne) (by decide)]
      exact ⟨rfl, rfl, rfl, rfl, rfl, rfl, rfl, rfl, rfl, rfl, State.addFault_first counted f.sender .profileMismatch .fullRefresh rfl rfl⟩
  · have heard (u : State) : u.acceptUnsynced s.slot.won f
        = (u.upd (Device.heardUnsynced f.sender)).fullRefreshUnsynced f.sender balanceAfter members first digest := by
      unfold State.acceptUnsynced
      rw [hb]
    rw [command, State.accepted_of_unsynced _ unsynced, State.compareProfile_of_agrees (s := s.applying f _) agrees, heard] at e
    refine ⟨_, e, fun ⟨eq, isNamed⟩ => ?_, fun ⟨_, _, rollCall⟩ => absurd (rollCall.symm.trans unsynced) (by decide),
      fun ⟨eq, notNamed, _⟩ => ?_, fun ne => ?_⟩
    · obtain ⟨f1, f2, f3, f4, f5, f6, f7, f8, f9, f10, f11, f12, f13, f14, f15⟩ :=
        (counted.waitsAs_heard f.sender (frameData f.body.kind 0#512)).toSynced members first balanceAfter
      rw [State.fullRefreshUnsynced_of_named (u := (s.applying f _).upd _) (digest_iff.1 eq) isNamed]
      refine ⟨f1, f2, f3, f4, f5, f6, f7, f8, f9, f10, f11, f12, f13, f14, f15, ?_⟩
      rw [if_neg fun h => absurd (unsynced.symm.trans h.2) (by decide)]
      exact State.addFault_first counted f.sender .resynced .fullRefresh rfl rfl
    · rw [State.fullRefreshUnsynced_of_unnamed (u := (s.applying f _).upd _) (digest_iff.1 eq) notNamed]
      rw [State.upd_after, State.upd_after, Device.heardUnsynced_eq]
      exact ⟨(congrArg Membership.state counted.member).trans unsynced, rfl, rfl, rfl⟩
    · rw [State.fullRefreshUnsynced_of_unequal (u := (s.applying f _).upd _)
        fun eq => absurd ((digest_iff.2 eq).symm.trans ne) (by decide)]
      rw [State.upd_heardUnsynced]
      exact ⟨rfl, rfl, rfl, rfl, rfl, rfl, rfl, rfl, rfl, rfl, State.addFault_first counted f.sender .profileMismatch .fullRefresh rfl rfl⟩

end
end

