-- ==== Sys2Proof/Proofs/EveryAcceptance.lean ====
section
/-! What every acceptance at a synced station does and leaves (R73, R78, R84, R85, R102), and the slot in which a frame falls (R69). -/

namespace Sys2Proof.Machine

/-- A RESUME that waits on the vote path waits on the wake path (R127). -/
def PendingResume.awaitWake (r : PendingResume) : PendingResume := if r.path = .vote then { r with path := .wake } else r

/-- The queue without the entry of a completed RETAIN, if there is one. -/
def dropDone (done : Option Tag) (q : List Entry) : List Entry :=
  match done with
  | some g => q.filter (fun e => e.tag != g)
  | none => q

/-- An accepted RETAIN in one piece (R118, R127): the own RETAIN request is done where the own vote is set. -/
theorem Device.retainTaken_eq (d : Device) : d.retainTaken
    = { d with
        mirror := { d.mirror with array := .retaining }
        retention := { d.retention with
          ownVote := false, ageMark := some 0, resume := d.retention.resume.map PendingResume.awaitWake }
        port := { d.port with
          queue := dropDone (if d.retention.ownVote then retainEntry d.port.queue else none) d.port.queue
          completions := d.port.completions ++ ((if d.retention.ownVote then retainEntry d.port.queue else none).map
            (fun g => ⟨g, .done, 0, []⟩)).toList } } := by
  have moved (e : Device) : (match e.retention.resume with
      | some r => if r.path = .vote then e.resumeTo .wake else e
      | none => e) = { e with retention := { e.retention with resume := e.retention.resume.map PendingResume.awaitWake } } := by
    have still (h : e.retention.resume.map PendingResume.awaitWake = e.retention.resume) : e
        = { e with retention := { e.retention with resume := e.retention.resume.map PendingResume.awaitWake } } := by
      rw [h]
    cases h : e.retention.resume with
    | none => exact (still (by rw [h]; rfl)).trans (by rw [h])
    | some r =>
      by_cases hp : r.path = .vote
      · simp [PendingResume.awaitWake, hp, Device.resumeTo, h]
      · exact (if_neg hp).trans ((still (by simp [h, PendingResume.awaitWake, hp])).trans (by rw [h]))
  refine (moved _).trans ?_
  cases hv : d.retention.ownVote with
  | false => simp [hv, dropDone]
  | true =>
    unfold Device.completeRetain
    cases retainEntry d.port.queue <;> simp [hv, Device.post, Device.setQueue, plainCompletion, dropTag, dropDone]

/-- What a body's effect keeps at a synced station, and what it does to the membership unit and to the array's contents. -/
structure State.BodyKeeps (body : Body) (t s : State) : Prop where
  now : t.now = s.now
  pending : t.pending = s.pending
  windowOut : t.windowOut = s.windowOut
  free : t.free = s.free
  heard : t.slot.frameHeard = s.slot.frameHeard
  closing : t.slot.closing = s.slot.closing
  lane : t.after.lane = s.after.lane
  pins : t.after.pins = s.after.pins
  member : t.after.member = { s.after.member with
    members := t.after.member.members, syncPending := t.after.member.syncPending
    ages := if body.kind = .fullRefresh then Vector.replicate 6 0 else s.after.member.ages }
  sets : body.kind ≠ .fullRefresh ∧ body.kind ≠ .syncRequest ∧ body.kind ≠ .rollCall → t.after.member = s.after.member
  mem : t.after.array.mem = if body.kind = .mark ∧ 48 < s.after.account.balance ∧ s.after.mirror.array ≠ .retaining
    then s.after.array.mem.unassured else s.after.array.mem

section
variable {s : State} {own : Bool} {x : Station}

/-- A body that leaves the membership unit and the array alone. -/
theorem State.BodyKeeps.of_upd {body : Body} {g : Device → Device} (lane : (g s.after).lane = s.after.lane)
    (pins : (g s.after).pins = s.after.pins) (member : (g s.after).member = s.after.member)
    (array : (g s.after).array = s.after.array) (full : body.kind ≠ .fullRefresh) (mark : body.kind ≠ .mark) :
    (s.upd g).BodyKeeps body s where
  now := rfl
  pending := rfl
  windowOut := rfl
  free := rfl
  heard := rfl
  closing := rfl
  lane := lane
  pins := pins
  member := by rw [State.upd_after, member, if_neg full]
  sets _ := member
  mem := by rw [State.upd_after, array, if_neg fun h => mark h.1]

/-- A body that works on the refresh pointers alone. -/
theorem State.BodyKeeps.of_id {body : Body} (t : State) (full : body.kind ≠ .fullRefresh) (mark : body.kind ≠ .mark) :
    t.BodyKeeps body t :=
  .of_upd (s := t) (g := id) rfl rfl rfl rfl full mark

/-- A profile-bearing body at most adds its sender to the sync-pending set. -/
theorem State.BodyKeeps.of_asked {body : Body} (agrees : Bool) (full : body.kind ≠ .fullRefresh) (mark : body.kind ≠ .mark)
    (asks : body.kind = .syncRequest ∨ body.kind = .rollCall) :
    (if agrees then s.upd (Device.syncAsked x) else s).BodyKeeps body s := by
  cases agrees with
  | false => exact .of_id s full mark
  | true =>
    exact {
      now := rfl, pending := rfl, windowOut := rfl, free := rfl, heard := rfl, closing := rfl, lane := rfl, pins := rfl
      member := by rw [if_neg full]; rfl
      sets := fun no => by rcases asks with asks | asks <;> simp [asks] at no
      mem := (if_neg fun h => mark h.1).symm }

end

theorem State.BodyKeeps.close (own : Bool) (x : Station) (b : Bank) (forced : Bool) (s : State) :
    (s.bodyTaken own x (.close b forced)).BodyKeeps (.close b forced) s := by
  have quiet (g : Device → Device) (same : g = fun d => (d.closeTaken b).updHead b (fun a => { a with progress := .waiting })) :
      (s.upd g).BodyKeeps (.close b forced) s := by
    subst same
    exact .of_upd rfl rfl rfl rfl nofun nofun
  show (s.closeTaken x b forced).BodyKeeps (.close b forced) s
  unfold State.closeTaken
  cases s.after.holdsOpen b with
  | false => exact .of_upd rfl rfl rfl rfl nofun nofun
  | true =>
    cases forced with
    | false => exact quiet _ rfl
    | true =>
      obtain ⟨now, pending, windowOut, free, heard, closing, lane, pins, member, sets, mem⟩ := quiet _ rfl
      exact ⟨now, pending, windowOut, free, heard, closing, lane, pins, member, sets, mem⟩

theorem State.BodyKeeps.mark (own : Bool) (x : Station) (index : BitVec 8) (s : State) :
    (s.bodyTaken own x (.mark index)).BodyKeeps (.mark index) s := by
  have overruns : s.after.overruns = true ↔ 48 < s.after.account.balance ∧ s.after.mirror.array ≠ .retaining := by
    unfold Device.overruns
    rw [Bool.and_eq_true, bne_iff_ne, and_comm]
    exact and_congr_left' decide_eq_true_iff
  show (s.markTaken x index).BodyKeeps (.mark index) s
  unfold State.markTaken
  cases h : s.after.overruns with
  | false =>
    have quiet : ¬ (48 < s.after.account.balance ∧ s.after.mirror.array ≠ .retaining) := by simp [← overruns, h]
    exact {
      now := rfl, pending := rfl, windowOut := rfl, free := rfl, heard := rfl, closing := rfl, lane := rfl, pins := rfl
      member := rfl
      sets := fun _ => rfl
      mem := (if_neg fun h => quiet h.2).symm }
  | true =>
    exact {
      now := rfl, pending := rfl, windowOut := rfl, free := rfl, heard := rfl, closing := rfl, lane := rfl, pins := rfl
      member := rfl
      sets := fun _ => rfl
      mem := (if_pos ⟨rfl, overruns.1 h⟩).symm }

theorem State.BodyKeeps.bankRefresh (own : Bool) (x : Station) (b : Bank) (balance : Int) (s : State) :
    (s.bodyTaken own x (.bankRefresh b balance)).BodyKeeps (.bankRefresh b balance) s := by
  have spec := State.lapseIfDue_spec b s
  obtain ⟨lane, _, _, _, _, _, _, _, _, array, pins, _⟩ := spec.rest
  have member : (s.bodyTaken own x (.bankRefresh b balance)).after.member = s.after.member := State.lapse_member b s
  exact {
    now := spec.now, pending := spec.pending, windowOut := spec.windowOut, free := spec.free, heard := spec.heard
    closing := spec.closing, lane := lane, pins := pins
    member := by rw [member]; rfl
    sets := fun _ => member
    mem := (congrArg ArrayDie.mem array).trans (if_neg fun h => nomatch h.1).symm }

theorem State.BodyKeeps.burst (own : Bool) (x : Station) (b : Bank) (column : Column) (closeAfter isWrite : Bool) (s : State) :
    (s.bodyTaken own x (burstBody b column closeAfter isWrite)).BodyKeeps (burstBody b column closeAfter isWrite) s := by
  have keeps (u : State) (g : Device → Device) (lane : (g u.after).lane = u.after.lane) (pins : (g u.after).pins = u.after.pins)
      (member : (g u.after).member = u.after.member) (array : (g u.after).array = u.after.array) :
      (u.upd g).BodyKeeps (burstBody b column closeAfter isWrite) u := by
    cases isWrite <;> exact .of_upd lane pins member array nofun nofun
  have recorded : s.bodyTaken own x (burstBody b column closeAfter isWrite)
      = (s.recordOwnBurst own (burstBody b column closeAfter isWrite)).upd (Device.burstTaken x isWrite b closeAfter) := by
    cases isWrite <;> rfl
  rw [recorded, State.recordOwnBurst_eq]
  exact keeps s (fun d => Device.burstTaken x isWrite b closeAfter { d with
    sched := (s.recordOwnBurst own (burstBody b column closeAfter isWrite)).after.sched
    port := (s.recordOwnBurst own (burstBody b column closeAfter isWrite)).after.port }) rfl rfl rfl rfl

theorem State.BodyKeeps.fullRefresh (own : Bool) (x : Station) (balance : Int) (members : StationSet) (first : Bool)
    (digest : BitVec 16) (s : State) :
    (s.bodyTaken own x (.fullRefresh balance members first digest)).BodyKeeps (.fullRefresh balance members first digest) s := by
  have e := Device.fullRefreshTaken_eq members first s.after
  have member := congrArg Device.member e
  exact {
    now := rfl, pending := rfl, windowOut := rfl, free := rfl, heard := rfl, closing := rfl
    lane := (congrArg Device.lane e).trans rfl
    pins := (congrArg Device.pins e).trans rfl
    member := by
      show (s.after.fullRefreshTaken members first).member = _
      rw [show (s.bodyTaken own x (.fullRefresh balance members first digest)).after = _ from e]
      exact member.trans rfl
    sets := fun no => absurd rfl no.1
    mem := (congrArg (fun d => d.array.mem) e).trans (if_neg fun h => nomatch h.1).symm }

theorem State.bodyKeeps_bodyTaken (own : Bool) (x : Station) (body : Body) (s : State) :
    (s.bodyTaken own x body).BodyKeeps body s := by
  cases body with
  | mark index => exact .mark own x index s
  | wake =>
    have e := Device.wakeTaken_eq s.after
    exact .of_upd (by rw [e]) (by rw [e]) (by rw [e]) (by rw [e]) nofun nofun
  | fullRefresh balance members first digest => exact .fullRefresh own x balance members first digest s
  | bankRefresh b balance => exact .bankRefresh own x b balance s
  | close b forced => exact .close own x b forced s
  | openRow b row =>
    have e := Device.openTaken_eq own x b row s.after
    exact .of_upd (by rw [e]; rfl) (by rw [e]; rfl) (by rw [e]; rfl) (by rw [e]; rfl) nofun nofun
  | read b column ca => exact .burst own x b column ca false s
  | write b column ca => exact .burst own x b column ca true s
  | retain =>
    have e := Device.retainTaken_eq s.after
    exact .of_upd (by rw [e]) (by rw [e]) (by rw [e]) (by rw [e]) nofun nofun
  | syncRequest digest => exact .of_asked _ nofun nofun (.inl rfl)
  | rollCall digest peers => exact .of_asked _ nofun nofun (.inr rfl)
  | notice b =>
    have e := Device.noticeTaken_eq own x b s.after
    exact .of_upd (by rw [e]; rfl) (by rw [e]; rfl) (by rw [e]; rfl) (by rw [e]; rfl) nofun nofun
  | withdraw b =>
    have e := Device.withdrawTaken_eq own x b s.after
    exact .of_upd (by rw [e]; rfl) (by rw [e]; rfl) (by rw [e]; rfl) (by rw [e]; rfl) nofun nofun
  | vote on =>
    have e := Device.resumeOnVoteLeft_spec { s.after with retention := { s.after.retention with
      votes := if on then s.after.retention.votes.add x else s.after.retention.votes.drop x } }
    exact .of_upd ((congrArg Device.lane e).trans rfl) ((congrArg Device.pins e).trans rfl)
      ((congrArg Device.member e).trans rfl) ((congrArg Device.array e).trans rfl) nofun nofun
  | presence => exact .of_id s nofun nofun


section
variable {h : Heard} {f : Frame} {s : State} (a : Accepted h f s)
include a

/-- An accepted frame, its comparison of the profile made. -/
theorem exec_accepted_compared (data : Burst) : exec (frameCommand (some f.body.kind) h data) s
    = .next ((((s.compared f (frameData f.body.kind data)).bodyTaken s.slot.won f.sender f.body).upd
        (Device.acceptCommon s.slot.won f.sender f.body.kind)).regrant) := by
  rw [exec_accepted a, ← State.compareProfile_of_counted _ a.counted]
  rfl

end

/-- A frame that comes in a slot that has carried its frame or is closing is the next slot's. -/
theorem exec_frame_late {s : State} (busy : s.slot.frameHeard = true ∨ s.slot.closing = true) (k : Option FrameKind) (h : Heard)
    (data : Burst) : exec (frameCommand k h data) s = exec (frameCommand k h data) s.closeSlot := by
  have slot : s.laneSlot = s.closeSlot.laneSlot := by
    rw [State.laneSlot_of_begun s.closeSlot_counted.1]
    rcases busy with busy | busy <;> simp [State.laneSlot, busy]
  rcases k with _ | k
  · exact congrArg (fun u => Host.Outcome.next (State.heard none h 0#512 u)) slot
  · cases k
    case write => exact congrArg (fun u => Host.Outcome.next (State.heard (some .write) h data u)) slot
    all_goals exact congrArg (fun u => Host.Outcome.next (State.heard _ h 0#512 u)) slot

end Sys2Proof.Machine

section

open Sys2Proof Sys2Proof.Machine

/-- Settles O25: what the body keeps (`State.bodyKeeps_bodyTaken`), then what every acceptance sets, then the regrant, which
touches grants, lists and entries alone. -/
theorem everyAcceptanceMovesTurnAgesAndCounts : Obligations.EveryAcceptanceMovesTurnAgesAndCounts := by
  intro s h f k data
  refine ⟨fun a => ?_, fun busy => ⟨exec_frame_late busy k h data, s.closeSlot_counted.1⟩, fun empty => ?_⟩
  · refine ⟨_, exec_accepted_compared a data, ?_⟩
    have keeps := State.bodyKeeps_bodyTaken s.slot.won f.sender f.body (s.compared f (frameData f.body.kind data))
    have mem : (s.compared f (frameData f.body.kind data)).after.array.mem = s.now.array.mem :=
      (ArrayDie.accept_mem _ _ _ _).trans ((congrArg ArrayDie.mem a.counted.array).trans rfl)
    generalize (s.compared f (frameData f.body.kind data)).bodyTaken s.slot.won f.sender f.body = u at keeps
    have settled := State.grantsSettled_regrant (u.upd (Device.acceptCommon s.slot.won f.sender f.body.kind))
    obtain ⟨now, pending, windowOut, free, heard, closing, rest, _⟩ :=
      State.regrant_spec (u.upd (Device.acceptCommon s.slot.won f.sender f.body.kind))
    obtain ⟨lane, _, _, _, _, _, member, _, _, array, pins, _⟩ := rest
    generalize (u.upd (Device.acceptCommon s.slot.won f.sender f.body.kind)).regrant = t at *
    have lane' : u.after.lane = s.now.lane := keeps.lane.trans a.counted.lane
    have member' : u.after.member = { s.after.member with
        members := u.after.member.members, syncPending := u.after.member.syncPending
        ages := if f.body.kind = .fullRefresh then Vector.replicate 6 0 else s.after.member.ages } := keeps.member
    have straps : u.after.member.straps = s.after.member.straps := by rw [member']
    have peers : u.after.peers = s.now.peers := by rw [← a.counted.peers]; simp only [Device.peers, straps]
    have ages : u.after.member.ages.set f.sender 0
        = if f.body.kind = .fullRefresh then Vector.replicate 6 0 else s.now.member.ages.set f.sender 0 := by
      rw [member', ← a.counted.ages]
      split
      · exact Vector.set_replicate_self ..
      · rfl
    have turn : t.after.lane = ⟨if s.slot.won then 0 else s.now.lane.vetoCount, 0,
        if f.body.kind = .fullRefresh then 0 else (s.now.lane.turn + 1) % s.now.peers⟩ := by
      rw [lane, ← peers, ← lane']
      rfl
    have unit : t.after.member = { u.after.member with ages := u.after.member.ages.set f.sender 0 } := member
    refine ⟨by rw [turn], by rw [turn], by rw [turn], by rw [unit, ages], ?_, ?_, ?_, ?_, fun no => ?_, ?_, ?_, ?_, ?_, ?_, ?_,
      ?_, ?_, settled⟩
    · rw [unit, member']; exact a.afterSynced
    · rw [unit, member', a.counted.member]
    · rw [unit, member', a.counted.member]
    · rw [unit, member', a.counted.member]
    · rw [unit, ages, if_neg no.1, keeps.sets no]; rfl
    · exact pins.trans keeps.pins
    · exact free.trans keeps.free
    · exact now.trans keeps.now
    · rw [array]
      exact keeps.mem.trans (by rw [mem, ← a.counted.balance, ← a.counted.mirrorArray]; rfl)
    · exact windowOut.trans keeps.windowOut
    · exact pending.trans keeps.pending
    · exact heard.trans keeps.heard
    · exact closing.trans (keeps.closing.trans a.carried.begun.2)
  · unfold step
    rw [empty]

end
end

