-- ==== Sys2Proof/Proofs/FreezingFrames.lean ====
section
/-! An accepted frame at a synced station, part two: the frames that may begin a freeze (MARK, RETAIN, SYNC REQUEST, ROLL CALL), after
which the regrant chills the grants, and the BANK REFRESH, which may end one (R38, R39, R41). -/

namespace Sys2Proof.Machine

/-! ### The entries of the own lapses (R174) -/

/-- An entry of an own lapse. -/
def lapsedEntry (index : BitVec 8) (c : Bank) : FaultEntry := ⟨.grantLapsed, index, none, some c, none, none⟩

theorem FaultEntry.before_iff (e f : FaultEntry) : e.before f = true
    ↔ e.kind.rank < f.kind.rank ∨ e.kind.rank = f.kind.rank ∧ e.subRank < f.subRank := by
  unfold FaultEntry.before
  rw [Bool.or_eq_true, Bool.and_eq_true, decide_eq_true_iff, decide_eq_true_iff, beq_iff_eq]

/-- An own lapse's entry stands after those of the banks below and before what has a higher rank. -/
theorem insertEntry_lapsedEntry (index : BitVec 8) (c : Bank) {below : List Bank} (lower : ∀ b ∈ below, b < c)
    {es : List FaultEntry} (higher : ∀ e ∈ es, 5 < e.kind.rank) :
    insertEntry (lapsedEntry index c) (below.map (lapsedEntry index) ++ es)
      = below.map (lapsedEntry index) ++ lapsedEntry index c :: es := by
  induction below with
  | nil =>
    cases es with
    | nil => rfl
    | cons e es => exact if_pos ((FaultEntry.before_iff (lapsedEntry index c) e).2 (.inl (higher e (List.mem_cons_self ..))))
  | cons b t ih =>
    have lt : b < c := lower b (by simp)
    have after : ¬ (lapsedEntry index c).before (lapsedEntry index b) = true := by
      rw [FaultEntry.before_iff]
      rintro (h | ⟨-, h⟩)
      · exact absurd h (lt_irrefl 5)
      · exact absurd (show c.val < b.val from h) (Nat.lt_asymm lt)
    refine (if_neg after).trans (congrArg _ (ih fun b hb => lower b (List.mem_cons_of_mem _ hb)))

/-- The own lapses of one close, made in the order of the banks, stand in that order before what has a higher rank. -/
theorem foldl_insertEntry_lapsedEntry (index : BitVec 8) {l : List Bank} (sorted : l.Pairwise (· < ·)) {es : List FaultEntry}
    (higher : ∀ e ∈ es, 5 < e.kind.rank) :
    l.foldl (fun es c => insertEntry (lapsedEntry index c) es) es = l.map (lapsedEntry index) ++ es := by
  have from_ (below : List Bank) (l : List Bank) (sorted : (below ++ l).Pairwise (· < ·)) :
      l.foldl (fun es c => insertEntry (lapsedEntry index c) es) (below.map (lapsedEntry index) ++ es)
        = (below ++ l).map (lapsedEntry index) ++ es := by
    induction l generalizing below with
    | nil => simp
    | cons c t ih =>
      have lower : ∀ b ∈ below, b < c := fun b hb => (List.pairwise_append.1 sorted).2.2 b hb c (by simp)
      have next := ih (below ++ [c]) (by simpa using sorted)
      rw [List.foldl_cons, insertEntry_lapsedEntry index c lower higher]
      simpa using next
  simpa using from_ [] l (by simpa using sorted)

theorem allBanks_sorted : allBanks.Pairwise (· < ·) := by decide

/-! ### A freeze that may begin -/

/-- The banks at which this station's own grant lapses where a freeze begins (R38). -/
def State.lapsing (begins : Bool) (s : State) : List Bank :=
  if begins then allBanks.filter (fun c => (s.now.bank c).window? == some 1 && s.now.ownNumber.isSome
    && (s.now.bank c).waiters.head? == s.now.ownNumber) else []

theorem State.lapsing_sorted (begins : Bool) (s : State) : (s.lapsing begins).Pairwise (· < ·) := by
  unfold State.lapsing
  split
  · exact allBanks_sorted.filter _
  · exact .nil

/-- A bank's record after a frame that may begin a freeze. -/
def State.chilled (begins : Bool) (s : State) (c : Bank) : BankRec :=
  if begins = true then
    (if ((s.now.bank c).window? == some 1) = true then
      { s.after.bank c with
        waiters := (s.now.bank c).waiters.drop 1,
        yield := if (s.now.bank c).waiters.length = 1 then none else (s.after.bank c).yield,
        grant := if (s.now.bank c).waiters.drop 1 = [] then none else some .frozen }
    else { s.after.bank c with grant := (s.after.bank c).grant.map (fun g => match g with
      | .running _ => .frozen | .paused => .paused | .frozen => .frozen) })
  else s.after.bank c

theorem BankRec.chill_true {r : BankRec} {w : Nat} (h : r.grant = some (.running w)) : r.chill true
    = { r with
        waiters := r.waiters.drop 1
        yield := if r.waiters.length = 1 then none else r.yield
        grant := if r.waiters.drop 1 = [] then none else some .frozen } := by
  unfold BankRec.chill
  rw [h]
  rfl

theorem BankRec.chill_false (r : BankRec) : r.chill false
    = { r with grant := r.grant.map (fun g => match g with | .running _ => .frozen | .paused => .paused | .frozen => .frozen) } := by
  obtain ⟨st, ws, y, g⟩ := r
  rcases g with _ | ⟨_⟩ | _ | _ <;> rfl

/-- In a counted slot a window is due where it reads 1 at the slot's start. -/
theorem State.counted.grantDue {s u : State} (c : s.counted) (now : u.now = s.now) {b : Bank}
    (bank : u.after.bank b = s.after.bank b) : u.grantDue b = ((s.now.bank b).window? == some 1) := by
  unfold State.grantDue
  rw [now, bank, State.bank_of_counted c]
  by_cases h : (s.now.bank b).window? = some 1
  · have grant : (s.now.bank b).grant = some (.running 1) := by
      unfold BankRec.window? at h
      split at h <;> simp_all
    simp [BankRec.window?, BankRec.count, grant, countDown]
  · simp [h]

/-- The regrant after a frame that may begin a freeze. -/
theorem State.regrant_beginning {s u : State} (c : s.counted) (settled : s.now.grantsSettled) (now : u.now = s.now)
    (banks : ∀ c, u.after.bank c = s.after.bank c) (number : u.after.ownNumber = s.now.ownNumber) {begins : Bool}
    (freezing : u.after.freezing = (s.now.freezing || begins)) :
    (∀ c, u.regrant.after.bank c = s.chilled begins c) ∧ u.regrant.Lapsed u (s.lapsing begins) := by
  cases begins with
  | false =>
    have still : u.after.grantsSettled := by
      intro b
      rw [banks, freezing, Bool.or_false, ← c.freezing]
      exact State.grantsSettled_of_counted c settled b
    rw [State.regrant_of_settled still]
    exact ⟨banks, .refl u⟩
  | true =>
    obtain ⟨records, lapsed⟩ := State.regrant_chills (freezing.trans (Bool.or_true _))
    have lapses : allBanks.filter u.lapsesOwn = s.lapsing true := by
      unfold State.lapsing
      rw [if_pos rfl]
      refine List.filter_congr fun b _ => ?_
      have waiters : (s.after.bank b).waiters = (s.now.bank b).waiters := by rw [State.bank_of_counted c]; rfl
      simp only [State.lapsesOwn, Device.ownHead, c.grantDue now (banks b), number, banks b, waiters, Bool.and_assoc]
    rw [lapses] at lapsed
    refine ⟨fun b => ?_, lapsed⟩
    rw [records, banks, c.grantDue now (banks b)]
    unfold State.chilled
    rw [if_pos rfl]
    by_cases due : (s.now.bank b).window? = some 1
    · have running : ∃ w, (s.after.bank b).grant = some (.running w) :=
        ⟨1, banks b ▸ State.grantDue_running ((c.grantDue now (banks b)).trans (by simp [due]))⟩
      obtain ⟨w, hw⟩ := running
      have waiters : (s.after.bank b).waiters = (s.now.bank b).waiters := by rw [State.bank_of_counted c]; rfl
      rw [if_pos (by simp [due]), show ((s.now.bank b).window? == some 1) = true by simp [due], BankRec.chill_true hw, waiters]
    · rw [if_neg (by simp [due]), show ((s.now.bank b).window? == some 1) = false by simp [due], BankRec.chill_false]

/-- The fault list after the regrant, from the entries a frame has made. -/
theorem State.Lapsed.faults_eq {t u : State} {l : List Bank} (lapsed : t.Lapsed u l) (sorted : l.Pairwise (· < ·))
    {index : BitVec 8} {base kept es : List FaultEntry} (entryIndex : u.entryIndex = index) (entries : u.slot.entries = es)
    (faultBase : u.faultBase = base) (faults : u.after.faults = if es = [] then kept else joinFaults base es)
    (higher : ∀ e ∈ es, 5 < e.kind.rank) :
    t.after.faults = if l.map (lapsedEntry index) ++ es = [] then kept else joinFaults base (l.map (lapsedEntry index) ++ es) := by
  have made : t.slot.entries = l.map (lapsedEntry index) ++ es := by
    rw [← foldl_insertEntry_lapsedEntry index sorted higher, lapsed.slot, ← entries, ← entryIndex]
    rfl
  rw [lapsed.faults, made, faultBase, faults]
  cases l <;> simp


theorem State.Lapsed.port {t u : State} {l : List Bank} (lapsed : t.Lapsed u l) : t.after.port
    = { u.after.port with queue := l.foldl (fun q c => mapHead (fun a => { a with progress := .waiting }) q c) u.after.port.queue } := by
  obtain ⟨_, _, _, _, _, _, _, _, _, _, _, completions, overflow, heldRequest, arrivals, control⟩ := lapsed.rest
  have queue := lapsed.queue
  revert completions overflow heldRequest arrivals control queue
  generalize t.after.port = p
  obtain ⟨queue, completions, overflow, heldRequest, arrivals, control⟩ := p
  intro completions overflow heldRequest arrivals control queue
  exact Port.mk.injEq .. ▸ ⟨queue, completions, overflow, heldRequest, arrivals, control⟩

/-- The state before the regrant, from the body's effect. -/
theorem State.taken_eq {s v : State} {f : Frame} {body : Body} {data : Burst} (hb : f.body = body)
    (effect : (s.applying f data).bodyTaken s.slot.won f.sender body = v) :
    s.taken f data = v.upd (Device.acceptCommon s.slot.won f.sender body.kind) := by
  subst hb
  exact congrArg (State.upd _) effect

/-! ### MARK -/

/-- The entry of a MARK whose credit meets the ceiling (R49). -/
def State.overrunEntries (x : Station) (index : BitVec 8) (u : State) : List FaultEntry :=
  if u.after.overruns then [⟨.balanceOverrun, index, some (BitVec.ofNat 3 x.val), none, some .mark, none⟩] else []

theorem State.overrunEntries_rank (x : Station) (index : BitVec 8) (u : State) :
    ∀ e ∈ u.overrunEntries x index, 5 < e.kind.rank := by
  intro e he
  unfold State.overrunEntries at he
  split at he
  · rw [List.mem_singleton.1 he]; exact Nat.lt_succ_self 5
  · simp at he

/-- An accepted MARK in one piece, with its entry first of its close. -/
theorem State.markTaken_eq {u : State} (fresh : u.slot.entries = []) (x : Station) (index : BitVec 8) : u.markTaken x index
    = { u with
        slot := { u.slot with markIndex := some index, entries := u.overrunEntries x index }
        after := { u.after with
          account := u.after.account.marked u.after.mirror.array u.after.member.profile.interval index
          array := if u.after.overruns then u.after.array.unassured else u.after.array
          faults := if u.overrunEntries x index = [] then u.after.faults
            else joinFaults u.faultBase (u.overrunEntries x index) } } := by
  unfold State.markTaken State.overrunEntries
  cases u.after.overruns with
  | false => 
    have kept : u.slot = { u.slot with entries := [] } := by rw [← fresh]
    exact congrArg (fun slot => ({ u with
      slot := { slot with markIndex := some index }
      after := { u.after with
        account := u.after.account.marked u.after.mirror.array u.after.member.profile.interval index } } : State)) kept
  | true =>
    unfold State.addFault
    simp only [State.upd_slot, fresh]
    rfl


/-- A MARK begins a freeze from balance 36 up, where none holds. -/
theorem Device.freezing_marked (d : Device) (interval : Nat) (index : BitVec 8) :
    ({ d with account := d.account.marked d.mirror.array interval index } : Device).freezing
      = (d.freezing || (!d.freezing && decide (36 ≤ d.account.balance))) := by
  rw [Bool.eq_iff_iff, Bool.or_eq_true, Bool.and_eq_true, Bool.not_eq_true', ← Bool.not_eq_true, decide_eq_true_iff,
    Device.freezing_iff, Device.freezing_iff]
  show 48 ≤ markResult d.account.balance d.mirror.array ∨ _ ↔ _
  have result (active : d.mirror.array = .active) : 48 ≤ markResult d.account.balance d.mirror.array ↔ 36 ≤ d.account.balance := by
    rw [active, markResult, if_neg (by decide)]
    split <;> simp only [Config.urgentLevel, Config.intervalWork, Config.balanceCeiling] at * <;> omega
  by_cases active : d.mirror.array = .active
  · rw [result active]
    have : 48 ≤ d.account.balance → 36 ≤ d.account.balance := by omega
    tauto
  · simp [active]

/-! ### SYNC REQUEST and ROLL CALL -/

/-- The body of a SYNC REQUEST or ROLL CALL. -/
def askBody (digest : BitVec 16) (peers : BitVec 3) (roll : Bool) : Body :=
  if roll then .rollCall digest peers else .syncRequest digest

theorem Device.profileAgrees_askBody (d : Device) (x : Station) (digest : BitVec 16) (peers : BitVec 3) (roll : Bool) :
    d.profileAgrees x (askBody digest peers roll)
      = decide (d.member.digest = some digest ∧ x.val < d.peers ∧ (roll = true → peers.toNat = d.peers)) := by
  cases roll <;> simp [askBody, Device.profileAgrees, Bool.and_comm, Bool.and_assoc, beq_eq_decide]

/-- The sender asks for readmission where its profile agrees. -/
theorem State.bodyTaken_askBody (own agrees : Bool) (x : Station) (digest : BitVec 16) (peers : BitVec 3) (roll : Bool) {u : State}
    (h : u.now.profileAgrees x (askBody digest peers roll) = agrees) : u.bodyTaken own x (askBody digest peers roll)
      = { u with after := { u.after with member := { u.after.member with
          syncPending := if agrees then u.after.member.syncPending.add x else u.after.member.syncPending } } } := by
  have taken : u.bodyTaken own x (askBody digest peers roll) = if agrees then u.upd (Device.syncAsked x) else u := by
    rw [← h]
    cases roll <;> rfl
  rw [taken]
  cases agrees <;> rfl

theorem StationSet.add_ne_zero (set : StationSet) (x : Station) : set.add x ≠ 0#6 := by
  intro zero
  have bit := congrArg (fun v => v.getLsbD x.val) zero
  simp [StationSet.add] at bit

/-- A station that asks begins a freeze, where none holds. -/
theorem Device.freezing_asked (d : Device) (x : Station) (agrees : Bool) :
    ({ d with member := { d.member with
        syncPending := if agrees then d.member.syncPending.add x else d.member.syncPending } } : Device).freezing
      = (d.freezing || (agrees && !d.freezing)) := by
  cases agrees with
  | false => simp [Device.freezing, Device.urgent]
  | true =>
    have holds : ({ d with member := { d.member with syncPending := d.member.syncPending.add x } } : Device).freezing = true :=
      (Device.freezing_iff _).2 (.inr (.inl (StationSet.add_ne_zero _ x)))
    simp [holds]

/-! ### RETAIN -/

/-- A closed bank with no waiters when a freeze begins. -/
theorem State.chilled_of_no_waiters {s : State} (c : s.counted) {b : Bank} (none_ : (s.now.bank b).waiters = []) :
    s.chilled true b = { s.after.bank b with grant := (match (s.now.bank b).grant with
      | some (.running w) => if w = 1 then none else some .frozen | g => g) } := by
  have bank := State.bank_of_counted c b
  unfold State.chilled BankRec.window?
  rw [bank, if_pos rfl, none_]
  generalize s.now.bank b = r at none_
  obtain ⟨st, ws, y, g⟩ := r
  subst none_
  rcases g with _ | ⟨w⟩ | _ | _
  · rfl
  · by_cases h : w = 1
    · simp [h, BankRec.count]
    · simp [h, BankRec.count]
  · rfl
  · rfl

theorem ArrayDie.accept_retain {a : ArrayDie} (active : a.state = .active) (own : Bool) (data : Burst) :
    a.accept own data .retain
      = { a with state := .retaining, banks := Vector.replicate 12 .closed, inFlight := a.inFlight.filter ArrayBurst.moves } := by
  unfold ArrayDie.accept
  rw [active]

theorem ArrayDie.accept_retain_of_not_active {a : ArrayDie} (other : a.state ≠ .active) (own : Bool) (data : Burst) :
    a.accept own data .retain = a := by
  unfold ArrayDie.accept
  cases h : a.state <;> simp_all

theorem State.lapsing_of_no_waiters {s : State} (begins : Bool) (none_ : ∀ b, (s.now.bank b).waiters = []) :
    s.lapsing begins = [] := by
  unfold State.lapsing
  split
  · refine List.filter_eq_nil_iff.2 fun b _ => ?_
    rw [none_]
    cases s.now.ownNumber <;> simp
  · rfl

end Sys2Proof.Machine

section

open Sys2Proof Sys2Proof.Machine

/-- Settles O18: the effect as one picture (`State.markTaken_eq`), then the regrant, which chills where the credit begins a freeze. -/
theorem acceptedMarkCreditsAndAligns : Obligations.AcceptedMarkCreditsAndAligns := by
  intro s h f index overrun begins due lapsing entries a hb
  have e := exec_accepted_agreeing a (fun d => by rw [hb]; rfl) 0#512
  have applied : (s.applying f 0#512).after = s.after := State.applying_of_idle hb (fun _ _ _ => rfl) _
  have overrun_eq : (s.applying f 0#512).after.overruns = overrun := by
    rw [applied, Device.overruns, a.counted.mirrorArray, a.counted.balance, Bool.and_comm]
    rfl
  have made : (s.applying f 0#512).overrunEntries f.sender index
      = if overrun then [⟨.balanceOverrun, index, some (BitVec.ofNat 3 f.sender.val), none, some .mark, none⟩] else [] := by
    rw [State.overrunEntries, overrun_eq]
  have base : (s.applying f 0#512).faultBase = s.now.faults := a.counted.faultBase
  have marked := State.markTaken_eq (u := s.applying f 0#512) a.counted.2.1 f.sender index
  rw [made, overrun_eq, base, applied] at marked
  obtain ⟨u, u_eq⟩ : ∃ u, s.taken f 0#512 = u := ⟨_, rfl⟩
  rw [hb] at e
  rw [show frameData (Body.mark index).kind 0#512 = 0#512 from rfl, u_eq] at e
  have taken := u_eq.symm.trans (State.taken_eq (data := 0#512) hb marked)
  have freezing : u.after.freezing = (s.now.freezing || begins) := by
    rw [taken, ← a.counted.freezing]
    show _ = (s.after.freezing || (!s.now.freezing && _))
    rw [← a.counted.freezing, ← a.counted.balance]
    exact Device.freezing_marked s.after _ index
  obtain ⟨banks, lapsed⟩ := State.regrant_beginning (u := u) a.counted a.settled ((congrArg State.now taken).trans rfl)
    (fun c => (congrArg (fun v => v.after.bank c) taken).trans rfl) ((congrArg (fun v => v.after.ownNumber) taken).trans a.counted.ownNumber)
    freezing
  have settled := u.grantsSettled_regrant
  have higher := State.overrunEntries_rank f.sender index (s.applying f 0#512)
  rw [made] at higher
  have faults := lapsed.faults_eq (State.lapsing_sorted ..) (congrArg State.entryIndex taken) (congrArg (fun v => v.slot.entries) taken)
    ((congrArg State.faultBase taken).trans base) (congrArg (fun v => v.after.faults) taken) higher
  have port := lapsed.port
  obtain ⟨_, lastOpen, lastBankRefresh, reservation, array', account, member, retention, sched, array, _⟩ := lapsed.rest
  refine ⟨u.regrant, e, ?_, banks, ?_, settled, ?_, ?_, ?_, ?_, ?_, ?_, ?_, ?_, faults⟩
  · rw [account, taken, ← a.counted.mirrorArray, ← a.counted.balance, ← a.counted.profile]
    rfl
  · rw [port, taken]
    rfl
  · exact lastOpen.trans (congrArg (fun v => v.after.mirror.lastOpen) taken)
  · exact lastBankRefresh.trans (congrArg (fun v => v.after.mirror.lastBankRefresh) taken)
  · exact reservation.trans (congrArg (fun v => v.after.mirror.reservation) taken)
  · exact array'.trans (congrArg (fun v => v.after.mirror.array) taken)
  · exact retention.trans (congrArg (fun v => v.after.retention) taken)
  · exact sched.trans (congrArg (fun v => v.after.sched) taken)
  · rw [member, taken, ← a.counted.ages]
    rfl
  · exact array.trans (congrArg (fun v => v.after.array) taken)

/-- Settles O21: the comparison's entry, the sender pending (`State.bodyTaken_askBody`), then the regrant, which chills where the
request begins a freeze. -/
theorem acceptedSyncRequestOrRollCallAsksForReadmission : Obligations.AcceptedSyncRequestOrRollCallAsksForReadmission := by
  intro s h f digest peers roll agrees begins due lapsing entries a hb
  replace hb : f.body = askBody digest peers roll := hb
  have agrees_eq : s.now.profileAgrees f.sender f.body = agrees := by rw [hb]; exact Device.profileAgrees_askBody ..
  have kind : (askBody digest peers roll).kind = if roll then .rollCall else .syncRequest := by cases roll <;> rfl
  have made : s.mismatchEntries f = if agrees then [] else [⟨.profileMismatch, s.now.account.index,
      some (BitVec.ofNat 3 f.sender.val), none, some (if roll then .rollCall else .syncRequest), none⟩] := by
    rw [State.mismatchEntries, agrees_eq, hb, kind]
  have applied (d : Burst) : (s.applying f d).after = s.after :=
    State.applying_of_idle hb (fun _ _ _ => by cases roll <;> rfl) d
  have base : (s.applying f 0#512).faultBase = s.now.faults := a.counted.faultBase
  have index : (s.applying f 0#512).entryIndex = s.now.account.index := a.counted.entryIndex
  have data : frameData f.body.kind 0#512 = 0#512 := by rw [hb]; cases roll <;> rfl
  have effect := State.bodyTaken_askBody s.slot.won agrees f.sender digest peers roll (u := s.compared f 0#512) (hb ▸ agrees_eq)
  rw [State.compared] at effect
  have command : exec (if roll then .rollCallFrame h else .syncRequestFrame h) s
      = exec (frameCommand (some f.body.kind) h 0#512) s := by rw [hb]; cases roll <;> rfl
  have e := command.trans (exec_accepted_compared a 0#512)
  obtain ⟨u, u_eq⟩ : ∃ u, ((s.compared f 0#512).bodyTaken s.slot.won f.sender f.body).upd
      (Device.acceptCommon s.slot.won f.sender f.body.kind) = u := ⟨_, rfl⟩
  rw [data, u_eq] at e
  rw [hb, State.compared, effect] at u_eq
  have taken := u_eq.symm
  have freezing : u.after.freezing = (s.now.freezing || begins) := by
    rw [taken, ← a.counted.freezing]
    show _ = (s.after.freezing || (agrees && !s.now.freezing))
    rw [← a.counted.freezing]
    exact Device.freezing_asked s.after f.sender agrees
  obtain ⟨banks, lapsed⟩ := State.regrant_beginning (u := u) a.counted a.settled ((congrArg State.now taken).trans rfl)
    (fun c => (congrArg (fun v => v.after.bank c) taken).trans rfl)
    ((congrArg (fun v => v.after.ownNumber) taken).trans a.counted.ownNumber) freezing
  have settled := u.grantsSettled_regrant
  have higher : ∀ e ∈ s.mismatchEntries f, 5 < e.kind.rank := by
    intro e he
    rw [made] at he
    split at he
    · simp at he
    · rw [List.mem_singleton.1 he]; exact Nat.lt_of_sub_eq_succ rfl
  have faults := lapsed.faults_eq (State.lapsing_sorted ..) ((congrArg State.entryIndex taken).trans index)
    (congrArg (fun v => v.slot.entries) taken) ((congrArg State.faultBase taken).trans base)
    ((congrArg (fun v => v.after.faults) taken).trans
      (congrArg (fun list => if s.mismatchEntries f = [] then s.after.faults else joinFaults list (s.mismatchEntries f)) base)) higher
  rw [made] at faults
  have pending : s.after.member.syncPending = s.now.member.syncPending := by rw [a.counted.member]
  have port := lapsed.port
  obtain ⟨_, lastOpen, lastBankRefresh, reservation, array', account, member, retention, sched, array, _⟩ := lapsed.rest
  refine ⟨u.regrant, e, ?_, banks, ?_, settled, ?_, ?_, ?_, ?_, ?_, ?_, ?_, ?_, faults⟩
  · rw [member, taken, ← a.counted.ages, ← pending]
    rfl
  · rw [port, taken]
    rfl
  · exact lastOpen.trans (congrArg (fun v => v.after.mirror.lastOpen) taken)
  · exact lastBankRefresh.trans (congrArg (fun v => v.after.mirror.lastBankRefresh) taken)
  · exact reservation.trans (congrArg (fun v => v.after.mirror.reservation) taken)
  · exact array'.trans (congrArg (fun v => v.after.mirror.array) taken)
  · exact account.trans (congrArg (fun v => v.after.account) taken)
  · exact retention.trans (congrArg (fun v => v.after.retention) taken)
  · exact sched.trans (congrArg (fun v => v.after.sched) taken)
  · exact array.trans ((congrArg (fun v => v.after.array) taken).trans (congrArg Device.array (applied _)))

/-- Settles O19: no freeze held (a RETAIN is legal in ACTIVE alone, with nothing pending) and one holds now; no list has a waiter, so
none lapses with an entry. -/
theorem acceptedRetainEntersRetention : Obligations.AcceptedRetainEntersRetention := by
  intro s h f a hb done
  have legal := a.rule
  rw [hb] at legal
  obtain ⟨-, -, closed, active, noWaiters, nonePending, notUrgent, -⟩ := (ruleLegal_retain_iff ..).1 legal
  have e := exec_accepted_agreeing a (fun d => by rw [hb]; rfl) 0#512
  have wasFree : s.now.freezing = false := by
    rw [← Bool.not_eq_true, Device.freezing_iff]
    simp [active, nonePending, notUrgent]
  obtain ⟨u, u_eq⟩ : ∃ u, s.taken f 0#512 = u := ⟨_, rfl⟩
  rw [hb] at e
  rw [show frameData Body.retain.kind 0#512 = 0#512 from rfl, u_eq] at e
  have taken := u_eq.symm.trans (State.taken_eq (data := 0#512) hb rfl)
  have after : u.after = _ := (congrArg State.after taken).trans
    (congrArg (Device.acceptCommon s.slot.won f.sender .retain) (Device.retainTaken_eq (s.applying f 0#512).after))
  have freezing : u.after.freezing = (s.now.freezing || true) := by
    rw [Bool.or_true, after]
    exact (Device.freezing_iff _).2 (.inr (.inr (by simp [Device.acceptCommon])))
  obtain ⟨banks, lapsed⟩ := State.regrant_beginning (u := u) a.counted a.settled ((congrArg State.now taken).trans rfl)
    (fun c => (congrArg (fun v => v.bank c) after).trans rfl)
    ((congrArg Device.ownNumber after).trans a.counted.ownNumber) freezing
  rw [State.lapsing_of_no_waiters true noWaiters] at lapsed
  have port := lapsed.port
  have faults := lapsed.faults
  obtain ⟨_, lastOpen, lastBankRefresh, reservation, array', account, member, retention, sched, array, _⟩ := lapsed.rest
  have arrayTook : u.after.array = s.after.array.accept s.slot.won (s.hearing.writeData s.slot.won f.body 0#512) .retain := by
    rw [after, ← hb]
    rfl
  have state : s.after.array.state = s.now.array.state := (congrArg ArrayDie.state a.counted.array).trans rfl
  refine ⟨u.regrant, e, ?_, fun c => ?_, fun c => ?_, ?_, ?_, ?_, ?_, ?_, ?_, ?_, ?_, ?_, fun h => ?_, fun h => ?_⟩
  · exact array'.trans (congrArg (fun d => d.mirror.array) after)
  · rw [banks, State.chilled_of_no_waiters a.counted (noWaiters c), State.bank_of_counted a.counted]
    simp [BankRec.count, closed c]
  · exact (banks c).trans (State.chilled_of_no_waiters a.counted (noWaiters c))
  · exact lastOpen.trans (congrArg (fun d => d.mirror.lastOpen) after)
  · exact lastBankRefresh.trans (congrArg (fun d => d.mirror.lastBankRefresh) after)
  · exact reservation.trans (congrArg (fun d => d.mirror.reservation) after)
  · rw [retention, after, ← a.counted.resume]
    rfl
  · have own : s.now.retention.ownVote = s.after.retention.ownVote := by rw [a.counted.retention]
    have done_eq : done = if s.after.retention.ownVote then retainEntry s.after.port.queue else none := by
      rw [← own, a.counted.port]
    rw [port, after, done_eq]
    rfl
  · exact account.trans ((congrArg Device.account after).trans rfl)
  · exact sched.trans ((congrArg Device.sched after).trans rfl)
  · exact faults.trans ((congrArg Device.faults after).trans rfl)
  · rw [array, arrayTook]
    exact ArrayDie.accept_mem ..
  · have retained := ArrayDie.accept_retain (state.trans h) s.slot.won (s.hearing.writeData s.slot.won f.body 0#512)
    rw [array, arrayTook, retained]
    exact ⟨rfl, rfl, fun c => Vector.getElem_replicate c.isLt⟩
  · rw [array, arrayTook]
    exact ArrayDie.accept_retain_of_not_active (state ▸ h) ..

end
end

