-- ==== Sys2Proof/Proofs/BankRefreshes.lean ====
section
/-! An accepted BANK REFRESH at a synced station (R14, R38, R40, R50, R54): a grant whose window is due lapses first, the rest of the
grant is PAUSED, and an urgency that ends sets the FROZEN grants running again. -/

namespace Sys2Proof.Machine

/-- A bank refresh is legal at a closed bank of an ACTIVE array. -/
theorem active_of_ruleLegal_bankRefresh {d : Device} {x : Station} {b : Bank} {balance : Int}
    (h : ruleLegal d x (.bankRefresh b balance) = true) : (d.bank b).st = .closed ∧ d.mirror.array = .active := by
  rw [ruleLegal_iff] at h
  obtain ⟨h, -⟩ := h
  simp only [bankMirrorLegal, Bool.and_eq_true, beq_iff_eq] at h
  exact h.1

/-- A lapse where the window is due at this close. -/
theorem State.lapseIfDue_lapsed (b : Bank) (v : State) :
    (v.lapseIfDue b).after.bank b
        = (if v.grantDue b then (v.after.bank b).lapse v.after.member.profile.grantWindow else v.after.bank b)
      ∧ (v.lapseIfDue b).Lapsed v (if v.grantDue b = true ∧ v.after.ownHead b = true then [b] else []) := by
  unfold State.lapseIfDue
  cases v.grantDue b with
  | false => exact ⟨rfl, by simpa using .refl v⟩
  | true => simpa using State.lapse_lapsed b v

/-- A bank's record after an accepted BANK REFRESH. -/
def BankRec.refreshed (due : Bool) (r : BankRec) : BankRec where
  st := .refreshing 7 .bank
  waiters := if due then r.waiters.drop 1 else r.waiters
  yield := if due = true ∧ r.waiters.length = 1 then none else r.yield
  grant := if due = true ∧ r.waiters.drop 1 = [] then none else r.grant.map (fun _ => .paused)

theorem BankRec.refreshed_eq (due : Bool) (window : Nat) (r : BankRec) :
    { (if due then r.lapse window else r) with
      st := .refreshing 7 .bank, grant := (if due then r.lapse window else r).grant.map (fun _ => .paused) } = r.refreshed due := by
  cases due with
  | false => simp [BankRec.refreshed]
  | true =>
    obtain ⟨st, ws, y, g⟩ := r
    rcases g with _ | ⟨_⟩ | _ | _ <;> simp [BankRec.refreshed, BankRec.lapse, passGrant, apply_ite (Option.map fun _ => Grant.paused)]

/-- A refresh begins no freeze. -/
theorem Device.not_freezing_of_refreshed {d e : Device} (h : d.freezing = false)
    (balance : e.account.balance = bankRefreshResult d.account.balance) (pending : e.member.syncPending = d.member.syncPending)
    (array : e.mirror.array = d.mirror.array) : e.freezing = false := by
  rw [← Bool.not_eq_true, Device.freezing_iff] at h ⊢
  rw [balance, pending, array, bankRefreshResult_eq]
  refine fun g => h (g.imp (fun g => ?_) id)
  split at g <;> omega

theorem ArrayDie.accept_bankRefresh (own : Bool) (data : Burst) (b : Bank) (balance : Int) (a : ArrayDie) :
    a.accept own data (.bankRefresh b balance)
      = { a with banks := a.banks.set b (match a.banks[b] with | .closed => .refreshing 7 | r => r) } := by
  have kept : a = { a with banks := a.banks.set b a.banks[b] } := by
    have : a.banks.set b a.banks[b] = a.banks := Vector.set_getElem_self _
    rw [this]
  have refresh : a.accept own data (.bankRefresh b balance) = match a.banks[b] with
      | .closed => a.setBank b (.refreshing 7)
      | .opened _ _ | .closePending _ | .recharging _ | .refreshing _ => a := rfl
  rw [refresh]
  cases h : a.banks[b] with
  | closed => rfl
  | opened row guard => exact kept.trans (by rw [h])
  | closePending guard => exact kept.trans (by rw [h])
  | recharging busy => exact kept.trans (by rw [h])
  | refreshing busy => exact kept.trans (by rw [h])

end Sys2Proof.Machine

section

open Sys2Proof Sys2Proof.Machine

/-- Settles O16: the bank's record is `BankRec.refreshed`, and since no grant runs against a freeze the regrant only thaws. -/
theorem acceptedBankRefreshRefreshesAndDebits : Obligations.AcceptedBankRefreshRefreshesAndDebits := by
  intro s h f b balanceAfter a hb due ownHead
  have legal := a.rule
  rw [hb] at legal
  obtain ⟨-, active⟩ := active_of_ruleLegal_bankRefresh legal
  have e := exec_accepted_agreeing a (fun d => by rw [hb]; rfl) 0#512
  rw [hb] at e
  have due_eq : (s.applying f 0#512).grantDue b = due := a.counted.grantDue (u := s.applying f 0#512) rfl rfl
  have waiters : (s.after.bank b).waiters = (s.now.bank b).waiters := by rw [State.bank_of_counted a.counted]; rfl
  have ownHead_eq : (s.applying f 0#512).after.ownHead b = ownHead := by
    show (s.after.ownNumber.isSome && (s.after.bank b).waiters.head? == s.after.ownNumber) = _
    rw [waiters, a.counted.ownNumber]
  obtain ⟨bank, lapsed⟩ := State.lapseIfDue_lapsed b (s.applying f 0#512)
  have others := (State.lapseIfDue_spec b (s.applying f 0#512)).others
  rw [due_eq] at bank
  rw [due_eq, ownHead_eq] at lapsed
  obtain ⟨u, u_eq⟩ : ∃ u, s.taken f 0#512 = u := ⟨_, rfl⟩
  obtain ⟨w, w_eq⟩ : ∃ w, (s.applying f 0#512).lapseIfDue b = w := ⟨_, rfl⟩
  rw [show frameData (Body.bankRefresh b balanceAfter).kind 0#512 = 0#512 from rfl, u_eq] at e
  have taken := u_eq.symm.trans (State.taken_eq (data := 0#512) hb (congrArg (State.upd (Device.bankRefreshTaken b)) w_eq))
  rw [w_eq] at bank lapsed others
  have refreshed : u.after.bank b = (s.after.bank b).refreshed due := by
    rw [taken]
    refine (Device.bank_setBank_self ..).trans ?_
    show ({ w.after.bank b with
      st := .refreshing 7 .bank, grant := (w.after.bank b).grant.map (fun _ => .paused) } : BankRec) = _
    rw [bank]
    exact BankRec.refreshed_eq ..
  have kept (c : Bank) (hc : c ≠ b) : u.after.bank c = s.after.bank c := by
    rw [taken]
    exact (Device.bank_setBank_ne hc _ _).trans ((others c hc).trans rfl)
  have port := lapsed.port
  have faults := lapsed.faults_eq (by split <;> simp) a.counted.entryIndex a.counted.2.1 a.counted.faultBase (if_pos rfl).symm
    (by simp)
  obtain ⟨_, lastOpen, _, reservation, array', account, member, retention, sched, array, _⟩ := lapsed.rest
  have ends (h : s.after.freezing = false) : u.after.freezing = false := by
    refine Device.not_freezing_of_refreshed h ?_ ?_ ?_ <;> rw [taken]
    · exact congrArg bankRefreshResult (congrArg Account.balance account)
    · exact (congrArg Membership.syncPending member).trans rfl
    · exact array'
  have running (c : Bank) (v : Nat) (hv : (u.after.bank c).grant = some (.running v)) : u.after.freezing = false := by
    by_cases hc : c = b
    · subst hc
      rw [refreshed] at hv
      simp only [BankRec.refreshed] at hv
      split at hv
      · simp at hv
      · simp at hv
    · rw [kept c hc] at hv
      exact ends ((State.grantsSettled_of_counted a.counted a.settled c).1 v hv)
  have profile : u.after.member.profile = s.now.member.profile := by
    rw [taken, ← a.counted.profile]
    exact (congrArg Membership.profile member).trans rfl
  have regrant := State.regrant_eq_thaw running
  have record (c : Bank) : u.regrant.after.bank c = (u.after.bank c).thaw u.after.freezing u.after.member.profile.grantWindow := by
    rw [regrant]
    exact Device.bank_mapBanks ..
  have freezing : u.regrant.after.freezing = u.after.freezing := by rw [regrant]; rfl
  have grant (c : Bank) : (s.after.bank c).grant = some .frozen ↔ (s.now.bank c).grant = some .frozen := by
    rw [State.bank_of_counted a.counted]
    exact BankRec.grant_frozen_count
  have still : (u.after.bank b).thaw u.after.freezing u.after.member.profile.grantWindow = u.after.bank b := by
    rw [refreshed, BankRec.thaw, if_neg]
    simp only [BankRec.refreshed]
    split <;> simp
  have own := (record b).trans (still.trans refreshed)
  refine ⟨u.regrant, e, ?_, ?_, ?_, ?_, fun c hc => ?_, ?_, ?_, ?_, ?_, ?_, ?_, ?_, ?_, ?_, ?_⟩
  · rw [own]; rfl
  · rw [own, ← waiters]; rfl
  · rw [own, ← waiters]; rfl
  · have paused : (s.after.bank b).grant.map (fun _ => Grant.paused) = (s.now.bank b).grant.map (fun _ => .paused) := by
      rw [State.bank_of_counted a.counted]
      unfold BankRec.count
      rcases (s.now.bank b).grant with _ | ⟨_⟩ | _ | _ <;> rfl
    rw [own, ← waiters, ← paused]
    rfl
  · rw [record, kept c hc, BankRec.thaw_eq, freezing, profile]
    simp only [grant, and_comm]
  · rw [regrant, taken]; rfl
  · rw [regrant, taken]; exact lastOpen
  · rw [regrant, taken]; exact reservation
  · rw [regrant, taken]; exact array'.trans (a.counted.mirrorArray.trans active)
  · rw [regrant, taken]
    show w.after.account.bankRefreshed b = _
    have rotation : s.after.account.rotation = s.now.account.rotation := by rw [a.counted.account]
    have wakeRefresh : s.after.account.wakeRefresh = s.now.account.wakeRefresh := by rw [a.counted.account]
    rw [account, ← a.counted.balance, ← rotation, ← wakeRefresh, ← bankRefreshResult_eq]
    rfl
  · rw [regrant, taken]; exact retention
  · rw [regrant, taken]; exact sched
  · rw [regrant, taken]
    show w.after.port = _
    rw [port]
    split <;> rfl
  · rw [regrant, taken]
    show w.after.faults = _
    rw [faults]
    split <;> rfl
  · rw [regrant, taken]
    show w.after.array = _
    have accepted : w.after.array = s.after.array.accept s.slot.won (s.hearing.writeData s.slot.won f.body 0#512) f.body := array
    rw [hb] at accepted
    exact accepted.trans (ArrayDie.accept_bankRefresh ..)

end
end

