-- ==== Sys2Proof/Proofs/CompletionReservations.lean ====
section
/-! The completion reservations of a slot (R132, R156). -/

namespace Sys2Proof.Machine

/-! ### The entries of the queue -/

theorem mem_accesses {a : Access} {q : List Entry} : a ∈ accesses q ↔ .access a ∈ q := by
  unfold accesses
  rw [List.mem_filterMap]
  constructor
  · rintro ⟨e, mem, h⟩
    cases e with
    | access a' => exact Option.some.inj h ▸ mem
    | retain g n => simp at h
  · exact fun mem => ⟨_, mem, rfl⟩

theorem accesses_tags_sublist (q : List Entry) : ((accesses q).map Access.tag).Sublist (q.map Entry.tag) := by
  induction q with
  | nil => exact .slnil
  | cons e t ih =>
    cases e with
    | access a => exact ih.cons_cons a.tag
    | retain g n => exact ih.cons g

/-- One entry of a queue with a function applied to each READ and WRITE entry. -/
def Entry.update (g : Access → Access) : Entry → Entry
  | .access a => .access (g a)
  | .retain t n => .retain t n

theorem mapAccess_eq (g : Access → Access) (q : List Entry) : mapAccess g q = q.map (Entry.update g) :=
  List.map_congr_left fun e _ => by cases e <;> rfl

theorem mapAccess_tags {g : Access → Access} (keeps : ∀ a, (g a).tag = a.tag) (q : List Entry) :
    (mapAccess g q).map Entry.tag = q.map Entry.tag := by
  rw [mapAccess_eq, List.map_map]
  refine List.map_congr_left fun e _ => ?_
  cases e with
  | access a => exact keeps a
  | retain g n => rfl

/-- The queue with the requests of some tags holding a reservation. -/
def reserveTags (tags : List Tag) (q : List Entry) : List Entry :=
  mapAccess (fun a => if a.tag ∈ tags then { a with reserved := true } else a) q

theorem reserveTags_nil (q : List Entry) : reserveTags [] q = q := by
  unfold reserveTags
  rw [mapAccess_eq]
  refine (List.map_congr_left fun e _ => ?_).trans (List.map_id q)
  cases e <;> simp [Entry.update]

theorem reserveTags_tags (tags : List Tag) (q : List Entry) : (reserveTags tags q).map Entry.tag = q.map Entry.tag :=
  mapAccess_tags (fun a => by split <;> rfl) q

theorem reserveTags_cons (tag : Tag) (tags : List Tag) (q : List Entry) :
    reserveTags tags (reserveTags [tag] q) = reserveTags (tag :: tags) q := by
  unfold reserveTags
  rw [mapAccess_eq, mapAccess_eq, mapAccess_eq, List.map_map]
  refine List.map_congr_left fun e _ => ?_
  cases e with
  | access a => by_cases h : a.tag = tag <;> by_cases h' : a.tag ∈ tags <;> simp_all [Entry.update]
  | retain g n => rfl

/-- The request of another tag is left as it is. -/
theorem Entry.update_reserve_of_ne {tag : Tag} {e : Entry} (other : e.tag ≠ tag) :
    e.update (fun a => if a.tag ∈ [tag] then { a with reserved := true } else a) = e := by
  cases e with
  | access a => exact congrArg Entry.access (if_neg fun h => other (List.mem_singleton.1 h))
  | retain g n => rfl

/-- A reservation more in the queue, for a request that holds none. -/
theorem length_reserved_reserveTags {a : Access} (free : a.reserved = false) {q : List Entry} (mem : .access a ∈ q)
    (nodup : (q.map Entry.tag).Nodup) :
    ((reserveTags [a.tag] q).filter Entry.reserved).length = (q.filter Entry.reserved).length + 1 := by
  have untouched {t : List Entry} (h : a.tag ∉ t.map Entry.tag) : reserveTags [a.tag] t = t := by
    unfold reserveTags
    rw [mapAccess_eq]
    refine (List.map_congr_left fun e he => ?_).trans (List.map_id t)
    exact Entry.update_reserve_of_ne fun eq => h (List.mem_map.2 ⟨e, he, eq⟩)
  induction q with
  | nil => simp at mem
  | cons e t ih =>
    obtain ⟨head, tail⟩ := List.nodup_cons.1 nodup
    rcases List.mem_cons.1 mem with rfl | later
    · have first : reserveTags [a.tag] (.access a :: t) = .access { a with reserved := true } :: t := by
        refine congrArg₂ List.cons ?_ (untouched head)
        simp
      have now : Entry.reserved (.access { a with reserved := true }) = true := rfl
      have before : ¬ Entry.reserved (.access a) = true := by simp [Entry.reserved, free]
      rw [first, List.filter_cons_of_pos now, List.filter_cons_of_neg before, List.length_cons]
    · have other : e.tag ≠ a.tag := fun eq => head (eq ▸ List.mem_map_of_mem (f := Entry.tag) later)
      have first : reserveTags [a.tag] (e :: t) = e :: reserveTags [a.tag] t := by
        unfold reserveTags
        rw [mapAccess_eq, mapAccess_eq]
        exact congrArg₂ List.cons (Entry.update_reserve_of_ne other) rfl
      rw [first, List.filter_cons, List.filter_cons]
      split <;> simp [ih later tail]

/-! ### The reservations taken -/

/-- A reservation for a request while room exists. -/
def Device.reserve (d : Device) (a : Access) : Device :=
  if d.hasRoom then
    d.setQueue (mapAccess (fun a' => if a'.tag = a.tag then { a' with reserved := true } else a') d.port.queue)
  else d

theorem Device.reserve_eq (d : Device) (a : Access) :
    d.reserve a = if d.hasRoom then d.setQueue (reserveTags [a.tag] d.port.queue) else d := by
  unfold Device.reserve reserveTags
  simp only [List.mem_singleton]

/-- Requests with no reservation take one, oldest first, while room exists. -/
theorem Device.foldl_reserve {l : List Access} {d : Device} (nodup : (d.port.queue.map Entry.tag).Nodup)
    (tags : (l.map Access.tag).Nodup) (free : ∀ a ∈ l, .access a ∈ d.port.queue ∧ a.reserved = false) :
    l.foldl Device.reserve d = d.setQueue (reserveTags ((l.map Access.tag).take (16 - d.roomTaken)) d.port.queue) := by
  induction l generalizing d with
  | nil => simp [reserveTags_nil, Device.setQueue]
  | cons a t ih =>
    obtain ⟨mem, notYet⟩ := free a (by simp)
    obtain ⟨head, tail⟩ := List.nodup_cons.1 tags
    rw [List.foldl_cons, Device.reserve_eq]
    by_cases room : d.roomTaken < 16
    · have has : d.hasRoom = true := decide_eq_true room
      have more : (d.setQueue (reserveTags [a.tag] d.port.queue)).roomTaken = d.roomTaken + 1 := by
        show d.port.completions.length + (((reserveTags [a.tag] d.port.queue).filter Entry.reserved).length
          + (if d.retention.resume.isSome then 1 else 0)) = d.port.completions.length
          + ((d.port.queue.filter Entry.reserved).length + (if d.retention.resume.isSome then 1 else 0)) + 1
        rw [length_reserved_reserveTags notYet mem nodup]
        omega
      rw [if_pos has, ih (d := d.setQueue (reserveTags [a.tag] d.port.queue))]
      · have left : 16 - d.roomTaken = (16 - (d.roomTaken + 1)) + 1 := by omega
        rw [more, left, List.map_cons, List.take_succ_cons, ← reserveTags_cons a.tag ((t.map Access.tag).take _)]
        rfl
      · exact (reserveTags_tags _ _).symm ▸ nodup
      · exact tail
      · intro a' ha'
        obtain ⟨mem', free'⟩ := free a' (List.mem_cons_of_mem _ ha')
        have other : a'.tag ≠ a.tag := fun eq => head (eq ▸ List.mem_map_of_mem ha')
        refine ⟨List.mem_map.2 ⟨.access a', mem', ?_⟩, free'⟩
        exact congrArg Entry.access (if_neg (by simpa using other))
    · have full : d.hasRoom = false := decide_eq_false room
      have none_ : 16 - d.roomTaken = 0 := by omega
      rw [full, if_neg (by decide), ih nodup tail fun a' ha' => free a' (List.mem_cons_of_mem _ ha'), none_]
      rfl

end Sys2Proof.Machine

section
open Sys2Proof Sys2Proof.Machine

/-- Settles O38: the reservations are a fold over the wanting head requests (`Device.foldl_reserve`). -/
theorem reservationsAreTakenOldestFirstWhileRoomExists : Obligations.ReservationsAreTakenOldestFirstWhileRoomExists := by
  intro s x wanting reserving begun fresh same nodup own
  have command : exec .completionReservation s = .next s.reserveCompletions := by
    show Host.Outcome.next s.startingSlot.reserveCompletions = _
    rw [State.startingSlot_of_begun begun fresh]
  rw [command]
  unfold State.reserveCompletions Device.takeReservations
  rw [own]
  refine ⟨fun synced => ?_, fun other => ?_⟩
  · have synced' : s.now.synced = true := by simp [Device.synced, synced]
    rw [synced']
    have tags : (((accesses s.now.port.queue).filter
        (fun a => s.now.isHead a && !a.reserved && (s.now.serving x a).isSome)).map Access.tag).Nodup :=
      ((List.filter_sublist.map Access.tag).trans (accesses_tags_sublist _)).nodup nodup
    have taken := Device.foldl_reserve nodup tags fun a ha => by
      obtain ⟨mem, wants⟩ := List.mem_filter.1 ha
      simp only [Bool.and_eq_true, Bool.not_eq_true'] at wants
      exact ⟨mem_accesses.1 mem, wants.1.2⟩
    have reserved : ((accesses s.now.port.queue).filter
        (fun a => s.now.isHead a && !a.reserved && (s.now.serving x a).isSome)).foldl Device.reserve s.now
        = s.now.setQueue (reserveTags (wanting.take (16 - s.now.roomTaken)) s.now.port.queue) := taken
    exact congrArg (fun d : Device => Host.Outcome.next ({ s with now := d, after := s.after.setQueue d.port.queue } : State)) reserved
  · have idle : s.now.synced = false := by simp [Device.synced, other]
    have still : s.after.setQueue s.now.port.queue = s.after := by rw [← same]; rfl
    rw [idle]
    exact congrArg (fun d : Device => Host.Outcome.next ({ s with after := d } : State)) still

end
end

