-- ==== Sys2Proof/Proofs/RequestWindow.lean ====
section
/-! The request window (R150 to R154, R161): where a request is placed, the tests it is judged by, and what it does where it is taken. -/

namespace Sys2Proof.Machine

/-! ### Where a request is placed (R150, R184) -/

/-- The slot with its first request placed. -/
def State.placed (s : State) : State := { s with slot := { s.slot with closing := true, requestPlaced := true } }

section
variable {s : State} {r : Request}

theorem State.placeRequest_of_low (low : s.after.outOfReset = false) : s.placeRequest r = s := if_pos low

theorem State.placeRequest_of_first (out : s.after.outOfReset = true) (first : s.slot.requestPlaced = false) :
    s.placeRequest r = s.placed.actRequest r := by
  refine (if_neg (by simp [out])).trans ?_
  exact if_neg (by simpa using first)

theorem State.placeRequest_of_second (out : s.after.outOfReset = true) (second : s.slot.requestPlaced = true)
    (none_ : s.after.port.heldRequest = none) :
    s.placeRequest r = s.close.upd (fun d => { d with port := { d.port with heldRequest := some r } }) := by
  refine (if_neg (by simp [out])).trans ?_
  refine (if_pos second).trans ?_
  exact if_neg (by simp [none_])

theorem State.placeRequest_of_third (out : s.after.outOfReset = true) (second : s.slot.requestPlaced = true)
    (held : s.after.port.heldRequest ≠ none) : s.placeRequest r = s.close.discard := by
  refine (if_neg (by simp [out])).trans ?_
  refine (if_pos second).trans ?_
  exact if_pos (by simpa [Option.isSome_iff_ne_none] using held)

/-! ### How it is judged (R152) -/

theorem State.actRequest_of_refused (kind : r.kind ≠ some .cancel) {st : Status} (judged : judgeRequest s.now r = .refused st) :
    s.actRequest r = s.refuse r st := by
  refine (if_neg kind).trans ?_
  rw [judged]

theorem State.actRequest_of_discarded (kind : r.kind ≠ some .cancel) (judged : judgeRequest s.now r = .discarded) :
    s.actRequest r = s.discard := by
  refine (if_neg kind).trans ?_
  rw [judged]

end

/-- A request of no kind, or a READ or WRITE out of its range. -/
def Request.outside (r : Request) : Prop := r.kind = none ∨ ((r.kind = some .read ∨ r.kind = some .write) ∧ r.inRange = false)

/-- A second RETAIN or RESUME. -/
def Request.second (d : Device) (r : Request) : Prop :=
  (r.kind = some .retain ∧ retainEntry d.port.queue ≠ none) ∨ (r.kind = some .resume ∧ d.retention.resume ≠ none)

/-- A request for which the queue or the completion queue has no room. -/
def Request.overfull (d : Device) (r : Request) : Prop :=
  ((r.kind = some .read ∨ r.kind = some .write ∨ r.kind = some .retain) ∧ 16 ≤ d.port.queue.length)
    ∨ ((r.kind = some .retain ∨ r.kind = some .resume) ∧ 16 ≤ d.roomTaken)

/-- The last tests, by the request's kind. -/
def Device.judgeRoom (d : Device) : RequestKind → Judgement
  | .read | .write => if 16 ≤ d.port.queue.length then .discarded else .taken
  | .retain =>
    if (retainEntry d.port.queue).isSome then .refused .refusedState
    else if 16 ≤ d.port.queue.length then .discarded
    else if d.hasRoom then .taken else .discarded
  | .resume =>
    if d.retention.resume.isSome then .refused .refusedState else if d.hasRoom then .taken else .discarded
  | .cancel => .taken

section
variable {d : Device} {r : Request}

theorem Device.hasRoom_eq : d.hasRoom = decide (d.roomTaken < 16) := rfl

theorem judgeRequest_of_stopped (stopped : d.member.state = .standby ∨ d.member.state = .mismatch) :
    judgeRequest d r = .refused .refusedState := if_pos stopped

variable (runs : ¬ (d.member.state = .standby ∨ d.member.state = .mismatch))
include runs

theorem judgeRequest_of_outside (outside : r.outside) : judgeRequest d r = .refused .refusedRange := by
  refine (if_neg runs).trans ?_
  rcases outside with none_ | ⟨access, range⟩
  · rw [none_]
  · rcases access with kind | kind <;> rw [kind] <;> exact if_pos ⟨by decide, range⟩

variable (inside : ¬ r.outside)
include inside

/-- The tests after that of the range. -/
theorem judgeRequest_of_inside {k : RequestKind} (kind : r.kind = some k) : judgeRequest d r
    = if d.outstanding r.tag then .refused .refusedTag else d.judgeRoom k := by
  refine (if_neg runs).trans ?_
  rw [kind]
  refine (if_neg ?_).trans ?_
  · rintro ⟨access, range⟩
    exact inside (.inr ⟨by rw [kind]; simpa using access, range⟩)
  · cases k <;> rfl

omit runs in
theorem kind_of_inside : ∃ k, r.kind = some k := Option.ne_none_iff_exists'.1 fun none_ => inside (.inl none_)

theorem judgeRequest_of_outstanding (outstanding : d.outstanding r.tag = true) :
    judgeRequest d r = .refused .refusedTag := by
  obtain ⟨k, kind⟩ := kind_of_inside inside
  rw [judgeRequest_of_inside runs inside kind, if_pos outstanding]

variable (fresh : d.outstanding r.tag = false)
include fresh

theorem judgeRequest_of_second (second : r.second d) : judgeRequest d r = .refused .refusedState := by
  rcases second with ⟨kind, queued⟩ | ⟨kind, pending⟩ <;>
    rw [judgeRequest_of_inside runs inside kind, if_neg (by simp [fresh])] <;> refine if_pos ?_
  · exact Option.isSome_iff_ne_none.2 queued
  · exact Option.isSome_iff_ne_none.2 pending

theorem judgeRequest_of_overfull (first : ¬ r.second d) (overfull : r.overfull d) : judgeRequest d r = .discarded := by
  obtain ⟨k, kind⟩ := kind_of_inside inside
  rw [judgeRequest_of_inside runs inside kind, if_neg (by simp [fresh])]
  unfold Request.overfull at overfull
  unfold Request.second at first
  rw [kind] at overfull first
  cases k <;> simp_all [Device.judgeRoom, Device.hasRoom_eq]
  omega

theorem judgeRequest_of_taken (first : ¬ r.second d) (fits : ¬ r.overfull d) : judgeRequest d r = .taken := by
  obtain ⟨k, kind⟩ := kind_of_inside inside
  rw [judgeRequest_of_inside runs inside kind, if_neg (by simp [fresh])]
  unfold Request.overfull at fits
  unfold Request.second at first
  rw [kind] at fits first
  cases k <;> simp_all [Device.judgeRoom, Device.hasRoom_eq]

end

/-! ### The range of a READ or WRITE (R152, R181) -/

theorem Request.inRange_eq_false_iff (r : Request) : r.inRange = false ↔ 12 ≤ r.bankField.toNat ∨ 16383 < r.row.toNat
    ∨ 127 < r.column.toNat ∨ r.bursts = 0 ∨ 4 < r.bursts ∨ 128 < r.column.toNat + r.bursts := by
  have bank : (bankOf r.bankField).isSome = decide (r.bankField.toNat < 12) := by
    unfold bankOf
    split <;> simp_all
  rw [← Bool.not_eq_true, Request.inRange, bank]
  simp only [Bool.and_eq_true, decide_eq_true_eq]
  omega

/-! ### Refusals (R152, R153, R161) -/

theorem Device.refusalRoom_iff (d : Device) : d.refusalRoom = true
    ↔ d.roomTaken + (if d.member.state = .mismatch ∧ d.port.queue ≠ [] then 1 else 0) < 16 := by
  have waits : d.detachedWaits = decide (d.member.state = .mismatch ∧ d.port.queue ≠ []) := by
    unfold Device.detachedWaits
    cases d.port.queue <;> simp [beq_eq_decide]
  rw [Device.refusalRoom, waits, decide_eq_true_iff]
  simp only [decide_eq_true_eq, Config.completionMax]

/-! ### Requests taken (R125, R126, R127, R130) -/

section
variable {s : State} {r : Request} (judged : judgeRequest s.now r = .taken)
include judged

theorem State.actRequest_of_access (kind : r.kind = some .read ∨ r.kind = some .write) : s.actRequest r = s.takeAccess r := by
  have other : r.kind ≠ some .cancel := by rcases kind with kind | kind <;> rw [kind] <;> decide
  refine (if_neg other).trans ?_
  rw [judged]
  rcases kind with kind | kind <;> rw [kind]

theorem State.actRequest_of_retain (kind : r.kind = some .retain) : s.actRequest r = s.takeRetain r := by
  refine (if_neg (by rw [kind]; decide)).trans ?_
  rw [judged, kind]

theorem State.actRequest_of_resume (kind : r.kind = some .resume) : s.actRequest r = s.takeResume r := by
  refine (if_neg (by rw [kind]; decide)).trans ?_
  rw [judged, kind]

end

theorem bankOf_ofNat (b : Bank) : bankOf (BitVec.ofNat 4 b.val) = some b := by
  revert b; decide

/-- The queued RETAIN request completed, in one piece (R125). -/
theorem Device.completeRetain_spec (st : Status) (d : Device) : d.completeRetain st
    = { d with
        retention := { d.retention with ownVote := false }
        port := { d.port with
          queue := dropDone (retainEntry d.port.queue) d.port.queue
          completions := d.port.completions ++ ((retainEntry d.port.queue).map (fun g => ⟨g, st, 0, []⟩)).toList } } := by
  unfold Device.completeRetain
  cases h : retainEntry d.port.queue with
  | none => simp [dropDone]
  | some g => rfl

theorem retainEntry_append_access (q : List Entry) (a : Access) : retainEntry (q ++ [.access a]) = retainEntry q := by
  induction q with
  | nil => rfl
  | cons e t ih =>
    cases e with
    | access a' => exact ih
    | retain g n => rfl

/-- The RETAIN request an access withdraws, where it withdraws one. -/
def Device.withdrawn (d : Device) : Option Tag :=
  if d.retention.ownVote && d.mirror.array != .retaining && d.member.state != .mismatch then retainEntry d.port.queue else none

/-- A READ or WRITE at the tail of the queue, in one piece. -/
theorem State.takeAccess_eq {u : State} {r : Request} {b : Bank} (bank : bankOf r.bankField = some b) :
    u.takeAccess r = u.takeDrops.upd (fun d => { d with
      retention := { d.retention with
        ownVote := if d.retention.ownVote && d.mirror.array != .retaining && d.member.state != .mismatch then false
          else d.retention.ownVote }
      port := { d.port with
        queue := dropDone d.withdrawn (d.port.queue ++ [.access (accessEntry r b d.port.arrivals)])
        completions := d.port.completions ++ (d.withdrawn.map (fun g => ⟨g, .withdrawn, 0, []⟩)).toList
        arrivals := d.port.arrivals + 1 } }) := by
  unfold State.takeAccess
  rw [bank]
  generalize u.takeDrops = v
  unfold State.upd Device.withdrawn
  refine congrArg (fun d : Device => ({ v with after := d } : State)) ?_
  generalize v.after = d
  by_cases mismatch : d.member.state = .mismatch
  · simp [mismatch, Device.enqueue, dropDone]
  · unfold Device.accessWithdraws
    dsimp only
    rw [if_neg mismatch, Device.completeRetain_spec]
    by_cases withdraws : (d.retention.ownVote && d.mirror.array != .retaining) = true
    · refine (if_pos withdraws).trans ?_
      have all : (d.retention.ownVote && d.mirror.array != .retaining && d.member.state != .mismatch) = true := by
        rw [withdraws]; simpa using mismatch
      simp only [all, if_true, Device.enqueue, retainEntry_append_access]
    · refine (if_neg withdraws).trans ?_
      have none_ : (d.retention.ownVote && d.mirror.array != .retaining && d.member.state != .mismatch) = false := by
        simp [Bool.eq_false_iff.2 withdraws]
      simp [none_, Device.enqueue, dropDone]

section
variable {d : Device} {r : Request} (runs : d.member.state ≠ .standby ∧ d.member.state ≠ .mismatch)
  (fresh : d.outstanding r.tag = false) (room : d.roomTaken < 16)
include runs fresh room

theorem judgeRequest_retain_taken (kind : r.kind = some .retain) (first : retainEntry d.port.queue = none)
    (fits : d.port.queue.length < 16) : judgeRequest d r = .taken := by
  refine judgeRequest_of_taken (not_or.2 runs) (by simp [Request.outside, kind]) fresh (by simp [Request.second, kind, first]) ?_
  simp [Request.overfull, kind]
  omega

theorem judgeRequest_resume_taken (kind : r.kind = some .resume) (first : d.retention.resume = none) :
    judgeRequest d r = .taken := by
  refine judgeRequest_of_taken (not_or.2 runs) (by simp [Request.outside, kind]) fresh (by simp [Request.second, kind, first]) ?_
  simp [Request.overfull, kind]
  omega

end

/-- The state with a RESUME taken on a path, or answered at once where there is none; a queued RETAIN is withdrawn. -/
def Device.resumeTaken (tag : Tag) (path : Option ResumePath) (d : Device) : Device :=
  { d with
    retention := { d.retention with
      ownVote := if (retainEntry d.port.queue).isSome then false else d.retention.ownVote
      resume := match path with | some p => some ⟨tag, p, d.port.arrivals⟩ | none => d.retention.resume }
    port := { d.port with
      queue := dropDone (retainEntry d.port.queue) d.port.queue
      completions := d.port.completions ++ ((retainEntry d.port.queue).map (fun g => ⟨g, .withdrawn, 0, []⟩)).toList
        ++ (if path = none then [⟨tag, .done, 0, []⟩] else [])
      arrivals := d.port.arrivals + (if path = none then 0 else 1) } }

theorem State.takeResume_of_mismatch {u : State} (r : Request) (mismatch : u.takeDrops.after.member.state = .mismatch) :
    u.takeResume r = u.takeDrops.upd (Device.post (plainCompletion r.tag .detached)) := by
  unfold State.takeResume
  generalize u.takeDrops = v at mismatch
  unfold State.upd
  dsimp only
  rw [if_pos mismatch]

theorem State.takeResume_eq {u : State} (r : Request) (other : u.takeDrops.after.member.state ≠ .mismatch) :
    u.takeResume r = u.takeDrops.upd (Device.resumeTaken r.tag u.takeDrops.after.resumePath) := by
  unfold State.takeResume
  generalize u.takeDrops = v at other
  unfold State.upd
  refine congrArg (fun d : Device => ({ v with after := d } : State)) ?_
  generalize v.after = d at other
  dsimp only
  have withdraws : (if (retainEntry d.port.queue).isSome then d.completeRetain .withdrawn else d) = { d with
      retention := { d.retention with ownVote := if (retainEntry d.port.queue).isSome then false else d.retention.ownVote }
      port := { d.port with
        queue := dropDone (retainEntry d.port.queue) d.port.queue
        completions := d.port.completions ++ ((retainEntry d.port.queue).map (fun g => ⟨g, .withdrawn, 0, []⟩)).toList } } := by
    rw [Device.completeRetain_spec]
    cases retainEntry d.port.queue <;> simp [dropDone]
  rw [if_neg other, withdraws]
  have path : Device.resumePath { d with
      retention := { d.retention with ownVote := if (retainEntry d.port.queue).isSome then false else d.retention.ownVote }
      port := { d.port with
        queue := dropDone (retainEntry d.port.queue) d.port.queue
        completions := d.port.completions ++ ((retainEntry d.port.queue).map (fun g => ⟨g, .withdrawn, 0, []⟩)).toList } }
      = d.resumePath := rfl
  rw [path]
  unfold Device.resumeTaken
  cases d.resumePath with
  | none => rfl
  | some p => simp

theorem Device.resumePath_eq (d : Device) : d.resumePath = if d.member.state = .synced then
    (if d.mirror.array = .retaining then some .wake else if d.ownVoted then some .vote else none) else some .resync := by
  unfold Device.resumePath Device.synced
  simp only [beq_iff_eq]

/-! ### CANCEL (R128, R158) -/

theorem findAccess_tag {tag : Tag} {q : List Entry} {a : Access} (h : findAccess tag q = some a) : a.tag = tag :=
  beq_iff_eq.1 (List.find?_some (p := fun a : Access => a.tag == tag) h)

section
variable {s : State} {r : Request}

theorem State.takeCancel_of_access (runs : s.now.member.state ≠ .mismatch) {a : Access}
    (target : findAccess r.target s.now.port.queue = some a) : s.takeCancel r
      = if a.progress = .issued then s
        else if a.reserved = false ∧ s.now.hasRoom = false then s.discard
        else if s.after.member.state = .mismatch then s
        else s.upd (Device.cancelAccess r.target) := by
  unfold State.takeCancel
  rw [if_neg runs, target]

theorem State.takeCancel_of_no_access (runs : s.now.member.state ≠ .mismatch)
    (target : findAccess r.target s.now.port.queue = none) : s.takeCancel r
      = if s.after.member.state ≠ .mismatch ∧ retainEntry s.now.port.queue = some r.target
            ∧ retainEntry s.after.port.queue = some r.target then s.upd (Device.completeRetain .cancelled)
        else s := by
  unfold State.takeCancel
  rw [if_neg runs, target]

end

/-- A target whose data still moves waits ISSUED; any other is completed. -/
theorem Device.cancelAccess_eq {d : Device} {tag : Tag} {a : Access} (h : findAccess tag d.port.queue = some a) :
    d.cancelAccess tag = if ∃ o ∈ d.sched.ownBursts, o.tag = tag then
        d.setQueue (mapAccess (fun a' => if a'.tag = tag then { a' with progress := .issued, cancelled := true } else a') d.port.queue)
      else { d with port := { d.port with
        queue := d.port.queue.filter (fun e => e.tag != tag)
        completions := d.port.completions ++ [⟨tag, .cancelled, a.accepted, if a.isWrite then [] else a.captured⟩] } } := by
  unfold Device.cancelAccess
  rw [h]
  refine if_congr (by simp) rfl ?_
  unfold Device.completeAccess
  rw [findAccess_tag h, Access.completion, findAccess_tag h]
  rfl

end Sys2Proof.Machine

section
open Sys2Proof Sys2Proof.Machine

/-- Settles O43: the same argument for the five commands, each of which places its request. -/
theorem requestsAreRefusedOrDiscardedInOrder : Obligations.RequestsAreRefusedOrDiscardedInOrder := by
  intro s w0 w1 data commands placed discarded displaced holding state stopped access outside second overfull room answered
  have places : ∀ p ∈ commands, exec p.1 s = .next (s.placeRequest p.2) := by
    simp only [commands, List.forall_mem_cons]
    exact ⟨rfl, rfl, rfl, rfl, rfl, by simp⟩
  intro p hp
  rw [places p hp]
  generalize p.2 = r
  have outside_iff : outside r = true ↔ r.outside := by
    simp only [outside, access, Request.outside, Request.inRange_eq_false_iff, decide_eq_true_iff, Bool.or_eq_true, beq_iff_eq]
  have second_iff : second r = true ↔ r.second s.now := decide_eq_true_iff
  have overfull_iff : overfull r = true ↔ r.overfull s.now := by
    simp only [overfull, access, Request.overfull, decide_eq_true_iff, Bool.or_eq_true, beq_iff_eq, or_assoc]
  have stopped_iff : stopped = true ↔ s.now.member.state = .standby ∨ s.now.member.state = .mismatch := by
    simp only [stopped, state, Bool.or_eq_true, beq_iff_eq]
  have refuses (st : Status) : s.placed.refuse r st = answered r.tag st := by
    unfold State.refuse
    refine if_congr (Device.refusalRoom_iff s.now) rfl rfl
  refine ⟨fun low => ?_, fun ⟨out, again, none_⟩ => ?_, fun ⟨out, again, held⟩ => ?_, fun ⟨out, first, kind⟩ => ?_⟩
  · rw [State.placeRequest_of_low low]
  · rw [State.placeRequest_of_second out again none_]; rfl
  · rw [State.placeRequest_of_third out again held]; rfl
  rw [State.placeRequest_of_first out first, stopped_iff, outside_iff, second_iff, overfull_iff]
  have refused {st : Status} (judged : judgeRequest s.now r = .refused st) :
      s.placed.actRequest r = answered r.tag st :=
    (State.actRequest_of_refused (s := s.placed) kind judged).trans (refuses st)
  refine ⟨fun stops => congrArg Host.Outcome.next (refused (judgeRequest_of_stopped stops)), fun ⟨runs, out⟩ => congrArg Host.Outcome.next (refused (judgeRequest_of_outside runs out)),
    fun ⟨runs, inside, outstanding⟩ => congrArg Host.Outcome.next (refused (judgeRequest_of_outstanding runs inside outstanding)),
    fun ⟨runs, inside, fresh, again⟩ => congrArg Host.Outcome.next (refused (judgeRequest_of_second runs inside fresh again)),
    fun ⟨runs, inside, fresh, notAgain, full⟩ => ?_⟩
  exact congrArg Host.Outcome.next (State.actRequest_of_discarded (s := s.placed) kind
    (judgeRequest_of_overfull runs inside fresh notAgain full))

/-- Settles O42: the request is placed, judged taken, and joins the queue (`State.takeAccess_eq`). -/
theorem readAndWriteRequestsJoinTheQueue : Obligations.ReadAndWriteRequestsJoinTheQueue := by
  intro s w0 w1 data b isWrite dropped row column bursts queue withdraws gone out first runs named bankField range fresh fits
  refine ⟨?_, fun none_ => State.takeDrops_of_none none_⟩
  let r : Request := ⟨some (if isWrite then .write else .read), w0, w1, if isWrite then data else []⟩
  have places : exec (if isWrite then .writeRequest w0 w1 data else .readRequest w0 w1) s = .next (s.placeRequest r) := by
    cases isWrite with
    | true => rfl
    | false =>
      have kind : readKind w0 = some .read := if_pos (named rfl)
      show Host.Outcome.next (s.placeRequest ⟨readKind w0, w0, w1, []⟩) = _
      rw [kind]
      rfl
  have bank : bankOf r.bankField = some b := (congrArg bankOf bankField).trans (bankOf_ofNat b)
  have access : r.kind = some .read ∨ r.kind = some .write := by cases isWrite <;> simp [r]
  have inside : ¬ r.outside := by
    rintro (none_ | ⟨-, range'⟩)
    · exact nomatch none_
    · have size : r.bankField.toNat < 12 := by
        rw [show r.bankField = BitVec.ofNat 4 b.val from bankField]
        have := b.isLt
        simp only [BitVec.toNat_ofNat]
        omega
      obtain ⟨rowFits, spanFits, some_, few⟩ : r.row.toNat ≤ 16383 ∧ r.column.toNat + r.bursts ≤ 128 ∧ 1 ≤ r.bursts ∧ r.bursts ≤ 4 :=
        range
      rw [Request.inRange_eq_false_iff] at range'
      omega
  have judged : judgeRequest s.now r = .taken := by
    refine judgeRequest_of_taken (by tauto) inside fresh ?_ ?_
    · rintro (⟨kind, -⟩ | ⟨kind, -⟩) <;> rcases access with h | h <;> rw [h] at kind <;> exact absurd kind (by decide)
    · rintro (⟨-, full⟩ | ⟨kind | kind, -⟩)
      · omega
      all_goals rcases access with h | h <;> rw [h] at kind <;> exact absurd kind (by decide)
  rw [places, State.placeRequest_of_first out first]
  refine congrArg Host.Outcome.next ?_
  rw [State.actRequest_of_access (s := s.placed) judged access, State.takeAccess_eq bank, show s.placed.takeDrops = dropped from rfl]
  have entry (stamp : Nat) : accessEntry r b stamp = ⟨w0.extractLsb' 26 6, isWrite, b, BitVec.ofNat 14 row, BitVec.ofNat 7 column,
      bursts, w0.getLsbD 22, if isWrite then data else [], stamp, .waiting, 0, false, false, []⟩ := by
    have write : (r.kind == some .write) = isWrite := by cases isWrite <;> rfl
    have rowField : r.row.setWidth 14 = BitVec.ofNat 14 row := BitVec.eq_of_toNat_eq (by simp [row, Request.row, r])
    have columnField : r.column.setWidth 7 = BitVec.ofNat 7 column := BitVec.eq_of_toNat_eq (by simp [column, Request.column, r])
    unfold accessEntry
    rw [write, rowField, columnField]
    rfl
  simp only [entry]
  clear_value dropped
  rfl

/-- Settles O44: both requests are judged taken; a RETAIN joins the queue, a RESUME takes the path of the picture after the drops
(`State.takeResume_eq`). -/
theorem retainAndResumeRequestsAreTaken : Obligations.RetainAndResumeRequestsAreTaken := by
  intro s w0 w1 tag dropped gone taken detached out first runs fresh room
  have retain : retainEntry s.now.port.queue = none ∧ s.now.port.queue.length < 16 →
      exec (.retainRequest w0 w1) s = .next (s.placed.takeRetain ⟨some .retain, w0, w1, []⟩) := by
    rintro ⟨none_, fits⟩
    exact congrArg Host.Outcome.next ((State.placeRequest_of_first out first).trans (State.actRequest_of_retain (s := s.placed)
      (judgeRequest_retain_taken runs fresh room rfl none_ fits) rfl))
  have resume : s.now.retention.resume = none →
      exec (.resumeRequest w0 w1) s = .next (s.placed.takeResume ⟨some .resume, w0, w1, []⟩) := by
    intro none_
    exact congrArg Host.Outcome.next ((State.placeRequest_of_first out first).trans (State.actRequest_of_resume (s := s.placed)
      (judgeRequest_resume_taken runs fresh room rfl none_) rfl))
  have same : s.placed.takeDrops = dropped := rfl
  have path {p : Option ResumePath} (none_ : s.now.retention.resume = none) (other : dropped.after.member.state ≠ .mismatch)
      (h : dropped.after.resumePath = p) : exec (.resumeRequest w0 w1) s = .next (taken p) := by
    rw [resume none_, State.takeResume_eq (u := s.placed) _ (by rw [same]; exact other), same, h]
    clear_value dropped
    cases p <;> rfl
  have synced_ne (synced : dropped.after.member.state = .synced) : dropped.after.member.state ≠ .mismatch := by
    rw [synced]; decide
  refine ⟨fun ⟨none_, fits, other⟩ => ?_, fun ⟨none_, fits, mismatch⟩ => ?_, fun ⟨none_, mismatch⟩ => ?_,
    fun ⟨none_, synced, retaining⟩ => ?_, fun ⟨none_, synced, notRetaining, voted⟩ => ?_,
    fun ⟨none_, synced, notRetaining, voted⟩ => ?_, fun ⟨none_, notSynced, other⟩ => ?_, fun none_ => State.takeDrops_of_none none_⟩
  · rw [retain ⟨none_, fits⟩]
    refine congrArg (fun d : Device => Host.Outcome.next ({ s.placed with after := d } : State)) ?_
    exact if_neg other
  · rw [retain ⟨none_, fits⟩]
    refine congrArg (fun d : Device => Host.Outcome.next ({ s.placed with after := d } : State)) ?_
    exact if_pos mismatch
  · rw [resume none_, State.takeResume_of_mismatch (u := s.placed) _ (by rw [same]; exact mismatch), same]
    clear_value dropped
    rfl
  · exact path (p := some .wake) none_ (synced_ne synced) (by rw [Device.resumePath_eq, if_pos synced, if_pos retaining])
  · exact path (p := some .vote) none_ (synced_ne synced) (by rw [Device.resumePath_eq, if_pos synced, if_neg notRetaining, if_pos voted])
  · exact path (p := none) none_ (synced_ne synced) (by rw [Device.resumePath_eq, if_pos synced, if_neg notRetaining, voted]; rfl)
  · exact path (p := some .resync) none_ other (by rw [Device.resumePath_eq, if_neg notSynced])

/-- Settles O45, by the target: a READ or WRITE (`State.takeCancel_of_access`), or the queued RETAIN or nothing
(`State.takeCancel_of_no_access`). -/
theorem cancelCompletesItsTarget : Obligations.CancelCompletesItsTarget := by
  intro s w0 w1 a a' target placed discarded completing out first
  have command : exec (.cancel w0 w1) s = .next (s.placed.takeCancel ⟨some .cancel, w0, w1, []⟩) :=
    congrArg Host.Outcome.next ((State.placeRequest_of_first out first).trans (if_pos rfl))
  have stopped (h : s.now.member.state = .mismatch) : exec (.cancel w0 w1) s = .next placed :=
    command.trans (congrArg Host.Outcome.next (if_pos h))
  have found (h : findAccess target s.now.port.queue = some a) (runs : s.now.member.state ≠ .mismatch) :
      exec (.cancel w0 w1) s = .next (if a.progress = .issued then placed
        else if a.reserved = false ∧ s.now.hasRoom = false then discarded
        else if s.after.member.state = .mismatch then placed
        else placed.upd (Device.cancelAccess target)) :=
    command.trans (congrArg Host.Outcome.next (State.takeCancel_of_access (s := s.placed) runs h))
  have other (h : findAccess target s.now.port.queue = none) (runs : s.now.member.state ≠ .mismatch) :
      exec (.cancel w0 w1) s = .next (if s.after.member.state ≠ .mismatch ∧ retainEntry s.now.port.queue = some target
          ∧ retainEntry s.after.port.queue = some target then placed.upd (Device.completeRetain .cancelled) else placed) :=
    command.trans (congrArg Host.Outcome.next (State.takeCancel_of_no_access (s := s.placed) runs h))
  have room_iff : s.now.hasRoom = false ↔ 16 ≤ s.now.roomTaken := by
    rw [Device.hasRoom_eq, decide_eq_false_iff_not, not_lt]
  have fits (h : a.reserved = true ∨ s.now.roomTaken < 16) : ¬ (a.reserved = false ∧ s.now.hasRoom = false) := by
    rw [room_iff]
    rintro ⟨free, full⟩
    rcases h with h | h
    · exact absurd (free.symm.trans h) (by decide)
    · omega
  refine ⟨fun none_ => ?_, fun ⟨mismatch, h, room⟩ => ?_, fun ⟨h, issued⟩ => ?_, fun ⟨runs, h, waits, free, full⟩ => ?_,
    fun ⟨runs, stays, h, waits, room, h', still⟩ => ?_, fun ⟨runs, stays, h, waits, room, h', moves⟩ => ?_,
    fun ⟨runs, stays, h, queued, queued'⟩ => ?_⟩
  · by_cases runs : s.now.member.state = .mismatch
    · exact stopped runs
    · have nothing : findAccess target s.now.port.queue = none := by rcases none_ with h | ⟨h, -⟩ | ⟨-, h⟩ <;> [contradiction; exact h; exact h]
      rw [other nothing runs, if_neg]
      rintro ⟨stays, queued, -⟩
      rcases none_ with h | ⟨-, h⟩ | ⟨h, -⟩ <;> contradiction
  · by_cases runs : s.now.member.state = .mismatch
    · exact stopped runs
    · rw [found h runs, if_neg (fits room), if_pos mismatch, ite_self]
  · by_cases runs : s.now.member.state = .mismatch
    · exact stopped runs
    · rw [found h runs, if_pos issued]
  · rw [found h runs, if_neg waits, if_pos ⟨free, room_iff.2 full⟩]
  · rw [found h runs, if_neg waits, if_neg (fits room), if_neg stays]
    refine congrArg (fun d : Device => Host.Outcome.next ({ placed with after := d } : State)) ?_
    exact (Device.cancelAccess_eq h').trans (if_neg fun ⟨o, ho, eq⟩ => still o ho eq)
  · rw [found h runs, if_neg waits, if_neg (fits room), if_neg stays]
    refine congrArg (fun d : Device => Host.Outcome.next ({ placed with after := d } : State)) ?_
    exact (Device.cancelAccess_eq h').trans (if_pos moves)
  · rw [other h runs, if_pos ⟨stays, queued, queued'⟩]
    refine congrArg (fun d : Device => Host.Outcome.next ({ placed with after := d } : State)) ?_
    refine (Device.completeRetain_spec .cancelled s.after).trans ?_
    rw [queued']
    rfl

end
end

