-- ==== Sys2Proof/Proofs/CandidatesAndArbitration.lean ====
section
/-! What a station contends with, and who wins (R71, R80, R81, R133 to R138). -/

namespace Sys2Proof.Machine

/-! ### Arbitration (R71): bit by bit, the lowest field is left -/

/-- The fields agree from bit `k` up. -/
def AgreeFrom (k : Nat) (cs : List (BitVec 12)) : Prop :=
  ∀ a ∈ cs, ∀ b ∈ cs, ∀ j, k ≤ j → a.getLsbD j = b.getLsbD j

/-- A field that drives 0 where another drives 1, with equal bits above, is the lower one. -/
theorem toNat_lt_of_bit {k : Nat} {a b : BitVec 12} (low : a.getLsbD k = false) (high : b.getLsbD k = true)
    (above : ∀ j, k < j → a.getLsbD j = b.getLsbD j) : a.toNat < b.toNat :=
  Nat.lt_of_testBit k low high above

theorem mem_arbitrationBit {k : Nat} {cs : List (BitVec 12)} {w : BitVec 12} :
    w ∈ arbitrationBit k cs ↔ w ∈ cs ∧ (w.getLsbD k = false ∨ ∀ c ∈ cs, c.getLsbD k = true) := by
  unfold arbitrationBit
  split
  · next some_ =>
    have low : ¬ ∀ c ∈ cs, c.getLsbD k = true := by simpa using some_
    simp [low]
  · next none_ =>
    have high : ∀ c ∈ cs, c.getLsbD k = true := by simpa using none_
    simpa using fun _ => .inr high

/-- One bit leaves the fields that are still lowest, and they agree in it. -/
theorem AgreeFrom.arbitrationBit {k : Nat} {cs : List (BitVec 12)} (h : AgreeFrom (k + 1) cs) :
    AgreeFrom k (arbitrationBit k cs) := by
  intro a ha b hb j hj
  rw [mem_arbitrationBit] at ha hb
  rcases Nat.eq_or_lt_of_le hj with rfl | above
  · rcases ha with ⟨ha, low | high⟩ <;> rcases hb with ⟨hb, low' | high'⟩
    · rw [low, low']
    · rw [high' a ha, high' b hb]
    · rw [high a ha, high b hb]
    · rw [high a ha, high b hb]
  · exact h a ha.1 b hb.1 j above

/-- What the contention leaves is what is lowest. -/
theorem mem_contend {k : Nat} {cs : List (BitVec 12)} (agree : AgreeFrom k cs) {w : BitVec 12} :
    w ∈ contend k cs ↔ w ∈ cs ∧ ∀ o ∈ cs, w.toNat ≤ o.toNat := by
  induction k generalizing cs with
  | zero =>
    refine ⟨fun mem => ⟨mem, fun o ho => ?_⟩, fun h => h.1⟩
    rw [BitVec.eq_of_getLsbD_eq fun j _ => agree w mem o ho j (Nat.zero_le j)]
  | succ k ih =>
    show w ∈ contend k (arbitrationBit k cs) ↔ _
    rw [ih agree.arbitrationBit]
    have less {a b : BitVec 12} (ha : a ∈ cs) (hb : b ∈ cs) (low : a.getLsbD k = false) (high : b.getLsbD k = true) :
        a.toNat < b.toNat := toNat_lt_of_bit low high fun j hj => agree a ha b hb j hj
    constructor
    · rintro ⟨mem, least⟩
      obtain ⟨mem, left⟩ := mem_arbitrationBit.1 mem
      refine ⟨mem, fun o ho => ?_⟩
      by_cases stays : o ∈ arbitrationBit k cs
      · exact least o stays
      · rw [mem_arbitrationBit, not_and, not_or] at stays
        obtain ⟨high, notAll⟩ := stays ho
        exact (less mem ho (left.resolve_right notAll) (by simpa using high)).le
    · rintro ⟨mem, least⟩
      refine ⟨mem_arbitrationBit.2 ⟨mem, ?_⟩, fun o ho => least o (mem_arbitrationBit.1 ho).1⟩
      by_contra stuck
      rw [not_or] at stuck
      obtain ⟨high, notAll⟩ := stuck
      push Not at notAll
      obtain ⟨c, hc, low⟩ := notAll
      exact absurd (less hc mem (by simpa using low) (by simpa using high)) (not_lt.2 (least c hc))

theorem mem_arbitrate {cs : List (BitVec 12)} {w : BitVec 12} :
    w ∈ arbitrate cs ↔ w ∈ cs ∧ ∀ o ∈ cs, w.toNat ≤ o.toNat := by
  refine mem_contend fun a _ b _ j hj => ?_
  rw [BitVec.getLsbD_of_ge a j hj, BitVec.getLsbD_of_ge b j hj]

theorem contend_eq_nil_iff {k : Nat} {cs : List (BitVec 12)} : contend k cs = [] ↔ cs = [] := by
  induction k generalizing cs with
  | zero => rfl
  | succ k ih =>
    show contend k (arbitrationBit k cs) = [] ↔ _
    rw [ih]
    refine ⟨fun none_ => ?_, fun h => by rw [h]; rfl⟩
    by_contra some_
    unfold arbitrationBit at none_
    split at none_
    · next low =>
      obtain ⟨c, hc, bit⟩ := List.any_eq_true.1 low
      exact absurd (List.mem_filter.2 ⟨hc, bit⟩) (by rw [none_]; simp)
    · exact some_ none_

theorem State.startSlot_arbitrated (s : State) : s.startSlot.slot.arbitrated = false := rfl

theorem State.closeSlot_arbitrated (s : State) : s.closeSlot.slot.arbitrated = false := by
  rw [State.closeSlot_eq]
  exact s.closed.startSlot_arbitrated

/-- The arbitration changes its own record alone. -/
theorem State.arbitrate_keeps (others : List (BitVec 12)) (s : State) : s.arbitrate others
    = { s with slot := { s.slot with
        arbitrated := true, candidate := (s.arbitrate others).slot.candidate
        won := (s.arbitrate others).slot.won, laneField := (s.arbitrate others).slot.laneField } } := by
  unfold State.arbitrate
  generalize s.now.contending = c
  dsimp only

theorem State.arbitrate_won (others : List (BitVec 12)) (s : State) :
    (s.arbitrate others).slot.won = wonBy s.now.contending others := by
  simp only [State.arbitrate]

theorem State.arbitrate_laneField (others : List (BitVec 12)) (s : State) :
    (s.arbitrate others).slot.laneField = (Sys2Proof.Machine.arbitrate (contenders s.now.contending others)).head? := by
  simp only [State.arbitrate]

/-- An event of a slot's start in a slot past its arbitration is the next slot's. -/
theorem State.startingSlot_of_late {s : State}
    (late : s.slot.arbitrated = true ∨ s.slot.frameHeard = true ∨ s.slot.closing = true) : s.startingSlot = s.closeSlot := by
  refine if_pos ?_
  rw [Bool.or_eq_true, Bool.or_eq_true]
  tauto

/-! ### The choice of a candidate (R80, R81) -/

theorem bestOf_spec {l : List Frame} {f : Frame} (h : bestOf l = some f) : f ∈ l ∧ ∀ g ∈ l, f.rank ≤ g.rank := by
  induction l generalizing f with
  | nil => simp [bestOf] at h
  | cons a t ih =>
    have best : bestOf (a :: t) = match bestOf t with
        | none => some a
        | some g => if g.rank < a.rank then some g else some a := rfl
    rw [best] at h
    cases rest : bestOf t with
    | none =>
      have empty : t = [] := by
        cases t with
        | nil => rfl
        | cons b t =>
          unfold bestOf at rest
          split at rest
          · simp at rest
          · split at rest <;> simp at rest
      rw [rest] at h
      obtain rfl : a = f := by simpa using h
      simp [empty]
    | some g =>
      obtain ⟨mem, least⟩ := ih rest
      rw [rest] at h
      dsimp only at h
      split at h
      · next less =>
        obtain rfl : g = f := by simpa using h
        exact ⟨List.mem_cons_of_mem _ mem, List.forall_mem_cons.2 ⟨less.le, least⟩⟩
      · next notLess =>
        obtain rfl : a = f := by simpa using h
        exact ⟨List.mem_cons_self .., List.forall_mem_cons.2 ⟨le_rfl, fun b hb => (not_lt.1 notLess).trans (least b hb)⟩⟩

/-- Class and kind in order: the lower class first, then the lower kind. -/
theorem rank_le_iff (f g : Frame) : f.rank ≤ g.rank ↔ (classCode f.cls).toNat < (classCode g.cls).toNat
    ∨ (f.cls = g.cls ∧ (kindCode f.body.kind).toNat ≤ (kindCode g.body.kind).toNat) := by
  have equal : f.cls = g.cls ↔ (classCode f.cls).toNat = (classCode g.cls).toNat := by
    cases f.cls <;> cases g.cls <;> decide
  have := (kindCode f.body.kind).isLt
  have := (kindCode g.body.kind).isLt
  rw [equal]
  unfold Frame.rank
  omega

/-- A frame of this station's making: its tie value and its number (R72, R80). -/
def Device.Makes (d : Device) (x : Station) (f : Frame) : Prop := f.tie = d.tieValue x ∧ f.sender = x

section
variable {d : Device} {x : Station} {f : Frame}

theorem Device.makes_frame (d : Device) (x : Station) (cls : FrameClass) (body : Body) : d.Makes x (d.frame x cls body) :=
  ⟨rfl, rfl⟩

theorem Device.makes_of_mem_ite {p : Prop} [Decidable p] {cls : FrameClass} {body : Body}
    (mem : f ∈ (if p then [d.frame x cls body] else [])) : d.Makes x f := by
  split at mem
  · rw [List.mem_singleton.1 mem]; exact d.makes_frame x cls body
  · simp at mem

theorem Device.makes_of_wanted {a : Access} (h : d.wanted x a = some f) : d.Makes x f := by
  have made {cls : FrameClass} {body : Body} (h : some (d.frame x cls body) = some f) : d.Makes x f := by
    rw [← Option.some.inj h]; exact d.makes_frame ..
  have notice {p : Prop} [Decidable p] {cls : FrameClass} {body : Body} (h : (if p then none else some (d.frame x cls body)) = some f) :
      d.Makes x f := by
    split at h
    · cases h
    · exact made h
  unfold Device.wanted at h
  dsimp only at h
  split at h
  · split at h
    · split at h
      · split at h
        · exact made h
        · cases h
      · exact made h
    · exact notice h
  · split at h
    · cases h
    · exact notice h
  · split at h
    · exact made h
    · split at h
      · split at h
        · exact made h
        all_goals cases h
      · exact notice h
  all_goals
    split at h
    · cases h
    · exact notice h

theorem Device.makes_of_serving {a : Access} (h : d.serving x a = some f) : d.Makes x f := by
  unfold Device.serving at h
  split at h
  · next g wants =>
    split at h
    · exact makes_of_wanted (wants.trans h)
    · cases h
  · cases h

theorem Device.makes_of_requestFrames {a : Access} (mem : f ∈ d.requestFrames x a) : d.Makes x f := by
  unfold Device.requestFrames at mem
  split at mem
  · rcases List.mem_append.1 mem with mem | mem
    · exact makes_of_serving (Option.mem_toList.1 mem)
    · exact makes_of_mem_ite mem
  · cases mem

/-- One frame for each bank that fulfils a condition. -/
theorem Device.makes_of_filterMap {l : List Bank} {p : Bank → Frame → Bool} {cls : FrameClass} {body : Bank → Body}
    (mem : f ∈ l.filterMap (fun b => if p b (d.frame x cls (body b)) then some (d.frame x cls (body b)) else none)) :
    d.Makes x f := by
  obtain ⟨b, -, h⟩ := List.mem_filterMap.1 mem
  split at h
  · rw [← Option.some.inj h]; exact d.makes_frame ..
  · cases h

theorem Device.makes_of_schedulerOffers (mem : f ∈ d.schedulerOffers x) : d.Makes x f := by
  unfold Device.schedulerOffers at mem
  simp only [List.mem_append] at mem
  rcases mem with ((forced | plain) | withdraw) | request
  · exact makes_of_filterMap (p := fun b f => (forcedCaseA d b || forcedCaseB d b || forcedCaseD d b) && legal d f) forced
  · exact makes_of_filterMap (p := fun b f => d.holdsOpen b && d.closeReason b && legal d f) plain
  · exact makes_of_filterMap (p := fun b f => d.waitsFor b && (headOf d.port.queue b).isNone && legal d f) withdraw
  · obtain ⟨a, -, mem⟩ := List.mem_flatMap.1 request
    exact makes_of_requestFrames mem

/-- Every offer of a synced station is of its making. -/
theorem Device.makes_of_offers (synced : d.member.state = .synced) (mem : f ∈ d.offers) :
    legal d f = true ∧ ∃ x, d.ownNumber = some x ∧ d.Makes x f := by
  unfold Device.offers at mem
  cases own : d.ownNumber with
  | none => rw [own] at mem; simp at mem
  | some x =>
    rw [own, synced] at mem
    obtain ⟨mem, isLegal⟩ := List.mem_filter.1 mem
    refine ⟨isLegal, x, rfl, ?_⟩
    simp only [List.mem_append] at mem
    rcases mem with ((((((mark | full) | refresh) | presence) | vote) | retain) | wake) | scheduler
    · exact makes_of_mem_ite mark
    · exact makes_of_mem_ite full
    · unfold Device.refreshOffer at refresh
      split at refresh
      · split at refresh
        · rw [List.mem_singleton.1 refresh]; exact d.makes_frame ..
        · simp at refresh
      · simp at refresh
    · unfold Device.presenceOffer at presence
      split at presence
      · rw [List.mem_singleton.1 presence]; exact d.makes_frame ..
      · simp at presence
    · unfold Device.voteOffer at vote
      split at vote
      · split at vote
        · rw [List.mem_singleton.1 vote]; exact d.makes_frame ..
        · exact makes_of_mem_ite vote
      · simp at vote
    · exact makes_of_mem_ite retain
    · exact makes_of_mem_ite wake
    · exact makes_of_schedulerOffers scheduler

end

/-! ### The table of R133 -/

section
variable (d : Device) (x : Station) (a : Access)

theorem Device.serving_eq : d.serving x a = (d.wanted x a).filter (fun f => judge d f == none) := by
  unfold Device.serving
  cases d.wanted x a with
  | none => rfl
  | some f => cases h : judge d f <;> simp [legal, h, Option.filter]

theorem BankRec.window_isSome_iff (r : BankRec) : r.window?.isSome = true ↔ ∃ w, r.grant = some (.running w) := by
  unfold BankRec.window?
  rcases r.grant with _ | ⟨_⟩ | _ | _ <;> simp

/-- NOTICE, unless the station waits already. -/
def Device.noticeWanted : Option Frame :=
  if (d.bank a.bank).waiters.contains x then none else some (d.frame x .routine (.notice a.bank))

theorem Device.noticeWanted_of_not_mem (h : x ∉ (d.bank a.bank).waiters) :
    d.noticeWanted x a = some (d.frame x .routine (.notice a.bank)) := if_neg (by simpa using h)

theorem Device.noticeWanted_of_mem (h : x ∈ (d.bank a.bank).waiters) : d.noticeWanted x a = none := if_pos (by simpa using h)

/-- The next burst of a request. -/
def Device.nextBurst : Body :=
  if a.isWrite then .write a.bank a.nextColumn (d.closeAfter a) else .read a.bank a.nextColumn (d.closeAfter a)

/-- What is wanted at an OPEN bank: the next burst on the row, a plain CLOSE off it, NOTICE at another's. -/
theorem Device.wanted_of_opened {row : Row} {h : Station} {age settle guard : Nat}
    (st : (d.bank a.bank).st = .opened row h age settle guard) : d.wanted x a
      = if h = x then
          (if row = a.row then (if a.progress = .held then some (d.frame x .bank (d.nextBurst a)) else none)
            else some (d.frame x .bank (.close a.bank false)))
        else d.noticeWanted x a := by
  unfold Device.wanted
  dsimp only
  rw [st] <;> rfl

theorem Device.wanted_of_closePending {row : Row} {h : Station} {age guard : Nat}
    (st : (d.bank a.bank).st = .closePending row h age guard) :
    d.wanted x a = if h = x then none else d.noticeWanted x a := by
  unfold Device.wanted
  dsimp only
  rw [st] <;> rfl

/-- What is wanted at a CLOSED bank that nobody waits for. -/
theorem Device.wanted_of_free (st : (d.bank a.bank).st = .closed)
    (free : (d.bank a.bank).waiters = [] ∧ (d.bank a.bank).grant = none) :
    d.wanted x a = some (d.frame x .bank (.openRow a.bank a.row)) := by
  unfold Device.wanted
  dsimp only
  rw [st]
  exact if_pos (by simp [free])

/-- What is wanted at a CLOSED bank that has a list or a grant: OPEN at the head of a list whose grant runs. -/
theorem Device.wanted_of_closed (st : (d.bank a.bank).st = .closed)
    (taken : ¬ ((d.bank a.bank).waiters = [] ∧ (d.bank a.bank).grant = none)) : d.wanted x a
      = if (d.bank a.bank).waiters.head? = some x then
          (if (d.bank a.bank).window?.isSome then some (d.frame x .bank (.openRow a.bank a.row)) else none)
        else d.noticeWanted x a := by
  unfold Device.wanted
  dsimp only
  rw [st]
  refine (if_neg (by simpa using taken)).trans (if_congr Iff.rfl ?_ rfl)
  unfold BankRec.window?
  rcases (d.bank a.bank).grant with _ | ⟨_⟩ | _ | _ <;> rfl

/-- What is wanted at a bank that recharges or refreshes. -/
theorem Device.wanted_of_busy (busy : (d.bank a.bank).st ≠ .closed) (unheld : (d.bank a.bank).st.holder? = none) : d.wanted x a
      = if (d.bank a.bank).waiters = [] ∧ (d.bank a.bank).grant = none then none else d.noticeWanted x a := by
  have wants : d.wanted x a = if (d.bank a.bank).waiters.isEmpty && (d.bank a.bank).grant.isNone then none
      else d.noticeWanted x a := by
    unfold Device.wanted
    dsimp only
    cases st : (d.bank a.bank).st with
    | closed => exact absurd st busy
    | opened row h age settle guard => rw [st] at unheld; cases unheld
    | closePending row h age guard => rw [st] at unheld; cases unheld
    | recharging n => rfl
    | refreshing n k => rfl
  rw [wants]
  exact if_congr (by simp) rfl rfl

end

end Sys2Proof.Machine

section
open Sys2Proof Sys2Proof.Machine

/-- Settles O52: the contention leaves the lowest fields (`mem_arbitrate`). -/
theorem arbitrationIsWonByTheLowestField : Obligations.ArbitrationIsWonByTheLowestField := by
  intro s others mine fields
  refine ⟨fun ⟨begun, fresh⟩ => ?_, fun late => ?_⟩
  · have mine_eq : s.now.contending = mine := by
      unfold Device.contending Device.outOfReset
      simp only [Bool.and_eq_true]
      rfl
    refine ⟨s.arbitrate others, ?_, mine_eq, rfl, ?_, ?_, ?_, State.arbitrate_keeps others s⟩
    · show Host.Outcome.next (s.startingSlot.arbitrate others) = _
      rw [State.startingSlot_of_begun begun fresh]
    · rw [State.arbitrate_won, mine_eq]
      clear_value mine
      cases mine with
      | none => simp [wonBy]
      | some f => simp [wonBy, contenders, mem_arbitrate]
    · rw [State.arbitrate_laneField, mine_eq]
      rw [List.head?_eq_none_iff]
      refine contend_eq_nil_iff.trans ?_
      simp [contenders]
    · rw [State.arbitrate_laneField, mine_eq]
      exact fun w hw => mem_arbitrate.1 (List.mem_of_mem_head? (Option.mem_toList.1 hw))
  · have starts : s.startingSlot = s.closeSlot.startingSlot := by
      rw [State.startingSlot_of_begun s.closeSlot_counted.1 s.closeSlot_arbitrated]
      exact State.startingSlot_of_late late
    exact ⟨congrArg (fun u : State => Host.Outcome.next (u.arbitrate others)) starts,
      congrArg (fun u : State => Host.Outcome.next u.reachPresence) starts,
      congrArg (fun u : State => Host.Outcome.next u.reserveCompletions) starts⟩

/-- Settles O53. -/
theorem candidatesAreLegalAndOfTheLowestClassAndKind : Obligations.CandidatesAreLegalAndOfTheLowestClassAndKind := by
  intro d f synced candidate
  obtain ⟨mem, least⟩ := bestOf_spec candidate
  obtain ⟨isLegal, x, own, tie, sender⟩ := Device.makes_of_offers synced mem
  refine ⟨⟨mem, Option.isNone_iff_eq_none.1 isLegal, sender ▸ own⟩, ?_, fun g hg => (rank_le_iff f g).1 (least g hg)⟩
  rw [tie, sender, Device.tieValue, if_pos (by simp [Device.synced, synced])]

/-- Settles O54, by the bank's state (`Device.wanted_of_opened` and its like). -/
theorem aHeadRequestIsServedByTheTable : Obligations.AHeadRequestIsServedByTheTable := by
  intro d x a record frame own sameRow last
  have opened : own → ∃ row age settle guard, record.st = .opened row x age settle guard := by
    rintro ⟨isOpened, holder⟩
    cases st : record.st with
    | opened row h age settle guard =>
      rw [st] at holder
      obtain rfl : h = x := Option.some.inj holder
      exact ⟨row, age, settle, guard, rfl⟩
    | _ => rw [st] at isOpened; cases isOpened
  have rows {row : Row} {h : Station} {age settle guard : Nat} (st : record.st = .opened row h age settle guard) :
      sameRow ↔ row = a.row := by
    refine ⟨fun ⟨_, _, _, _, same⟩ => ?_, fun same => ⟨h, age, settle, guard, same ▸ st⟩⟩
    have := st.symm.trans same
    injection this
  refine ⟨Device.serving_eq .., fun ⟨mine, onRow, held⟩ => ?_, fun ⟨mine, onRow, notHeld⟩ => ?_, fun ⟨mine, offRow⟩ => ?_,
    fun ⟨row, age, guard, st⟩ => ?_, fun ⟨⟨h, holder, other⟩, out⟩ => ?_, fun ⟨st, free⟩ => ?_, fun ⟨st, head, running⟩ => ?_,
    fun ⟨unheld, taken, out⟩ => ?_, fun ⟨notMine, listed, notRunning⟩ => ?_, fun ⟨busy, unheld, free⟩ => ?_⟩
  · obtain ⟨row, age, settle, guard, st⟩ := opened mine
    rw [Device.wanted_of_opened d x a st, if_pos rfl, if_pos ((rows st).1 onRow), if_pos held]
    rfl
  · obtain ⟨row, age, settle, guard, st⟩ := opened mine
    rw [Device.wanted_of_opened d x a st, if_pos rfl, if_pos ((rows st).1 onRow), if_neg notHeld]
  · obtain ⟨row, age, settle, guard, st⟩ := opened mine
    rw [Device.wanted_of_opened d x a st, if_pos rfl, if_neg (mt (rows st).2 offRow)]
    rfl
  · rw [Device.wanted_of_closePending d x a st, if_pos rfl]
  · have notice := Device.noticeWanted_of_not_mem d x a out
    cases st : record.st with
    | opened row h' age settle guard =>
      obtain rfl : h' = h := by rw [st] at holder; exact Option.some.inj holder
      exact (Device.wanted_of_opened d x a st).trans ((if_neg other).trans notice)
    | closePending row h' age guard =>
      obtain rfl : h' = h := by rw [st] at holder; exact Option.some.inj holder
      exact (Device.wanted_of_closePending d x a st).trans ((if_neg other).trans notice)
    | _ => rw [st] at holder; cases holder
  · exact Device.wanted_of_free d x a st free
  · have taken : ¬ (record.waiters = [] ∧ record.grant = none) := by
      rintro ⟨none_, -⟩
      rw [none_] at head
      cases head
    exact (Device.wanted_of_closed d x a st taken).trans ((if_pos head).trans (if_pos ((BankRec.window_isSome_iff _).2 running)))
  · have notice := Device.noticeWanted_of_not_mem d x a out
    have listed : ¬ (record.waiters = [] ∧ record.grant = none) := by tauto
    by_cases st : record.st = .closed
    · refine (Device.wanted_of_closed d x a st listed).trans ((if_neg fun head => out ?_).trans notice)
      exact List.mem_of_mem_head? head
    · exact (Device.wanted_of_busy d x a st unheld).trans ((if_neg listed).trans notice)
  · have nothing := Device.noticeWanted_of_mem d x a listed
    have taken : ¬ (record.waiters = [] ∧ record.grant = none) := by
      rintro ⟨none_, -⟩
      rw [none_] at listed
      cases listed
    cases st : record.st with
    | opened row h age settle guard =>
      have other : h ≠ x := fun eq => notMine (by rw [st, eq]; rfl)
      exact (Device.wanted_of_opened d x a st).trans ((if_neg other).trans nothing)
    | closePending row h age guard =>
      have other : h ≠ x := fun eq => notMine (by rw [st, eq]; rfl)
      exact (Device.wanted_of_closePending d x a st).trans ((if_neg other).trans nothing)
    | closed =>
      rw [Device.wanted_of_closed d x a st taken]
      split
      · next head => exact if_neg fun running => notRunning ⟨st, head, (BankRec.window_isSome_iff _).1 running⟩
      · exact nothing
    | recharging n =>
      exact (Device.wanted_of_busy d x a (by rw [st]; nofun) (by rw [st]; rfl)).trans ((if_neg taken).trans nothing)
    | refreshing n k =>
      exact (Device.wanted_of_busy d x a (by rw [st]; nofun) (by rw [st]; rfl)).trans ((if_neg taken).trans nothing)
  · exact (Device.wanted_of_busy d x a busy unheld).trans (if_pos free)

end
end

