-- ==== Sys2Proof/Proofs/FrameEncoding.lean ====
section
/-! Frames to bits and back (R70, R74 to R76, R179, R180). -/

namespace Sys2Proof.Machine

theorem stationOf_sender (x : Station) : stationOf (BitVec.ofNat 3 x.val) = some x := by
  revert x; decide

theorem classOf_classCode (c : FrameClass) : classOf (classCode c) = c := by
  cases c <;> rfl

theorem balanceOf_ofInt {balance : Int} (low : -48 ≤ balance) (high : balance ≤ 60) :
    balanceOf (BitVec.ofInt 7 balance) = some balance := by
  have kept : (BitVec.ofInt 7 balance).toInt = balance := by
    rw [BitVec.toInt_ofInt]
    exact Int.bmod_eq_of_le (by omega) (by omega)
  unfold balanceOf
  rw [kept]
  exact if_pos ⟨low, high⟩

/-! ### The fields of each layout of a body (section 11.1) -/

theorem fields_of_index {index : BitVec 8} {w : Word} (h : w = index ++ 0#24) : w.extractLsb' 24 8 = index := by
  subst h
  simp (disch := decide) only [BitVec.extractLsb'_append_eq_of_le, Nat.reduceSub, BitVec.extractLsb'_eq_self]

theorem fields_of_fullRefresh {balance : BitVec 7} {members : BitVec 6} {first : Bool} {digest : BitVec 16} {w : Word}
    (h : w = balance ++ members ++ BitVec.ofBool first ++ 0#2 ++ digest) : w.extractLsb' 25 7 = balance ∧ w.extractLsb' 19 6 = members
      ∧ w.getLsbD 18 = first ∧ w.extractLsb' 0 16 = digest := by
  subst h
  simp (disch := decide) only [BitVec.extractLsb'_append_eq_of_le, BitVec.extractLsb'_append_eq_of_add_le, Nat.reduceSub,
    BitVec.extractLsb'_eq_self, BitVec.getLsbD_append, Nat.reduceLT, if_true, if_false, BitVec.getLsbD_ofBool, decide_true,
    Bool.true_and, and_self]

theorem fields_of_bankRefresh {bank : BitVec 4} {balance : BitVec 7} {w : Word}
    (h : w = bank ++ balance ++ 0#21) : w.extractLsb' 28 4 = bank ∧ w.extractLsb' 21 7 = balance := by
  subst h
  simp (disch := decide) only [BitVec.extractLsb'_append_eq_of_le, BitVec.extractLsb'_append_eq_of_add_le, Nat.reduceSub,
    BitVec.extractLsb'_eq_self, and_self]

theorem fields_of_close {bank : BitVec 4} {forced : Bool} {w : Word}
    (h : w = bank ++ BitVec.ofBool forced ++ 0#27) : w.extractLsb' 28 4 = bank ∧ w.getLsbD 27 = forced := by
  subst h
  simp (disch := decide) only [BitVec.extractLsb'_append_eq_of_le, Nat.reduceSub,
    BitVec.extractLsb'_eq_self, BitVec.getLsbD_append, Nat.reduceLT, if_true, if_false, BitVec.getLsbD_ofBool, decide_true,
    Bool.true_and, and_self]

theorem fields_of_openRow {bank : BitVec 4} {row : BitVec 14} {w : Word}
    (h : w = bank ++ row ++ 0#14) : w.extractLsb' 28 4 = bank ∧ w.extractLsb' 14 14 = row := by
  subst h
  simp (disch := decide) only [BitVec.extractLsb'_append_eq_of_le, BitVec.extractLsb'_append_eq_of_add_le, Nat.reduceSub,
    BitVec.extractLsb'_eq_self, and_self]

theorem fields_of_burst {bank : BitVec 4} {column : BitVec 7} {closeAfter : Bool} {w : Word}
    (h : w = bank ++ column ++ BitVec.ofBool closeAfter ++ 0#20) : w.extractLsb' 28 4 = bank
      ∧ w.extractLsb' 21 7 = column ∧ w.getLsbD 20 = closeAfter := by
  subst h
  simp (disch := decide) only [BitVec.extractLsb'_append_eq_of_le, BitVec.extractLsb'_append_eq_of_add_le, Nat.reduceSub,
    BitVec.extractLsb'_eq_self, BitVec.getLsbD_append, Nat.reduceLT, if_true, if_false, BitVec.getLsbD_ofBool, decide_true,
    Bool.true_and, and_self]

theorem fields_of_digest {digest : BitVec 16} {w : Word} (h : w = 0#16 ++ digest) : w.extractLsb' 0 16 = digest := by
  subst h
  simp (disch := decide) only [BitVec.extractLsb'_append_eq_of_add_le, BitVec.extractLsb'_eq_self]

theorem fields_of_rollCall {digest : BitVec 16} {peers : BitVec 3} {w : Word}
    (h : w = 0#13 ++ peers ++ digest) : w.extractLsb' 0 16 = digest ∧ w.extractLsb' 16 3 = peers := by
  subst h
  simp (disch := decide) only [BitVec.extractLsb'_append_eq_of_le, BitVec.extractLsb'_append_eq_of_add_le, Nat.reduceSub,
    BitVec.extractLsb'_eq_self, and_self]

theorem fields_of_bank {bank : BitVec 4} {w : Word} (h : w = bank ++ 0#28) : w.extractLsb' 28 4 = bank := by
  subst h
  simp (disch := decide) only [BitVec.extractLsb'_append_eq_of_le, Nat.reduceSub, BitVec.extractLsb'_eq_self]

theorem fields_of_vote {on : Bool} {w : Word} (h : w = BitVec.ofBool on ++ 0#31) : w.getLsbD 31 = on := by
  subst h
  simp (disch := decide) only [Nat.reduceSub,
    BitVec.getLsbD_append, Nat.reduceLT, if_false, BitVec.getLsbD_ofBool, decide_true,
    Bool.true_and]

/-- A body's bits, read under its kind's layout, are the body (section 11.1). -/
theorem decodeBody_bodyBits (body : Body) (bank : ∀ b after, body = .bankRefresh b after → -48 ≤ after ∧ after ≤ 60)
    (full : ∀ after members first digest, body = .fullRefresh after members first digest → -48 ≤ after ∧ after ≤ 60) :
    decodeBody body.kind (bodyBits body) = some body := by
  cases body with
  | mark index =>
    have index_ := fields_of_index (w := bodyBits (.mark index)) rfl
    simp only [decodeBody, Body.kind, index_]
  | fullRefresh balance members first digest =>
    obtain ⟨low, high⟩ := full balance members first digest rfl
    obtain ⟨balance_, members_, first_, digest_⟩ := fields_of_fullRefresh (w := bodyBits (.fullRefresh balance members first digest)) rfl
    simp only [decodeBody, Body.kind, balance_, balanceOf_ofInt low high, members_, first_, digest_, Option.map_some]
  | bankRefresh b balance =>
    obtain ⟨low, high⟩ := bank b balance rfl
    obtain ⟨bank_, balance_⟩ := fields_of_bankRefresh (w := bodyBits (.bankRefresh b balance)) rfl
    simp only [decodeBody, Body.kind, bankField, bank_, bankOf_ofNat, balance_, balanceOf_ofInt low high]
  | close b forced =>
    obtain ⟨bank_, forced_⟩ := fields_of_close (w := bodyBits (.close b forced)) rfl
    simp only [decodeBody, Body.kind, bankField, bank_, bankOf_ofNat, forced_, Option.map_some]
  | openRow b row =>
    obtain ⟨bank_, row_⟩ := fields_of_openRow (w := bodyBits (.openRow b row)) rfl
    simp only [decodeBody, Body.kind, bankField, bank_, bankOf_ofNat, row_, Option.map_some]
  | read b column closeAfter =>
    obtain ⟨bank_, column_, closeAfter_⟩ := fields_of_burst (w := bodyBits (.read b column closeAfter)) rfl
    simp only [decodeBody, Body.kind, bankField, bank_, bankOf_ofNat, column_, closeAfter_, Option.map_some]
  | write b column closeAfter =>
    obtain ⟨bank_, column_, closeAfter_⟩ := fields_of_burst (w := bodyBits (.write b column closeAfter)) rfl
    simp only [decodeBody, Body.kind, bankField, bank_, bankOf_ofNat, column_, closeAfter_, Option.map_some]
  | syncRequest digest =>
    have digest_ := fields_of_digest (w := bodyBits (.syncRequest digest)) rfl
    simp only [decodeBody, Body.kind, digest_]
  | rollCall digest peers =>
    obtain ⟨digest_, peers_⟩ := fields_of_rollCall (w := bodyBits (.rollCall digest peers)) rfl
    simp only [decodeBody, Body.kind, digest_, peers_]
  | notice b =>
    have bank_ := fields_of_bank (w := bodyBits (.notice b)) rfl
    simp only [decodeBody, Body.kind, bankField, bank_, bankOf_ofNat, Option.map_some]
  | withdraw b =>
    have bank_ := fields_of_bank (w := bodyBits (.withdraw b)) rfl
    simp only [decodeBody, Body.kind, bankField, bank_, bankOf_ofNat, Option.map_some]
  | vote on =>
    have on_ := fields_of_vote (w := bodyBits (.vote on)) rfl
    simp only [decodeBody, Body.kind, on_]
  | wake => rfl
  | retain => rfl
  | presence => rfl

/-! ### Which frames are malformed (R76) -/

theorem stationOf_eq_none_iff (v : BitVec 3) : stationOf v = none ↔ 6 ≤ v.toNat := by
  unfold stationOf
  split <;> simp_all

theorem val_of_stationOf {v : BitVec 3} {x : Station} (h : stationOf v = some x) : x.val = v.toNat := by
  unfold stationOf at h
  split at h
  · rw [← Option.some.inj h]
  · cases h

theorem bankOf_eq_none_iff (v : BitVec 4) : bankOf v = none ↔ 12 ≤ v.toNat := by
  unfold bankOf
  split <;> simp_all

theorem balanceOf_eq_none_iff (v : BitVec 7) : balanceOf v = none ↔ v.toInt < -48 ∨ 60 < v.toInt := by
  unfold balanceOf
  rw [ite_eq_right_iff]
  simp only [Config.balanceFloor, Config.balanceCeiling, reduceCtorEq, imp_false]
  omega

/-- A body's fields out of range, by its kind. -/
def BodyOutside (k : FrameKind) (w : Word) : Prop :=
  (kindHasBank k = true ∧ 12 ≤ (w.extractLsb' 28 4).toNat)
    ∨ (k = .bankRefresh ∧ ((w.extractLsb' 21 7).toInt < -48 ∨ 60 < (w.extractLsb' 21 7).toInt))
    ∨ (k = .fullRefresh ∧ ((w.extractLsb' 25 7).toInt < -48 ∨ 60 < (w.extractLsb' 25 7).toInt))

theorem decodeBody_eq_none_iff (k : FrameKind) (w : Word) : decodeBody k w = none ↔ BodyOutside k w := by
  unfold BodyOutside
  rw [← bankOf_eq_none_iff, ← balanceOf_eq_none_iff, ← balanceOf_eq_none_iff]
  cases k with
  | bankRefresh =>
    simp only [decodeBody, bankField, kindHasBank]
    cases bankOf (w.extractLsb' 28 4) <;> cases balanceOf (w.extractLsb' 21 7) <;> simp
  | fullRefresh => simp [decodeBody, kindHasBank]
  | close => simp [decodeBody, kindHasBank, bankField]
  | openRow => simp [decodeBody, kindHasBank, bankField]
  | read => simp [decodeBody, kindHasBank, bankField]
  | write => simp [decodeBody, kindHasBank, bankField]
  | notice => simp [decodeBody, kindHasBank, bankField]
  | withdraw => simp [decodeBody, kindHasBank, bankField]
  | _ => simp [decodeBody, kindHasBank]

theorem decodeFrame_eq_none_iff (k : FrameKind) (h : Heard) : decodeFrame k h = none
    ↔ classPermitted k (classOf h.cls) = false ∨ 6 ≤ h.sender.toNat ∨ BodyOutside k h.body := by
  rw [← stationOf_eq_none_iff, ← decodeBody_eq_none_iff]
  unfold decodeFrame
  cases classPermitted k (classOf h.cls) with
  | false => simp
  | true =>
    cases stationOf h.sender with
    | none => simp
    | some x => cases decodeBody k h.body <;> simp

theorem sender_of_decodeFrame {k : FrameKind} {h : Heard} {f : Frame} (e : decodeFrame k h = some f) :
    f.sender.val = h.sender.toNat := by
  unfold decodeFrame at e
  split at e
  · split at e
    · next x body sender _ =>
      rw [← Option.some.inj e]
      exact val_of_stationOf sender
    · cases e
  · cases e

/-! ### What becomes of a frame with a correct check -/

section
variable {s : State} {k : Option FrameKind} {h : Heard} (check : checkOk k h = true)
include check

omit check in
theorem State.arrayVeto_of_malformed (none_ : k.bind (fun k => decodeFrame k h) = none) : s.arrayVeto k h = true := by
  unfold State.arrayVeto
  rw [none_]
  exact Bool.or_true _

theorem State.arrayVeto_of_formed {f : Frame} (some_ : k.bind (fun k => decodeFrame k h) = some f) :
    s.arrayVeto k h = arrayVetoes s.now.array f.body := by
  unfold State.arrayVeto
  rw [some_, check]
  rfl

theorem stationVerdict_of_malformed {d : Device} (none_ : k.bind (fun k => decodeFrame k h) = none)
    (hears : d.member.state = .rollCall ∨ d.member.state = .unsynced ∨ d.member.state = .synced) :
    stationVerdict d k h false = some .malformed := by
  unfold stationVerdict
  rw [none_, check]
  rcases hears with state | state | state <;> rw [state] <;> rfl

theorem stationVerdict_of_waiting {d : Device} {f : Frame} (some_ : k.bind (fun k => decodeFrame k h) = some f)
    (waits : d.member.state = .rollCall ∨ d.member.state = .unsynced) : stationVerdict d k h false = none := by
  unfold stationVerdict
  rw [some_, check]
  rcases waits with state | state <;> rw [state] <;> rfl

theorem stationVerdict_of_synced {d : Device} {f : Frame} (some_ : k.bind (fun k => decodeFrame k h) = some f)
    (synced : d.member.state = .synced) : stationVerdict d k h false = judge d f := by
  unfold stationVerdict
  rw [some_, check, synced]
  rfl

end

end Sys2Proof.Machine

section
open Sys2Proof Sys2Proof.Machine

/-- Settles O55. -/
theorem everyWellFormedFrameDecodesToItself : Obligations.EveryWellFormedFrameDecodesToItself := by
  intro f permitted bank full
  refine ⟨?_, ?_, ?_⟩
  · exact beq_iff_eq.2 rfl
  · unfold decodeFrame
    have cls : classOf f.heard.cls = f.cls := classOf_classCode f.cls
    have sender : stationOf f.heard.sender = some f.sender := stationOf_sender f.sender
    have body : decodeBody f.body.kind f.heard.body = some f.body := decodeBody_bodyBits f.body bank full
    rw [cls, if_pos permitted, sender, body]
    rfl
  · simp [readsBack, Frame.heard, fieldHeard, codeHeard, Frame.field]

/-- Settles O56: malformed is what does not decode (`decodeFrame_eq_none_iff`). -/
theorem aFrameIsMalformedExactlyByTheTable : Obligations.AFrameIsMalformedExactlyByTheTable := by
  intro s k h malformed check back
  have malformed_iff : malformed ↔ k.bind (fun k => decodeFrame k h) = none := by
    cases k with
    | none => exact iff_of_true (.inl rfl) rfl
    | some kind =>
      refine Iff.trans ?_ (decodeFrame_eq_none_iff kind h).symm
      constructor
      · rintro (none_ | ⟨_, same, outside⟩)
        · cases none_
        · obtain rfl := Option.some.inj same
          exact outside
      · exact fun outside => .inr ⟨kind, rfl, outside⟩
  rw [malformed_iff, back]
  refine ⟨fun none_ => ⟨State.arrayVeto_of_malformed none_, stationVerdict_of_malformed check none_⟩, fun some_ => ?_⟩
  obtain ⟨f, formed⟩ := Option.ne_none_iff_exists'.1 some_
  obtain ⟨kind, rfl, decoded⟩ := Option.bind_eq_some_iff.1 formed
  exact ⟨kind, f, rfl, decoded, sender_of_decodeFrame decoded, State.arrayVeto_of_formed check formed,
    stationVerdict_of_waiting check formed, stationVerdict_of_synced check formed⟩

end
end

