-- ==== Sys2Proof/Proofs/DataSlots.lean ====
section
/-! The data slots at a slot's close (R20, R22, R88, R136): what nothing else of the close touches, what an own burst's last data slot
hands over, and what the array stores. -/

namespace Sys2Proof.Machine

/-! ### What the rest of a slot's close leaves alone -/

/-- The present picture, the array, the own bursts and the supply of free values stand. -/
structure State.KeepsData (t s : State) : Prop where
  now : t.now = s.now
  array : t.after.array = s.after.array
  ownBursts : t.after.sched.ownBursts = s.after.sched.ownBursts
  free : t.free = s.free

theorem State.KeepsData.refl (s : State) : s.KeepsData s := ⟨rfl, rfl, rfl, rfl⟩

theorem State.KeepsData.trans {u t s : State} (h : u.KeepsData t) (g : t.KeepsData s) : u.KeepsData s :=
  ⟨h.now.trans g.now, h.array.trans g.array, h.ownBursts.trans g.ownBursts, h.free.trans g.free⟩

theorem State.KeepsData.foldl {α : Type} {f : State → α → State} (h : ∀ s x, (f s x).KeepsData s) (l : List α) (s : State) :
    (l.foldl f s).KeepsData s := by
  induction l generalizing s with
  | nil => exact .refl s
  | cons x t ih => exact (ih (f s x)).trans (h s x)

theorem State.KeepsData.of_regrants {b : Bank} {t s : State} (h : t.regrantsOnly b s) : t.KeepsData s := by
  obtain ⟨_, _, _, _, _, _, _, _, sched, array, _⟩ := h.rest
  exact ⟨h.now, array, congrArg Scheduler.ownBursts sched, h.free⟩

theorem State.KeepsData.regrant (s : State) : s.regrant.KeepsData s := by
  obtain ⟨now, _, _, free, _, _, rest, _⟩ := s.regrant_spec
  obtain ⟨_, _, _, _, _, _, _, _, sched, array, _⟩ := rest
  exact ⟨now, array, congrArg Scheduler.ownBursts sched, free⟩

theorem State.KeepsData.enterUnsynced (r : LeftReason) (q : Bool) (s : State) : (s.enterUnsynced r q).KeepsData s :=
  ⟨rfl, rfl, rfl, rfl⟩

theorem State.KeepsData.takeDrop (m : Station) (s : State) : (s.takeDrop m).KeepsData s := by
  unfold State.takeDrop
  split
  · split
    · exact (State.KeepsData.enterUnsynced _ _ _).trans ⟨rfl, rfl, rfl, rfl⟩
    · exact (State.KeepsData.regrant _).trans ⟨rfl, rfl, rfl, rfl⟩
  · exact .refl s

theorem State.KeepsData.takeDrops (s : State) : s.takeDrops.KeepsData s :=
  .foldl (fun s m => .takeDrop m s) allStations s

theorem State.KeepsData.takeSettle (b : Bank) (s : State) : (s.takeSettle b).KeepsData s := by
  unfold State.takeSettle
  split
  · split <;> exact ⟨rfl, rfl, rfl, rfl⟩
  · exact .refl s

theorem State.KeepsData.takeCloseGuard (b : Bank) (s : State) : (s.takeCloseGuard b).KeepsData s := by
  unfold State.takeCloseGuard
  split
  · split <;> exact ⟨rfl, rfl, rfl, rfl⟩
  · exact .refl s

theorem State.KeepsData.takeRecharge (b : Bank) (s : State) : (s.takeRecharge b).KeepsData s := by
  unfold State.takeRecharge
  split <;> exact ⟨rfl, rfl, rfl, rfl⟩

theorem State.KeepsData.takeRefreshBusy (b : Bank) (s : State) : (s.takeRefreshBusy b).KeepsData s := by
  unfold State.takeRefreshBusy
  split <;> exact ⟨rfl, rfl, rfl, rfl⟩

theorem State.KeepsData.takeYieldBefore (b : Bank) (s : State) : (s.takeYieldBefore b).KeepsData s := by
  unfold State.takeYieldBefore
  split <;> exact ⟨rfl, rfl, rfl, rfl⟩

theorem State.KeepsData.takeYieldGrace (b : Bank) (s : State) : (s.takeYieldGrace b).KeepsData s := by
  unfold State.takeYieldGrace
  split <;> exact ⟨rfl, rfl, rfl, rfl⟩

theorem State.KeepsData.takeGrantWindow (b : Bank) (s : State) : (s.takeGrantWindow b).KeepsData s := by
  unfold State.takeGrantWindow
  split
  · exact (State.KeepsData.of_regrants (State.lapse_spec b s.close)).trans ⟨rfl, rfl, rfl, rfl⟩
  · exact .refl s

theorem State.KeepsData.takeBank (s : State) (b : Bank) :
    (((((((s.takeSettle b).takeCloseGuard b).takeRecharge b).takeRefreshBusy b).takeYieldBefore b).takeYieldGrace
      b).takeGrantWindow b).KeepsData s :=
  (State.KeepsData.takeGrantWindow b _).trans <| (State.KeepsData.takeYieldGrace b _).trans <|
    (State.KeepsData.takeYieldBefore b _).trans <| (State.KeepsData.takeRefreshBusy b _).trans <|
    (State.KeepsData.takeRecharge b _).trans <| (State.KeepsData.takeCloseGuard b _).trans (.takeSettle b s)

theorem State.KeepsData.takeInterval (s : State) : s.takeInterval.KeepsData s := by
  unfold State.takeInterval
  split <;> exact ⟨rfl, rfl, rfl, rfl⟩

theorem State.KeepsData.takeWakingGuard (s : State) : s.takeWakingGuard.KeepsData s := by
  unfold State.takeWakingGuard
  split
  · exact (State.KeepsData.regrant _).trans ⟨rfl, rfl, rfl, rfl⟩
  · exact .refl s

theorem State.KeepsData.takeRollCallWindow (s : State) : s.takeRollCallWindow.KeepsData s := by
  unfold State.takeRollCallWindow
  split
  · split
    · exact ⟨rfl, rfl, rfl, rfl⟩
    · exact (State.KeepsData.enterUnsynced _ _ _).trans ⟨rfl, rfl, rfl, rfl⟩
  · exact .refl s

theorem State.KeepsData.takeReservationFree (s : State) : s.takeReservationFree.KeepsData s := by
  unfold State.takeReservationFree
  split <;> exact ⟨rfl, rfl, rfl, rfl⟩

theorem State.KeepsData.takeOwnAgeLimit (s : State) : s.takeOwnAgeLimit.KeepsData s := by
  unfold State.takeOwnAgeLimit
  split <;> exact ⟨rfl, rfl, rfl, rfl⟩

theorem State.KeepsData.takeIdle (b : Bank) (s : State) : (s.takeIdle b).KeepsData s := by
  unfold State.takeIdle
  split <;> exact ⟨rfl, rfl, rfl, rfl⟩

theorem State.KeepsData.takeDetached (s : State) : s.takeDetached.KeepsData s := by
  unfold State.takeDetached
  split
  · split <;> exact ⟨rfl, rfl, rfl, rfl⟩
  · exact .refl s

/-- The close before the data slots. -/
def State.beforeData (s : State) : State :=
  (allBanks.foldl (fun s b =>
    ((((((s.takeSettle b).takeCloseGuard b).takeRecharge b).takeRefreshBusy b).takeYieldBefore b).takeYieldGrace b).takeGrantWindow b)
    s.takeDrops).takeInterval.takeWakingGuard.takeRollCallWindow.takeReservationFree

/-- The close after the data slots. -/
def State.afterData (s : State) : State :=
  (allBanks.foldl (fun s b => s.takeIdle b) s.takeOwnAgeLimit).takeDetached

theorem State.takeAll_eq (s : State) : s.takeAll = s.beforeData.takeDataSlots.takeLowers.afterData := by
  unfold State.takeAll State.afterData State.beforeData
  rfl

theorem State.KeepsData.beforeData (s : State) : s.beforeData.KeepsData s := by
  unfold State.beforeData
  exact (State.KeepsData.takeReservationFree _).trans <| (State.KeepsData.takeRollCallWindow _).trans <|
    (State.KeepsData.takeWakingGuard _).trans <| (State.KeepsData.takeInterval _).trans <|
    (State.KeepsData.foldl .takeBank _ _).trans (.takeDrops s)

theorem State.KeepsData.afterData (s : State) : s.afterData.KeepsData s := by
  unfold State.afterData
  exact (State.KeepsData.takeDetached _).trans <| (State.KeepsData.foldl (fun s b => .takeIdle b s) _ _).trans (.takeOwnAgeLimit s)

/-! The requests of the close. -/

theorem Device.completeRetain_data (st : Status) (d : Device) :
    (d.completeRetain st).array = d.array ∧ (d.completeRetain st).sched = d.sched := by
  rw [Device.completeRetain_eq]
  exact ⟨rfl, rfl⟩

theorem State.KeepsData.upd {g : Device → Device} {s : State} (array : (g s.after).array = s.after.array)
    (sched : (g s.after).sched = s.after.sched) : (s.upd g).KeepsData s :=
  ⟨rfl, array, congrArg Scheduler.ownBursts sched, rfl⟩

theorem State.KeepsData.refuse (r : Request) (st : Status) (s : State) : (s.refuse r st).KeepsData s := by
  unfold State.refuse
  split <;> exact ⟨rfl, rfl, rfl, rfl⟩

theorem State.KeepsData.takeAccess (r : Request) (s : State) : (s.takeAccess r).KeepsData s := by
  cases bank : bankOf r.bankField with
  | none => unfold State.takeAccess; rw [bank]; exact .refl s
  | some b => rw [State.takeAccess_eq bank]; exact (State.KeepsData.upd rfl rfl).trans (.takeDrops s)

theorem State.KeepsData.takeRetain (r : Request) (s : State) : (s.takeRetain r).KeepsData s := by
  refine .upd ?_ ?_ <;> split <;> rfl

theorem State.KeepsData.takeResume (r : Request) (s : State) : (s.takeResume r).KeepsData s := by
  have drops := State.KeepsData.takeDrops s
  by_cases mismatch : s.takeDrops.after.member.state = .mismatch
  · rw [State.takeResume_of_mismatch r mismatch]
    generalize s.takeDrops = u at drops
    exact (State.KeepsData.upd rfl rfl).trans drops
  · rw [State.takeResume_eq r mismatch]
    generalize s.takeDrops = u at drops
    exact (State.KeepsData.upd rfl rfl).trans drops

/-- A cancelled READ or WRITE changes the port alone. -/
theorem Device.cancelAccess_port (t : Tag) (d : Device) : d.cancelAccess t = { d with port := (d.cancelAccess t).port } := by
  unfold Device.cancelAccess
  split
  · rfl
  · split <;> rfl

theorem State.KeepsData.takeCancel (r : Request) (s : State) : (s.takeCancel r).KeepsData s := by
  unfold State.takeCancel
  split
  · exact .refl s
  · split
    · split_ifs
      · exact .refl s
      · exact ⟨rfl, rfl, rfl, rfl⟩
      · exact .refl s
      · exact .upd (by rw [Device.cancelAccess_port]) (by rw [Device.cancelAccess_port])
    · split
      · exact .upd (Device.completeRetain_data _ _).1 (Device.completeRetain_data _ _).2
      · exact .refl s

theorem State.KeepsData.actRequest (r : Request) (s : State) : (s.actRequest r).KeepsData s := by
  unfold State.actRequest
  split
  · exact .takeCancel r s
  · split
    · exact .refuse r _ s
    · exact ⟨rfl, rfl, rfl, rfl⟩
    · split
      · exact .takeAccess r s
      · exact .takeAccess r s
      · exact .takeRetain r s
      · exact .takeResume r s
      · exact .refl s
      · exact .refl s

theorem State.KeepsData.actDeferred (s : State) : s.actDeferred.KeepsData s := by
  unfold State.actDeferred
  split
  · split
    · exact .actRequest _ s
    · exact .refl s
  · exact .refl s

/-- Bringing the scheduler into line changes the timers and the queue alone. -/
theorem State.settleScheduler_eq (s : State) : ∃ idle queue, s.settleScheduler = s.upd (fun d => { d with
    sched := { d.sched with idle := idle }, port := { d.port with queue := queue } }) := by
  have heads (l : List Bank) (d : Device) : ∃ queue, l.foldl Device.settleHead d = { d with port := { d.port with queue := queue } } := by
    induction l generalizing d with
    | nil => exact ⟨_, rfl⟩
    | cons b t ih =>
      obtain ⟨queue, h⟩ := ih (d.settleHead b)
      exact ⟨queue, h.trans rfl⟩
  have timers (l : List Bank) (d : Device) : ∃ idle, l.foldl (settleIdle s.now) d = { d with sched := { d.sched with idle := idle } } := by
    induction l generalizing d with
    | nil => exact ⟨_, rfl⟩
    | cons b t ih =>
      obtain ⟨idle, h⟩ := ih (settleIdle s.now d b)
      exact ⟨idle, h.trans rfl⟩
  obtain ⟨queue, head⟩ := heads allBanks s.after
  obtain ⟨idle, timer⟩ := timers allBanks (allBanks.foldl Device.settleHead s.after)
  refine ⟨idle, queue, ?_⟩
  refine congrArg (fun d : Device => ({ s with after := d } : State)) (timer.trans ?_)
  rw [head]

theorem State.KeepsData.settleScheduler (s : State) : s.settleScheduler.KeepsData s := by
  obtain ⟨idle, queue, e⟩ := s.settleScheduler_eq
  rw [e]
  exact ⟨rfl, rfl, rfl, rfl⟩

/-! ### The data slots -/

theorem State.finishBurst_data (o : OwnBurst) (s : State) : (s.finishBurst o).now = s.now
    ∧ (s.finishBurst o).after.array = s.after.array ∧ (s.finishBurst o).free = s.free + 1
    ∧ (s.finishBurst o).after.sched.ownBursts = s.after.sched.ownBursts.filter (fun o' => o' != o) := by
  unfold State.finishBurst State.upd
  dsimp only
  split <;> exact ⟨rfl, rfl, rfl, rfl⟩

/-- The own bursts finished one after another. -/
theorem State.foldl_finishBurst_data (l : List OwnBurst) (s : State) : (l.foldl State.finishBurst s).now = s.now
    ∧ (l.foldl State.finishBurst s).after.array = s.after.array ∧ (l.foldl State.finishBurst s).free = s.free + l.length
    ∧ (l.foldl State.finishBurst s).after.sched.ownBursts = s.after.sched.ownBursts.filter (fun o => !l.contains o) := by
  induction l generalizing s with
  | nil => exact ⟨rfl, rfl, rfl, by simp⟩
  | cons o t ih =>
    obtain ⟨now, array, free, ownBursts⟩ := s.finishBurst_data o
    obtain ⟨now', array', free', ownBursts'⟩ := ih (s.finishBurst o)
    refine ⟨now'.trans now, array'.trans array, ?_, ?_⟩
    · rw [List.foldl_cons, free', free, List.length_cons]
      omega
    · rw [List.foldl_cons, ownBursts', ownBursts, List.filter_filter]
      refine List.filter_congr fun o' _ => ?_
      rw [List.contains_cons, Bool.not_or, Bool.and_comm]
      rfl

theorem State.takeDataSlots_data (s : State) : s.takeDataSlots.now = s.now ∧ s.takeDataSlots.after.array = s.after.array
    ∧ s.takeDataSlots.free = s.free + (s.after.sched.ownBursts.filter OwnBurst.due).length
    ∧ s.takeDataSlots.after.sched.ownBursts = s.after.sched.ownBursts.filter (fun o => o.left != 0) := by
  have rest : s.after.sched.ownBursts.filter (fun o => !(s.after.sched.ownBursts.filter OwnBurst.due).contains o)
      = s.after.sched.ownBursts.filter (fun o => o.left != 0) := by
    refine List.filter_congr fun o ho => ?_
    have mem : (s.after.sched.ownBursts.filter OwnBurst.due).contains o = o.due := by
      rw [Bool.eq_iff_iff, List.contains_iff_mem, List.mem_filter]
      exact and_iff_right ho
    rw [mem]
    rfl
  obtain ⟨now, array, free, ownBursts⟩ :=
    State.foldl_finishBurst_data (s.after.sched.ownBursts.filter OwnBurst.due) s.close
  unfold State.takeDataSlots
  dsimp only
  split
  · next none_ =>
    rw [List.isEmpty_iff] at none_
    rw [none_] at rest ⊢
    exact ⟨rfl, rfl, rfl, rest.symm.trans (by simp) |>.symm⟩
  · exact ⟨now, array, free, ownBursts.trans rest⟩

/-! ### The close of a slot -/

theorem State.startSlot_now_array (s : State) : s.startSlot.now.array = s.after.array := by
  show (Device.takeReservations _).array = _
  rw [Device.takeReservations_eq]
  rfl

theorem State.startSlot_now_ownBursts (s : State) : s.startSlot.now.sched.ownBursts = s.after.sched.ownBursts := by
  show (Device.takeReservations _).sched.ownBursts = _
  rw [Device.takeReservations_eq]
  rfl

/-- The close from the data slots on. -/
def State.closedFromData (u : State) : State := u.takeDataSlots.takeLowers.afterData.actDeferred.settleScheduler.settleArray

theorem State.closed_eq (s : State) : s.closed = s.beforeData.closedFromData := by
  unfold State.closed State.closedFromData
  rw [State.takeAll_eq]

theorem State.settleArray_array (s : State) : s.settleArray.after.array = ArrayDie.closeSlot s.now.array s.after.array := rfl

theorem State.settleArray_ownBursts (s : State) : s.settleArray.after.sched.ownBursts = s.after.sched.ownBursts := rfl

theorem State.KeepsData.afterSlots (u : State) : u.afterData.actDeferred.settleScheduler.KeepsData u :=
  (State.KeepsData.settleScheduler _).trans ((State.KeepsData.actDeferred _).trans (.afterData u))

theorem State.closedFromData_data (u : State) : u.closedFromData.after.array = ArrayDie.closeSlot u.now.array u.after.array
    ∧ u.closedFromData.after.sched.ownBursts = (u.after.sched.ownBursts.filter (fun o => o.left != 0)).map
      (OwnBurst.takeLower u.now.array (Config.undefinedBurst (u.free + (u.after.sched.ownBursts.filter OwnBurst.due).length))) := by
  obtain ⟨now, array, free, ownBursts⟩ := u.takeDataSlots_data
  have last := State.KeepsData.afterSlots u.takeDataSlots.takeLowers
  unfold State.closedFromData
  rw [State.settleArray_array, State.settleArray_ownBursts, last.now, last.array, last.ownBursts, State.takeLowers_now,
    State.takeLowers_after_array, State.takeLowers_after_sched, now, array, free, ownBursts]
  exact ⟨rfl, rfl⟩

/-- The array and the own bursts after a slot's close. -/
theorem State.closeSlot_data (s : State) : s.closeSlot.now.array = ArrayDie.closeSlot s.now.array s.after.array
    ∧ s.closeSlot.now.sched.ownBursts = (s.after.sched.ownBursts.filter (fun o => o.left != 0)).map
      (OwnBurst.takeLower s.now.array (Config.undefinedBurst (s.free + (s.after.sched.ownBursts.filter OwnBurst.due).length))) := by
  have before := State.KeepsData.beforeData s
  obtain ⟨array, ownBursts⟩ := s.beforeData.closedFromData_data
  rw [before.now, before.array] at array
  rw [before.now, before.free, before.ownBursts] at ownBursts
  rw [State.closeSlot_eq, State.startSlot_now_array, State.startSlot_now_ownBursts, State.closed_eq]
  exact ⟨array, ownBursts⟩


/-! ### What the array stores (R20, R22, R88) -/

theorem ArrayBurst.part_first {i : ArrayBurst} (moves : i.left ≤ 1) : i.part.1 = if i.left = 1 ∨ i.cut = true then 0 else 32 := by
  unfold ArrayBurst.part
  by_cases one : i.left = 1
  · rw [if_pos one, if_pos (.inl one)]
  · rw [if_neg one, if_pos (by omega)]
    by_cases cut : i.cut = true
    · rw [if_pos cut, if_pos (.inr cut)]
    · rw [if_neg cut, if_neg (not_or.2 ⟨one, cut⟩)]

theorem ArrayBurst.part_end {i : ArrayBurst} (moves : i.left ≤ 1) : i.part.1 + i.part.2 = if i.left = 1 then 32 else 64 := by
  unfold ArrayBurst.part
  by_cases one : i.left = 1
  · rw [if_pos one, if_pos one]
    rfl
  · rw [if_neg one, if_neg one, if_pos (by omega)]
    cases i.cut <;> rfl

theorem ArrayBurst.part_of_waiting {i : ArrayBurst} (waits : ¬ i.left ≤ 1) : i.part = (0, 0) := by
  unfold ArrayBurst.part
  rw [if_neg (by omega), if_neg (by omega)]

/-- The WRITE bursts in one of their data slots. -/
def ArrayDie.moving (a : ArrayDie) : List ArrayBurst := a.inFlight.filter (fun i => i.isWrite && decide (i.left ≤ 1))

theorem ArrayDie.mem_moving {a : ArrayDie} {i : ArrayBurst} : i ∈ a.moving ↔ i ∈ a.inFlight ∧ i.isWrite = true ∧ i.left ≤ 1 := by
  simp [ArrayDie.moving]

theorem ArrayDie.readByte_closeSlot_of_moving {before a : ArrayDie} (wf : Memory.wf a.mem = true) {i : ArrayBurst} (mem : i ∈ a.moving)
    (agree : ∀ j ∈ a.moving, j.bank = i.bank → j.row = i.row → j.column = i.column → j.data = i.data) {k : Nat}
    (first : (if i.left = 1 ∨ i.cut = true then 0 else 32) ≤ k) (last : k < if i.left = 1 then 32 else 64) :
    Memory.readByte (ArrayDie.closeSlot before a).mem (burstAddress i.bank i.row i.column + k) = burstByte i.data k := by
  obtain ⟨flying, write, moves⟩ := ArrayDie.mem_moving.1 mem
  refine readByte_storeParts wf flying write ?_ ?_ fun j flyingJ writeJ bank row column part => ?_
  · rwa [ArrayBurst.part_first moves]
  · rwa [ArrayBurst.part_end moves]
  · have movesJ : j.left ≤ 1 := by
      by_contra waits
      exact part (by rw [ArrayBurst.part_of_waiting waits])
    exact agree j (ArrayDie.mem_moving.2 ⟨flyingJ, writeJ, movesJ⟩) bank row column

theorem ArrayDie.readByte_closeSlot_of_outside {before a : ArrayDie} {address : Nat}
    (outside : ∀ i ∈ a.moving, address < burstAddress i.bank i.row i.column + (if i.left = 1 ∨ i.cut = true then 0 else 32)
      ∨ burstAddress i.bank i.row i.column + (if i.left = 1 then 32 else 64) ≤ address) :
    Memory.readByte (ArrayDie.closeSlot before a).mem address = Memory.readByte a.mem address := by
  refine readByte_storeParts_of_outside _ _ fun i flying write => ?_
  unfold ArrayBurst.outside
  by_cases moves : i.left ≤ 1
  · rw [ArrayBurst.part_end moves, ArrayBurst.part_first moves]
    exact outside i (ArrayDie.mem_moving.2 ⟨flying, write, moves⟩)
  · rw [ArrayBurst.part_of_waiting moves]
    exact Nat.lt_or_ge _ _

/-! ### The last data slot of one own burst (R136, R155, R159) -/

theorem accesses_mapAccess (g : Access → Access) (q : List Entry) : accesses (mapAccess g q) = (accesses q).map g := by
  unfold accesses
  rw [mapAccess_eq, List.filterMap_map, List.map_filterMap]
  refine List.filterMap_congr fun e _ => ?_
  cases e <;> rfl

theorem accesses_dropTag (tag : Tag) (q : List Entry) : accesses (dropTag tag q) = (accesses q).filter (fun a => a.tag != tag) := by
  unfold accesses dropTag
  induction q with
  | nil => rfl
  | cons e t ih =>
    cases e with
    | access a =>
      by_cases same : a.tag = tag
      · simpa [List.filter_cons, Entry.tag, same] using ih
      · simpa [List.filter_cons, Entry.tag, same] using ih
    | retain g n =>
      by_cases same : g = tag
      · simpa [List.filter_cons, Entry.tag, same] using ih
      · simpa [List.filter_cons, Entry.tag, same] using ih

theorem findAccess_mapAccess {g : Access → Access} (keeps : ∀ a, (g a).tag = a.tag) (tag : Tag) (q : List Entry) :
    findAccess tag (mapAccess g q) = (findAccess tag q).map g := by
  unfold findAccess
  rw [accesses_mapAccess, List.find?_map]
  simp only [Function.comp_def, keeps]

theorem findAccess_dropTag {tag other : Tag} (ne : other ≠ tag) (q : List Entry) :
    findAccess other (dropTag tag q) = findAccess other q := by
  unfold findAccess
  rw [accesses_dropTag, List.find?_filter]
  refine congrArg (fun p => List.find? p (accesses q)) (funext fun a => ?_)
  by_cases same : a.tag = other
  · simp [same, ne]
  · simp [same]

/-- A request is finished where it is ISSUED and no own burst has its tag. -/
theorem Device.finished_eq {d : Device} {tag : Tag} {a : Access} (found : findAccess tag d.port.queue = some a)
    (nodup : ((accesses d.port.queue).map Access.tag).Nodup) :
    d.finished tag = if a.progress = .issued ∧ ∀ o ∈ d.sched.ownBursts, o.tag ≠ tag then some a else none := by
  have only : ∀ e ∈ accesses d.port.queue, e.tag = tag → e = a := fun e mem same =>
    List.inj_on_of_nodup_map nodup mem (List.mem_of_find?_eq_some found) (same.trans (findAccess_tag found).symm)
  cases search : d.finished tag with
  | none =>
    refine (if_neg ?_).symm
    rintro ⟨issued, quiet⟩
    have fails := List.find?_eq_none.1 search a (List.mem_of_find?_eq_some found)
    simp [findAccess_tag found, issued] at fails
    obtain ⟨o, mem, same⟩ := fails
    exact quiet o mem same
  | some e =>
    have holds := List.find?_some search
    simp only [Bool.and_eq_true, beq_iff_eq, Bool.not_eq_true', List.any_eq_false] at holds
    obtain ⟨⟨same, issued⟩, quiet⟩ := holds
    obtain rfl := only e (List.mem_of_find?_eq_some search) same
    exact (if_pos ⟨issued, quiet⟩).symm

theorem captureFor_tag (o : OwnBurst) (data : Burst) (e : Access) : (captureFor o data e).tag = e.tag := by
  unfold captureFor
  split <;> rfl

theorem captureFor_eq (o : OwnBurst) (data : Burst) : captureFor o data
    = fun e => if e.tag = o.tag ∧ o.isWrite = false then { e with captured := e.captured ++ [data] } else e := by
  funext e
  refine if_congr ?_ rfl rfl
  rw [Bool.not_eq_true']

theorem captureFor_of_other {o : OwnBurst} {e : Access} (data : Burst) (other : e.tag ≠ o.tag) : captureFor o data e = e :=
  if_neg fun h => other h.1

/-- The capture changes no other tag's request. -/
theorem findAccess_capture {o : OwnBurst} {g : Tag} (data : Burst) (other : g ≠ o.tag) (q : List Entry) :
    findAccess g (mapAccess (captureFor o data) q) = findAccess g q := by
  rw [findAccess_mapAccess (captureFor_tag o data)]
  cases found : findAccess g q with
  | none => rfl
  | some e => exact congrArg some (captureFor_of_other data (findAccess_tag found ▸ other))

theorem captureFor_completion {o : OwnBurst} {a : Access} (data : Burst) (tag : a.tag = o.tag) (kind : a.isWrite = o.isWrite)
    (st : Status) : (captureFor o data a).completion st
      = ⟨o.tag, st, a.accepted, if o.isWrite then [] else a.captured ++ [data]⟩ := by
  unfold captureFor Access.completion
  rw [← tag, ← kind]
  cases write : a.isWrite <;> simp [write]

/-- The burst of an own request's last data slot: the lower half captured before, the higher now. -/
def State.moved (s : State) (o : OwnBurst) : Burst :=
  s.now.array.driven o true (Config.undefinedBurst s.free) ++ o.lower.getD (burstHalf false (Config.undefinedBurst s.free))

/-- The picture with an own burst's data handed over and its record gone. -/
def State.handOver (s : State) (o : OwnBurst) : Device :=
  { s.after with
    sched := { s.after.sched with ownBursts := s.after.sched.ownBursts.filter (fun o' => o' != o) }
    port := { s.after.port with queue := mapAccess (captureFor o (s.moved o)) s.after.port.queue } }

theorem State.finishBurst_eq (s : State) (o : OwnBurst) : s.finishBurst o = { s with
    after := match (s.handOver o).finished o.tag with
      | some a => (s.handOver o).completeAccess a (if a.cancelled then .cancelled else .done)
      | none => s.handOver o
    free := s.free + 1 } := rfl

section
variable {s : State} {o : OwnBurst} {a : Access} (found : findAccess o.tag s.after.port.queue = some a)
  (nodup : ((accesses s.after.port.queue).map Access.tag).Nodup)
include found nodup

theorem State.handOver_finished : (s.handOver o).finished o.tag
    = if a.progress = .issued ∧ ∀ o' ∈ s.after.sched.ownBursts.filter (fun o' => o' != o), o'.tag ≠ o.tag
      then some (captureFor o (s.moved o) a) else none := by
  have found' : findAccess o.tag (s.handOver o).port.queue = some (captureFor o (s.moved o) a) := by
    refine (findAccess_mapAccess (captureFor_tag o _) _ _).trans ?_
    rw [found]
    rfl
  have nodup' : ((accesses (s.handOver o).port.queue).map Access.tag).Nodup := by
    have tags : (accesses (s.handOver o).port.queue).map Access.tag = (accesses s.after.port.queue).map Access.tag := by
      refine (congrArg (List.map Access.tag) (accesses_mapAccess _ _)).trans ?_
      rw [List.map_map]
      exact List.map_congr_left fun e _ => captureFor_tag o _ e
    rwa [tags]
  have progress : (captureFor o (s.moved o) a).progress = a.progress := by
    unfold captureFor
    split <;> rfl
  rw [Device.finished_eq found' nodup', progress]
  rfl

theorem State.finishBurst_of_unfinished
    (unfinished : ¬ (a.progress = .issued ∧ ∀ o' ∈ s.after.sched.ownBursts.filter (fun o' => o' != o), o'.tag ≠ o.tag)) :
    (s.finishBurst o).after = s.handOver o := by
  rw [State.finishBurst_eq, State.handOver_finished found nodup, if_neg unfinished]

theorem State.finishBurst_of_finished
    (finished : a.progress = .issued ∧ ∀ o' ∈ s.after.sched.ownBursts.filter (fun o' => o' != o), o'.tag ≠ o.tag) :
    (s.finishBurst o).after
      = (s.handOver o).completeAccess (captureFor o (s.moved o) a) (if a.cancelled then .cancelled else .done) := by
  have cancelled : (captureFor o (s.moved o) a).cancelled = a.cancelled := by
    unfold captureFor
    split <;> rfl
  rw [State.finishBurst_eq, State.handOver_finished found nodup, if_pos finished]
  dsimp only
  rw [cancelled]

end

theorem State.takeDataSlots_of_one {s : State} {o : OwnBurst} (one : s.after.sched.ownBursts.filter OwnBurst.due = [o]) :
    s.takeDataSlots = s.close.finishBurst o := by
  unfold State.takeDataSlots
  rw [one]
  rfl

end Sys2Proof.Machine

section
open Sys2Proof Sys2Proof.Machine

/-- Settles O39: `closeSlot` touches the array and the own bursts in its data slots alone (`closeSlot_data`). -/
theorem lastDataSlotCapturesAndCompletes : Obligations.LastDataSlotCapturesAndCompletes := by
  intro s o a left captured data finished moving first last ended
  refine ⟨?_, ?_⟩
  · rintro ⟨one, found, kind, nodup⟩
    have taken := State.takeDataSlots_of_one one
    have tag := findAccess_tag found
    have now : s.takeDataSlots.now = s.now := s.takeDataSlots_data.1
    have pending : s.takeDataSlots.pending = s.pending := (congrArg State.pending taken).trans rfl
    refine ⟨s.takeDataSlots, rfl, ?_⟩
    by_cases done : finished
    · have after := State.finishBurst_of_finished (s := s.close) found nodup done
      rw [← taken] at after
      generalize s.takeDataSlots = t at after now pending
      rw [after]
      refine ⟨rfl, absurd done, fun _ => ⟨?_, ?_, fun g other => ?_⟩, rfl, rfl, rfl, rfl, rfl, rfl, now, pending⟩
      · refine (congrArg (List.filter _) (accesses_dropTag _ _)).trans ?_
        rw [captureFor_tag, tag, List.filter_filter]
        simp
      · refine congrArg (s.after.port.completions ++ [·]) ?_
        exact captureFor_completion _ tag kind _
      · refine (findAccess_dropTag (by rwa [captureFor_tag, tag]) _).trans ?_
        exact findAccess_capture _ other _
    · have after := State.finishBurst_of_unfinished (s := s.close) found nodup done
      rw [← taken] at after
      generalize s.takeDataSlots = t at after now pending
      rw [after]
      refine ⟨rfl, fun _ => ?_, fun f => absurd f done, rfl, rfl, rfl, rfl, rfl, rfl, now, pending⟩
      exact congrArg (fun f => { s.after.port with queue := mapAccess f s.after.port.queue }) (captureFor_eq o data)
  · rintro ⟨empty, wf⟩
    obtain ⟨array, ownBursts⟩ := s.closeSlot_data
    refine ⟨s.closeSlot, ?_, ?_⟩
    · unfold step
      rw [empty]
    · generalize s.closeSlot = t at array ownBursts
      rw [array, ownBursts]
      exact ⟨rfl, rfl, fun i mem agree k lo hi => ArrayDie.readByte_closeSlot_of_moving wf mem agree lo hi,
        fun address outside => ArrayDie.readByte_closeSlot_of_outside outside⟩

end
end

