-- ==== Sys2Proof/Proofs/SlotClock.lean ====
section
/-! What the passing of a slot counts (R3), gathered in one record, and which parts of a slot's close leave it alone. -/

namespace Sys2Proof.Machine

/-! ### The clock of a picture -/

/-- The timers, marks and states of a picture that a slot without a frame moves. -/
@[ext]
structure Clock where
  st : Bank → BankState
  lastOpen : Option Nat
  lastBankRefresh : Option Nat
  reservation : Option Reservation
  array : ArrayState
  account : Account
  ageMark : Option Nat
  wakingGuard : Option Nat
  state : StationState
  own : Option Station
  profile : Profile
  window : Option Nat
  idle : Bank → Option Nat

def Device.clock (d : Device) : Clock :=
  { st := fun b => (d.bank b).st
    lastOpen := d.mirror.lastOpen
    lastBankRefresh := d.mirror.lastBankRefresh
    reservation := d.mirror.reservation
    array := d.mirror.array
    account := d.account
    ageMark := d.retention.ageMark
    wakingGuard := d.retention.wakingGuard
    state := d.member.state
    own := d.ownNumber
    profile := d.member.profile
    window := d.member.window
    idle := fun b => d.sched.idle[b] }

theorem Device.clock_of_rest {d e : Device} (rest : d.restAgrees e) (st : ∀ b, (d.bank b).st = (e.bank b).st) :
    d.clock = e.clock := by
  obtain ⟨-, lastOpen, lastBankRefresh, reservation, array, account, member, retention, sched, -⟩ := rest
  unfold Device.clock Device.ownNumber
  rw [funext st, lastOpen, lastBankRefresh, reservation, array, account, member, retention, sched]

/-- The present picture and the clock of the picture after the close stand. -/
structure State.KeepsClock (t s : State) : Prop where
  now : t.now = s.now
  clock : t.after.clock = s.after.clock

/-- With them the banks' records and the sets of stations stand. -/
structure State.KeepsRoster (t s : State) : Prop extends State.KeepsClock t s where
  banks : t.after.mirror.banks = s.after.mirror.banks
  members : t.after.member.members = s.after.member.members
  syncPending : t.after.member.syncPending = s.after.member.syncPending
  ages : t.after.member.ages = s.after.member.ages

theorem State.KeepsClock.refl (s : State) : s.KeepsClock s := ⟨rfl, rfl⟩

theorem State.KeepsClock.trans {u t s : State} (h : u.KeepsClock t) (g : t.KeepsClock s) : u.KeepsClock s :=
  ⟨h.now.trans g.now, h.clock.trans g.clock⟩

theorem State.KeepsClock.state {t s : State} (h : t.KeepsClock s) : t.after.member.state = s.after.member.state :=
  congrArg Clock.state h.clock

theorem State.KeepsRoster.refl (s : State) : s.KeepsRoster s := ⟨.refl s, rfl, rfl, rfl, rfl⟩

theorem State.KeepsRoster.trans {u t s : State} (h : u.KeepsRoster t) (g : t.KeepsRoster s) : u.KeepsRoster s :=
  ⟨h.toKeepsClock.trans g.toKeepsClock, h.banks.trans g.banks, h.members.trans g.members, h.syncPending.trans g.syncPending,
    h.ages.trans g.ages⟩

theorem State.KeepsRoster.foldl {α : Type} {f : State → α → State} (h : ∀ s x, (f s x).KeepsRoster s) (l : List α) (s : State) :
    (l.foldl f s).KeepsRoster s := by
  induction l generalizing s with
  | nil => exact .refl s
  | cons x t ih => exact (ih (f s x)).trans (h s x)

/-- A change of the client's blocks alone. -/
theorem State.KeepsRoster.upd {g : Device → Device} {s : State} (mirror : (g s.after).mirror = s.after.mirror)
    (account : (g s.after).account = s.after.account) (member : (g s.after).member = s.after.member)
    (ageMark : (g s.after).retention.ageMark = s.after.retention.ageMark)
    (wakingGuard : (g s.after).retention.wakingGuard = s.after.retention.wakingGuard)
    (sched : (g s.after).sched.idle = s.after.sched.idle) : (s.upd g).KeepsRoster s := by
  refine ⟨⟨rfl, ?_⟩, congrArg Mirror.banks mirror, congrArg Membership.members member, congrArg Membership.syncPending member,
    congrArg Membership.ages member⟩
  rw [State.upd_after]
  unfold Device.clock Device.ownNumber Device.bank
  rw [mirror, account, member, ageMark, wakingGuard, sched]

/-! ### The requests of the close -/

theorem Device.completeRetain_keeps (st : Status) (d : Device) : (d.completeRetain st).mirror = d.mirror
    ∧ (d.completeRetain st).account = d.account ∧ (d.completeRetain st).member = d.member
    ∧ (d.completeRetain st).retention.ageMark = d.retention.ageMark
    ∧ (d.completeRetain st).retention.wakingGuard = d.retention.wakingGuard ∧ (d.completeRetain st).sched = d.sched := by
  unfold Device.completeRetain
  split <;> exact ⟨rfl, rfl, rfl, rfl, rfl, rfl⟩

theorem State.KeepsRoster.refuse (r : Request) (st : Status) (s : State) : (s.refuse r st).KeepsRoster s := by
  unfold State.refuse
  split <;> exact ⟨⟨rfl, rfl⟩, rfl, rfl, rfl, rfl⟩

theorem State.KeepsRoster.takeRetain (r : Request) (s : State) : (s.takeRetain r).KeepsRoster s := by
  refine .upd ?_ ?_ ?_ ?_ ?_ ?_ <;> split <;> rfl

theorem State.KeepsRoster.cancelAccess (t : Tag) (s : State) : (s.upd (Device.cancelAccess t)).KeepsRoster s := by
  refine .upd ?_ ?_ ?_ ?_ ?_ ?_ <;> rw [Device.cancelAccess_port]

theorem State.KeepsRoster.takeCancel (r : Request) (s : State) : (s.takeCancel r).KeepsRoster s := by
  unfold State.takeCancel
  split
  · exact .refl s
  · split
    · split_ifs
      · exact .refl s
      · exact ⟨⟨rfl, rfl⟩, rfl, rfl, rfl, rfl⟩
      · exact .refl s
      · exact .cancelAccess _ s
    · split
      · obtain ⟨mirror, account, member, ageMark, wakingGuard, sched⟩ := s.after.completeRetain_keeps .cancelled
        exact .upd mirror account member ageMark wakingGuard (congrArg Scheduler.idle sched)
      · exact .refl s

theorem State.KeepsRoster.takeAccess (r : Request) (s : State) :
    (s.takeAccess r).KeepsRoster s ∨ (s.takeAccess r).KeepsRoster s.takeDrops := by
  cases bank : bankOf r.bankField with
  | none =>
    unfold State.takeAccess
    rw [bank]
    exact .inl (.refl s)
  | some b =>
    rw [State.takeAccess_eq bank]
    generalize s.takeDrops = u
    exact .inr (.upd rfl rfl rfl rfl rfl rfl)

theorem State.KeepsRoster.takeResume (r : Request) (s : State) : (s.takeResume r).KeepsRoster s.takeDrops := by
  by_cases mismatch : s.takeDrops.after.member.state = .mismatch
  · rw [State.takeResume_of_mismatch r mismatch]
    generalize s.takeDrops = u
    exact .upd rfl rfl rfl rfl rfl rfl
  · rw [State.takeResume_eq r mismatch]
    generalize s.takeDrops = u
    exact .upd rfl rfl rfl rfl rfl rfl

/-- The held request changes what the client sees; the drops due come before it. -/
theorem State.KeepsRoster.actRequest (r : Request) (s : State) :
    (s.actRequest r).KeepsRoster s ∨ (s.actRequest r).KeepsRoster s.takeDrops := by
  unfold State.actRequest
  split
  · exact .inl (.takeCancel r s)
  · split
    · exact .inl (.refuse r _ s)
    · exact .inl ⟨⟨rfl, rfl⟩, rfl, rfl, rfl, rfl⟩
    · split
      · exact State.KeepsRoster.takeAccess r s
      · exact State.KeepsRoster.takeAccess r s
      · exact .inl (.takeRetain r s)
      · exact .inr (.takeResume r s)
      · exact .inl (.refl s)
      · exact .inl (.refl s)

theorem State.KeepsRoster.actDeferred (s : State) : s.actDeferred.KeepsRoster s ∨ s.actDeferred.KeepsRoster s.takeDrops := by
  unfold State.actDeferred
  split
  · split
    · exact State.KeepsRoster.actRequest _ s
    · exact .inl (.refl s)
  · exact .inl (.refl s)

/-! ### The data slots and the detached completion -/

theorem State.KeepsRoster.finishBurst (s : State) (o : OwnBurst) : (s.finishBurst o).KeepsRoster s := by
  rw [State.finishBurst_eq]
  generalize Device.finished _ _ = done
  cases done <;> exact ⟨⟨rfl, rfl⟩, rfl, rfl, rfl, rfl⟩

theorem State.KeepsRoster.takeDataSlots (s : State) : s.takeDataSlots.KeepsRoster s := by
  unfold State.takeDataSlots
  dsimp only
  split
  · exact .refl s
  · exact (State.KeepsRoster.foldl .finishBurst _ _).trans ⟨⟨rfl, rfl⟩, rfl, rfl, rfl, rfl⟩

theorem State.KeepsRoster.takeLowers (s : State) : s.takeLowers.KeepsRoster s := ⟨⟨rfl, rfl⟩, rfl, rfl, rfl, rfl⟩

theorem State.KeepsRoster.takeOwnAgeLimit (s : State) : s.takeOwnAgeLimit.KeepsRoster s := by
  unfold State.takeOwnAgeLimit
  split
  · exact ⟨⟨rfl, rfl⟩, rfl, rfl, rfl, rfl⟩
  · exact .refl s

theorem State.KeepsRoster.takeDetached (s : State) : s.takeDetached.KeepsRoster s := by
  unfold State.takeDetached
  split
  · split
    · exact ⟨⟨rfl, rfl⟩, rfl, rfl, rfl, rfl⟩
    · exact ⟨⟨rfl, rfl⟩, rfl, rfl, rfl, rfl⟩
    · exact .refl s
  · exact .refl s

/-! ### The drops -/

theorem State.KeepsClock.regrant (s : State) : s.regrant.KeepsClock s := by
  obtain ⟨now, -, -, -, -, -, rest, st⟩ := s.regrant_spec
  exact ⟨now, Device.clock_of_rest rest st⟩

/-- A synced station has left SYNCED for UNSYNCED. -/
def State.Left (t s : State) : Prop := s.after.member.state = .synced ∧ t.after.member.state = .unsynced

theorem Device.clock_dropMember (m : Station) (d : Device) : (d.dropMember m).clock = d.clock := by
  have st : (fun b => ((d.dropMember m).bank b).st) = fun b => (d.bank b).st :=
    funext fun b => (congrArg BankRec.st (d.bank_dropMember m b)).trans (BankRec.leave_st _ _ _)
  unfold Device.clock
  rw [st]
  rfl

theorem State.takeDrop_clock (m : Station) (s : State) :
    (s.takeDrop m).now = s.now ∧ ((s.takeDrop m).KeepsClock s ∨ (s.takeDrop m).Left s) := by
  unfold State.takeDrop
  split
  · next due =>
    split
    · exact ⟨rfl, .inr ⟨s.synced_of_dropDue due, rfl⟩⟩
    · have regrant := State.KeepsClock.regrant
        (State.addFault { s.entry .memberDropped with station := some (BitVec.ofNat 3 m.val) } (s.close.upd (Device.dropMember m)))
      have keeps := regrant.trans (s := s) ⟨rfl, s.after.clock_dropMember m⟩
      exact ⟨keeps.now, .inl keeps⟩
  · exact ⟨rfl, .inl (.refl s)⟩

/-- The drops keep the clock, or the own number is among them. -/
theorem State.takeDrops_clock (s : State) : s.takeDrops.now = s.now ∧ (s.takeDrops.KeepsClock s ∨ s.takeDrops.Left s) := by
  unfold State.takeDrops
  generalize allStations = l
  induction l generalizing s with
  | nil => exact ⟨rfl, .inl (.refl s)⟩
  | cons m t ih =>
    obtain ⟨now, rest⟩ := ih (s.takeDrop m)
    obtain ⟨now', first⟩ := s.takeDrop_clock m
    rw [List.foldl_cons]
    refine ⟨now.trans now', ?_⟩
    rcases first with first | ⟨synced, left⟩
    · rcases rest with rest | ⟨synced, left⟩
      · exact .inl (rest.trans first)
      · exact .inr ⟨first.state.symm.trans synced, left⟩
    · rcases rest with rest | ⟨synced', -⟩
      · exact .inr ⟨synced, rest.state.trans left⟩
      · exact absurd (synced'.symm.trans left) (by decide)

end Sys2Proof.Machine
end

