-- ==== Sys2Proof/Proofs/BankExpiries.lean ====
section
/-! The expiries of one bank's record at a slot's close (R7, R10, R12, R17, R33, R38), as functions of the record. -/

namespace Sys2Proof.Machine

/-! ### The record of one bank -/

/-- One bank's record is set; beside it only requests and the fault list may change. -/
structure State.Records (b : Bank) (r : BankRec) (t s : State) : Prop where
  now : t.now = s.now
  rest : t.after.restAgrees s.after
  bank : t.after.bank b = r
  others : ∀ c, c ≠ b → t.after.bank c = s.after.bank c

theorem State.Records.refl (b : Bank) (s : State) : s.Records b (s.after.bank b) s :=
  ⟨rfl, Device.restAgrees_refl _, rfl, fun _ _ => rfl⟩

theorem State.Records.trans {b : Bank} {r q : BankRec} {u t s : State} (h : u.Records b r t) (g : t.Records b q s) :
    u.Records b r s :=
  ⟨h.now.trans g.now, Device.restAgrees_trans h.rest g.rest, h.bank, fun c hc => (h.others c hc).trans (g.others c hc)⟩

theorem State.Records.setBank (b : Bank) (r : BankRec) (s : State) : (s.close.upd (fun d => d.setBank b r)).Records b r s :=
  ⟨rfl, by simp [Device.restAgrees], Device.bank_setBank_self b r _, fun _ hc => Device.bank_setBank_ne hc r _⟩

/-- What an expiry does to a bank's record, by the record at the slot's start. -/
def BankRec.settleExpired (n r : BankRec) : BankRec :=
  if dueAt n.st.settle? r.st.settle? then
    match r.st with
    | .opened row h a _ g => { r with st := .opened row h a 0 g }
    | .closed | .closePending _ _ _ _ | .recharging _ | .refreshing _ _ => r
  else r

@[inherit_doc BankRec.settleExpired]
def BankRec.guardExpired (n r : BankRec) : BankRec :=
  if dueAt n.st.closeGuard? r.st.closeGuard? then
    match r.st with
    | .opened row h a s _ => { r with st := .opened row h a s 0 }
    | .closePending _ _ _ _ => { r with st := .recharging Config.recharge }
    | .closed | .recharging _ | .refreshing _ _ => r
  else r

/-- A bank become CLOSED at an expiry. -/
def BankRec.becomeClosed (fresh : Grant) (r : BankRec) : BankRec :=
  { r with st := .closed, grant := if r.waiters.isEmpty then none else some fresh }

@[inherit_doc BankRec.settleExpired]
def BankRec.busyExpired (n : BankRec) (fresh : Grant) (r : BankRec) : BankRec :=
  let q := if dueAt n.st.recharge? r.st.recharge? then r.becomeClosed fresh else r
  if dueAt n.st.refresh? q.st.refresh? then q.becomeClosed fresh else q

@[inherit_doc BankRec.settleExpired]
def BankRec.yieldExpired (n r : BankRec) : BankRec :=
  let q : BankRec := if dueAt n.before? r.before? then { r with yield := some (.grace Config.grace) } else r
  if dueAt n.grace? q.grace? then { q with yield := some .barred } else q

@[inherit_doc BankRec.settleExpired]
def BankRec.windowExpired (n : BankRec) (full : Nat) (r : BankRec) : BankRec :=
  if dueAt n.window? r.window? then r.lapse full else r

/-- Every expiry of a bank's record. -/
def BankRec.expired (n : BankRec) (fresh : Grant) (full : Nat) (r : BankRec) : BankRec :=
  n.windowExpired full (n.yieldExpired (n.busyExpired fresh (n.guardExpired (n.settleExpired r))))

section
variable (s : State) (b : Bank)

theorem State.takeSettle_records : (s.takeSettle b).Records b ((s.now.bank b).settleExpired (s.after.bank b)) s := by
  unfold State.takeSettle BankRec.settleExpired
  split
  · cases (s.after.bank b).st with
    | opened => exact .setBank b _ s
    | closed => exact .refl b s
    | closePending => exact .refl b s
    | recharging => exact .refl b s
    | refreshing => exact .refl b s
  · exact .refl b s

theorem State.takeCloseGuard_records : (s.takeCloseGuard b).Records b ((s.now.bank b).guardExpired (s.after.bank b)) s := by
  unfold State.takeCloseGuard BankRec.guardExpired
  split
  · cases (s.after.bank b).st with
    | opened => exact .setBank b _ s
    | closePending => exact .setBank b _ s
    | closed => exact .refl b s
    | recharging => exact .refl b s
    | refreshing => exact .refl b s
  · exact .refl b s

theorem State.takeBusy_records : ((s.takeRecharge b).takeRefreshBusy b).Records b
    ((s.now.bank b).busyExpired s.after.freshGrant (s.after.bank b)) s := by
  have recharge : (s.takeRecharge b).Records b (if dueAt (s.now.bank b).st.recharge? (s.after.bank b).st.recharge?
      then (s.after.bank b).becomeClosed s.after.freshGrant else s.after.bank b) s := by
    unfold State.takeRecharge
    split
    · exact .setBank b _ s
    · exact .refl b s
  have fresh : (s.takeRecharge b).after.freshGrant = s.after.freshGrant := by
    unfold Device.freshGrant
    rw [Device.freezing_of_rest recharge.rest, Device.member_of_rest recharge.rest]
  have refresh : ((s.takeRecharge b).takeRefreshBusy b).Records b (if dueAt (s.now.bank b).st.refresh?
      ((s.takeRecharge b).after.bank b).st.refresh? then ((s.takeRecharge b).after.bank b).becomeClosed s.after.freshGrant
      else (s.takeRecharge b).after.bank b) (s.takeRecharge b) := by
    rw [← fresh, ← recharge.now]
    generalize s.takeRecharge b = t
    unfold State.takeRefreshBusy
    split
    · exact .setBank b _ t
    · exact .refl b t
  rw [recharge.bank] at refresh
  exact refresh.trans recharge

theorem State.takeYield_records : ((s.takeYieldBefore b).takeYieldGrace b).Records b
    ((s.now.bank b).yieldExpired (s.after.bank b)) s := by
  have before : (s.takeYieldBefore b).Records b (if dueAt (s.now.bank b).before? (s.after.bank b).before?
      then { s.after.bank b with yield := some (.grace Config.grace) } else s.after.bank b) s := by
    unfold State.takeYieldBefore
    split
    · exact .setBank b _ s
    · exact .refl b s
  have grace : ((s.takeYieldBefore b).takeYieldGrace b).Records b (if dueAt (s.now.bank b).grace?
      ((s.takeYieldBefore b).after.bank b).grace? then { (s.takeYieldBefore b).after.bank b with yield := some .barred }
      else (s.takeYieldBefore b).after.bank b) (s.takeYieldBefore b) := by
    rw [← before.now]
    generalize s.takeYieldBefore b = t
    unfold State.takeYieldGrace
    split
    · exact .setBank b _ t
    · exact .refl b t
  rw [before.bank] at grace
  exact grace.trans before

theorem State.takeGrantWindow_records : (s.takeGrantWindow b).Records b
    ((s.now.bank b).windowExpired s.after.member.profile.grantWindow (s.after.bank b)) s := by
  unfold State.takeGrantWindow
  by_cases due : s.grantDue b = true
  · have spec := State.lapse_spec b s.close
    rw [if_pos due, show BankRec.windowExpired _ _ _ = _ from if_pos due]
    exact ⟨spec.now, spec.rest, (State.lapse_lapsed b s.close).1, spec.others⟩
  · rw [if_neg due, show BankRec.windowExpired _ _ _ = _ from if_neg due]
    exact .refl b s

/-- The record of a bank moves by a function of the record at the slot's start, of the grant a bank become CLOSED starts, and of the
full window. -/
def State.Expires (b : Bank) (f : BankRec → Grant → Nat → BankRec → BankRec) (t s : State) : Prop :=
  t.Records b (f (s.now.bank b) s.after.freshGrant s.after.member.profile.grantWindow (s.after.bank b)) s

theorem State.Expires.comp {b : Bank} {f g : BankRec → Grant → Nat → BankRec → BankRec} {u t s : State}
    (h : State.Expires b g u t) (k : State.Expires b f t s) :
    State.Expires b (fun n fresh full r => g n fresh full (f n fresh full r)) u s := by
  have fresh : t.after.freshGrant = s.after.freshGrant := by
    unfold Device.freshGrant
    rw [Device.freezing_of_rest k.rest, Device.member_of_rest k.rest]
  unfold State.Expires at h ⊢
  rw [k.now, k.bank, fresh, Device.member_of_rest k.rest] at h
  exact h.trans k

/-- The expiries of one bank at a slot's close. -/
def State.takeBank (s : State) (b : Bank) : State :=
  ((((((s.takeSettle b).takeCloseGuard b).takeRecharge b).takeRefreshBusy b).takeYieldBefore b).takeYieldGrace b).takeGrantWindow b

theorem State.takeBank_records : (s.takeBank b).Records b
    ((s.now.bank b).expired s.after.freshGrant s.after.member.profile.grantWindow (s.after.bank b)) s :=
  have settle : State.Expires b (fun n _ _ => n.settleExpired) (s.takeSettle b) s := s.takeSettle_records b
  have guard : State.Expires b (fun n _ _ => n.guardExpired) _ (s.takeSettle b) := (s.takeSettle b).takeCloseGuard_records b
  have busy : State.Expires b (fun n fresh _ => n.busyExpired fresh) _ ((s.takeSettle b).takeCloseGuard b) :=
    State.takeBusy_records _ b
  have yields : State.Expires b (fun n _ _ => n.yieldExpired) _
    ((((s.takeSettle b).takeCloseGuard b).takeRecharge b).takeRefreshBusy b) := State.takeYield_records _ b
  have window : State.Expires b (fun n _ full => n.windowExpired full) _
    ((((((s.takeSettle b).takeCloseGuard b).takeRecharge b).takeRefreshBusy b).takeYieldBefore b).takeYieldGrace b) :=
    State.takeGrantWindow_records _ b
  window.comp (yields.comp (busy.comp (guard.comp settle)))

end

/-- Every bank's expiries at a slot's close. -/
def State.takeBanks (s : State) : State := allBanks.foldl State.takeBank s

theorem State.takeBanks_records (s : State) : s.takeBanks.now = s.now ∧ s.takeBanks.after.restAgrees s.after
    ∧ ∀ b, s.takeBanks.after.bank b
      = (s.now.bank b).expired s.after.freshGrant s.after.member.profile.grantWindow (s.after.bank b) := by
  have fold (l : List Bank) (nodup : l.Nodup) (s : State) : (l.foldl State.takeBank s).now = s.now
      ∧ (l.foldl State.takeBank s).after.restAgrees s.after
      ∧ ∀ b, (l.foldl State.takeBank s).after.bank b = if b ∈ l then
          (s.now.bank b).expired s.after.freshGrant s.after.member.profile.grantWindow (s.after.bank b)
        else s.after.bank b := by
    induction l generalizing s with
    | nil => exact ⟨rfl, Device.restAgrees_refl _, fun b => by simp⟩
    | cons c t ih =>
      obtain ⟨notMem, nodup⟩ := List.nodup_cons.1 nodup
      have one := s.takeBank_records c
      obtain ⟨now, rest, banks⟩ := ih nodup (s.takeBank c)
      have fresh : (s.takeBank c).after.freshGrant = s.after.freshGrant := by
        unfold Device.freshGrant
        rw [Device.freezing_of_rest one.rest, Device.member_of_rest one.rest]
      rw [List.foldl_cons]
      generalize t.foldl State.takeBank (s.takeBank c) = u at now rest banks
      refine ⟨now.trans one.now, Device.restAgrees_trans rest one.rest, fun b => ?_⟩
      rw [banks b, one.now, fresh, Device.member_of_rest one.rest]
      by_cases same : b = c
      · subst same
        rw [if_neg notMem, if_pos List.mem_cons_self, one.bank]
      · rw [one.others b same]
        exact if_congr (by simp [same]) rfl rfl
  obtain ⟨now, rest, banks⟩ := fold allBanks allBanks_nodup s
  exact ⟨now, rest, fun b => (banks b).trans (if_pos (mem_allBanks b))⟩

/-! ### A counted record -/

/-- A bank's state after a slot without a frame, but for its hold age (R7, R10, R12, R17). -/
def BankState.next : BankState → BankState
  | .closed => .closed
  | .opened row x age settle guard => .opened row x age (settle - 1) (guard - 1)
  | .closePending row x age guard => if guard = 1 then .recharging 3 else .closePending row x age (guard - 1)
  | .recharging busy => if busy = 1 then .closed else .recharging (busy - 1)
  | .refreshing busy kind => if busy = 1 then .closed else .refreshing (busy - 1) kind

/-- Does the bank become CLOSED at this close? -/
def BankState.ends : BankState → Bool
  | .recharging n => n == 1
  | .refreshing n _ => n == 1
  | .closed | .opened _ _ _ _ _ | .closePending _ _ _ _ => false

theorem countDown_of_ne {n : Nat} (h : n ≠ 1) : countDown n = n - 1 := by
  unfold countDown
  split <;> omega

theorem dueAt_countDown (n : Nat) : dueAt (some n) (some (countDown n)) = (n == 1) := by
  by_cases one : n = 1
  · subst one; rfl
  · simp [dueAt, one]

/-- A guard expired reads 0. -/
theorem expired_zero (n : Nat) : (if dueAt (some n) (some (countDown n)) then 0 else countDown n) = n - 1 := by
  rw [dueAt_countDown]
  by_cases one : n = 1
  · subst one; rfl
  · rw [countDown_of_ne one, if_neg (by simpa using one)]

/-- The guards and the busy countdown of a record in a counted slot. -/
theorem BankRec.states_expired {n r : BankRec} (st : r.st = n.count.st) (fresh : Grant) :
    n.busyExpired fresh (n.guardExpired (n.settleExpired r)) = { r with
      st := n.st.next
      grant := if n.st.ends then (if r.waiters.isEmpty then none else some fresh) else r.grant } := by
  obtain ⟨rst, ws, y, g⟩ := r
  obtain ⟨nst, nws, ny, ng⟩ := n
  obtain rfl : rst = _ := st
  cases nst with
  | closed => rfl
  | opened row x age settle guard =>
    have first : BankRec.settleExpired ⟨.opened row x age settle guard, nws, ny, ng⟩
        ⟨.opened row x age (countDown settle) (countDown guard), ws, y, g⟩
        = ⟨.opened row x age (settle - 1) (countDown guard), ws, y, g⟩ := by
      refine (apply_ite (fun n => (⟨.opened row x age n (countDown guard), ws, y, g⟩ : BankRec)) _ _ _).symm.trans ?_
      exact congrArg (fun n => (⟨.opened row x age n (countDown guard), ws, y, g⟩ : BankRec)) (expired_zero settle)
    have second : BankRec.guardExpired ⟨.opened row x age settle guard, nws, ny, ng⟩
        ⟨.opened row x age (settle - 1) (countDown guard), ws, y, g⟩
        = ⟨.opened row x age (settle - 1) (guard - 1), ws, y, g⟩ := by
      refine (apply_ite (fun n => (⟨.opened row x age (settle - 1) n, ws, y, g⟩ : BankRec)) _ _ _).symm.trans ?_
      exact congrArg (fun n => (⟨.opened row x age (settle - 1) n, ws, y, g⟩ : BankRec)) (expired_zero guard)
    exact (congrArg (BankRec.busyExpired _ fresh) ((congrArg (BankRec.guardExpired _) first).trans second)).trans rfl
  | closePending row x age guard =>
    by_cases one : guard = 1
    · subst one; rfl
    · have still : BankRec.guardExpired ⟨.closePending row x age guard, nws, ny, ng⟩
          ⟨.closePending row x age (countDown guard), ws, y, g⟩ = ⟨.closePending row x age (guard - 1), ws, y, g⟩ := by
        simp [BankRec.guardExpired, BankState.closeGuard?, dueAt, one, countDown_of_ne one]
      refine (congrArg (BankRec.busyExpired _ fresh) still).trans ?_
      simp [BankState.next, one, BankState.ends, BankRec.busyExpired, BankState.recharge?, BankState.refresh?, dueAt]
  | recharging busy =>
    by_cases one : busy = 1
    · subst one; rfl
    · show BankRec.busyExpired ⟨.recharging busy, nws, ny, ng⟩ fresh ⟨.recharging (countDown busy), ws, y, g⟩ = _
      simp [BankRec.busyExpired, BankState.recharge?, BankState.refresh?, dueAt, one, countDown_of_ne one,
        BankState.next, BankState.ends]
  | refreshing busy kind =>
    by_cases one : busy = 1
    · subst one; rfl
    · show BankRec.busyExpired ⟨.refreshing busy kind, nws, ny, ng⟩ fresh ⟨.refreshing (countDown busy) kind, ws, y, g⟩ = _
      simp [BankRec.busyExpired, BankState.recharge?, BankState.refresh?, dueAt, one, countDown_of_ne one,
        BankState.next, BankState.ends]

/-- A yield point after a slot without a frame (R33). -/
def Yield.next : Yield → Yield
  | .before n => if n = 1 then .grace 32 else .before (n - 1)
  | .grace n => if n = 1 then .barred else .grace (n - 1)
  | .barred => .barred

theorem BankRec.yield_expired {n r : BankRec} (y : r.yield = n.count.yield) :
    n.yieldExpired r = { r with yield := n.yield.map Yield.next } := by
  obtain ⟨st, ws, ry, g⟩ := r
  obtain ⟨nst, nws, ny, ng⟩ := n
  obtain rfl : ry = _ := y
  cases ny with
  | none => rfl
  | some ny =>
    cases ny with
    | barred => rfl
    | before n =>
      by_cases one : n = 1
      · subst one; rfl
      · simp [BankRec.yieldExpired, BankRec.before?, BankRec.grace?, BankRec.count, dueAt, Yield.next, one, countDown_of_ne one]
    | grace n =>
      by_cases one : n = 1
      · subst one; rfl
      · simp [BankRec.yieldExpired, BankRec.before?, BankRec.grace?, BankRec.count, dueAt, Yield.next, one, countDown_of_ne one]

theorem BankRec.yieldExpired_st (n r : BankRec) : (n.yieldExpired r).st = r.st := by
  unfold BankRec.yieldExpired
  dsimp only
  split <;> split <;> rfl

theorem BankRec.windowExpired_st (n : BankRec) (full : Nat) (r : BankRec) : (n.windowExpired full r).st = r.st := by
  unfold BankRec.windowExpired
  split <;> rfl

/-- A bank's state counts whatever befalls its list and its grant. -/
theorem BankRec.expired_st {n r : BankRec} (st : r.st = n.count.st) (fresh : Grant) (full : Nat) :
    (n.expired fresh full r).st = n.st.next := by
  unfold BankRec.expired
  rw [BankRec.windowExpired_st, BankRec.yieldExpired_st, BankRec.states_expired st]

theorem BankRec.windowExpired_of_not {n r : BankRec} (full : Nat) (not : n.grant ≠ some (.running 1)) : n.windowExpired full r = r := by
  refine if_neg (not_dueAt fun due => not ?_)
  unfold BankRec.window? at due
  split at due
  · next w running => exact running.trans (congrArg (fun w => some (Grant.running w)) (Option.some.inj due))
  all_goals cases due

/-- A counted record's list, yield point and grant after a slot without a frame. -/
theorem BankRec.expired_count {n : BankRec} (apart : n.st.ends = true → n.grant ≠ some (.running 1)) (fresh : Grant) (full : Nat) :
    (n.expired fresh full n.count).waiters = (if n.grant = some (.running 1) then n.waiters.drop 1 else n.waiters)
      ∧ (n.expired fresh full n.count).yield
        = (if n.grant = some (.running 1) ∧ n.waiters.length = 1 then none else n.yield.map Yield.next)
      ∧ (n.expired fresh full n.count).grant = (if n.st.ends then (if n.waiters = [] then none else some fresh)
        else match n.grant with
          | some (.running w) => if w ≠ 1 then some (.running (w - 1))
            else if n.waiters.drop 1 = [] then none else some (.running full)
          | g => g) := by
  have yields (st : BankState) (ws : List Station) (g : Option Grant) :=
    BankRec.yield_expired (n := n) (r := ⟨st, ws, n.count.yield, g⟩) rfl
  unfold BankRec.expired
  rw [BankRec.states_expired rfl, yields]
  by_cases due : n.grant = some (.running 1)
  · have running : n.st.ends = false := by
      by_contra ends
      exact apart (by simpa using ends) due
    obtain ⟨st, ws, y, g⟩ := n
    obtain rfl : g = _ := due
    dsimp only at running
    simp [BankRec.windowExpired, BankRec.window?, BankRec.count, BankRec.lapse, dueAt, countDown, running, passGrant]
  · rw [BankRec.windowExpired_of_not full due]
    obtain ⟨st, ws, y, g⟩ := n
    refine ⟨?_, ?_, ?_⟩
    · simp_all
    · simp_all
    · refine if_congr Iff.rfl (if_congr List.isEmpty_iff rfl rfl) ?_
      cases g with
      | none => rfl
      | some g =>
        cases g with
        | paused => rfl
        | frozen => rfl
        | running w =>
          have other : w ≠ 1 := fun one => due (by rw [one])
          simp [BankRec.count, other, countDown_of_ne other]

end Sys2Proof.Machine
end

