-- ==== Sys2Proof/Proofs/ClockPassing.lean ====
section
/-! The clock of a picture over a slot in which no frame is heard, up to what the held request does. -/

namespace Sys2Proof.Machine

/-! ### Timers -/

/-- A countdown one slot on, stopped at its expiry. -/
def runDown (n : Option Nat) : Option Nat := n.bind (fun n => if n = 1 then none else some (n - 1))

theorem runDown_eq (n : Option Nat) : (if dueAt n (n.map countDown) then none else n.map countDown) = runDown n := by
  cases n with
  | none => rfl
  | some n =>
    by_cases one : n = 1
    · subst one; rfl
    · simp [dueAt, runDown, one, countDown_of_ne one]

/-- A data lane reservation one slot on (R18). -/
def Reservation.next (r : Reservation) : Option Reservation := if r.count = 1 then none else some { r with count := r.count - 1 }

theorem Reservation.next_eq (r : Option Reservation) :
    (if dueAt (r.map Reservation.count) ((r.map (fun r => { r with count := countDown r.count })).map Reservation.count) then none
      else r.map (fun r => { r with count := countDown r.count })) = r.bind Reservation.next := by
  cases r with
  | none => rfl
  | some r =>
    by_cases one : r.count = 1
    · obtain ⟨count, isWrite, owner⟩ := r
      obtain rfl : count = 1 := one
      rfl
    · simp [dueAt, Reservation.next, one, countDown_of_ne one]

theorem idleTimer_eq (n : Option Nat) :
    (if dueAt n (n.map countDown) then some 0 else n.map countDown) = n.map (fun n => n - 1) := by
  cases n with
  | none => rfl
  | some n =>
    by_cases one : n = 1
    · subst one; rfl
    · simp [dueAt, one, countDown_of_ne one]

theorem map_countDown_of_ne {n : Option Nat} (h : n ≠ some 1) : n.map countDown = n.map (fun n => n - 1) := by
  cases n with
  | none => rfl
  | some n => exact congrArg some (countDown_of_ne fun one => h (by rw [one]))

theorem countUp_eq (top n : Nat) : countUp top n = min (n + 1) top := by
  unfold countUp
  split <;> omega

/-- The account with its countdown expired (R62). -/
def Account.markDue (a : Account) : Account := { a with countdown := none, pendingMark := true }

/-- The account after a slot without a frame, but for its MARK age. -/
def Account.next (a : Account) : Account :=
  { a with countdown := runDown a.countdown, pendingMark := a.pendingMark || a.countdown == some 1 }

theorem Account.next_eq {n a : Account} (counted : a = { n with countdown := n.countdown.map countDown }) :
    (if dueAt n.countdown a.countdown then a.markDue else a) = n.next := by
  subst counted
  obtain ⟨balance, rotation, index, aligned, countdown, lastMark, pendingMark, wakeRefresh⟩ := n
  cases countdown with
  | none => cases pendingMark <;> rfl
  | some n =>
    by_cases one : n = 1
    · subst one; cases pendingMark <;> rfl
    · simp [dueAt, Account.next, runDown, one, countDown_of_ne one]

/-! ### The expiries beside the banks -/

/-- The clock moves to `c`; the present picture, the banks' records and the sets of stations stand. -/
structure State.Advances (c : Clock) (t s : State) : Prop where
  now : t.now = s.now
  clock : t.after.clock = c
  banks : t.after.mirror.banks = s.after.mirror.banks
  members : t.after.member.members = s.after.member.members
  syncPending : t.after.member.syncPending = s.after.member.syncPending
  ages : t.after.member.ages = s.after.member.ages

theorem State.KeepsRoster.advances {t s : State} (h : t.KeepsRoster s) : t.Advances s.after.clock s :=
  ⟨h.now, h.clock, h.banks, h.members, h.syncPending, h.ages⟩

theorem State.Advances.refl (s : State) : s.Advances s.after.clock s := (State.KeepsRoster.refl s).advances

theorem State.Advances.trans {c d : Clock} {u t s : State} (h : u.Advances c t) (g : t.Advances d s) : u.Advances c s :=
  ⟨h.now.trans g.now, h.clock, h.banks.trans g.banks, h.members.trans g.members, h.syncPending.trans g.syncPending,
    h.ages.trans g.ages⟩

theorem State.takeInterval_advances (s : State) : s.takeInterval.Advances { s.after.clock with
    account := if dueAt s.now.account.countdown s.after.account.countdown then s.after.account.markDue else s.after.account } s := by
  unfold State.takeInterval
  split <;> exact ⟨rfl, rfl, rfl, rfl, rfl, rfl⟩

theorem State.takeReservationFree_advances (s : State) : s.takeReservationFree.Advances { s.after.clock with
    reservation := if dueAt (s.now.mirror.reservation.map Reservation.count) (s.after.mirror.reservation.map Reservation.count)
      then none else s.after.mirror.reservation } s := by
  unfold State.takeReservationFree
  split <;> exact ⟨rfl, rfl, rfl, rfl, rfl, rfl⟩

/-- The clock with other idle-close timers. -/
def Clock.withIdle (i : Bank → Option Nat) (c : Clock) : Clock := { c with idle := i }

/-- The idle-close timers once those of the banks that `p` names have expired where due (R140). -/
def State.idleTaken (s : State) (p : Bank → Bool) (c : Bank) : Option Nat :=
  if p c && dueAt s.now.sched.idle[c] s.after.sched.idle[c] then some 0 else s.after.sched.idle[c]

theorem getElem_set_bank {α : Type} (v : Vector α 12) (b c : Bank) (x : α) : (v.set b x)[c] = if c = b then x else v[c] := by
  rw [Fin.getElem_fin, Vector.getElem_set]
  exact if_congr ⟨fun h => Fin.ext h.symm, fun h => congrArg Fin.val h.symm⟩ rfl rfl

theorem State.takeIdle_advances (b : Bank) (s : State) :
    (s.takeIdle b).Advances (s.after.clock.withIdle (s.idleTaken (fun c => c == b))) s := by
  unfold State.takeIdle
  split
  · next due =>
    refine ⟨rfl, congrArg (fun i => s.after.clock.withIdle i) (funext fun c => ?_), rfl, rfl, rfl, rfl⟩
    refine (getElem_set_bank _ b c _).trans ?_
    by_cases same : c = b
    · subst same; simp [State.idleTaken, due, -Fin.getElem_fin]
    · simp [State.idleTaken, same]
  · next due =>
    refine ⟨rfl, congrArg (fun i => s.after.clock.withIdle i) (funext fun c => ?_), rfl, rfl, rfl, rfl⟩
    by_cases same : c = b
    · subst same; simp [State.idleTaken, due, -Fin.getElem_fin]
    · simp [State.idleTaken, same]

/-- Every bank's idle-close timer at a slot's close. -/
def State.takeIdles (s : State) : State := allBanks.foldl (fun s b => s.takeIdle b) s

theorem State.takeIdles_advances (s : State) :
    s.takeIdles.Advances (s.after.clock.withIdle (s.idleTaken (fun _ => true))) s := by
  have fold (l : List Bank) (nodup : l.Nodup) (s : State) : (l.foldl (fun s b => s.takeIdle b) s).Advances
      (s.after.clock.withIdle (s.idleTaken (fun c => l.contains c))) s := by
    induction l generalizing s with
    | nil => exact .refl s
    | cons b t ih =>
      obtain ⟨notMem, nodup⟩ := List.nodup_cons.1 nodup
      have one := s.takeIdle_advances b
      have rest := ih nodup (s.takeIdle b)
      rw [List.foldl_cons]
      generalize s.takeIdle b = u at one rest
      have all := rest.trans one
      refine ⟨all.now, all.clock.trans ?_, all.banks, all.members, all.syncPending, all.ages⟩
      have idle (c : Bank) : u.after.sched.idle[c] = s.idleTaken (fun c => c == b) c := congrFun (congrArg Clock.idle one.clock) c
      rw [one.clock]
      refine congrArg (fun i => s.after.clock.withIdle i) (funext fun c => ?_)
      unfold State.idleTaken at idle ⊢
      rw [one.now, idle c]
      by_cases same : c = b
      · subst same
        simp [notMem]
      · simp [same]
  have all := fold allBanks allBanks_nodup s
  have every : (fun c => allBanks.contains c) = fun _ => true := funext fun c => by simp [mem_allBanks]
  rwa [every] at all

/-- The clock once what is due beside the banks has expired, by the clock at the slot's start. -/
def Clock.expired (n c : Clock) : Clock :=
  { c with
    account := if dueAt n.account.countdown c.account.countdown then c.account.markDue else c.account
    array := if dueAt n.wakingGuard c.wakingGuard then .active else c.array
    wakingGuard := if dueAt n.wakingGuard c.wakingGuard then none else c.wakingGuard
    reservation := if dueAt (n.reservation.map Reservation.count) (c.reservation.map Reservation.count) then none
      else c.reservation
    idle := fun b => if dueAt (n.idle b) (c.idle b) then some 0 else c.idle b }

/-- The expiries that come after the drops and the banks'. -/
def State.takeOthers (s : State) : State :=
  s.takeInterval.takeWakingGuard.takeRollCallWindow.takeReservationFree.takeDataSlots.takeLowers.takeOwnAgeLimit.takeIdles.takeDetached

theorem State.takeAll_eq_others (s : State) : s.takeAll = s.takeDrops.takeBanks.takeOthers := by
  unfold State.takeAll State.takeOthers State.takeBanks State.takeIdles State.takeBank
  rfl

theorem State.takeWakingGuard_clock (s : State) : s.takeWakingGuard.now = s.now ∧ s.takeWakingGuard.after.clock = { s.after.clock with
    array := if dueAt s.now.retention.wakingGuard s.after.retention.wakingGuard then .active else s.after.mirror.array
    wakingGuard := if dueAt s.now.retention.wakingGuard s.after.retention.wakingGuard then none
      else s.after.retention.wakingGuard } := by
  unfold State.takeWakingGuard
  split
  · have regrant := State.KeepsClock.regrant (s.close.upd Device.wakingOver)
    exact ⟨regrant.now, regrant.clock⟩
  · exact ⟨rfl, rfl⟩

/-- The expiries after the waking guard's. -/
theorem State.takeLast_advances {s : State} (window : s.now.member.window ≠ some 1) :
    s.takeRollCallWindow.takeReservationFree.takeDataSlots.takeLowers.takeOwnAgeLimit.takeIdles.takeDetached.Advances
      { s.after.clock with
        reservation := if dueAt (s.now.mirror.reservation.map Reservation.count) (s.after.mirror.reservation.map Reservation.count)
          then none else s.after.mirror.reservation
        idle := fun b => if dueAt s.now.sched.idle[b] s.after.sched.idle[b] then some 0 else s.after.sched.idle[b] } s := by
  rw [s.takeRollCallWindow_of_not window]
  have reservation := s.takeReservationFree_advances
  generalize s.takeReservationFree = t at reservation
  have slots := ((State.KeepsRoster.takeOwnAgeLimit _).trans ((State.KeepsRoster.takeLowers _).trans
    (State.KeepsRoster.takeDataSlots t))).advances
  generalize t.takeDataSlots.takeLowers.takeOwnAgeLimit = u at slots
  have idles := u.takeIdles_advances
  generalize u.takeIdles = v at idles
  have all := (State.KeepsRoster.takeDetached v).advances.trans (idles.trans (slots.trans reservation))
  refine ⟨all.now, all.clock.trans ?_, all.banks, all.members, all.syncPending, all.ages⟩
  have clock := slots.clock.trans reservation.clock
  have idle (c : Bank) : u.after.sched.idle[c] = s.after.sched.idle[c] := congrFun (congrArg Clock.idle clock) c
  rw [idles.clock, clock]
  unfold State.idleTaken
  rw [slots.now, reservation.now]
  simp only [idle, Bool.true_and]
  rfl

theorem State.takeOthers_clock {s : State} (window : s.now.member.window ≠ some 1) :
    s.takeOthers.now = s.now ∧ s.takeOthers.after.clock = s.now.clock.expired s.after.clock := by
  unfold State.takeOthers
  have interval := s.takeInterval_advances
  generalize s.takeInterval = t at interval
  obtain ⟨now, clock⟩ := t.takeWakingGuard_clock
  generalize t.takeWakingGuard = u at now clock
  have last := State.takeLast_advances (s := u) (by rwa [now, interval.now])
  generalize u.takeRollCallWindow.takeReservationFree.takeDataSlots.takeLowers.takeOwnAgeLimit.takeIdles.takeDetached = v at last
  have array : t.after.mirror.array = s.after.mirror.array := (congrArg Clock.array interval.clock).trans rfl
  have guard : t.after.retention.wakingGuard = s.after.retention.wakingGuard :=
    (congrArg Clock.wakingGuard interval.clock).trans rfl
  rw [interval.now] at now clock
  rw [interval.clock, array, guard] at clock
  have reservation : u.after.mirror.reservation = s.after.mirror.reservation := (congrArg Clock.reservation clock).trans rfl
  have idle (c : Bank) : u.after.sched.idle[c] = s.after.sched.idle[c] := congrFun (congrArg Clock.idle clock) c
  refine ⟨last.now.trans now, last.clock.trans ?_⟩
  rw [clock, reservation, now]
  simp only [idle]
  rfl

/-- Where the WAKING guard does not end, none of these expiries touches a record or a set of stations. -/
theorem State.takeOthers_advances {s : State} (window : s.now.member.window ≠ some 1)
    (guard : s.now.retention.wakingGuard ≠ some 1) : s.takeOthers.Advances s.takeOthers.after.clock s := by
  unfold State.takeOthers
  have interval := s.takeInterval_advances
  rw [State.takeWakingGuard_of_not _ (by rwa [interval.now])]
  generalize s.takeInterval = t at interval
  have all := (State.takeLast_advances (s := t) (by rwa [interval.now])).trans interval
  exact ⟨all.now, rfl, all.banks, all.members, all.syncPending, all.ages⟩

/-! ### A counted slot -/

/-- The clock after a slot in which nothing happens, but for what the start of the next one ages. -/
def Clock.passed (c : Clock) : Clock :=
  { c with
    st := fun b => (c.st b).next
    reservation := c.reservation.bind Reservation.next
    array := if c.wakingGuard = some 1 then .active else c.array
    account := c.account.next
    wakingGuard := runDown c.wakingGuard
    window := c.window.map (fun n => n - 1)
    idle := fun b => (c.idle b).map (fun n => n - 1) }

theorem dueAt_map_countDown (n : Option Nat) : (dueAt n (n.map countDown) = true) ↔ n = some 1 := by
  cases n with
  | none => simp [dueAt]
  | some n => rw [Option.map_some, dueAt_countDown]; simp

theorem Clock.expired_count {d : Device} (window : d.member.window ≠ some 1) :
    d.clock.expired { d.countSlot.clock with st := fun b => (d.bank b).st.next } = d.clock.passed := by
  have idle (b : Bank) : d.countSlot.clock.idle b = (d.clock.idle b).map countDown := mapVec_getElem (Option.map countDown) _ b
  refine Clock.ext rfl rfl rfl (Reservation.next_eq _) ?_ (Account.next_eq rfl) rfl (runDown_eq _) rfl rfl rfl
    (map_countDown_of_ne window) (funext fun b => ?_)
  · exact if_congr (dueAt_map_countDown _) rfl rfl
  · refine Eq.trans ?_ (idleTimer_eq _)
    exact congrArg (fun i => if dueAt (d.clock.idle b) i then some 0 else i) (idle b)

/-- The clock once the banks' expiries are taken. -/
theorem State.takeBanks_clock {s u : State} (c : s.counted) (now : u.now = s.now) (clock : u.after.clock = s.after.clock) :
    u.takeBanks.after.clock = { s.now.countSlot.clock with st := fun b => (s.now.bank b).st.next } := by
  obtain ⟨-, rest, banks⟩ := u.takeBanks_records
  generalize u.takeBanks = v at rest banks
  have st : (fun b => (v.after.bank b).st) = fun b => (s.now.bank b).st.next := funext fun b => by
    rw [banks b, now]
    refine BankRec.expired_st ?_ _ _
    exact (congrFun (congrArg Clock.st clock) b).trans (congrArg BankRec.st (State.bank_of_counted c b))
  have same : v.after.clock = { u.after.clock with st := fun b => (v.after.bank b).st } := by
    have clock := Device.clock_of_rest (d := v.after) (e := { u.after with mirror := { u.after.mirror with banks := v.after.mirror.banks } })
      rest fun b => rfl
    exact clock
  rw [same, clock, st, c.1]
  rfl

/-- What the held request acts on: the drops and the expiries taken, its own drop included. -/
def State.acted (s : State) : State := s.takeAll.actDeferred

/-- Up to the held request a slot in which nothing happens moves the clock once, or the station leaves SYNCED. -/
theorem State.acted_clock {s : State} (c : s.counted) (window : s.now.member.window ≠ some 1) :
    s.acted.now = s.now ∧ (s.acted.after.clock = s.now.clock.passed ∨ s.acted.Left s) := by
  have state : s.after.member.state = s.now.member.state := by rw [c.member]
  unfold State.acted
  rw [State.takeAll_eq_others]
  obtain ⟨now, drops⟩ := s.takeDrops_clock
  generalize s.takeDrops = u at now drops
  obtain ⟨nowB, rest, -⟩ := u.takeBanks_records
  have clockB := State.takeBanks_clock c (u := u) now
  generalize u.takeBanks = v at nowB rest clockB
  obtain ⟨nowO, clockO⟩ := State.takeOthers_clock (s := v) (by rwa [nowB, now])
  generalize v.takeOthers = w at nowO clockO
  have stateO : w.after.member.state = u.after.member.state :=
    ((congrArg Clock.state clockO).trans rfl).trans (congrArg Membership.state (Device.member_of_rest rest))
  obtain ⟨nowD, dropsD⟩ := w.takeDrops_clock
  have act := State.KeepsRoster.actDeferred w
  generalize w.takeDrops = x at nowD dropsD act
  generalize w.actDeferred = t at act
  have nows : t.now = s.now := by
    rcases act with act | act
    · exact act.now.trans (nowO.trans (nowB.trans now))
    · exact act.now.trans (nowD.trans (nowO.trans (nowB.trans now)))
  refine ⟨nows, ?_⟩
  rcases drops with keeps | ⟨synced, left⟩
  · have passed : w.after.clock = s.now.clock.passed := by
      rw [clockO, clockB keeps.clock, nowB, now]
      exact Clock.expired_count window
    rcases act with act | act
    · exact .inl (act.clock.trans passed)
    · rcases dropsD with keepsD | ⟨syncedD, leftD⟩
      · exact .inl (act.clock.trans (keepsD.clock.trans passed))
      · exact .inr ⟨keeps.state.symm.trans (stateO.symm.trans syncedD), act.toKeepsClock.state.trans leftD⟩
  · refine .inr ⟨synced, ?_⟩
    rcases act with act | act
    · exact act.toKeepsClock.state.trans (stateO.trans left)
    · rcases dropsD with keepsD | ⟨syncedD, -⟩
      · exact act.toKeepsClock.state.trans (keepsD.state.trans (stateO.trans left))
      · exact absurd (syncedD.symm.trans (stateO.trans left)) (by decide)

end Sys2Proof.Machine
end

