-- ==== Sys2Proof/Proofs/IdleSlots.lean ====
section
/-! A slot in which nothing happens: the records of the banks, the ages, the heads of the queue and the idle-close timers. -/

namespace Sys2Proof.Machine

/-! ### Where no member is dropped -/

theorem State.dropDue_of_noDrop {s t : State} (now : t.now = s.now) (members : t.after.member.members = s.now.member.members)
    (noDrop : s.now.member.state = .synced → ∀ m : Station, s.now.member.members.has m = true → s.now.member.ages[m] ≠ 12287)
    (m : Station) : t.dropDue m = false := by
  by_contra due
  have due : t.dropDue m = true := by simpa using due
  unfold State.dropDue at due
  rw [now, members] at due
  simp only [Bool.and_eq_true, beq_iff_eq] at due
  obtain ⟨⟨⟨⟨synced, -⟩, member⟩, age⟩, -⟩ := due
  exact noDrop (by simpa [Device.synced] using synced) m member age

theorem State.regrant_member (s : State) : s.regrant.after.member = s.after.member := by
  obtain ⟨-, -, -, -, -, -, rest, -⟩ := s.regrant_spec
  exact Device.member_of_rest rest

/-- The WAKING guard's expiry keeps the sets of stations and their ages. -/
theorem State.takeWakingGuard_member (s : State) : s.takeWakingGuard.after.member = s.after.member := by
  unfold State.takeWakingGuard
  split
  · rw [State.regrant_member]
    rfl
  · rfl

theorem State.takeOthers_sets {s : State} (window : s.now.member.window ≠ some 1) :
    s.takeOthers.after.member.members = s.after.member.members ∧ s.takeOthers.after.member.ages = s.after.member.ages := by
  unfold State.takeOthers
  have interval := s.takeInterval_advances
  generalize s.takeInterval = t at interval
  have member := t.takeWakingGuard_member
  have now := t.takeWakingGuard_clock.1
  generalize t.takeWakingGuard = u at member now
  have last := State.takeLast_advances (s := u) (by rwa [now, interval.now])
  generalize u.takeRollCallWindow.takeReservationFree.takeDataSlots.takeLowers.takeOwnAgeLimit.takeIdles.takeDetached = v at last
  exact ⟨last.members.trans ((congrArg Membership.members member).trans interval.members),
    last.ages.trans ((congrArg Membership.ages member).trans interval.ages)⟩

section
variable {s : State} (c : s.counted) (window : s.now.member.window ≠ some 1)
  (noDrop : s.now.member.state = .synced → ∀ m : Station, s.now.member.members.has m = true → s.now.member.ages[m] ≠ 12287)
include c window noDrop

/-- With no member to drop the held request acts on the expiries alone. -/
theorem State.acted_of_noDrop : s.acted.KeepsRoster s.takeBanks.takeOthers
    ∧ s.acted.after.member.members = s.now.member.members ∧ s.acted.after.member.ages = s.now.member.ages := by
  have members : s.after.member.members = s.now.member.members := by rw [c.member]
  have drops := State.takeDrops_of_none (State.dropDue_of_noDrop rfl members noDrop)
  unfold State.acted
  rw [State.takeAll_eq_others, drops]
  obtain ⟨nowB, rest, -⟩ := s.takeBanks_records
  generalize s.takeBanks = v at nowB rest
  have member := Device.member_of_rest rest
  obtain ⟨nowO, -⟩ := State.takeOthers_clock (s := v) (by rwa [nowB])
  obtain ⟨membersO, agesO⟩ := State.takeOthers_sets (s := v) (by rwa [nowB])
  generalize v.takeOthers = w at nowO membersO agesO
  have membersW : w.after.member.members = s.now.member.members :=
    membersO.trans ((congrArg Membership.members member).trans members)
  have agesW : w.after.member.ages = s.now.member.ages :=
    agesO.trans ((congrArg Membership.ages member).trans c.ages)
  have act := State.KeepsRoster.actDeferred w
  rw [State.takeDrops_of_none (State.dropDue_of_noDrop (nowO.trans nowB) membersW noDrop), or_self] at act
  exact ⟨act, act.members.trans membersW, act.ages.trans agesW⟩

/-- Where the WAKING guard does not end either, every record has its own expiries and nothing else. -/
theorem State.acted_bank (guard : s.now.retention.wakingGuard ≠ some 1) (b : Bank) : s.acted.after.bank b
    = (s.now.bank b).expired s.now.freshGrant s.now.member.profile.grantWindow (s.now.bank b).count := by
  obtain ⟨keeps, -, -⟩ := State.acted_of_noDrop c window noDrop
  obtain ⟨nowB, -, banks⟩ := s.takeBanks_records
  have others := State.takeOthers_advances (s := s.takeBanks) (by rwa [nowB]) (by rwa [nowB])
  have fresh : s.after.freshGrant = s.now.freshGrant := by
    unfold Device.freshGrant
    rw [c.freezing, c.profile]
  have same : s.acted.after.bank b = s.takeBanks.after.bank b := by
    unfold Device.bank
    rw [keeps.banks, others.banks]
  rw [same, banks b, fresh, c.profile, State.bank_of_counted c]

end

/-! ### The heads of the queue -/

theorem headOf_access (a : Access) (t : List Entry) (b : Bank) :
    headOf (.access a :: t) b = if a.bank = b ∧ a.progress ≠ .issued then some a else headOf t b := rfl

theorem mapHead_access (g : Access → Access) (a : Access) (t : List Entry) (b : Bank) : mapHead g (.access a :: t) b
    = if a.bank = b ∧ a.progress ≠ .issued then .access (g a) :: t else .access a :: mapHead g t b := rfl

section
variable {g : Access → Access} (bank : ∀ a, (g a).bank = a.bank)
include bank

theorem headOf_mapHead_self (unissued : ∀ a, (g a).progress ≠ .issued) (q : List Entry) (b : Bank) :
    headOf (mapHead g q b) b = (headOf q b).map g := by
  induction q with
  | nil => rfl
  | cons e t ih =>
    cases e with
    | retain _ _ => exact ih
    | access a =>
      rw [mapHead_access, headOf_access]
      split
      · next head => exact if_pos ⟨(bank a).trans head.1, unissued a⟩
      · next other => exact (if_neg other).trans ih

theorem headOf_mapHead_ne {b c : Bank} (ne : b ≠ c) (q : List Entry) : headOf (mapHead g q c) b = headOf q b := by
  induction q with
  | nil => rfl
  | cons e t ih =>
    cases e with
    | retain _ _ => exact ih
    | access a =>
      rw [mapHead_access, headOf_access]
      split
      · next head =>
        have other : a.bank ≠ b := fun h => ne (h.symm.trans head.1)
        rw [headOf_access, if_neg fun h => other ((bank a).symm.trans h.1), if_neg fun h => other h.1]
      · exact if_congr Iff.rfl rfl ih

/-- A change of the requests that keeps bank and progress finds the same heads. -/
theorem headOf_mapAccess (progress : ∀ a, (g a).progress = a.progress) (q : List Entry) (b : Bank) :
    headOf (mapAccess g q) b = (headOf q b).map g := by
  induction q with
  | nil => rfl
  | cons e t ih =>
    cases e with
    | retain _ _ => exact ih
    | access a =>
      rw [headOf_access, apply_ite (Option.map g)]
      refine if_congr ?_ rfl ih
      rw [bank, progress]

end

theorem Device.headProgress_ne_issued (d : Device) (b : Bank) (a : Access) : d.headProgress b a ≠ .issued := by
  unfold Device.headProgress
  split
  · split
    · simp
    · split
      · split
        · split
          · simp
          · split <;> simp
        · simp
      all_goals simp
  · simp

/-- Every head request brought into line. -/
theorem Device.settleHeads_eq (d : Device) : ∃ queue, allBanks.foldl Device.settleHead d = d.setQueue queue
    ∧ ∀ b, headOf queue b = (headOf d.port.queue b).map (fun a => { a with progress := d.headProgress b a }) := by
  have fold (l : List Bank) (nodup : l.Nodup) (d : Device) : ∃ queue, l.foldl Device.settleHead d = d.setQueue queue
      ∧ ∀ b, headOf queue b = if b ∈ l then (headOf d.port.queue b).map (fun a => { a with progress := d.headProgress b a })
        else headOf d.port.queue b := by
    induction l generalizing d with
    | nil => exact ⟨d.port.queue, rfl, fun b => by simp⟩
    | cons c t ih =>
      obtain ⟨notMem, nodup⟩ := List.nodup_cons.1 nodup
      obtain ⟨queue, fold, heads⟩ := ih nodup (d.settleHead c)
      refine ⟨queue, fold.trans rfl, fun b => (heads b).trans ?_⟩
      have progress (a : Access) : (d.settleHead c).headProgress b a = d.headProgress b a := rfl
      simp only [progress]
      by_cases same : b = c
      · subst same
        rw [if_neg notMem, if_pos List.mem_cons_self]
        exact headOf_mapHead_self (g := fun a => { a with progress := d.headProgress b a }) (fun _ => rfl)
          (fun a => d.headProgress_ne_issued b a) _ b
      · have head : headOf (d.settleHead c).port.queue b = headOf d.port.queue b :=
          headOf_mapHead_ne (g := fun a => { a with progress := d.headProgress c a }) (fun _ => rfl) same _
        rw [head]
        exact if_congr (by simp [same]) rfl rfl
  obtain ⟨queue, eq, heads⟩ := fold allBanks allBanks_nodup d
  exact ⟨queue, eq, fun b => (heads b).trans (if_pos (mem_allBanks b))⟩

/-- A head's tag and progress. -/
def Access.standing (a : Access) : Tag × Progress := (a.tag, a.progress)

/-- A completion reservation moves no head. -/
theorem Device.takeReservations_heads (d : Device) (b : Bank) :
    (headOf d.takeReservations.port.queue b).map Access.standing = (headOf d.port.queue b).map Access.standing := by
  have fold (l : List Access) (d : Device) : (headOf (l.foldl Device.reserve d).port.queue b).map Access.standing
      = (headOf d.port.queue b).map Access.standing := by
    induction l generalizing d with
    | nil => rfl
    | cons a t ih =>
      rw [List.foldl_cons, ih]
      unfold Device.reserve
      split
      · rw [Device.setQueue_port_queue, headOf_mapAccess (fun e => by split <;> rfl) (fun e => by split <;> rfl), Option.map_map]
        refine congrArg (fun f => Option.map f _) (funext fun e => ?_)
        rw [Function.comp_apply]
        split <;> rfl
      · rfl
  unfold Device.takeReservations
  split
  · exact fold _ d
  · rfl

/-! ### The scheduler brought into line -/

/-- A bank's idle-close timer at the close (R139, R140). -/
def Device.idleSettled (before d : Device) (b : Bank) : Option Nat :=
  if d.idleRuns b then (if before.idleRuns b then d.sched.idle[b] else some d.member.profile.idleDelay) else none

theorem Device.settleIdles_eq (before d : Device) : ∃ idle, allBanks.foldl (settleIdle before) d
    = { d with sched := { d.sched with idle := idle } } ∧ ∀ b, idle[b] = before.idleSettled d b := by
  have fold (l : List Bank) (nodup : l.Nodup) (d : Device) : ∃ idle, l.foldl (settleIdle before) d
      = { d with sched := { d.sched with idle := idle } } ∧ ∀ b, idle[b] = if b ∈ l then before.idleSettled d b
        else d.sched.idle[b] := by
    induction l generalizing d with
    | nil => exact ⟨d.sched.idle, rfl, fun b => by simp⟩
    | cons c t ih =>
      obtain ⟨notMem, nodup⟩ := List.nodup_cons.1 nodup
      obtain ⟨idle, fold, timers⟩ := ih nodup (settleIdle before d c)
      refine ⟨idle, fold.trans rfl, fun b => (timers b).trans ?_⟩
      have one : (settleIdle before d c).sched.idle[b] = if b = c then before.idleSettled d c else d.sched.idle[b] :=
        getElem_set_bank _ c b _
      by_cases same : b = c
      · subst same
        rw [if_neg notMem, if_pos List.mem_cons_self, one, if_pos rfl]
      · rw [if_neg same] at one
        refine if_congr (by simp [same]) ?_ one
        unfold Device.idleSettled
        rw [one]
        rfl
  obtain ⟨idle, eq, timers⟩ := fold allBanks allBanks_nodup d
  exact ⟨idle, eq, fun b => (timers b).trans (if_pos (mem_allBanks b))⟩

theorem State.settleScheduler_spec (s : State) : ∃ idle queue, s.settleScheduler = s.upd (fun d => { d with
      sched := { d.sched with idle := idle }, port := { d.port with queue := queue } })
    ∧ (∀ b, idle[b] = s.now.idleSettled s.after b)
    ∧ ∀ b, headOf queue b = (headOf s.after.port.queue b).map (fun a => { a with progress := s.after.headProgress b a }) := by
  obtain ⟨queue, heads, head⟩ := s.after.settleHeads_eq
  obtain ⟨idle, timers, timer⟩ := Device.settleIdles_eq s.now (s.after.setQueue queue)
  refine ⟨idle, queue, ?_, fun b => (timer b).trans ?_, head⟩
  · refine congrArg (fun d : Device => ({ s with after := d } : State)) ?_
    exact ((congrArg (allBanks.foldl (settleIdle s.now)) heads).trans timers).trans rfl
  · have runs : (s.after.setQueue queue).idleRuns b = s.after.idleRuns b := by
      refine congrArg (fun h => s.after.synced && s.after.holdsOpen b && h) ?_
      rw [Device.setQueue_port_queue, head b, Option.isNone_map]
    unfold Device.idleSettled
    rw [runs]
    rfl

/-! ### The start of the next slot -/

/-- The hold age of a bank's state one slot on (R1). -/
def BankState.aged : BankState → BankState
  | .opened row h age settle guard => .opened row h (min (age + 1) 1024) settle guard
  | .closePending row h age guard => .closePending row h (min (age + 1) 1024) guard
  | .closed => .closed
  | .recharging n => .recharging n
  | .refreshing n k => .refreshing n k

theorem BankRec.age_st (r : BankRec) : r.age.st = r.st.aged := by
  obtain ⟨st, ws, y, g⟩ := r
  cases st with
  | opened row h age settle guard => exact congrArg (fun a => BankState.opened row h a settle guard) (countUp_eq 1024 age)
  | closePending row h age guard => exact congrArg (fun a => BankState.closePending row h a guard) (countUp_eq 1024 age)
  | closed => rfl
  | recharging n => rfl
  | refreshing n k => rfl

theorem BankRec.age_yield (r : BankRec) : r.age.yield = r.yield := by
  unfold BankRec.age
  split <;> rfl

/-- The marks and hold ages of a clock one slot on (R1, R4, R59, R113). -/
def Clock.aged (c : Clock) : Clock :=
  { c with
    st := fun b => (c.st b).aged
    lastOpen := c.lastOpen.map (fun n => min (n + 1) 2)
    lastBankRefresh := c.lastBankRefresh.map (fun n => min (n + 1) 2)
    account := { c.account with lastMark := c.account.lastMark.map (fun n => min (n + 1) 511) }
    ageMark := c.ageMark.map (fun n => min (n + 1) 6) }

theorem map_countUp (top : Nat) (n : Option Nat) : n.map (countUp top) = n.map (fun n => min (n + 1) top) :=
  congrArg (fun f => Option.map f n) (funext (countUp_eq top))

theorem Device.clock_ageSlot (d : Device) : d.ageSlot.clock = d.clock.aged := by
  refine Clock.ext (funext fun b => ?_) (map_countUp _ _) (map_countUp _ _) rfl rfl ?_ (map_countUp _ _) rfl rfl rfl rfl rfl rfl
  · exact (congrArg BankRec.st (d.bank_ageSlot b)).trans (BankRec.age_st _)
  · exact congrArg (fun m => { d.account with lastMark := m }) (map_countUp _ _)

/-- The start of a slot ages the picture after the close; its requests keep their standing. -/
theorem State.startSlot_spec (s : State) : s.startSlot.now.clock = s.after.clock.aged
    ∧ (∀ b, s.startSlot.now.bank b = (s.after.bank b).age) ∧ s.startSlot.now.member.ages = s.after.agesUp
    ∧ ∀ b, (headOf s.startSlot.now.port.queue b).map Access.standing = (headOf s.after.port.queue b).map Access.standing := by
  refine ⟨?_, fun b => ?_, ?_, fun b => ?_⟩
  · refine Eq.trans ?_ s.after.clock_ageSlot
    show (Device.takeReservations _).clock = _
    rw [Device.takeReservations_eq]
    rfl
  · refine Eq.trans ?_ (s.after.bank_ageSlot b)
    show (Device.takeReservations _).bank b = _
    rw [Device.takeReservations_eq]
    rfl
  · show (Device.takeReservations _).member.ages = _
    rw [Device.takeReservations_eq]
    rfl
  · exact (Device.takeReservations_heads _ b).trans rfl

/-- The end of a slot from the held request on. -/
theorem State.finish_spec (s : State) :
    s.settleScheduler.settleArray.startSlot.now.clock = (s.after.clock.withIdle (s.now.idleSettled s.after)).aged
    ∧ (∀ b, s.settleScheduler.settleArray.startSlot.now.bank b = (s.after.bank b).age)
    ∧ s.settleScheduler.settleArray.startSlot.now.member.ages = s.after.agesUp
    ∧ ∀ b, (headOf s.settleScheduler.settleArray.startSlot.now.port.queue b).map Access.standing
      = (headOf s.after.port.queue b).map (fun a => (a.tag, s.after.headProgress b a)) := by
  obtain ⟨idle, queue, eq, timers, heads⟩ := s.settleScheduler_spec
  obtain ⟨clock, banks, ages, standing⟩ := s.settleScheduler.settleArray.startSlot_spec
  rw [eq] at clock banks ages standing ⊢
  refine ⟨clock.trans ?_, banks, ages, fun b => (standing b).trans ?_⟩
  · exact congrArg (fun i => (s.after.clock.withIdle i).aged) (funext timers)
  · refine (congrArg (Option.map Access.standing) (heads b)).trans ?_
    rw [Option.map_map]
    rfl

/-! ### The data slots of a counted slot -/

/-- The own bursts of a slot in which nothing happens: those with more than one slot to run, a READ in its first data slot with its
lower half. -/
theorem ownBursts_next (a : ArrayDie) (free : Nat) (l : List OwnBurst) :
    ((l.map (fun o => { o with left := o.left - 1 })).filter (fun o => o.left != 0)).map (OwnBurst.takeLower a (Config.undefinedBurst
        (free + ((l.map (fun o => { o with left := o.left - 1 })).filter OwnBurst.due).length)))
      = (l.filter (fun o => decide (1 < o.left))).map (fun o => { o with
          left := o.left - 1
          lower := if o.isWrite = false ∧ o.left = 2
            then some (a.driven o false (Config.undefinedBurst (free + (l.filter (fun o => decide (o.left ≤ 1))).length)))
            else o.lower }) := by
  have due : ((l.map (fun o => { o with left := o.left - 1 })).filter OwnBurst.due).length
      = (l.filter (fun o => decide (o.left ≤ 1))).length := by
    rw [List.filter_map, List.length_map]
    refine congrArg List.length (List.filter_congr fun o _ => ?_)
    rw [Function.comp_apply, OwnBurst.due, beq_eq_decide]
    exact decide_eq_decide.2 (by dsimp only; omega)
  rw [due, List.filter_map, List.map_map]
  have stay : (fun o : OwnBurst => o.left != 0) ∘ (fun o : OwnBurst => { o with left := o.left - 1 })
      = fun o : OwnBurst => decide (1 < o.left) := funext fun o => by
    rw [Function.comp_apply, bne, beq_eq_decide, ← decide_not]
    exact decide_eq_decide.2 (by dsimp only; omega)
  rw [stay]
  refine List.map_congr_left fun o mem => ?_
  have more : 1 < o.left := by simpa using (List.mem_filter.1 mem).2
  rw [Function.comp_apply, OwnBurst.takeLower]
  dsimp only
  by_cases captures : o.isWrite = false ∧ o.left = 2
  · rw [if_pos captures, if_pos ⟨captures.1, by omega⟩]
    rfl
  · rw [if_neg captures, if_neg fun h => captures ⟨h.1, by omega⟩]

theorem inFlight_next (l : List ArrayBurst) : (l.map (fun i => { i with left := i.left - 1 })).filter (fun i => !i.due)
    = (l.filter (fun i => 1 < i.left)).map (fun i => { i with left := i.left - 1 }) := by
  rw [List.filter_map]
  refine congrArg (List.map _) (List.filter_congr fun i _ => ?_)
  rw [Function.comp_apply, ArrayBurst.due, beq_eq_decide, ← decide_not]
  exact decide_eq_decide.2 (by dsimp only; omega)

/-- An array bank after a slot without a frame (R22). -/
def ArrayBank.next : ArrayBank → ArrayBank
  | .closed => .closed
  | .opened row guard => .opened row (guard - 1)
  | .closePending guard => if guard = 1 then .recharging 3 else .closePending (guard - 1)
  | .recharging busy => if busy = 1 then .closed else .recharging (busy - 1)
  | .refreshing busy => if busy = 1 then .closed else .refreshing (busy - 1)

theorem ArrayBank.expire_count : ∀ r : ArrayBank, r.expire r.count = r.next
  | .closed => rfl
  | .opened _ 0 | .opened _ 1 | .opened _ (_ + 2) => rfl
  | .closePending 0 | .closePending 1 | .closePending (_ + 2) => rfl
  | .recharging 0 | .recharging 1 | .recharging (_ + 2) => rfl
  | .refreshing 0 | .refreshing 1 | .refreshing (_ + 2) => rfl

theorem ArrayDie.closeSlot_bank (before a : ArrayDie) (b : Bank) :
    (ArrayDie.closeSlot before a).banks[b] = ArrayBank.expire before.banks[b] a.banks[b] := by
  simp [ArrayDie.closeSlot]

/-- The ages of the next slot, where state, number, members and ages stand. -/
theorem Device.agesUp_getElem (d : Device) (x : Station) : d.agesUp[x]
    = if (d.member.state = .synced ∧ d.member.members.has x = true) ∨ (d.member.state = .unsynced ∧ d.ownNumber = some x) then
        min (d.member.ages[x] + 1) 12288 else 0 := by
  have self : stationVec[x] = x := by revert x; decide
  refine (mapVec_getElem _ stationVec x).trans ?_
  rw [self, countUp_eq]
  cases d.member.state <;> simp [Device.isOwn, Config.dropAge]

theorem dueAt_iff {before after : Option Nat} : dueAt before after = true ↔ before = some 1 ∧ after = some 1 := by
  simp [dueAt]

theorem BankState.next_aged (st : BankState) : st.next.aged = match st with
    | .closed => .closed
    | .opened row x age settle guard => .opened row x (min (age + 1) 1024) (settle - 1) (guard - 1)
    | .closePending row x age guard =>
      if guard = 1 then .recharging 3 else .closePending row x (min (age + 1) 1024) (guard - 1)
    | .recharging busy => if busy = 1 then .closed else .recharging (busy - 1)
    | .refreshing busy kind => if busy = 1 then .closed else .refreshing (busy - 1) kind := by
  cases st with
  | closed => rfl
  | opened row x age settle guard => rfl
  | closePending row x age guard => exact apply_ite BankState.aged _ _ _
  | recharging busy => exact apply_ite BankState.aged _ _ _
  | refreshing busy kind => exact apply_ite BankState.aged _ _ _

/-- The aged picture of a clock holds the same banks. -/
theorem Device.holdsOpen_of_aged {d e : Device} {b : Bank} (st : (d.bank b).st = (e.bank b).st.aged) (own : d.ownNumber = e.ownNumber) :
    d.holdsOpen b = e.holdsOpen b := by
  unfold Device.holdsOpen Device.isOwn
  rw [st, own]
  cases (e.bank b).st <;> rfl

/-- The progress of a head by the picture after the close (R133, R134, R139), condition by condition. -/
theorem Device.headProgress_eq (d : Device) (b : Bank) (a : Access) : d.headProgress b a =
    if d.member.state ≠ .synced then .waiting
    else if d.waitsFor b then .noticed
    else if d.holdsOpen b && (match (d.bank b).st with | .opened row _ _ _ _ => row == a.row | _ => false) then
      (if a.progress = .held then .held
      else if (match (d.bank b).yield with | some (.grace _) | some .barred => true | _ => false)
          || decide (48 ≤ d.account.balance) || d.member.syncPending != 0#6 then .waiting
      else .held)
    else .waiting := by
  have closing : d.closingCondition b = ((match (d.bank b).yield with | some (.grace _) | some .barred => true | _ => false)
      || decide (48 ≤ d.account.balance) || d.member.syncPending != 0#6) := by
    refine congrArg (fun y => y || decide (48 ≤ d.account.balance) || d.member.syncPending != 0#6) ?_
    cases (d.bank b).yield with
    | none => rfl
    | some y => cases y <;> rfl
  unfold Device.headProgress Device.synced
  by_cases synced : d.member.state = .synced
  · rw [if_pos (by simp [synced]), if_neg (not_not.2 synced)]
    refine if_congr Iff.rfl rfl ?_
    rw [closing]
    unfold Device.holdsOpen
    cases (d.bank b).st with
    | opened row h age settle guard => rfl
    | closed => rfl
    | closePending row h age guard => rfl
    | recharging n => rfl
    | refreshing n k => rfl
  · rw [if_neg (by simpa using synced), if_pos synced]

theorem Device.clock_state (d : Device) : d.clock.state = d.member.state := rfl

theorem Clock.state_finished (c : Clock) (i : Bank → Option Nat) : (c.withIdle i).aged.state = c.state := rfl

theorem Clock.account_passed (c : Clock) (i : Bank → Option Nat) : (c.passed.withIdle i).aged.account = { c.account with
    countdown := runDown c.account.countdown
    lastMark := c.account.lastMark.map (fun n => min (n + 1) 511)
    pendingMark := c.account.pendingMark || c.account.countdown == some 1 } := rfl

theorem State.closeSlot_eq_acted (s : State) : s.closeSlot = s.acted.settleScheduler.settleArray.startSlot := by
  unfold State.closeSlot State.acted
  rfl

end Sys2Proof.Machine

section
open Sys2Proof Sys2Proof.Machine

/-- Settles O3: up to the held request the clock moves as `acted_clock` says, from there on as `finish_spec` says; `expired_count`
gives the lists, yield points and grants, and `closeSlot_data` the data slots. -/
theorem anIdleSlotCountsEveryTimerOnce : Obligations.AnIdleSlotCountsEveryTimerOnce := by
  intro s t noDrop full ended lower ends runs acted progress empty begun counted stepped window state
  have closed : t = s.closeSlot := by
    unfold step at stepped
    rw [empty] at stepped
    exact (Host.Outcome.next.inj stepped).symm
  obtain ⟨dataArray, dataBursts⟩ := s.closeSlot_data
  obtain ⟨fresh, countedT⟩ := s.closeSlot_counted
  have slot : s.closeSlot.slot.arbitrated = false := by rw [State.closeSlot_eq]; rfl
  rw [← closed] at dataArray dataBursts fresh countedT slot
  rw [State.closeSlot_eq_acted] at closed
  obtain ⟨now, clock⟩ := State.acted_clock counted window
  obtain ⟨clockT, banksT, agesT, headsT⟩ := s.acted.finish_spec
  rw [← closed] at clockT banksT agesT headsT
  have actedAfter : s.acted.after = acted := by
    unfold State.acted
    rfl
  clear_value acted
  have stay : s.acted.after.clock = s.now.clock.passed := by
    rcases clock with clock | ⟨synced, left⟩
    · exact clock
    · refine absurd ?_ (show StationState.synced ≠ .unsynced by decide)
      have stateT := congrArg Clock.state clockT
      rw [Clock.state_finished, Device.clock_state, Device.clock_state] at stateT
      rw [← synced, ← left, ← stateT, state, counted.member]
  have banksA := fun guard none_ => State.acted_bank counted window none_ guard
  rw [stay, now] at clockT
  rw [actedAfter] at clockT banksT agesT headsT stay banksA
  have stateA : acted.member.state = s.now.member.state := congrArg Clock.state stay
  have ownA : acted.ownNumber = s.now.ownNumber := congrArg Clock.own stay
  have ownT : t.now.ownNumber = s.now.ownNumber := congrArg Clock.own clockT
  have profileA : acted.member.profile = s.now.member.profile := congrArg Clock.profile stay
  have profileT : t.now.member.profile = s.now.member.profile := congrArg Clock.profile clockT
  have ends_iff (r : BankRec) : ends r = true ↔ r.st.ends = true := by
    dsimp only [ends]
    cases r.st <;> exact Iff.rfl
  have account := (congrArg Clock.account clockT).trans (Clock.account_passed _ _)
  refine ⟨fun b => ?_, ⟨(congrArg Clock.lastOpen clockT).trans rfl, (congrArg Clock.lastBankRefresh clockT).trans rfl⟩,
    (congrArg Clock.reservation clockT).trans rfl, (congrArg Clock.array clockT).trans rfl, account,
    ⟨(congrArg Clock.ageMark clockT).trans rfl, (congrArg Clock.wakingGuard clockT).trans rfl⟩,
    ?_, ?_, (congrArg Clock.window clockT).trans rfl, ?_, ⟨?_, ?_, ?_⟩, ?_, ?_, ?_, fresh.1, fresh.2, slot, ?_⟩
  · refine (congrFun (congrArg Clock.st clockT) b).trans (Eq.trans (b := (s.now.bank b).st.next.aged) rfl ?_)
    exact (BankState.next_aged _).trans rfl
  · rintro ⟨none_, guard⟩ b apart
    have bank := banksT b
    rw [banksA guard none_] at bank
    obtain ⟨waiters, yield, grant⟩ := BankRec.expired_count (n := s.now.bank b) (fun due => apart ((ends_iff _).2 due))
      s.now.freshGrant s.now.member.profile.grantWindow
    rw [bank, BankRec.age_waiters, BankRec.age_yield, BankRec.age_grant]
    refine ⟨waiters, yield.trans ?_, grant.trans ?_⟩
    · refine if_congr Iff.rfl rfl (congrArg (fun f => Option.map f (s.now.bank b).yield) (funext fun y => ?_))
      cases y <;> rfl
    · exact if_congr (ends_iff _).symm rfl rfl
  · intro none_ x
    obtain ⟨-, members, ages⟩ := State.acted_of_noDrop counted window none_
    rw [actedAfter] at members ages
    rw [agesT, Device.agesUp_getElem, members, ages, stateA, ownA]
  · rw [dataBursts, counted.ownBursts]
    exact ownBursts_next s.now.array s.free _
  · rw [dataArray, counted.array]
    exact if_congr Iff.rfl rfl (inFlight_next _)
  · rw [dataArray, counted.array]
    exact (if_congr dueAt_iff.symm rfl rfl).trans (runDown_eq _)
  · rw [dataArray, counted.array]
    exact if_congr (dueAt_iff.symm.trans (dueAt_map_countDown _)) rfl rfl
  · intro b
    rw [dataArray, ArrayDie.closeSlot_bank, counted.arrayBank, ArrayBank.expire_count]
    cases s.now.array.banks[b] <;> rfl
  · intro b
    have holds : acted.holdsOpen b = t.now.holdsOpen b :=
      (Device.holdsOpen_of_aged ((congrArg BankRec.st (banksT b)).trans (BankRec.age_st _)) (ownT.trans ownA.symm)).symm
    have head : (headOf acted.port.queue b).isNone = (headOf t.now.port.queue b).isNone := by
      have same := congrArg Option.isNone (headsT b)
      rw [Option.isNone_map, Option.isNone_map] at same
      exact same.symm
    have runsA : acted.idleRuns b = runs t.now b := by
      unfold Device.idleRuns Device.synced
      rw [stateA, ← state, holds, head]
    have idleA : acted.sched.idle[b] = s.now.sched.idle[b].map (fun n => n - 1) := congrFun (congrArg Clock.idle stay) b
    refine (congrFun (congrArg Clock.idle clockT) b).trans ?_
    show Device.idleSettled s.now acted b = _
    unfold Device.idleSettled
    rw [runsA, idleA, profileA, profileT]
    rfl
  · intro b
    refine (headsT b).trans (congrArg (fun f => Option.map f _) (funext fun a => ?_))
    exact congrArg (Prod.mk a.tag) ((Device.headProgress_eq _ b a).trans rfl)
  · rw [closed]
    exact State.startSlot_after _

end
end
